-- ==== Sys2Proof/Word.lean ====
section
/-! DEFINITION. The word, the addresses and the index types of the FB3450 (00_scope.md section 6). -/

namespace Sys2Proof

/-- A memory word: 64 bits, bytes numbered from the least significant (00_scope.md section 6). -/
abbrev Word := BitVec 64

/-- One byte of a frame, a unit message or a setup field. -/
abbrev Byte := BitVec 8

/-- A word address as an access carries it: 28 bits (00_scope.md section 2). -/
abbrev Addr := BitVec 28

/-- Byte enable `k` is bit `k` (00_scope.md section 6). -/
abbrev ByteEnables := BitVec 8

/-- A time value or a difference of two, counted in whole nanoseconds: seconds times 10^9 plus nanoseconds. -/
abbrev Time := Nat

/-- A requester of the local memory bus, 0 to 7. -/
abbrev Master := Fin 8

/-- A path, P0 to P4. -/
abbrev PathId := Fin 5

/-- An inbound or outbound ring, 0 to 3. -/
abbrev RingId := Fin 4

/-- An inbound or outbound stream, 0 to 15. -/
abbrev StreamId := Fin 16

/-- A signal line, L0 to L7. -/
abbrev LineId := Fin 8

/-- A set of profiles: bit `j - 1` stands for profile `j` (R184, Table 12-2). -/
abbrev ProfileMask := BitVec 6

/-- One set element more of a counter that holds at its maximum (00_scope.md section 6, "Counts"). -/
def satAdd {w : Nat} (c : BitVec w) (n : Nat) : BitVec w :=
  if c.toNat + n < 2 ^ w then BitVec.ofNat w (c.toNat + n) else BitVec.allOnes w

/-- A counter that holds at its maximum, increased by one. -/
def satInc {w : Nat} (c : BitVec w) : BitVec w := satAdd c 1

end Sys2Proof
end

