-- ==== Sys2Proof/Syntax.lean ====
section
/-! DEFINITION. The commands: one constructor for each row of spec/opcode_table.json, in the table's order.

A P-port write carries its master, its byte enables and its data word; where a row belongs to one kind of setup word the
operand says which one (the index within its record), and the address follows from the map of Table 12-9. -/

namespace Sys2Proof

/-- The three pulse events of Table 10-5. -/
inductive PulseEvent where
  | critical | pathSwitch | ppsOut
  deriving DecidableEq, Repr

/-- The commands of the FB3450: what its outside can present to it, and the events it takes by itself. -/
inductive Instr where
  /-- RESET (R98, R183): `straps` are the four strap lines sampled at reset. -/
  | reset (straps : BitVec 4)
  /-- P_PORT_WRITE (R85). -/
  | pPortWrite (m : Master) (a : Addr) (be : ByteEnables) (d : Word)
  /-- P_PORT_READ (R87, R97). -/
  | pPortRead (m : Master) (a : Addr)
  /-- IDENTITY_WORD (R175): word `i` of the identity record. -/
  | identityWord (m : Master) (be : ByteEnables) (i : Fin 2) (d : Word)
  /-- GUARDED_SPAN_WORD (R79). -/
  | guardedSpanWord (m : Master) (be : ByteEnables) (d : Word)
  /-- MASTER_WORD (R83): the word of master `k`. -/
  | masterWord (m : Master) (be : ByteEnables) (k : Master) (d : Word)
  /-- WINDOW_EXTENT_WORD (R80): the extent word of entry `e + 1`. -/
  | windowExtentWord (m : Master) (be : ByteEnables) (e : Fin 15) (d : Word)
  /-- WINDOW_ENABLE (R81): the control word of entry `e + 1` with enable set. -/
  | windowEnable (m : Master) (be : ByteEnables) (e : Fin 15) (d : Word)
  /-- WINDOW_DISABLE (R82): the control word of entry `e + 1` with enable clear. -/
  | windowDisable (m : Master) (be : ByteEnables) (e : Fin 15) (d : Word)
  /-- SELECTOR_WORD (R116, R175). -/
  | selectorWord (m : Master) (be : ByteEnables) (d : Word)
  /-- TIME_SETUP_WORD (R72): 0 control, 1 set value, 2 adjust. -/
  | timeSetupWord (m : Master) (be : ByteEnables) (i : Fin 3) (d : Word)
  /-- PATH_MODE_WORD (R175): the mode word of path `p`. -/
  | pathModeWord (m : Master) (be : ByteEnables) (p : PathId) (d : Word)
  /-- TIMER_SETUP_WORD (R168): 0 timers A, 1 timers B of path `p`. -/
  | timerSetupWord (m : Master) (be : ByteEnables) (p : PathId) (i : Fin 2) (d : Word)
  /-- PENALTY_WORD (R49). -/
  | penaltyWord (m : Master) (be : ByteEnables) (p : PathId) (d : Word)
  /-- STATUS_BYTES_WORD (R44). -/
  | statusBytesWord (m : Master) (be : ByteEnables) (p : PathId) (d : Word)
  /-- STREAM_SETUP_WORD (R135). -/
  | streamSetupWord (m : Master) (be : ByteEnables) (st : StreamId) (d : Word)
  /-- DIVERT_FILTER_WORD (R144). -/
  | divertFilterWord (m : Master) (be : ByteEnables) (f : Fin 8) (d : Word)
  /-- INBOUND_RELEASE (R150): the control word of inbound ring `n`, start field clear. -/
  | inboundRelease (m : Master) (be : ByteEnables) (n : RingId) (d : Word)
  /-- RING_START_FIELD (R152): the control word of inbound ring `n`, start field set. -/
  | ringStartField (m : Master) (be : ByteEnables) (n : RingId) (d : Word)
  /-- FAULT_LOG_RELEASE (R91). -/
  | faultLogRelease (m : Master) (be : ByteEnables) (d : Word)
  /-- LINE_WORD (R172). -/
  | lineWord (m : Master) (be : ByteEnables) (l : LineId) (d : Word)
  /-- ALARM_SETUP_WORD (R181): 0 the cause word, 1 the control word. -/
  | alarmSetupWord (m : Master) (be : ByteEnables) (i : Fin 2) (d : Word)
  /-- HEADER_WRITE (R102): a write of word 0 of an outbound slot. -/
  | headerWrite (m : Master) (a : Addr) (be : ByteEnables) (d : Word)
  /-- STAGING_WRITE (R101): a write of words 1 to 7 of an outbound slot. -/
  | stagingWrite (m : Master) (a : Addr) (be : ByteEnables) (d : Word)
  /-- PATH_ENABLE (R3). The argument of a command is bits 16 to 63 of the command word (Table 12-8). -/
  | pathEnable (m : Master) (be : ByteEnables) (num : Byte) (arg : BitVec 48)
  /-- PATH_DISABLE (R4). -/
  | pathDisable (m : Master) (be : ByteEnables) (num : Byte) (arg : BitVec 48)
  /-- PATH_RESET (R6). -/
  | pathReset (m : Master) (be : ByteEnables) (num : Byte) (arg : BitVec 48)
  /-- RING_START (R152). -/
  | ringStart (m : Master) (be : ByteEnables) (num : Byte) (arg : BitVec 48)
  /-- RING_STOP (R153). -/
  | ringStop (m : Master) (be : ByteEnables) (num : Byte) (arg : BitVec 48)
  /-- RING_RESET (R154). -/
  | ringReset (m : Master) (be : ByteEnables) (num : Byte) (arg : BitVec 48)
  /-- OUT_FLUSH (R133). -/
  | outFlush (m : Master) (be : ByteEnables) (num : Byte) (arg : BitVec 48)
  /-- OUT_SEQ_SET (R107). -/
  | outSeqSet (m : Master) (be : ByteEnables) (num : Byte) (arg : BitVec 48)
  /-- STREAM_RESET (R143). -/
  | streamReset (m : Master) (be : ByteEnables) (num : Byte) (arg : BitVec 48)
  /-- TIME_SET (R65). -/
  | timeSet (m : Master) (be : ByteEnables) (num : Byte) (arg : BitVec 48)
  /-- TIME_ADJUST (R64). -/
  | timeAdjust (m : Master) (be : ByteEnables) (num : Byte) (arg : BitVec 48)
  /-- RAIN_SET (R122). -/
  | rainSet (m : Master) (be : ByteEnables) (num : Byte) (arg : BitVec 48)
  /-- RAIN_CLEAR (R122). -/
  | rainClear (m : Master) (be : ByteEnables) (num : Byte) (arg : BitVec 48)
  /-- QUERY_PATH (R43). -/
  | queryPath (m : Master) (be : ByteEnables) (num : Byte) (arg : BitVec 48)
  /-- ALARM_ACK (R181). -/
  | alarmAck (m : Master) (be : ByteEnables) (num : Byte) (arg : BitVec 48)
  /-- LOG_RESET (R93). -/
  | logReset (m : Master) (be : ByteEnables) (num : Byte) (arg : BitVec 48)
  /-- SNAPSHOT (R180). -/
  | snapshot (m : Master) (be : ByteEnables) (num : Byte) (arg : BitVec 48)
  /-- UNKNOWN_COMMAND (R176): `code` names no command of Table 12-8. -/
  | unknownCommand (m : Master) (be : ByteEnables) (code num : Byte) (arg : BitVec 48)
  /-- ACCEPT (R158). -/
  | accept (p : PathId)
  /-- REJECT (R158). -/
  | reject (p : PathId)
  /-- REPORT (R2, Table 12-3): bytes 1 to 3 of the message. -/
  | report (p : PathId) (margin profile unit : Byte)
  /-- UNKNOWN_UNIT_MESSAGE (R160): the four header bytes of the message. -/
  | unknownUnitMessage (p : PathId) (b0 b1 b2 b3 : Byte)
  /-- CARRY (R161): the receive condition byte and the frame's bytes. -/
  | carry (p : PathId) (condition : Byte) (bytes : List Byte)
  /-- GAP_EXPIRY (R142). -/
  | gapExpiry (st : StreamId)
  /-- AGEING (R125). -/
  | ageing
  /-- SELECTION (R118). -/
  | selection
  /-- SEND_START (R157). -/
  | sendStart (p : PathId)
  /-- SEND_END (R156). -/
  | sendEnd (p : PathId)
  /-- TUNE_START (R156). -/
  | tuneStart (p : PathId)
  /-- TUNE_END (R156). -/
  | tuneEnd (p : PathId)
  /-- NO_ANSWER (R159). -/
  | noAnswer (p : PathId)
  /-- PROBE_CHANNEL_UNDERFLOW (R7). -/
  | probeChannelUnderflow (p : PathId)
  /-- SILENCE_UNDERFLOW (R12). -/
  | silenceUnderflow (p : PathId)
  /-- HOLD_COMPARE_MATCH (R13). -/
  | holdCompareMatch (p : PathId)
  /-- HOLD_UNDERFLOW (R13). -/
  | holdUnderflow (p : PathId)
  /-- GUARD_UNDERFLOW (R171). -/
  | guardUnderflow (p : PathId)
  /-- PIN_CHANGE (R174): the level the outside puts on the pin of line `l`; true is high. -/
  | pinChange (l : LineId) (high : Bool)
  /-- FILTER_EXPIRY (R174). -/
  | filterExpiry (l : LineId)
  /-- PULSE_WATCHDOG (R70). -/
  | pulseWatchdog
  /-- HOLDOVER_LIMIT (R70). -/
  | holdoverLimit
  /-- SLEW_END (R63). -/
  | slewEnd
  /-- PPS_OUT (R76). -/
  | ppsOut
  /-- PULSE_END (R173). -/
  | pulseEnd (e : PulseEvent)
  /-- STATUS_SUBMIT (R178). -/
  | statusSubmit
  /-- OUTCOME_SUBMIT (R110). -/
  | outcomeSubmit
  /-- FAULT_ENTRY_SUBMIT (R90). -/
  | faultEntrySubmit
  /-- PASSING_ACCESS_ISSUE (R96). -/
  | passingAccessIssue
  /-- BURST_START (R96). -/
  | burstStart
  /-- BURST_END (R95). -/
  | burstEnd
  /-- BURST_ERROR (R95): memory answers word `k` of the burst, in issue order, with an error. -/
  | burstError (k : Fin 64)
  deriving DecidableEq, Repr

end Sys2Proof
end

