-- ==== Sys2Proof/Decode.lean ====
section
/-! DEFINITION. The block has no instruction words: spec/opcode_table.json gives no row any bits. -/

namespace Sys2Proof

/-- No row of the table gives bits, so no word spells a command. -/
def decodeTableWord (_nbits _w : Nat) : Option Instr := none

end Sys2Proof
end

