-- ==== Sys2Proof/Config.lean ====
section
/-! DEFINITION. What is fixed in hardware (the profile table, the capacities) and the free values. -/

namespace Sys2Proof.Config

/-- hold(k) of Table 2-1 (R25). -/
def holdThreshold (k : Nat) : Nat :=
  match k with
  | 1 => 8
  | 2 => 16
  | 3 => 24
  | 4 => 32
  | 5 => 42
  | 6 => 52
  | _ => 0

/-- The serialization of 68 bytes at a profile, in ns (R25, Table 2-1). -/
def serialization (k : Nat) : Nat :=
  match k with
  | 1 => 10880
  | 2 => 5440
  | 3 => 3627
  | 4 => 2720
  | 5 => 1813
  | 6 => 1360
  | _ => 0

/-- The serialization of the ground path (R25). -/
def groundSerialization : Nat := 544

/-- The setup region is 2048 words (00_scope.md section 2). -/
def setupWords : Nat := 2048

/-- One strap step: 16 Mi words (00_scope.md section 2). -/
def strapStep : Nat := 16777216

/-- Word addresses run below this (28 bits). -/
def addressSpace : Nat := 268435456

/-- One second in nanoseconds. -/
def second : Nat := 1000000000

/-- 4,294,967,295 s 999,999,999 ns, where the time value holds (R62). -/
def maxTime : Time := 4294967295 * 1000000000 + 999999999

/-- 2^32 - 1, the largest 32-bit nanosecond figure (R21). -/
def maxNs : Nat := 4294967295

/-- FREE VALUE: the inbound one-way estimate taken from a sample above 32 bits, for which R23 states no result (entry 7). -/
opaque inboundOverRange : Nat → BitVec 32

end Sys2Proof.Config
end

