-- ==== Sys2Proof/Machine/State.lean ====
section
/-! DEFINITION. The state of the FB3450 as plain data, and its value at reset.

Every field cites the table that gives it. Fields marked MODEL are the model's own (entry 29 of the log). -/

namespace Sys2Proof.Machine

/-! ## Stamps -/

/-- The discipline states, which are also the qualities of stamps (Table 4-2). -/
inductive Quality where
  | free | acquire | locked | holdover
  deriving DecidableEq, Repr

/-- A time value with its quality (R73). -/
structure Stamp where
  time : Time
  quality : Quality
  deriving DecidableEq, Repr

/-! ## Paths -/

/-- Table 1-8. -/
inductive PathState where
  | disabled | down | training | up | fading | retune | held
  deriving DecidableEq, Repr

/-- The two roles on a path (Table 1-6). -/
inductive Role where
  | lead | follow
  deriving DecidableEq, Repr

/-- The unit state of the last REPORT (Table 1-6). -/
inductive UnitState where
  | ready | tuning | fault | none
  deriving DecidableEq, Repr

/-- The kind of a latency estimate (R21). -/
inductive LatencyKind where
  | oneWay | halfRtt
  deriving DecidableEq, Repr

/-- One entry of the probe list (R17). -/
structure ProbeEntry where
  number : Byte
  sent : Stamp
  deriving DecidableEq, Repr

/-- What the last OFFER sent carried (Table 2-2). -/
structure Offered where
  mask : ProfileMask
  contract : Nat
  deriving DecidableEq, Repr

/-- The path record of one supervisor (Tables 1-6 and 2-2). -/
structure Supervisor where
  state : PathState
  contract : Nat
  target : Option Nat
  ownMask : ProfileMask
  farMask : Option ProfileMask
  lastOfferSent : Byte
  lastOfferReceived : Byte
  lastGrant : Byte
  pending : Bool
  margin : Byte
  unitProfile : Nat
  unitState : UnitState
  stepRun : Nat
  lastProbe : Byte
  probeList : List ProbeEntry
  /-- Outcomes, oldest first; true is answered, false is lost (R20). -/
  probeHistory : List Bool
  estimate : BitVec 32
  estimateKind : LatencyKind
  estimateCount : BitVec 16
  inbound : Option (BitVec 32)
  recentlyFailed : Bool
  mismatch : Bool
  roleClash : Bool
  /-- Status byte k in bits 8k to 8k+7. -/
  farStatus : Option (BitVec 32)
  probesLost : BitVec 32
  lastOffered : Option Offered
  lastGranted : Nat
  farContract : Option Nat
  lastQuery : Byte
  discardedGrants : BitVec 16
  /-- The offer answered by the last GRANT sent or applied, for its repeat (R29, entry 12). -/
  grantAnswered : Byte
  /-- The mismatch flag of the last GRANT sent or applied (R29, entry 12). -/
  grantMismatch : Bool
  deriving DecidableEq, Repr

/-- The four taps of the tick generator (R77). -/
inductive Tap where
  | us1 | us10 | us100 | ms1
  deriving DecidableEq, Repr

/-- Insert priority (R128). -/
inductive InsertPriority where
  | above | below
  deriving DecidableEq, Repr

/-- Hold mode (Table 10-2). -/
inductive HoldMode where
  | wide | narrow
  deriving DecidableEq, Repr

/-- The path setup record in force (Table 12-9; R1, R44, R49, R128, R162, R168). -/
structure PathSetup where
  role : Role
  check : Bool
  priority : InsertPriority
  holdMode : HoldMode
  probeReload : Byte
  probeTap : Tap
  silenceReload : Byte
  silenceTap : Tap
  guardReload : Byte
  holdTap : Tap
  wideReload : BitVec 16
  wideCompare : BitVec 16
  narrowReload : Byte
  narrowCompare : Byte
  fadePenalty : BitVec 32
  recoveryPenalty : BitVec 32
  /-- Status byte k in bits 8k to 8k+7 (R44). -/
  statusBytes : BitVec 32
  deriving DecidableEq, Repr

/-- A timer channel (Table 10-1); its mode is a fact of its use (R169). In WIDE mode the low hold channel's loaded compare is
the pair's 16-bit compare (R170). -/
structure Channel where
  counter : Byte
  run : Bool
  loadedReload : Byte
  loadedCompare : Option (BitVec 16)
  loadedTap : Tap
  deriving DecidableEq, Repr

/-- The seven kinds of link frame (Table 9-2). -/
inductive FrameKind where
  | data | probe | echo | offer | grant | query | answer
  deriving DecidableEq, Repr

/-- A control frame waiting in an insert queue (Table 9-3). -/
inductive ControlFrame where
  | probe (number : Byte)
  | echo (number : Byte) (probeSent : Stamp) (arrival : Stamp)
  | offer (number : Byte) (mask : ProfileMask) (contract : Nat)
  | grant (number answered : Byte) (profile : Nat) (mismatch : Bool)
  | query (number : Byte)
  | answer (number : Byte) (status : BitVec 32)
  deriving DecidableEq, Repr

/-- A frame of the insert queue with its passed count 0..4 (R127). -/
structure InsertFrame where
  frame : ControlFrame
  passed : Nat
  deriving DecidableEq, Repr

/-- A launch record is named by the ring and slot it was captured from: a slot has one at a time (R103). -/
structure RecordName where
  ring : RingId
  slot : Nat
  deriving DecidableEq, Repr

/-- One entry of the awaiting-answer list (R155): the frame's kind, a DATA frame's copy, a PROBE's number, the ticks counted
toward the answer limit. -/
structure AwaitEntry where
  kind : FrameKind
  copy : Option RecordName
  probe : Byte
  ticks : Nat
  deriving DecidableEq, Repr

/-- The link to the unit, with the message being handed over (R156). -/
inductive Link where
  | free
  | sending (message : List Byte)
  | tuning (message : List Byte)
  deriving DecidableEq, Repr

/-- The state of a path port (Tables 9-1 and 7-3). -/
structure Port where
  link : Link
  pendingTune : Option Nat
  awaiting : List AwaitEntry
  /-- Marks, oldest first; true is good (R164). -/
  history : List Bool
  sent : BitVec 32
  accepted : BitVec 32
  rejected : BitVec 32
  noAnswer : BitVec 32
  received : BitVec 32
  checkFailures : BitVec 32
  lateAnswers : BitVec 32
  discards : BitVec 32
  transmit : List RecordName
  insert : List InsertFrame
  insertDiscards : BitVec 32
  deriving DecidableEq, Repr

/-- A path: its supervisor's record, its port, its setup, its four timer channels (R169) and its race statistics (R141). -/
structure Path where
  sup : Supervisor
  port : Port
  setup : PathSetup
  probe : Channel
  silence : Channel
  holdLow : Channel
  holdHigh : Channel
  wins : BitVec 32
  leadMargin : Option (BitVec 32)
  deriving DecidableEq, Repr

/-! ## Ranking and time base -/

/-- One entry of the ranking list (Table 3-1). -/
structure RankEntry where
  path : PathId
  selectable : Bool
  latency : Option Nat
  deriving DecidableEq, Repr

/-- Ranking state (Table 3-1). -/
structure Ranking where
  list : List RankEntry
  head : Option PathId
  fallback : Bool
  forced : Bool
  headChanges : BitVec 32
  lastHeadChange : Option Stamp
  fallbackEntries : BitVec 32
  deriving DecidableEq, Repr

/-- A slew in progress (R63); `rest` is the remaining offset in billionths of a nanosecond (entry 4). -/
structure Slew where
  forward : Bool
  rest : Nat
  deriving DecidableEq, Repr

/-- Time base state (Table 4-1), the time setup record (R72) and the tick generator (R77). -/
structure TimeBase where
  value : Time
  /-- What the time value has beyond `value`, in billionths of a nanosecond (entry 4). -/
  fraction : Nat
  state : Quality
  trim : Int
  slew : Option Slew
  trimHold : Bool
  lockRun : Nat
  lastOffset : Option Int
  /-- Milliseconds (Table 4-1). -/
  pulseAge : Option Nat
  /-- Seconds (Table 4-1). -/
  holdoverElapsed : Nat
  /-- Milliseconds of the running second of HOLDOVER (entry 4). -/
  holdoverMs : Nat
  pulsesAccepted : BitVec 32
  pulsesRejected : BitVec 32
  steps : BitVec 32
  lockThreshold : Nat
  holdoverLimit : Nat
  setValue : Time
  adjust : Int
  /-- Nanoseconds of the reference clock since the end of reset (R77). -/
  reference : Nat
  deriving DecidableEq, Repr

/-! ## Memory path -/

/-- Window kinds of entries 1 to 15 (Table 5-2); entry 0 alone is SETUP (R78). -/
inductive WindowKind where
  | plain | status | outbound | outcome | inbound | faultLog
  deriving DecidableEq, Repr

/-- One entry of the window table (Table 5-2). -/
structure Window where
  base : Nat
  length : Nat
  kind : WindowKind
  number : RingId
  required : BitVec 2
  writers : BitVec 8
  enabled : Bool
  deriving DecidableEq, Repr

/-- One access presented at the P-port (00_scope.md section 2); a read carries no byte enables and no data. -/
structure Access where
  master : Master
  write : Bool
  addr : Addr
  enables : ByteEnables
  data : Word
  deriving DecidableEq, Repr

/-- Results of an outcome record (Table 12-6). -/
inductive OutcomeResult where
  | launched | rejected | stale | pinDown | flushed | refusedFull | badHeader
  deriving DecidableEq, Repr

/-- A requested outcome: what Table 6-4 puts into its record. -/
structure OutcomeEntry where
  slot : Nat
  result : OutcomeResult
  /-- Bit p stands for path p (R111). -/
  paths : BitVec 5
  stream : StreamId
  sequence : BitVec 32
  spill : Bool
  single : Bool
  rain : Bool
  capture : Stamp
  launch : Option Stamp
  tag : Word
  /-- A refusal outcome of R104, not the outcome of a launch record. -/
  refusal : Bool
  /-- MODEL: the slot table it belongs to (entry 20). -/
  generation : Nat
  /-- MODEL: its place in the order of all requests (R110). -/
  request : Nat
  deriving DecidableEq, Repr

/-- The 36 status records, numbered in the order of the status region map (R186). -/
abbrev RecordId := Fin 36

/-- The source of an own write (R94). -/
inductive Source where
  | delivery (ring : RingId)
  | outcome (ring : RingId) (entry : OutcomeEntry)
  | status (record : RecordId)
  | fault
  deriving DecidableEq, Repr

/-- An entry of the own-write queue (R94): its source, its target window's place in the table, and its words with their
addresses in the order the burst issues them. A status record's words are read when its burst starts (R178). -/
structure WriteEntry where
  source : Source
  window : Fin 15
  words : List (Nat × Word)
  deriving DecidableEq, Repr

/-- What a requester at the P-port receives (R84): a normal completion, without error, or what memory answers, unchanged. -/
inductive PortResponse where
  | completed | asMemory
  deriving DecidableEq, Repr

/-- An access answered at the P-port. -/
structure PortAnswer where
  access : Access
  response : PortResponse
  deriving DecidableEq, Repr

/-- The memory path (chapter 5). The read-hold tracker holds the addresses of `burst` (R97). -/
structure MemoryPath where
  straps : BitVec 4
  windows : Vector Window 15
  spanBase : Nat
  spanLength : Nat
  masters : Vector (BitVec 2) 8
  queue : List WriteEntry
  burst : Option WriteEntry
  /-- Accesses passed to memory and not yet issued at the M-port (R84). -/
  passing : List Access
  /-- The held read and the accesses waiting behind it at the P-port (R84, R97). -/
  line : List Access
  runCount : Nat
  /-- The latest answer at the P-port (R84, entry 34). -/
  answered : Option PortAnswer
  deriving DecidableEq, Repr

/-! ## Fault log -/

/-- Report causes (R88, section 12.4); `faultError` stands only in the last abort. -/
inductive Cause where
  | beyondMap | access | owned | partialSetup | windowInUse | cmdBusy | slotBusy | partialHeader | ringHalted
  | range | depositError | outcomeError | statusError | faultError
  deriving DecidableEq, Repr

/-- Report classes (R88). -/
inductive ReportClass where
  | fault | trap | abort
  deriving DecidableEq, Repr

/-- The state of the fault-log writer (Table 5-5). -/
inductive LogState where
  | ready | failed
  deriving DecidableEq, Repr

/-- An outstanding fault entry: its two words, where they go, and whether it has been submitted (R90). -/
structure FaultEntry where
  address : Nat
  word0 : Word
  word1 : Word
  submitted : Bool
  deriving DecidableEq, Repr

/-- The latest ABORT (Table 5-5). -/
structure AbortInfo where
  cause : Cause
  address : Nat
  stamp : Stamp
  deriving DecidableEq, Repr

/-- The fault-log writer (Table 5-5). -/
structure FaultLog where
  state : LogState
  entryCount : BitVec 16
  releaseCount : BitVec 16
  lost : BitVec 32
  outstanding : List FaultEntry
  resetting : Bool
  lastAbort : Option AbortInfo
  /-- MODEL: the event from which its next entry could first have been submitted (R94). -/
  since : Option Nat
  deriving DecidableEq, Repr

/-! ## Capture and selector -/

/-- The state of an outbound ring (Table 6-1). -/
inductive OutRingState where
  | capturing | halted
  deriving DecidableEq, Repr

/-- One outbound slot (Table 6-1): CAPTURED or FREE, the staging copy of words 1 to 7, the refusal pending. -/
structure Slot where
  captured : Bool
  staging : Vector Word 7
  refusal : Option OutcomeResult
  deriving DecidableEq, Repr

/-- An outbound ring (Table 6-1). The slot count is the length of the slot table, absent with it. -/
structure OutRing where
  state : OutRingState
  table : Option (List Slot)
  outcomes : List OutcomeEntry
  outcomeCount : BitVec 16
  assigned : BitVec 16
  captures : BitVec 32
  slotBusy : BitVec 32
  partialHeader : BitVec 32
  ringHalted : BitVec 32
  badHeader : BitVec 32
  refusedFull : BitVec 32
  written : BitVec 32
  discarded : BitVec 32
  /-- MODEL: how many slot tables the ring has had (entry 20). -/
  generation : Nat
  /-- MODEL: the event from which its front outcome could first have been submitted (R94). -/
  since : Option Nat
  deriving DecidableEq, Repr

/-- The two classes (Table 6-3). -/
inductive LaunchClass where
  | urgent | normal
  deriving DecidableEq, Repr

/-- The four modes (Table 6-3). -/
inductive LaunchMode where
  | fastest | dual | pinned | ground
  deriving DecidableEq, Repr

/-- Copy states (R126). -/
inductive CopyState where
  | queued | sent | accepted | failed
  deriving DecidableEq, Repr

/-- A copy of a launch record (R126). Its place on the awaiting-answer list is the entry that names its record. -/
structure Copy where
  path : PathId
  state : CopyState
  launch : Option Stamp
  deriving DecidableEq, Repr

/-- A launch record (Table 6-3). -/
structure LaunchRecord where
  name : RecordName
  stream : StreamId
  sequence : BitVec 32
  cls : LaunchClass
  mode : LaunchMode
  pinned : Option PathId
  payload : List Byte
  tag : Word
  capture : Stamp
  /-- Microseconds (Table 6-3). -/
  ageLimit : Option Nat
  copies : List Copy
  spill : Bool
  single : Bool
  rain : Bool
  firstAccepted : Option Stamp
  /-- MODEL: its place in the order of all captures (R117). -/
  order : Nat
  deriving DecidableEq, Repr

/-- A class queue (R117): re-steered records first, then records that have had no copy, each part in capture order. -/
structure ClassQueue where
  front : List RecordName
  back : List RecordName
  deriving DecidableEq, Repr

/-- The selector's counters of one ring (Table 7-1). -/
structure SelectorCounters where
  selections : BitVec 32
  spills : BitVec 32
  rainDuals : BitVec 32
  singles : BitVec 32
  launched : BitVec 32
  rejected : BitVec 32
  stale : BitVec 32
  pinDown : BitVec 32
  flushed : BitVec 32
  deriving DecidableEq, Repr

/-- The selector (Table 7-1), with the launch records it holds (R106) and the hold counts (R108). -/
structure Selector where
  held : List LaunchRecord
  urgent : ClassQueue
  normal : ClassQueue
  holdUrgent : Nat
  holdNormal : Nat
  rainFlag : Bool
  rainInput : Bool
  launchHold : Bool
  spill : Bool
  counters : Vector SelectorCounters 4
  /-- MODEL: captures so far (R117). -/
  captureOrder : Nat
  /-- MODEL: outcome requests so far (R110). -/
  requestOrder : Nat
  deriving DecidableEq, Repr

/-! ## Merge and inbound rings -/

/-- A gap entry (R138). -/
structure Gap where
  sequence : BitVec 32
  noticed : Stamp
  expiry : Stamp
  deriving DecidableEq, Repr

/-- An entry of the recent list (R140). -/
structure Recent where
  sequence : BitVec 32
  path : PathId
  stamp : Stamp
  deriving DecidableEq, Repr

/-- A stream tracker (Table 8-1) and the stream's setup (Table 8-2). -/
structure Stream where
  tracking : Bool
  highest : BitVec 32
  gaps : List Gap
  recent : List Recent
  accepted : BitVec 32
  duplicates : BitVec 32
  lateFills : BitVec 32
  lost : BitVec 32
  tooLate : BitVec 32
  resyncs : BitVec 32
  disabledDiscards : BitVec 32
  ring : RingId
  /-- Microseconds (Table 8-2). -/
  gapWindow : BitVec 16
  markers : Bool
  enabled : Bool
  deriving DecidableEq, Repr

/-- Divert actions (Table 8-5). -/
inductive DivertAction where
  | divert | copy | discard
  deriving DecidableEq, Repr

/-- A divert filter (Table 8-5). -/
structure DivertFilter where
  enabled : Bool
  streamValue : BitVec 4
  streamMask : BitVec 4
  typeValue : Byte
  typeMask : Byte
  action : DivertAction
  target : RingId
  hits : BitVec 32
  deriving DecidableEq, Repr

/-- The state of an inbound ring (Table 8-8). -/
inductive InRingState where
  | stopped | active | halted
  deriving DecidableEq, Repr

/-- An inbound ring (Table 8-8). Its overflow flag is the pending flag of IRn_OVERFLOW (R151). -/
structure InRing where
  state : InRingState
  slotCount : Option Nat
  deposit : BitVec 16
  assigned : BitVec 16
  release : BitVec 16
  overflow : BitVec 32
  dropsStopped : BitVec 32
  dropsFull : BitVec 32
  dropsQueue : BitVec 32
  deriving DecidableEq, Repr

/-! ## Lines, alarms, commands, status -/

/-- The events a line may carry (Tables 10-5 and 10-6). -/
inductive LineEvent where
  | none | alarm | critical | fallback | pathSwitch | timeLocked | ppsOut
  | pathUp (p : PathId)
  | launchHeld | ppsIn | forceFallback | launchHold | rainAlert
  deriving DecidableEq, Repr

/-- A line record (Table 10-4), its filtered level (R172; true is high), how many nanoseconds of reference time its
filter has seen the pin differ (R174, entry 15), and the
level the outside puts on its pin (entry 17). -/
structure Line where
  event : LineEvent
  openDrain : Bool
  activeLow : Bool
  /-- Rejection width in microseconds: 0, 2, 8 or 32. -/
  width : Nat
  filtered : Bool
  count : Option Nat
  outside : Bool
  deriving DecidableEq, Repr

/-- The pulse events (R173): absent, or the 1 us ticks counted since the event was produced. -/
structure Pulses where
  critical : Option Nat
  pathSwitch : Option Nat
  ppsOut : Option Nat
  deriving DecidableEq, Repr

/-- One alarm cause (R181). -/
structure AlarmCause where
  pending : Bool
  enabled : Bool
  level : BitVec 2
  raises : BitVec 16
  deriving DecidableEq, Repr

/-- The causes in the order of Table 11-3. -/
abbrev CauseId := Fin 20

/-- The alarm unit (R181, R182). -/
structure AlarmUnit where
  causes : Vector AlarmCause 20
  threshold : BitVec 2
  inService : Bool
  alarm : Bool
  deriving DecidableEq, Repr

/-- Command results (section 12.4). -/
inductive CommandResult where
  | done | state | range | backward | halted | unknown
  deriving DecidableEq, Repr

/-- What a BUSY command waits for (Table 11-1). -/
inductive Wait where
  /-- It completes at the event that takes it. -/
  | nothing
  /-- PATH_DISABLE: the awaiting-answer list of the path is empty (R5). -/
  | answers (p : PathId)
  /-- RING_STOP: the end of the ring's burst (R153). -/
  | ringBurst (n : RingId)
  /-- OUT_FLUSH: the outcomes of these slots of the ring are written (R133). -/
  | outcomes (n : RingId) (slots : List Nat)
  /-- LOG_RESET: the outstanding entries are gone (R93). -/
  | logEntries
  /-- SNAPSHOT: these records are still to be written; the burst of `old` began before the command (R180). -/
  | records (left : List RecordId) (old : Option RecordId)
  deriving DecidableEq, Repr

/-- A command in progress (R176). -/
structure Busy where
  code : Byte
  number : Byte
  waits : Wait
  deriving DecidableEq, Repr

/-- A completion (R177). -/
structure Completion where
  number : Byte
  code : Byte
  result : CommandResult
  stamp : Stamp
  deriving DecidableEq, Repr

/-- The command state and the latest completion (R176, R177). -/
structure CommandUnit where
  busy : Option Busy
  last : Option Completion
  count : BitVec 16
  deriving DecidableEq, Repr

/-- What the status writer keeps for one record (R178). -/
structure StatusMark where
  changed : Bool
  /-- A change was taken after the record's burst began (R178). -/
  again : Bool
  updates : BitVec 16
  /-- The 1 us tick count at its last submission. -/
  submitted : Option Nat
  /-- MODEL: the event at which it became eligible (R178). -/
  since : Option Nat
  deriving DecidableEq, Repr

/-- The status writer (R178, R179). -/
structure StatusWriter where
  running : Bool
  records : Vector StatusMark 36
  /-- MODEL: the event from which it has been RUNNING with a STATUS window (R94). -/
  since : Option Nat
  deriving DecidableEq, Repr

/-- Identity and selector setup in force (R175). -/
structure Identity where
  generation : BitVec 16
  site : BitVec 16
  /-- The status interval in microseconds (R175). -/
  interval : Nat
  deriving DecidableEq, Repr

/-! ## The whole state -/

/-- The state of the FB3450, with the queue of commands that wait. -/
structure State where
  pending : List Instr
  paths : Vector Path 5
  ranking : Ranking
  time : TimeBase
  mem : MemoryPath
  log : FaultLog
  outRings : Vector OutRing 4
  nextSequence : Vector (BitVec 32) 16
  sel : Selector
  streams : Vector Stream 16
  filters : Vector DivertFilter 8
  inRings : Vector InRing 4
  lines : Vector Line 8
  pulses : Pulses
  alarm : AlarmUnit
  cmd : CommandUnit
  status : StatusWriter
  identity : Identity
  /-- MODEL: events taken since reset (R94, R178). -/
  events : Nat
  /-- MODEL: free values used (entry 7). -/
  freeValues : Nat
  deriving DecidableEq, Repr

/-- No command of the FB3450 stops it: its FAULT reports go to its own log (R88). The type has no member. -/
inductive Fault where
  deriving DecidableEq, Repr

/-- Why the model would not run a command. -/
inductive Refusal where
  /-- Raised by a dispatch arm that has no meaning yet; no arm is left so. Safe: the model stops. -/
  | notModelled (mnemonic : String)
  deriving DecidableEq, Repr

/-- What a command answers. -/
abbrev Answer := Host.Outcome State Fault Refusal

/-! ## Reset values -/

/-- Table 1-6 and Table 2-2, last columns. -/
def Supervisor.reset : Supervisor where
  state := .disabled
  contract := 0
  target := none
  ownMask := 0
  farMask := none
  lastOfferSent := 0
  lastOfferReceived := 0
  lastGrant := 0
  pending := false
  margin := 0
  unitProfile := 0
  unitState := .none
  stepRun := 0
  lastProbe := 0
  probeList := []
  probeHistory := []
  estimate := 0
  estimateKind := .halfRtt
  estimateCount := 0
  inbound := none
  recentlyFailed := false
  mismatch := false
  roleClash := false
  farStatus := none
  probesLost := 0
  lastOffered := none
  lastGranted := 0
  farContract := none
  lastQuery := 0
  discardedGrants := 0
  grantAnswered := 0
  grantMismatch := false

/-- Tables 9-1 and 7-3, last columns. -/
def Port.reset : Port where
  link := .free
  pendingTune := none
  awaiting := []
  history := []
  sent := 0
  accepted := 0
  rejected := 0
  noAnswer := 0
  received := 0
  checkFailures := 0
  lateAnswers := 0
  discards := 0
  transmit := []
  insert := []
  insertDiscards := 0

/-- Table 10-2, last column; R1, R44, R49, R128 and R162 for the other fields. -/
def PathSetup.reset : PathSetup where
  role := .follow
  check := true
  priority := .above
  holdMode := .wide
  probeReload := 10
  probeTap := .us100
  silenceReload := 20
  silenceTap := .ms1
  guardReload := 250
  holdTap := .ms1
  wideReload := 5000
  wideCompare := 3000
  narrowReload := 200
  narrowCompare := 100
  fadePenalty := 0
  recoveryPenalty := 0
  statusBytes := 0

/-- One path at reset: every channel is stopped and preset (R166); the pair 5,000 is 19 high and 136 low (R170). -/
def Path.reset : Path where
  sup := .reset
  port := .reset
  setup := .reset
  probe := ⟨10, false, 10, none, .us100⟩
  silence := ⟨20, false, 20, none, .ms1⟩
  holdLow := ⟨136, false, 136, some 3000, .ms1⟩
  holdHigh := ⟨19, false, 19, none, .ms1⟩
  wins := 0
  leadMargin := none

/-- Table 3-1, last column. -/
def Ranking.reset : Ranking where
  list := [⟨0, false, none⟩, ⟨1, false, none⟩, ⟨2, false, none⟩, ⟨3, false, none⟩, ⟨4, false, none⟩]
  head := none
  fallback := true
  forced := false
  headChanges := 0
  lastHeadChange := none
  fallbackEntries := 0

/-- Table 4-1 and R72, last columns. -/
def TimeBase.reset : TimeBase where
  value := 0
  fraction := 0
  state := .free
  trim := 0
  slew := none
  trimHold := false
  lockRun := 0
  lastOffset := none
  pulseAge := none
  holdoverElapsed := 0
  holdoverMs := 0
  pulsesAccepted := 0
  pulsesRejected := 0
  steps := 0
  lockThreshold := 1000
  holdoverLimit := 300
  setValue := 0
  adjust := 0
  reference := 0

/-- Table 5-2, last column. -/
def Window.reset : Window := ⟨0, 0, .plain, 0, 0, 0, false⟩

/-- The memory path at reset for a strap value (R78, R79, R83, R98). -/
def MemoryPath.reset (straps : BitVec 4) : MemoryPath where
  straps := straps
  windows := Vector.replicate 15 .reset
  spanBase := straps.toNat * Config.strapStep
  spanLength := Config.setupWords
  masters := (Vector.replicate 8 3).set 0 0
  queue := []
  burst := none
  passing := []
  line := []
  runCount := 0
  answered := none

/-- Table 5-5, last column. -/
def FaultLog.reset : FaultLog := ⟨.ready, 0, 0, 0, [], false, none, none⟩

/-- Table 6-1, last column. -/
def OutRing.reset : OutRing where
  state := .capturing
  table := none
  outcomes := []
  outcomeCount := 0
  assigned := 0
  captures := 0
  slotBusy := 0
  partialHeader := 0
  ringHalted := 0
  badHeader := 0
  refusedFull := 0
  written := 0
  discarded := 0
  generation := 0
  since := none

/-- Table 7-1, last column. -/
def Selector.reset : Selector where
  held := []
  urgent := ⟨[], []⟩
  normal := ⟨[], []⟩
  holdUrgent := 0
  holdNormal := 0
  rainFlag := false
  rainInput := false
  launchHold := false
  spill := true
  counters := Vector.replicate 4 ⟨0, 0, 0, 0, 0, 0, 0, 0, 0⟩
  captureOrder := 0
  requestOrder := 0

/-- Tables 8-1 and 8-2, last columns. -/
def Stream.reset : Stream where
  tracking := false
  highest := 0
  gaps := []
  recent := []
  accepted := 0
  duplicates := 0
  lateFills := 0
  lost := 0
  tooLate := 0
  resyncs := 0
  disabledDiscards := 0
  ring := 0
  gapWindow := 1000
  markers := false
  enabled := false

/-- Table 8-5, last column. -/
def DivertFilter.reset : DivertFilter := ⟨false, 0, 0, 0, 0, .divert, 0, 0⟩

/-- Table 8-8, last column. -/
def InRing.reset : InRing := ⟨.stopped, none, 0, 0, 0, 0, 0, 0, 0⟩

/-- Table 10-4, last column; the filtered level takes the level at the pin (R172). -/
def Line.reset (outside : Bool) : Line := ⟨.none, false, false, 0, outside, none, outside⟩

/-- R181 and R182 at reset. -/
def AlarmUnit.reset : AlarmUnit where
  causes := Vector.replicate 20 ⟨false, false, 0, 0⟩
  threshold := 1
  inService := false
  alarm := false

/-- R178 and R179 at reset. -/
def StatusWriter.reset : StatusWriter where
  running := true
  records := Vector.replicate 36 ⟨false, false, 0, none, none⟩
  since := none

/-- The state after reset with the strap value and the pin levels the outside gives, and the queue as it stands. -/
def State.afterReset (straps : BitVec 4) (lines : Vector Line 8) (pending : List Instr) : State where
  pending := pending
  paths := Vector.replicate 5 .reset
  ranking := .reset
  time := .reset
  mem := .reset straps
  log := .reset
  outRings := Vector.replicate 4 .reset
  nextSequence := Vector.replicate 16 0
  sel := .reset
  streams := Vector.replicate 16 .reset
  filters := Vector.replicate 8 .reset
  inRings := Vector.replicate 4 .reset
  lines := lines
  pulses := ⟨none, none, none⟩
  alarm := .reset
  cmd := ⟨none, none, 0⟩
  status := .reset
  identity := ⟨0, 0, 100⟩
  events := 0
  freeValues := 0

/-- The machine right after reset, with strap value 0 and every pin low (entry 17), and no command waiting. -/
def State.reset : State := State.afterReset 0 (Vector.replicate 8 (.reset false)) []

end Sys2Proof.Machine
end

