-- ==== Sys2Proof/Machine/Operands.lean ====
section
/-! DEFINITION. Operand forms: the fields of setup words, slot headers and command words, stamps and records as words, link
frames and unit messages as bytes (chapter 12), and the frame check (R162). -/

namespace Sys2Proof.Machine

/-! ## Bit fields -/

/-- Bits `lo` to `lo + n - 1` of a word. -/
def bits (d : Word) (lo n : Nat) : BitVec n := d.extractLsb' lo n

/-- The same bits as a number. -/
def field (d : Word) (lo n : Nat) : Nat := (bits d lo n).toNat

/-- A word made of numbers, each shifted to its place; places do not overlap. -/
def packWord (parts : List (Nat × Nat)) : Word :=
  BitVec.ofNat 64 (parts.foldl (fun acc p => acc ||| (p.2 <<< p.1)) 0)

/-- A truth value as a bit. -/
def bit (b : Bool) : Nat := if b then 1 else 0

/-- A path, ring, stream or master read from a field too wide for it: absent when out of range. -/
def asIndex (n v : Nat) : Option (Fin n) := if h : v < n then some ⟨v, h⟩ else none

/-! ## Codes (sections 12.2 to 12.6) -/

/-- Section 12.6. -/
def Quality.code : Quality → Nat
  | .free => 0
  | .acquire => 1
  | .locked => 2
  | .holdover => 3

/-- Section 12.6, read back; every two-bit code names a quality. -/
def Quality.ofCode (n : Nat) : Quality :=
  match n % 4 with
  | 0 => .free
  | 1 => .acquire
  | 2 => .locked
  | _ => .holdover

/-- Section 12.5: 0 LEAD, 1 FOLLOW. -/
def Role.code : Role → Nat
  | .lead => 0
  | .follow => 1

/-- Section 12.5, read back. -/
def Role.ofBit (b : Bool) : Role := if b then .follow else .lead

/-- Section 12.6. -/
def PathState.code : PathState → Nat
  | .disabled => 0
  | .down => 1
  | .training => 2
  | .up => 3
  | .fading => 4
  | .retune => 5
  | .held => 6

/-- Section 12.6. -/
def UnitState.code : UnitState → Nat
  | .ready => 0
  | .tuning => 1
  | .fault => 2
  | .none => 3

/-- Table 12-3, read back; only 0 to 2 come from a unit. -/
def UnitState.ofCode (n : Nat) : UnitState :=
  match n with
  | 0 => .ready
  | 1 => .tuning
  | 2 => .fault
  | _ => .none

/-- The order of R1's row: ONE_WAY, HALF_RTT (R186, "Codes"). -/
def LatencyKind.code : LatencyKind → Nat
  | .oneWay => 0
  | .halfRtt => 1

/-- Section 12.2. -/
def FrameKind.code : FrameKind → Nat
  | .data => 0
  | .probe => 1
  | .echo => 2
  | .offer => 3
  | .grant => 4
  | .query => 5
  | .answer => 6

/-- Section 12.2, read back; every other code names no kind. -/
def FrameKind.ofCode (n : Nat) : Option FrameKind :=
  match n with
  | 0 => some .data
  | 1 => some .probe
  | 2 => some .echo
  | 3 => some .offer
  | 4 => some .grant
  | 5 => some .query
  | 6 => some .answer
  | _ => none

/-- Section 12.5. -/
def WindowKind.code : WindowKind → Nat
  | .plain => 0
  | .status => 1
  | .outbound => 2
  | .outcome => 3
  | .inbound => 4
  | .faultLog => 5

/-- Section 12.5, read back; 6 and 7 are out of range. -/
def WindowKind.ofCode (n : Nat) : Option WindowKind :=
  match n with
  | 0 => some .plain
  | 1 => some .status
  | 2 => some .outbound
  | 3 => some .outcome
  | 4 => some .inbound
  | 5 => some .faultLog
  | _ => none

/-- The three ring kinds carry a number (Table 5-2). -/
def WindowKind.isRing : WindowKind → Bool
  | .outbound | .outcome | .inbound => true
  | .plain | .status | .faultLog => false

/-- The owned kinds (R78, "The last four kinds are the owned kinds"). -/
def WindowKind.isOwned : WindowKind → Bool
  | .outcome | .inbound | .status | .faultLog => true
  | .plain | .outbound => false

/-- Section 12.5, read back. -/
def Tap.ofCode (n : Nat) : Option Tap :=
  match n with
  | 0 => some .us1
  | 1 => some .us10
  | 2 => some .us100
  | 3 => some .ms1
  | _ => none

/-- The period of a tap in nanoseconds (R77). -/
def Tap.period : Tap → Nat
  | .us1 => 1000
  | .us10 => 10000
  | .us100 => 100000
  | .ms1 => 1000000

/-- Section 12.5, read back; 3 is reserved. -/
def DivertAction.ofCode (n : Nat) : Option DivertAction :=
  match n with
  | 0 => some .divert
  | 1 => some .copy
  | 2 => some .discard
  | _ => none

/-- Section 12.5. -/
def DivertAction.code : DivertAction → Nat
  | .divert => 0
  | .copy => 1
  | .discard => 2

/-- Section 12.5. -/
def LineEvent.code : LineEvent → Nat
  | .none => 0
  | .alarm => 1
  | .critical => 2
  | .fallback => 3
  | .pathSwitch => 4
  | .timeLocked => 5
  | .ppsOut => 6
  | .pathUp p => 7 + p.val
  | .launchHeld => 12
  | .ppsIn => 16
  | .forceFallback => 17
  | .launchHold => 18
  | .rainAlert => 19

/-- Section 12.5, read back; any other value names no event. -/
def LineEvent.ofCode (n : Nat) : Option LineEvent :=
  match n with
  | 0 => some .none
  | 1 => some .alarm
  | 2 => some .critical
  | 3 => some .fallback
  | 4 => some .pathSwitch
  | 5 => some .timeLocked
  | 6 => some .ppsOut
  | 7 => some (.pathUp 0)
  | 8 => some (.pathUp 1)
  | 9 => some (.pathUp 2)
  | 10 => some (.pathUp 3)
  | 11 => some (.pathUp 4)
  | 12 => some .launchHeld
  | 16 => some .ppsIn
  | 17 => some .forceFallback
  | 18 => some .launchHold
  | 19 => some .rainAlert
  | _ => Option.none

/-- Section 12.5: 0, 2, 8 and 32 us in that order. -/
def widthOfCode (n : Nat) : Nat :=
  match n % 4 with
  | 0 => 0
  | 1 => 2
  | 2 => 8
  | _ => 32

/-- Section 12.5. -/
def widthCode (w : Nat) : Nat :=
  if w = 0 then 0 else if w = 2 then 1 else if w = 8 then 2 else 3

/-- Section 12.4. -/
def ReportClass.code : ReportClass → Nat
  | .fault => 0
  | .trap => 1
  | .abort => 2

/-- Section 12.4. -/
def Cause.code : Cause → Nat
  | .beyondMap => 0
  | .access => 1
  | .owned => 2
  | .partialSetup => 3
  | .windowInUse => 4
  | .cmdBusy => 5
  | .slotBusy => 6
  | .partialHeader => 7
  | .ringHalted => 8
  | .range => 9
  | .depositError => 10
  | .outcomeError => 11
  | .statusError => 12
  | .faultError => 13

/-- Table 12-6. -/
def OutcomeResult.code : OutcomeResult → Nat
  | .launched => 0
  | .rejected => 1
  | .stale => 2
  | .pinDown => 3
  | .flushed => 4
  | .refusedFull => 5
  | .badHeader => 6

/-- Section 12.4. -/
def CommandResult.code : CommandResult → Nat
  | .done => 0
  | .state => 1
  | .range => 2
  | .backward => 3
  | .halted => 4
  | .unknown => 5

/-! ## Stamps as words -/

/-- The stamp word of R184: nanoseconds, quality, low 32 bits of the seconds. -/
def stampWord (st : Stamp) : Word :=
  packWord [(0, st.time % Config.second), (30, st.quality.code), (32, st.time / Config.second % 4294967296)]

/-- An absent stamp is the all-zero word (R184). -/
def stampWordOpt : Option Stamp → Word
  | some st => stampWord st
  | none => 0

/-- A time value from its seconds and nanoseconds. -/
def timeOf (seconds nanoseconds : Nat) : Time := seconds * Config.second + nanoseconds

/-! ## Masks of profiles -/

/-- Profile `k` is in the mask. -/
def inMask (m : ProfileMask) (k : Nat) : Bool := 1 ≤ k && m.getLsbD (k - 1)

/-- The highest profile of a mask, 0 when it is empty (R33). -/
def highest (m : ProfileMask) : Nat :=
  if m.getLsbD 5 then 6 else if m.getLsbD 4 then 5 else if m.getLsbD 3 then 4
  else if m.getLsbD 2 then 3 else if m.getLsbD 1 then 2 else if m.getLsbD 0 then 1 else 0

/-- The own mask of a margin: profile `k` when the margin reaches hold(k) (R2, R26). -/
def maskOfMargin (margin : Byte) : ProfileMask :=
  BitVec.ofNat 6 (
    bit (8 ≤ margin.toNat) + 2 * bit (16 ≤ margin.toNat) + 4 * bit (24 ≤ margin.toNat)
    + 8 * bit (32 ≤ margin.toNat) + 16 * bit (42 ≤ margin.toNat) + 32 * bit (52 ≤ margin.toNat))

/-- Offer, grant and query numbers run from 1 to 255, the number after 255 being 1 (00_scope.md section 6). -/
def nextNumber (n : Byte) : Byte := if n = 255 then 1 else n + 1

/-! ## Bytes -/

/-- The `n` bytes of a number, least significant first (R184). -/
def leBytes (n v : Nat) : List Byte := (List.range n).map fun i => BitVec.ofNat 8 (v >>> (8 * i))

/-- The number that bytes spell, least significant first. -/
def leValue : List Byte → Nat
  | [] => 0
  | b :: bs => b.toNat + 256 * leValue bs

/-- The number spelled by `n` bytes from place `i`. -/
def bytesAt (bs : List Byte) (i n : Nat) : Nat := leValue ((bs.drop i).take n)

/-- One byte as a number. -/
def byteAt (bs : List Byte) (i : Nat) : Nat := bytesAt bs i 1

/-- Eight bytes of a payload as a word; bytes beyond the end are 0. -/
def payloadWord (bs : List Byte) (i : Nat) : Word := BitVec.ofNat 64 (bytesAt bs (8 * i) 8)

/-- The bytes of a word, byte 0 first. -/
def wordBytes (w : Word) : List Byte := leBytes 8 w.toNat

/-! ## The frame check (R162) -/

/-- One bit step of the reflected register. -/
def crcBit (r : BitVec 32) : BitVec 32 := if r.getLsbD 0 then (r >>> 1) ^^^ 0xEDB88320 else r >>> 1

/-- One byte, least significant bit first. -/
def crcByte (r : BitVec 32) (b : Byte) : BitVec 32 :=
  (List.range 8).foldl (fun r _ => crcBit r) (r ^^^ b.zeroExtend 32)

/-- R162: start at all ones, reflected 04C11DB7h, complement at the end. -/
def crc32 (bs : List Byte) : BitVec 32 := ~~~(bs.foldl crcByte 0xFFFFFFFF)

/-! ## Link frames (Tables 12-1 and 12-2) -/

/-- The header fields of Table 9-2. -/
structure FrameHeader where
  kind : FrameKind
  path : Nat
  role : Role
  quality : Quality
  stream : Nat
  length : Nat
  sequence : BitVec 32
  sent : Time
  deriving DecidableEq, Repr

/-- The 16 header bytes (Table 12-1). -/
def headerBytes (h : FrameHeader) : List Byte :=
  [BitVec.ofNat 8 (h.kind.code + 16 * h.path + 128 * h.role.code),
   BitVec.ofNat 8 (h.quality.code + 4 * h.stream), BitVec.ofNat 8 h.length, 0]
  ++ leBytes 4 h.sequence.toNat ++ leBytes 4 (h.sent / Config.second) ++ leBytes 4 (h.sent % Config.second)

/-- Header, payload and, when the check setting is ON, the frame check (R157). -/
def frameBytes (check : Bool) (h : FrameHeader) (payload : List Byte) : List Byte :=
  let body := headerBytes h ++ payload
  if check then body ++ leBytes 4 (crc32 body).toNat else body

/-- The kind of a control frame. -/
def ControlFrame.kind : ControlFrame → FrameKind
  | .probe _ => .probe
  | .echo _ _ _ => .echo
  | .offer _ _ _ => .offer
  | .grant _ _ _ _ => .grant
  | .query _ => .query
  | .answer _ _ => .answer

/-- The number a control frame carries in the low byte of its sequence field (Table 9-2). -/
def ControlFrame.number : ControlFrame → Byte
  | .probe n => n
  | .echo n _ _ => n
  | .offer n _ _ => n
  | .grant n _ _ _ => n
  | .query n => n
  | .answer n _ => n

/-- The payload of a control frame (Table 12-2). -/
def ControlFrame.payload : ControlFrame → List Byte
  | .probe _ => []
  | .echo n probeSent arrival =>
    [n, BitVec.ofNat 8 probeSent.quality.code, BitVec.ofNat 8 arrival.quality.code, 0]
    ++ leBytes 4 (probeSent.time / Config.second) ++ leBytes 4 (probeSent.time % Config.second)
    ++ leBytes 4 (arrival.time / Config.second) ++ leBytes 4 (arrival.time % Config.second)
  | .offer n mask contract => [n, mask.zeroExtend 8, BitVec.ofNat 8 contract, 0]
  | .grant n answered profile mismatch => [n, answered, BitVec.ofNat 8 profile, BitVec.ofNat 8 (bit mismatch)]
  | .query n => [n, 0, 0, 0]
  | .answer n status => [n, 0, 0, 0] ++ leBytes 4 status.toNat

/-- The fixed payload length of a control kind (Table 9-3); a DATA frame has none. -/
def FrameKind.fixedLength : FrameKind → Option Nat
  | .data => none
  | .probe => some 0
  | .echo => some 20
  | .offer => some 4
  | .grant => some 4
  | .query => some 4
  | .answer => some 8

/-- The header of received bytes; absent when the kind code names no kind (R161). The role and quality fields have no other
codes than their values'. -/
def parseHeader (bs : List Byte) : Option FrameHeader :=
  match FrameKind.ofCode (byteAt bs 0 % 16) with
  | none => none
  | some kind =>
    some {
      kind := kind
      path := byteAt bs 0 / 16 % 8
      role := Role.ofBit (byteAt bs 0 / 128 = 1)
      quality := Quality.ofCode (byteAt bs 1)
      stream := byteAt bs 1 / 4 % 16
      length := byteAt bs 2
      sequence := BitVec.ofNat 32 (bytesAt bs 4 4)
      sent := timeOf (bytesAt bs 8 4) (bytesAt bs 12 4) }

/-- The header's length is allowed and, for a control frame, its kind's (R161). -/
def lengthGood (h : FrameHeader) : Bool :=
  h.length ≤ 48 && (match h.kind.fixedLength with
    | none => true
    | some n => h.length == n)

/-- R161: the frame is judged; its header and payload when it is good. `errored` is the unit's receive condition. -/
def judgeFrame (p : PathId) (check errored : Bool) (bs : List Byte) : Option (FrameHeader × List Byte) :=
  match parseHeader bs with
  | none => none
  | some h =>
    let body := bs.take (16 + h.length)
    if !errored && h.path == p.val && lengthGood h && (bytesAt bs 12 4 ≤ 999999999 : Bool)
        && bs.length == 16 + h.length + (if check then 4 else 0)
        && (!check || bytesAt bs (16 + h.length) 4 == (crc32 body).toNat) then
      some (h, body.drop 16)
    else none

/-- A SEND message to the unit (Table 12-3). -/
def sendMessage (frame : List Byte) : List Byte := [1, BitVec.ofNat 8 frame.length, 0, 0] ++ frame

/-- A TUNE message to the unit (Table 12-3). -/
def tuneMessage (k : Nat) : List Byte := [2, BitVec.ofNat 8 k, 0, 0]

/-! ## The outbound slot header (Table 12-4) -/

/-- The fields of an outbound slot header. -/
structure SlotHeader where
  go : Bool
  length : Nat
  stream : StreamId
  mode : LaunchMode
  pinnedCode : Nat
  classCode : Nat
  age : Nat
  deriving DecidableEq, Repr

/-- Table 12-4, mode codes. -/
def LaunchMode.ofCode (n : Nat) : LaunchMode :=
  match n % 4 with
  | 0 => .fastest
  | 1 => .dual
  | 2 => .pinned
  | _ => .ground

/-- Table 12-4 read from the word. -/
def slotHeader (d : Word) : SlotHeader where
  go := d.getLsbD 0
  length := field d 8 8
  stream := (bits d 16 4).toFin
  mode := LaunchMode.ofCode (field d 20 2)
  pinnedCode := field d 24 3
  classCode := field d 28 2
  age := field d 32 16

/-- Table 12-4: 0 URGENT, 1 NORMAL, 2 and 3 reserved. -/
def SlotHeader.cls (h : SlotHeader) : Option LaunchClass :=
  match h.classCode with
  | 0 => some .urgent
  | 1 => some .normal
  | _ => none

/-- R104: the header's fields are illegal. -/
def SlotHeader.illegal (h : SlotHeader) : Bool :=
  h.length == 0 || decide (48 < h.length) || (h.mode == .pinned && decide (4 < h.pinnedCode)) || decide (1 < h.classCode)

/-! ## The command word (Table 12-8) -/

/-- The command word of a command code, number and argument. -/
def commandWord (code num : Byte) (arg : BitVec 48) : Word := (arg ++ num ++ code : BitVec 64)

/-- The path, ring or stream argument. -/
def commandIndex (d : Word) : Nat := field d 16 8

/-! ## Records as words (Tables 12-5 to 12-7) -/

/-- The paths code of Table 12-6: the empty set, the single paths, the pairs. -/
def pathsCode (m : BitVec 5) : Nat :=
  [0, 1, 2, 4, 8, 16, 3, 5, 9, 17, 6, 10, 18, 12, 20, 24].findIdx (fun k => k == m.toNat)

/-- A delivery record's flags (Table 8-7). -/
structure DeliveryFlags where
  lateFill : Bool
  resync : Bool
  skipped : Bool
  lost : Bool
  diverted : Bool
  timeSuspect : Bool
  deriving DecidableEq, Repr

/-- A delivery record before it has a position (Table 8-7); no path for a loss marker. -/
structure Delivery where
  stream : StreamId
  path : Option PathId
  sequence : BitVec 32
  stamp : Stamp
  payload : List Byte
  flags : DeliveryFlags
  deriving DecidableEq, Repr

/-- Word 0 of an inbound slot (Table 12-5). -/
def deliveryHeader (lap : Nat) (r : Delivery) : Word :=
  packWord [(0, lap), (8, r.payload.length), (16, r.stream.val),
    (20, match r.path with | some p => p.val | none => 7),
    (24, bit r.flags.lateFill), (25, bit r.flags.resync), (26, bit r.flags.skipped), (27, bit r.flags.lost),
    (28, bit r.flags.diverted), (29, bit r.flags.timeSuspect), (32, r.sequence.toNat)]

/-- The words of an inbound slot at `base` in the order they are issued: words 1 to 7, then the header (R149). -/
def deliveryWords (base lap : Nat) (r : Delivery) : List (Nat × Word) :=
  [(base + 1, stampWord r.stamp), (base + 2, payloadWord r.payload 0), (base + 3, payloadWord r.payload 1),
   (base + 4, payloadWord r.payload 2), (base + 5, payloadWord r.payload 3), (base + 6, payloadWord r.payload 4),
   (base + 7, payloadWord r.payload 5), (base, deliveryHeader lap r)]

/-- The words of an outcome record at `base` (Table 12-6), in the order they are issued: that it is the order of their addresses is
the model's choice (R95, entry 39). -/
def outcomeWords (base lap : Nat) (e : OutcomeEntry) : List (Nat × Word) :=
  [(base, packWord [(0, lap), (8, e.slot), (18, e.result.code), (21, e.stream.val), (25, bit e.spill),
      (26, bit e.single), (27, bit e.rain), (28, pathsCode e.paths), (32, e.sequence.toNat)]),
   (base + 1, stampWord e.capture), (base + 2, stampWordOpt e.launch), (base + 3, e.tag)]

/-- Word 0 of a fault entry (Table 12-7). -/
def faultWord0 (lap : Nat) (cls : ReportClass) (cause : Cause) (m : Master) (t : Time) : Word :=
  packWord [(0, lap), (8, cls.code), (10, cause.code), (15, m.val), (18, t % Config.second),
    (48, t / Config.second % 65536)]

end Sys2Proof.Machine
end

