-- ==== Sys2Proof/Machine/Ops.lean ====
section
/-! DEFINITION. Named operations over the parts of the state: updating one instance, raising causes, marking records, windows
and queues, timer channels, the fault report (R90), the completion (R177) and the outcome request (R109). -/

namespace Sys2Proof.Machine

/-! ## One instance of a part -/

/-- Path `p` replaced by its image. -/
def onPath (p : PathId) (f : Path → Path) (s : State) : State :=
  { s with paths := s.paths.set p.val (f s.paths[p]) p.isLt }

/-- The path record of path `p` replaced by its image. -/
def onSup (p : PathId) (f : Supervisor → Supervisor) (s : State) : State :=
  onPath p (fun x => { x with sup := f x.sup }) s

/-- The port of path `p` replaced by its image. -/
def onPort (p : PathId) (f : Port → Port) (s : State) : State :=
  onPath p (fun x => { x with port := f x.port }) s

/-- The setup of path `p` replaced by its image. -/
def onSetup (p : PathId) (f : PathSetup → PathSetup) (s : State) : State :=
  onPath p (fun x => { x with setup := f x.setup }) s

/-- Stream `i` replaced by its image. -/
def onStream (i : StreamId) (f : Stream → Stream) (s : State) : State :=
  { s with streams := s.streams.set i.val (f s.streams[i]) i.isLt }

/-- Divert filter `i` replaced by its image. -/
def onFilter (i : Fin 8) (f : DivertFilter → DivertFilter) (s : State) : State :=
  { s with filters := s.filters.set i.val (f s.filters[i]) i.isLt }

/-- Inbound ring `n` replaced by its image. -/
def onInRing (n : RingId) (f : InRing → InRing) (s : State) : State :=
  { s with inRings := s.inRings.set n.val (f s.inRings[n]) n.isLt }

/-- Outbound ring `n` replaced by its image. -/
def onOutRing (n : RingId) (f : OutRing → OutRing) (s : State) : State :=
  { s with outRings := s.outRings.set n.val (f s.outRings[n]) n.isLt }

/-- Line `l` replaced by its image. -/
def onLine (l : LineId) (f : Line → Line) (s : State) : State :=
  { s with lines := s.lines.set l.val (f s.lines[l]) l.isLt }

/-- Cause `c` replaced by its image. -/
def onCause (c : CauseId) (f : AlarmCause → AlarmCause) (s : State) : State :=
  { s with alarm := { s.alarm with causes := s.alarm.causes.set c.val (f s.alarm.causes[c]) c.isLt } }

/-- What the status writer keeps for record `r` replaced by its image. -/
def onMark (r : RecordId) (f : StatusMark → StatusMark) (s : State) : State :=
  { s with status := { s.status with records := s.status.records.set r.val (f s.status.records[r]) r.isLt } }

/-- The selector's counters of ring `n` replaced by their image. -/
def onCounters (n : RingId) (f : SelectorCounters → SelectorCounters) (s : State) : State :=
  { s with sel := { s.sel with counters := s.sel.counters.set n.val (f s.sel.counters[n]) n.isLt } }

/-- Window entry `e + 1` replaced by its image. -/
def onWindow (e : Fin 15) (f : Window → Window) (s : State) : State :=
  { s with mem := { s.mem with windows := s.mem.windows.set e.val (f s.mem.windows[e]) e.isLt } }

/-! ## Stamps and ticks -/

/-- The time value with the quality, at this event (R73). -/
def stampNow (s : State) : Stamp := ⟨s.time.value, s.time.state⟩

/-- The count of 1 us ticks since the end of reset (R77). -/
def microNow (s : State) : Nat := s.time.reference / 1000

/-! ## Causes (R181) -/

/-- A raise sets the pending flag and counts, whatever the enable and level (R181). -/
def raiseCause (c : CauseId) (s : State) : State :=
  onCause c (fun a => { a with pending := true, raises := satInc a.raises }) s

/-- A pending flag is cleared (R181, R154). -/
def clearCause (c : CauseId) (s : State) : State := onCause c (fun a => { a with pending := false }) s

/-- PATHn_CHANGE (Table 11-3). -/
def pathCause (p : PathId) : CauseId := ⟨p.val, by omega⟩

/-- IRn_OVERFLOW (Table 11-3). -/
def overflowCause (n : RingId) : CauseId := ⟨8 + n.val, by omega⟩

/-! ## Status records (R178, Table 12-10) -/

/-- The path status record. -/
def pathRecord (p : PathId) : RecordId := ⟨p.val, by omega⟩

/-- The inbound ring status record. -/
def inRecord (n : RingId) : RecordId := ⟨7 + n.val, by omega⟩

/-- The outbound ring status record. -/
def outRecord (n : RingId) : RecordId := ⟨11 + n.val, by omega⟩

/-- The stream status record. -/
def streamRecord (i : StreamId) : RecordId := ⟨15 + i.val, by omega⟩

/-- The burst in progress writes record `r`. -/
def burstWrites (r : RecordId) (s : State) : Bool :=
  match s.mem.burst with
  | some e => e.source == .status r
  | none => false

/-- A record is marked as changed; a change during its burst is kept apart (R178). -/
def markRecord (r : RecordId) (s : State) : State :=
  let busy := burstWrites r s
  onMark r (fun m => { m with changed := true, again := m.again || busy }) s

/-- Every record is marked as changed (R179, R180). -/
def markAll (s : State) : State := (List.finRange 36).foldl (fun s r => markRecord r s) s

/-! ## Windows (R78, R85) -/

/-- Address `a` lies in the window's range. -/
def Window.contains (w : Window) (a : Nat) : Bool := w.base ≤ a && a < w.base + w.length

/-- Base of the setup region (R78). -/
def setupBase (s : State) : Nat := s.mem.straps.toNat * Config.strapStep

/-- Address of setup word `o` (Table 12-9). -/
def setupAddress (s : State) (o : Nat) : Addr := BitVec.ofNat 28 (setupBase s + o)

/-- Address `a` lies in the setup region, entry 0. -/
def inSetupRegion (s : State) (a : Nat) : Bool := setupBase s ≤ a && a < setupBase s + Config.setupWords

/-- Address `a` lies in the guarded span (R79). -/
def inSpan (s : State) (a : Nat) : Bool := s.mem.spanBase ≤ a && a < s.mem.spanBase + s.mem.spanLength

/-- The enabled window of entries 1 to 15 that contains `a`; enabled windows do not overlap (R81). -/
def windowAt (s : State) (a : Nat) : Option (Fin 15) :=
  (List.finRange 15).find? fun e => s.mem.windows[e].enabled && s.mem.windows[e].contains a

/-- The window has the kind and, for a ring kind, the number. -/
def Window.isOf (w : Window) (k : WindowKind) (n : RingId) : Bool := w.kind == k && (!k.isRing || w.number == n)

/-- The enabled window of a kind and number; there is at most one for a kind other than PLAIN (R81). -/
def windowOf (s : State) (k : WindowKind) (n : RingId) : Option (Fin 15) :=
  (List.finRange 15).find? fun e => s.mem.windows[e].enabled && s.mem.windows[e].isOf k n

/-! ## Own-write queue (R94) -/

/-- The entry is of the deposit part. -/
def WriteEntry.isDeposit (e : WriteEntry) : Bool :=
  match e.source with
  | .delivery _ => true
  | .outcome _ _ | .status _ | .fault => false

/-- Entries in the deposit part. -/
def depositCount (s : State) : Nat := (s.mem.queue.filter (·.isDeposit)).length

/-- Entries in the report part. -/
def reportCount (s : State) : Nat := (s.mem.queue.filter (fun e => !e.isDeposit)).length

/-- The report part has a free place. -/
def reportFree (s : State) : Bool := reportCount s < 16

/-- An entry joins the end of the queue. -/
def enqueue (e : WriteEntry) (s : State) : State := { s with mem := { s.mem with queue := s.mem.queue ++ [e] } }

/-- Entries that satisfy `f` leave the queue. -/
def unqueue (f : WriteEntry → Bool) (s : State) : State :=
  { s with mem := { s.mem with queue := s.mem.queue.filter (fun e => !f e) } }

/-- Some entry of the queue or the burst in progress satisfies `f`. -/
def queuedOrBurst (s : State) (f : WriteEntry → Bool) : Bool :=
  s.mem.queue.any f || (match s.mem.burst with | some e => f e | none => false)

/-- A delivery record of ring `n`. -/
def WriteEntry.deliversTo (e : WriteEntry) (n : RingId) : Bool := e.source == .delivery n

/-- An outcome record of ring `n`. -/
def WriteEntry.outcomeOf (e : WriteEntry) (n : RingId) : Bool :=
  match e.source with
  | .outcome m _ => m == n
  | .delivery _ | .status _ | .fault => false

/-- A status or completion record. -/
def WriteEntry.isStatus (e : WriteEntry) : Bool :=
  match e.source with
  | .status _ => true
  | .delivery _ | .outcome _ _ | .fault => false

/-- A fault entry. -/
def WriteEntry.isFault (e : WriteEntry) : Bool := e.source == .fault

/-! ## The fault report (R88, R90) -/

/-- The capacity of the fault log: half the length of the enabled FAULT_LOG window (R89). -/
def logCapacity (s : State) : Option Nat := (windowOf s .faultLog 0).map fun e => s.mem.windows[e].length / 2

/-- The fill: entry count minus release count, modulo 65,536 (R89). -/
def FaultLog.fill (l : FaultLog) : Nat := (l.entryCount - l.releaseCount).toNat

/-- A report that becomes no entry (R90). -/
def countLost (s : State) : State :=
  raiseCause 14 { s with log := { s.log with lost := satInc s.log.lost } }

/-- A fault report reaches the fault-log writer and becomes an entry or is counted lost (R90). -/
def report (cls : ReportClass) (cause : Cause) (m : Master) (a : Nat) (s : State) : State :=
  match windowOf s .faultLog 0 with
  | none => countLost s
  | some e =>
    let w := s.mem.windows[e]
    let capacity := w.length / 2
    if s.log.state == .failed || s.log.resetting || 4 ≤ s.log.outstanding.length || s.log.fill == capacity then
      countLost s
    else
      let c := s.log.entryCount.toNat
      let entry : FaultEntry := {
        address := w.base + 2 * (c % capacity)
        word0 := faultWord0 (c / capacity % 256) cls cause m s.time.value
        word1 := BitVec.ofNat 64 a
        submitted := false }
      { s with log := { s.log with entryCount := s.log.entryCount + 1, outstanding := s.log.outstanding ++ [entry] } }

/-! ## Completion (R177) -/

/-- The command in progress completes, stamped with the time value the event has reached (R177; at a TIME_SET see entry 40); CMD_DONE
is raised unless `quiet` (R177). -/
def completeWith (quiet : Bool) (r : CommandResult) (s : State) : State :=
  match s.cmd.busy with
  | none => s
  | some b =>
    let t := { s with cmd := { busy := none, last := some ⟨b.number, b.code, r, stampNow s⟩, count := s.cmd.count + 1 } }
    markRecord 35 (if quiet then t else raiseCause 18 t)

/-- The command in progress completes (R177). -/
def complete (r : CommandResult) (s : State) : State := completeWith false r s

/-- The command in progress waits for `w`. -/
def waitFor (w : Wait) (s : State) : State :=
  { s with cmd := { s.cmd with busy := s.cmd.busy.map fun b => { b with waits := w } } }

/-- What the command in progress waits for. -/
def waiting (s : State) : Wait :=
  match s.cmd.busy with
  | some b => b.waits
  | none => .nothing

/-! ## Launch records and outcome requests (R106 to R109, R131) -/

/-- The held record of a name. -/
def recordNamed (s : State) (x : RecordName) : Option LaunchRecord := s.sel.held.find? fun r => r.name == x

/-- A held record replaced by its new form. -/
def putRecord (r : LaunchRecord) (s : State) : State :=
  { s with sel := { s.sel with held := s.sel.held.map fun x => if x.name == r.name then r else x } }

/-- The copy is complete (R126). -/
def Copy.isComplete (c : Copy) : Bool := c.state == .accepted || c.state == .failed

/-- A record leaves the class queues. -/
def ClassQueue.without (q : ClassQueue) (x : RecordName) : ClassQueue :=
  ⟨q.front.filter (fun y => !(y == x)), q.back.filter (fun y => !(y == x))⟩

/-- A class queue from front to back. -/
def ClassQueue.names (q : ClassQueue) : List RecordName := q.front ++ q.back

/-- The class queue of a class. -/
def classQueue (s : State) (c : LaunchClass) : ClassQueue :=
  match c with
  | .urgent => s.sel.urgent
  | .normal => s.sel.normal

/-- The class queue of a class replaced by its image. -/
def onQueue (c : LaunchClass) (f : ClassQueue → ClassQueue) (s : State) : State :=
  match c with
  | .urgent => { s with sel := { s.sel with urgent := f s.sel.urgent } }
  | .normal => { s with sel := { s.sel with normal := f s.sel.normal } }

/-- The hold count of a class (R108). -/
def holdCount (s : State) (c : LaunchClass) : Nat :=
  match c with
  | .urgent => s.sel.holdUrgent
  | .normal => s.sel.holdNormal

/-- The hold count of a class replaced by its image. -/
def onHold (c : LaunchClass) (f : Nat → Nat) (s : State) : State :=
  match c with
  | .urgent => { s with sel := { s.sel with holdUrgent := f s.sel.holdUrgent } }
  | .normal => { s with sel := { s.sel with holdNormal := f s.sel.holdNormal } }

/-- The ring's counter for a result the selector gives (R131). -/
def SelectorCounters.count (c : SelectorCounters) (r : OutcomeResult) : SelectorCounters :=
  match r with
  | .launched => { c with launched := satInc c.launched }
  | .rejected => { c with rejected := satInc c.rejected }
  | .stale => { c with stale := satInc c.stale }
  | .pinDown => { c with pinDown := satInc c.pinDown }
  | .flushed => { c with flushed := satInc c.flushed }
  | .refusedFull => c
  | .badHeader => c

/-- A set of paths as bits (R186). -/
def pathSet (ps : List PathId) : BitVec 5 := ps.foldl (fun m p => m ||| BitVec.ofNat 5 (1 <<< p.val)) 0

/-- A requested outcome joins the end of its ring's outcome list (R104, R109). -/
def joinOutcomes (n : RingId) (e : OutcomeEntry) (s : State) : State :=
  let t := onOutRing n (fun r => { r with outcomes := r.outcomes ++ [{ e with request := s.sel.requestOrder }] }) s
  { t with sel := { t.sel with requestOrder := t.sel.requestOrder + 1 } }

/-- The outcome of a held record as the selector hands it to capture (R109, R111). -/
def outcomeEntry (s : State) (r : LaunchRecord) (res : OutcomeResult) : OutcomeEntry where
  slot := r.name.slot
  result := res
  paths := pathSet ((r.copies.filter (·.state == .accepted)).map (·.path))
  stream := r.stream
  sequence := r.sequence
  spill := r.spill
  single := r.single
  rain := r.rain
  capture := r.capture
  launch := r.firstAccepted
  tag := r.tag
  refusal := false
  generation := s.outRings[r.name.ring].generation
  request := 0

/-- The selector requests the outcome of a held record: it is held no more, its class hold count falls, the result is counted
and the outcome joins its ring's list (R108, R109, R131). -/
def requestOutcome (r : LaunchRecord) (res : OutcomeResult) (s : State) : State :=
  { s with sel := { s.sel with held := s.sel.held.filter fun x => !(x.name == r.name) } }
  |> onQueue r.cls (·.without r.name)
  |> onHold r.cls (· - 1)
  |> onCounters r.name.ring (·.count res)
  |> joinOutcomes r.name.ring (outcomeEntry s r res)

/-- The time value at which a record ages out, when it has an age limit (R125). -/
def LaunchRecord.deadline (r : LaunchRecord) : Option Time := r.ageLimit.map fun us => r.capture.time + us * 1000

/-- The record's deadline has been passed. -/
def LaunchRecord.isPast (r : LaunchRecord) (now : Time) : Bool :=
  match r.deadline with
  | some d => d < now
  | none => false

/-- The test for LAUNCHED and REJECTED: some copies, every one complete (R126, R131). -/
def settleCopies (r : LaunchRecord) (s : State) : State :=
  if !r.copies.isEmpty && r.copies.all (·.isComplete) then
    requestOutcome r (if r.copies.any (·.state == .accepted) then .launched else .rejected) s
  else s

/-! ## Re-steer (R117, R132) -/

/-- A record takes the place its capture gives it in the front part of its class queue (R117). -/
def rejoin (r : LaunchRecord) (s : State) : State :=
  let earlier (x : RecordName) : Bool :=
    match recordNamed s x with
    | some y => y.order < r.order
    | none => false
  onQueue r.cls (fun q => { q with front := q.front.takeWhile earlier ++ [r.name] ++ q.front.dropWhile earlier }) s

/-- The QUEUED copy of a record on path `p` is handed back to the selector (R132). -/
def resteerRecord (p : PathId) (r : LaunchRecord) (s : State) : State :=
  let others := r.copies.filter fun c => !(c.path == p)
  if others.any fun c => !(c.state == .failed) then
    let kept := { r with copies := others }
    settleCopies kept (putRecord kept s)
  else
    let back := { r with copies := [] }
    if back.isPast s.time.value then requestOutcome back .stale (putRecord back s)
    else rejoin back (putRecord back s)

/-- One name of the transmit queue handed back. -/
def resteerOne (p : PathId) (s : State) (x : RecordName) : State :=
  match recordNamed s x with
  | some r => resteerRecord p r s
  | none => s

/-- The transmit queue of a path is emptied, front first (R132). -/
def resteer (p : PathId) (s : State) : State :=
  s.paths[p].port.transmit.foldl (resteerOne p) (onPort p (fun q => { q with transmit := [] }) s)

/-! ## Insert queue and TUNE (R127, R156) -/

/-- A control frame joins the insert queue; the oldest of four is discarded (R127). -/
def insertFrame (p : PathId) (f : ControlFrame) (s : State) : State :=
  onPort p (fun q =>
    if q.insert.length < 4 then { q with insert := q.insert ++ [⟨f, 0⟩] }
    else { q with insert := q.insert.drop 1 ++ [⟨f, 0⟩], insertDiscards := satInc q.insertDiscards }) s

/-- The insert queue is emptied. -/
def emptyInsert (p : PathId) (s : State) : State := onPort p (fun q => { q with insert := [] }) s

/-- A TUNE is ordered; it replaces a pending one (R156). -/
def orderTune (p : PathId) (k : Nat) (s : State) : State := onPort p (fun q => { q with pendingTune := some k }) s

/-! ## Timer channels (R166 to R171) -/

/-- A preset: reload, compare and tap in force are taken (R167). -/
def Channel.preset (c : Channel) (reload : Byte) (compare : Option (BitVec 16)) (tap : Tap) : Channel :=
  { c with counter := reload, loadedReload := reload, loadedCompare := compare, loadedTap := tap }

/-- Run is set (R167). -/
def Channel.start (c : Channel) : Channel := { c with run := true }

/-- Run is cleared; the counter keeps its value (R167). -/
def Channel.stop (c : Channel) : Channel := { c with run := false }

/-- The probe channel is preset (R169). -/
def presetProbe (x : Path) : Path :=
  { x with probe := x.probe.preset x.setup.probeReload none x.setup.probeTap }

/-- The silence channel is preset (R169). -/
def presetSilence (x : Path) : Path :=
  { x with silence := x.silence.preset x.setup.silenceReload none x.setup.silenceTap }

/-- The hold counter is preset: the pair in WIDE mode (R170), the low channel in NARROW mode (R171). -/
def presetHold (x : Path) : Path :=
  match x.setup.holdMode with
  | .wide =>
    { x with
      holdLow := x.holdLow.preset (x.setup.wideReload.extractLsb' 0 8) (some x.setup.wideCompare) x.setup.holdTap
      holdHigh := x.holdHigh.preset (x.setup.wideReload.extractLsb' 8 8) none x.setup.holdTap }
  | .narrow =>
    { x with holdLow := x.holdLow.preset x.setup.narrowReload (some (x.setup.narrowCompare.zeroExtend 16)) x.setup.holdTap }

/-- The step-up guard is preset; in WIDE mode there is none (R170, R171). -/
def presetGuard (x : Path) : Path :=
  match x.setup.holdMode with
  | .wide => x
  | .narrow => { x with holdHigh := x.holdHigh.preset x.setup.guardReload none x.setup.holdTap }

/-- All four channels of a path are stopped and preset (R6, R169). -/
def resetChannels (x : Path) : Path :=
  let y := presetGuard (presetHold (presetSilence (presetProbe x)))
  { y with probe := y.probe.stop, silence := y.silence.stop, holdLow := y.holdLow.stop, holdHigh := y.holdHigh.stop }

/-- The hold counter's value: the pair's in WIDE mode (R170). -/
def holdValue (x : Path) : Nat :=
  match x.setup.holdMode with
  | .wide => x.holdHigh.counter.toNat * 256 + x.holdLow.counter.toNat
  | .narrow => x.holdLow.counter.toNat

/-- The hold counter takes a value. -/
def setHoldValue (v : Nat) (x : Path) : Path :=
  match x.setup.holdMode with
  | .wide =>
    { x with
      holdLow := { x.holdLow with counter := BitVec.ofNat 8 v }
      holdHigh := { x.holdHigh with counter := BitVec.ofNat 8 (v / 256) } }
  | .narrow => { x with holdLow := { x.holdLow with counter := BitVec.ofNat 8 v } }

/-- The probe channel of path `p` is preset and run. -/
def runProbe (p : PathId) (s : State) : State :=
  onPath p (fun x => let y := presetProbe x; { y with probe := y.probe.start }) s

/-- The silence channel of path `p` is preset and run (R14). -/
def runSilence (p : PathId) (s : State) : State :=
  onPath p (fun x => let y := presetSilence x; { y with silence := y.silence.start }) s

/-- The hold counter of path `p` is preset and run (R12). -/
def runHold (p : PathId) (s : State) : State :=
  onPath p (fun x => let y := presetHold x; { y with holdLow := y.holdLow.start }) s

/-- The guard of path `p` is preset and run, in NARROW mode (R171). -/
def runGuard (p : PathId) (s : State) : State :=
  onPath p (fun x =>
    match x.setup.holdMode with
    | .wide => x
    | .narrow => let y := presetGuard x; { y with holdHigh := y.holdHigh.start }) s

/-- The probe channel of path `p` is stopped. -/
def stopProbe (p : PathId) (s : State) : State := onPath p (fun x => { x with probe := x.probe.stop }) s

/-- The silence channel of path `p` is stopped. -/
def stopSilence (p : PathId) (s : State) : State := onPath p (fun x => { x with silence := x.silence.stop }) s

end Sys2Proof.Machine
end

