-- ==== Sys2Proof/Machine/Flags.lean ====
section
/-! DEFINITION. Flags computed from the rest of the state: the fade conditions (R10), selectability (R47), the rain alert (R122),
the causes' activity and the two alarm outputs (R182). -/

namespace Sys2Proof.Machine

/-! ## Paths -/

/-- An air path, P0 to P3. -/
def isAir (p : PathId) : Bool := p.val < 4

/-- UP or FADING: the states in which the transmit queue may hold copies (R127, R24). -/
def PathState.inService (x : PathState) : Bool := x == .up || x == .fading

/-- DOWN, TRAINING, UP, FADING or RETUNE: the states in which the supervisor takes frames (R15). -/
def PathState.takesFrames (x : PathState) : Bool :=
  match x with
  | .down | .training | .up | .fading | .retune => true
  | .disabled | .held => false

/-- TRAINING, UP, FADING or RETUNE: the states that silence ends (R12, R14). -/
def PathState.hears (x : PathState) : Bool :=
  match x with
  | .training | .up | .fading | .retune => true
  | .disabled | .down | .held => false

/-- The margin band (R10, R26): hold(k) or more and below hold(k)+4. -/
def inFadingBand (x : Supervisor) : Bool :=
  Config.holdThreshold x.contract ≤ x.margin.toNat && x.margin.toNat < Config.holdThreshold x.contract + 4

/-- At least one fade condition holds (R10). -/
def fadeHolds (x : Path) : Bool :=
  inFadingBand x.sup || 2 ≤ (x.sup.probeHistory.filter (fun a => !a)).length
    || 3 ≤ (x.port.history.filter (fun g => !g)).length

/-- A step-down is due at the last margin (R26). -/
def stepDownDue (x : Supervisor) : Bool :=
  2 ≤ x.contract && x.contract ≤ 6 && x.margin.toNat < Config.holdThreshold x.contract

/-- The REPORT supports a step-up (R26). -/
def supportsStepUp (x : Supervisor) : Bool :=
  1 ≤ x.contract && x.contract ≤ 5 && Config.holdThreshold (x.contract + 1) + 8 ≤ x.margin.toNat

/-! ## Ranking inputs -/

/-- In service, whatever FORCE_FALLBACK (R47). -/
def inService (s : State) (p : PathId) : Bool :=
  if isAir p then s.paths[p].sup.state.inService else s.paths[p].sup.state == .up

/-- Selectable (R47). -/
def selectable (s : State) (p : PathId) : Bool := inService s p && !(isAir p && s.ranking.forced)

/-- The rain alert (R122). -/
def rainAlert (s : State) : Bool := s.sel.rainFlag || s.sel.rainInput

/-! ## Alarm outputs (R182) -/

/-- Pending, enabled and at a level from 1 to 3. -/
def AlarmCause.active (c : AlarmCause) : Bool := c.pending && c.enabled && c.level != 0

/-- ALARM: an active cause at or above the threshold. -/
def alarmLevel (u : AlarmUnit) : Bool :=
  u.causes.toList.any fun c => c.active && u.threshold.toNat ≤ c.level.toNat

/-- A level-3 cause is active. -/
def criticalActive (u : AlarmUnit) : Bool := u.causes.toList.any fun c => c.active && c.level == 3

/-- ALARM and the in-service flag are recomputed; the CRITICAL pulse is produced when the flag becomes set (R182). -/
def refreshAlarm (s : State) : State :=
  let on := criticalActive s.alarm
  { s with
    alarm := { s.alarm with alarm := alarmLevel s.alarm, inService := on }
    pulses := if on && !s.alarm.inService then { s.pulses with critical := some 0 } else s.pulses }

end Sys2Proof.Machine
end

