-- ==== Sys2Proof/Machine/Ranking.lean ====
section
/-! DEFINITION. The ranking (chapter 3): effective latency, the list, the head and fallback. -/

namespace Sys2Proof.Machine

/-- The serialization term (R48). -/
def serializationTerm (s : State) (p : PathId) : Nat :=
  if isAir p then Config.serialization s.paths[p].sup.contract else Config.groundSerialization

/-- The fade penalty term (R48). -/
def fadeTerm (s : State) (p : PathId) : Nat :=
  if s.paths[p].sup.state == .fading then s.paths[p].setup.fadePenalty.toNat else 0

/-- The recovery penalty term (R48). -/
def recoveryTerm (s : State) (p : PathId) : Nat :=
  if s.paths[p].sup.recentlyFailed then s.paths[p].setup.recoveryPenalty.toNat else 0

/-- The effective latency of a path in service, absent otherwise (R47, R48). -/
def effectiveLatency (s : State) (p : PathId) : Option Nat :=
  if inService s p then
    some (s.paths[p].sup.estimate.toNat + serializationTerm s p + fadeTerm s p + recoveryTerm s p)
  else none

/-- The list entry of a path. -/
def rankEntry (s : State) (p : PathId) : RankEntry := ⟨p, selectable s p, effectiveLatency s p⟩

/-- An entry takes its place behind every entry of no greater latency (R51). -/
def placeByLatency (l : List RankEntry) (e : RankEntry) : List RankEntry :=
  let before (x : RankEntry) : Bool := x.latency.getD 0 ≤ e.latency.getD 0
  l.takeWhile before ++ [e] ++ l.dropWhile before

/-- The ranking list: selectable air paths by latency, P4 when selectable, the unselectable paths (R51). -/
def rankList (s : State) : List RankEntry :=
  let all := (List.finRange 5).map (rankEntry s)
  (all.filter fun e => e.selectable && isAir e.path).foldl placeByLatency []
  ++ all.filter (fun e => e.selectable && !isAir e.path) ++ all.filter (fun e => !e.selectable)

/-- The first entry when it is selectable (R53). -/
def headOf (l : List RankEntry) : Option PathId :=
  match l with
  | e :: _ => if e.selectable then some e.path else none
  | [] => none

/-- No air path is selectable (R55). -/
def fallbackHolds (s : State) : Bool := !(List.finRange 5).any fun p => isAir p && selectable s p

/-- What a head change does (R53). -/
def announceHead (h : Option PathId) (s : State) : State :=
  raiseCause 5 { s with
    ranking := { s.ranking with
      head := h, headChanges := satInc s.ranking.headChanges, lastHeadChange := some (stampNow s) }
    pulses := { s.pulses with pathSwitch := some 0 } }

/-- What a change of the fallback flag does (R55). -/
def announceFallback (f : Bool) (s : State) : State :=
  raiseCause 6 { s with
    ranking := { s.ranking with
      fallback := f
      fallbackEntries := if f then satInc s.ranking.fallbackEntries else s.ranking.fallbackEntries } }

/-- The recomputation (R50). -/
def rerank (s : State) : State :=
  let list := rankList s
  let fall := fallbackHolds s
  let t := { s with ranking := { s.ranking with list := list } }
  let t := if headOf list == s.ranking.head then t else announceHead (headOf list) t
  if fall == s.ranking.fallback then t else announceFallback fall t

end Sys2Proof.Machine
end

