-- ==== Sys2Proof/Machine/Lines.lean ====
section
/-! DEFINITION. Signal lines: output events and what they drive (R173), the rejection filter and the input events (R174). -/

namespace Sys2Proof.Machine

/-- An output event of Table 10-5. -/
def LineEvent.isOutput (e : LineEvent) : Bool :=
  match e with
  | .alarm | .critical | .fallback | .pathSwitch | .timeLocked | .ppsOut | .pathUp _ | .launchHeld => true
  | .none | .ppsIn | .forceFallback | .launchHold | .rainAlert => false

/-- The present state of an output event (Table 10-5). -/
def asserted (s : State) (e : LineEvent) : Bool :=
  match e with
  | .alarm => s.alarm.alarm
  | .critical => s.pulses.critical.isSome
  | .fallback => s.ranking.fallback
  | .pathSwitch => s.pulses.pathSwitch.isSome
  | .timeLocked => s.time.state == .locked
  | .ppsOut => s.pulses.ppsOut.isSome
  | .pathUp p => s.paths[p].sup.state.inService
  | .launchHeld => s.sel.launchHold
  | .none | .ppsIn | .forceFallback | .launchHold | .rainAlert => false

/-- The level an output line should show (R173); true is high. -/
def shownLevel (s : State) (x : Line) : Bool := asserted s x.event != x.activeLow

/-- The line drives its pin (R173). -/
def drives (s : State) (x : Line) : Bool := x.event.isOutput && (!x.openDrain || !shownLevel s x)

/-- The level at the pin: what the line drives, else what the outside puts there. -/
def pinLevel (s : State) (x : Line) : Bool := if drives s x then shownLevel s x else x.outside

/-- The filter follows the pin: at width 0 at once, else a difference starts its count and a return ends it (R174).
A line word that sets width 0 during a count thus takes the pin level at once, with no pulse (the model's choice, entry 38). -/
def followPin (pin : Bool) (x : Line) : Line :=
  if x.filtered == pin then { x with count := none }
  else if x.width == 0 then { x with filtered := pin, count := none }
  else { x with count := some (x.count.getD 0) }

/-- One line follows its pin. -/
def refreshLine (s : State) (l : LineId) : State := onLine l (followPin (pinLevel s s.lines[l])) s

/-- Every line follows its pin. -/
def refreshLines (s : State) : State := (List.finRange 8).foldl refreshLine s

/-- The line shows its active level (R174). -/
def Line.isActive (x : Line) : Bool := x.filtered != x.activeLow

/-- An input event is active; with no line it is inactive (R172, R174). -/
def inputActive (s : State) (e : LineEvent) : Bool := s.lines.toList.any fun x => x.event == e && x.isActive

/-- The three level inputs are handed to their consumers (Table 10-6). -/
def takeInputs (s : State) : State :=
  { s with
    ranking := { s.ranking with forced := inputActive s .forceFallback }
    sel := { s.sel with launchHold := inputActive s .launchHold, rainInput := inputActive s .rainAlert } }

end Sys2Proof.Machine
end

