-- ==== Sys2Proof/Machine/Status.lean ====
section
/-! DEFINITION. What the status records show (Table 11-2) and how it is laid out (R186); which record may be submitted (R178). -/

namespace Sys2Proof.Machine

/-- One field of a status record: its width in bits, its value, and whether its change alone marks no record. -/
structure Shown where
  width : Nat
  value : Nat
  silent : Bool
  deriving DecidableEq, Repr

/-! ## Forms of fields (R186) -/

/-- A value of 8 bits. -/
def f8 (v : Nat) : Shown := ⟨8, v, false⟩

/-- A value of 16 bits. -/
def f16 (v : Nat) : Shown := ⟨16, v, false⟩

/-- A value of 32 bits. -/
def f32 (v : Nat) : Shown := ⟨32, v, false⟩

/-- A value of 64 bits. -/
def f64 (v : Nat) : Shown := ⟨64, v, false⟩

/-- A flag. -/
def fFlag (b : Bool) : Shown := f8 (bit b)

/-- A signed value, in two's complement of 32 bits. -/
def fInt (v : Int) : Shown := f32 (BitVec.ofInt 32 v).toNat

/-- A 32-bit counter. -/
def fCount (c : BitVec 32) : Shown := f32 c.toNat

/-- A stamp: one whole stamp word. -/
def fStamp (t : Stamp) : Shown := f64 (stampWord t).toNat

/-- A field whose change alone marks no record. -/
def Shown.quiet (x : Shown) : Shown := { x with silent := true }

/-- A field that may be absent: its presence, then its value or 0. -/
def fOpt {α : Type} (f : α → Shown) (zero : Shown) (v : Option α) : List Shown :=
  match v with
  | some x => [f8 1, f x]
  | none => [f8 0, zero]

/-- A list: its count and one group for each place of its capacity. -/
def fList {α : Type} (capacity : Nat) (f : α → List Shown) (unused : List Shown) (l : List α) : List Shown :=
  f16 l.length :: (l.flatMap f ++ (List.replicate (capacity - l.length) unused).flatten)

/-! ## Contents (Table 11-2) -/

/-- Codes of answered and lost, good and bad, are those of a flag. -/
def fCopyName (c : Option RecordName) : List Shown :=
  match c with
  | some x => [f8 x.ring.val, f16 x.slot]
  | none => [f8 0, f16 0]

/-- One awaiting-answer entry: kind, copy, probe number, ticks left (R186). -/
def fAwait (e : AwaitEntry) : List Shown :=
  [f8 e.kind.code] ++ fCopyName e.copy ++ [f8 e.probe.toNat, f16 (1000 - e.ticks)]

/-- One channel: run flag and counter (R166). A tick alone marks nothing: Clock.lean takes it without comparing (entry 9). -/
def fChannel (c : Channel) : List Shown := [fFlag c.run, f8 c.counter.toNat]

/-- The path status record; the number of QUEUED copies takes 16 bits (entry 21) (R1, R27, R126, R127, R141, R155, R166, R44). -/
def pathFields (x : Path) : List Shown :=
  let u := x.sup
  let q := x.port
  [f8 u.state.code, f8 x.setup.role.code, f8 u.contract] ++ fOpt f8 (f8 0) u.target ++ [f8 u.ownMask.toNat]
  ++ fOpt (fun m => f8 m.toNat) (f8 0) u.farMask
  ++ [f8 u.lastOfferSent.toNat, f8 u.lastOfferReceived.toNat, f8 u.lastGrant.toNat, fFlag u.pending, f8 u.margin.toNat,
      f8 u.unitProfile, f8 u.unitState.code, f8 u.stepRun, f8 u.lastProbe.toNat]
  ++ fList 4 (fun e : ProbeEntry => [f8 e.number.toNat, fStamp e.sent]) [f8 0, f64 0] u.probeList
  ++ fList 8 (fun b : Bool => [fFlag b]) [f8 0] u.probeHistory
  ++ [fCount u.estimate, f8 u.estimateKind.code, f16 u.estimateCount.toNat]
  ++ fOpt fCount (f32 0) u.inbound
  ++ [fFlag u.recentlyFailed, fFlag u.mismatch, fFlag u.roleClash]
  ++ (match u.farStatus with
      | some b => [f8 1] ++ (List.range 4).map (fun k => f8 (b.extractLsb' (8 * k) 8).toNat)
      | none => [f8 0, f8 0, f8 0, f8 0, f8 0])
  ++ [fCount q.sent, fCount q.accepted, fCount q.rejected, fCount q.noAnswer, fCount q.received, fCount q.checkFailures,
      fCount u.probesLost, fCount q.lateAnswers]
  ++ fOpt (fun o : Offered => f8 o.mask.toNat) (f8 0) u.lastOffered
  ++ fOpt (fun o : Offered => f8 o.contract) (f8 0) u.lastOffered
  ++ [f8 u.lastGranted] ++ fOpt f8 (f8 0) u.farContract ++ [f8 u.lastQuery.toNat, f16 u.discardedGrants.toNat]
  ++ [f16 q.transmit.length, fCount q.insertDiscards, fCount x.wins] ++ fOpt fCount (f32 0) x.leadMargin
  ++ fList 4 fAwait [f8 0, f8 0, f16 0, f8 0, f16 0] q.awaiting
  ++ [f16 q.history.length, f16 (q.history.filter (fun g => !g)).length, fCount q.discards]
  ++ fChannel x.probe ++ fChannel x.silence ++ fChannel x.holdLow ++ fChannel x.holdHigh
  ++ (List.range 4).map (fun k => f8 (x.setup.statusBytes.extractLsb' (8 * k) 8).toNat)

/-- The four terms of R48 of a path in service, else zeros (R54). -/
def termFields (s : State) (p : PathId) : List Shown :=
  if inService s p then
    [fCount s.paths[p].sup.estimate, f16 (serializationTerm s p), f32 (fadeTerm s p), f32 (recoveryTerm s p)]
  else [f32 0, f16 0, f32 0, f32 0]

/-- The ranking status record (R54); a head of none is laid out as an absent value (entry 21). -/
def rankingFields (s : State) : List Shown :=
  let r := s.ranking
  fList 5 (fun e : RankEntry => [f8 e.path.val, fFlag e.selectable] ++ fOpt f64 (f64 0) e.latency) [] r.list
  ++ fOpt (fun p : PathId => f8 p.val) (f8 0) r.head ++ [fFlag r.fallback, fFlag r.forced]
  ++ [fCount r.headChanges, fCount r.fallbackEntries] ++ fOpt fStamp (f64 0) r.lastHeadChange
  ++ (List.finRange 5).flatMap (termFields s)

/-- The rate correction in force (R61). -/
def rateCorrection (t : TimeBase) : Int :=
  match t.slew with
  | some w => if w.forward then 500000 else -500000
  | none => t.trim

/-- The time status record (R71): Table 4-1 but the pulse age, with the rate correction; a part of a nanosecond left of a slew
shows as one (entry 21). -/
def timeFields (t : TimeBase) : List Shown :=
  [(fStamp ⟨t.value, .free⟩).quiet, f8 t.state.code, fInt t.trim]
  ++ (match t.slew with
      | some w => [f8 1, f8 (if w.forward then 0 else 1), (f32 ((w.rest + 999999999) / 1000000000)).quiet]
      | none => [f8 0, f8 0, (f32 0).quiet])
  ++ [fFlag t.trimHold, f8 t.lockRun] ++ fOpt fInt (f32 0) t.lastOffset
  ++ [f16 t.holdoverElapsed, fCount t.pulsesAccepted, fCount t.pulsesRejected, fCount t.steps, f32 t.lockThreshold,
      f16 t.holdoverLimit, fInt (rateCorrection t)]

/-- Section 12.6. -/
def InRingState.code : InRingState → Nat
  | .stopped => 0
  | .active => 1
  | .halted => 2

/-- The inbound ring status record (R148); `overflowed` is the overflow flag (R151). -/
def inRingFields (r : InRing) (overflowed : Bool) : List Shown :=
  [f8 r.state.code] ++ fOpt f16 (f16 0) r.slotCount
  ++ [f16 r.deposit.toNat, f16 r.assigned.toNat, f16 r.release.toNat, fCount r.overflow, fCount r.dropsStopped,
      fCount r.dropsFull, fCount r.dropsQueue, fFlag overflowed]

/-- Section 12.6. -/
def OutRingState.code : OutRingState → Nat
  | .capturing => 0
  | .halted => 1

/-- The slots of a ring, none while it has no slot table. -/
def OutRing.slots (r : OutRing) : List Slot := r.table.getD []

/-- The outbound ring status record (R99, R107, R116); the lengths of the class queues take 16 bits (entry 21). -/
def outRingFields (s : State) (n : RingId) : List Shown :=
  let r := s.outRings[n]
  let c := s.sel.counters[n]
  [f8 r.state.code] ++ fOpt f16 (f16 0) (r.table.map List.length)
  ++ [f16 r.outcomeCount.toNat, f16 r.assigned.toNat, fCount r.captures, fCount r.slotBusy, fCount r.partialHeader,
      fCount r.ringHalted, fCount r.badHeader, fCount r.refusedFull, fCount r.written, fCount r.discarded,
      f16 r.outcomes.length, f16 (r.slots.filter (·.captured)).length, f16 (r.slots.filter (·.refusal.isSome)).length,
      f8 s.sel.holdUrgent, f8 s.sel.holdNormal]
  ++ s.nextSequence.toList.map fCount
  ++ [fCount c.selections, fCount c.spills, fCount c.rainDuals, fCount c.singles, fCount c.launched, fCount c.rejected,
      fCount c.stale, fCount c.pinDown, fCount c.flushed]
  ++ [f16 s.sel.urgent.names.length, f16 s.sel.normal.names.length, fFlag s.sel.rainFlag, fFlag s.sel.rainInput,
      fFlag (rainAlert s), fFlag s.sel.launchHold]

/-- One divert filter (Table 8-5, R144). -/
def filterFields (f : DivertFilter) : List Shown :=
  [fFlag f.enabled, f8 f.streamValue.toNat, f8 f.streamMask.toNat, f8 f.typeValue.toNat, f8 f.typeMask.toNat,
   f8 f.action.code, f8 f.target.val, fCount f.hits]

/-- The stream status record but for the filters (R134). -/
def trackerFields (x : Stream) : List Shown :=
  [fFlag x.tracking, fCount x.highest, f16 x.gaps.length, f16 x.recent.length, fCount x.accepted, fCount x.duplicates,
   fCount x.lateFills, fCount x.lost, fCount x.tooLate, fCount x.resyncs, fCount x.disabledDiscards, f8 x.ring.val,
   f16 x.gapWindow.toNat, fFlag x.markers, fFlag x.enabled]

/-- The stream status record (R134, R144). -/
def streamFields (s : State) (i : StreamId) : List Shown :=
  trackerFields s.streams[i] ++ s.filters.toList.flatMap filterFields

/-- One alarm cause (R181): a change of the raise count alone marks nothing. -/
def causeFields (c : AlarmCause) : List Shown :=
  [fFlag c.pending, fFlag c.enabled, f8 c.level.toNat, (f16 c.raises.toNat).quiet]

/-- One line record in force, its filtered level and whether it is driving (R172). -/
def lineFields (s : State) (x : Line) : List Shown :=
  [f8 x.event.code, fFlag x.openDrain, fFlag x.activeLow, f8 (widthCode x.width), f8 (if x.filtered then 0 else 1),
   fFlag (drives s x)]

/-- The alarm status record (R181, R182, R172). -/
def alarmFields (s : State) : List Shown :=
  s.alarm.causes.toList.flatMap causeFields
  ++ [f8 s.alarm.threshold.toNat, fFlag s.alarm.inService, fFlag s.alarm.alarm]
  ++ s.lines.toList.flatMap (lineFields s)

/-- The masters-effective status record (R83). -/
def masterFields (s : State) : List Shown := s.mem.masters.toList.map fun m => f8 m.toNat

/-- One window entry. -/
def windowFields (w : Window) : List Shown :=
  [f32 w.base, f32 w.length, f8 w.kind.code, f8 w.number.val, f8 w.required.toNat, f8 w.writers.toNat, fFlag w.enabled]

/-- The windows-effective status record (R78, R79); entry 0 has kind code 7. -/
def windowTableFields (s : State) : List Shown :=
  [f32 (setupBase s), f32 Config.setupWords, f8 7, f8 0, f8 0, f8 0, f8 1]
  ++ s.mem.windows.toList.flatMap windowFields ++ [f32 s.mem.spanBase, f32 s.mem.spanLength]

/-- Section 12.6. -/
def LogState.code : LogState → Nat
  | .ready => 0
  | .failed => 1

/-- The fault-log status record (R89); without a FAULT_LOG window the capacity is laid out as an absent value (entry 21). -/
def logFields (s : State) : List Shown :=
  let l := s.log
  [f8 l.state.code, f16 l.entryCount.toNat, f16 l.releaseCount.toNat, fCount l.lost]
  ++ fList 4 (fun e : FaultEntry => [f64 e.word0.toNat, f64 e.word1.toNat]) [f64 0, f64 0] l.outstanding
  ++ [fFlag l.resetting]
  ++ (match l.lastAbort with
      | some a => [f8 1, f8 a.cause.code, f32 a.address, fStamp a.stamp]
      | none => [f8 0, f8 0, f32 0, f64 0])
  ++ fOpt f16 (f16 0) (logCapacity s)

/-- The fields of every record but the completion record (Table 11-2). -/
def recordFields (s : State) (r : RecordId) : List Shown :=
  let k := r.val
  if h : k < 5 then pathFields s.paths[k]
  else if k = 5 then rankingFields s
  else if k = 6 then timeFields s.time
  else if h : k < 11 then
    inRingFields s.inRings[k - 7] (s.alarm.causes[overflowCause ⟨k - 7, by omega⟩]).pending
  else if h : k < 15 then outRingFields s ⟨k - 11, by omega⟩
  else if h : k < 31 then streamFields s ⟨k - 15, by omega⟩
  else if k = 31 then alarmFields s
  else if k = 32 then masterFields s
  else if k = 33 then windowTableFields s
  else if k = 34 then logFields s
  else []

/-- What a record shows, but for the fields whose change alone marks nothing. -/
def marking (s : State) (r : RecordId) : List Nat :=
  ((recordFields s r).filter (fun f => !f.silent)).map (·.value)

/-! ## Layout (R186, Table 12-10) -/

/-- The offset of a record in the STATUS window. -/
def recordOffset (r : RecordId) : Nat :=
  let k := r.val
  if k < 5 then 64 * k
  else if k = 5 then 320
  else if k = 6 then 352
  else if k < 11 then 368 + 8 * (k - 7)
  else if k < 15 then 400 + 32 * (k - 11)
  else if k < 31 then 528 + 32 * (k - 15)
  else if k = 31 then 1040
  else if k = 32 then 1072
  else if k = 33 then 1080
  else if k = 34 then 1120
  else 1136

/-- The length of a record in words. -/
def recordLength (r : RecordId) : Nat :=
  let k := r.val
  if k < 5 then 64
  else if k = 5 then 32
  else if k = 6 then 16
  else if k < 11 then 8
  else if k < 31 then 32
  else if k = 31 then 32
  else if k = 32 then 8
  else if k = 33 then 40
  else if k = 34 then 16
  else 4

/-- The length of the status region map (section 12.6). -/
def statusMapLength : Nat := 1140

/-- The first multiple of `w` from `n` on. -/
def alignUp (n w : Nat) : Nat := (n + (w - 1)) / w * w

/-- Fields one after another, each at the first free multiple of its width; the next free bit and the bits so far. -/
def placeField (acc : Nat × Nat) (f : Shown) : Nat × Nat :=
  let at0 := alignUp acc.1 f.width
  (at0 + f.width, acc.2 ||| (f.value <<< at0))

/-- The bits of the fields, bit 0 being bit 0 of word 1. -/
def packFields (fs : List Shown) : Nat := (fs.foldl placeField (0, 0)).2

/-- Word 0 of a record (R186). -/
def recordHeader (s : State) (r : RecordId) : Word :=
  packWord [(0, s.status.records[r].updates.toNat), (16, s.identity.generation.toNat), (32, s.identity.site.toNat),
    (48, r.val)]

/-- Words 1 to 3 of the completion record (Table 12-10); number, command, result and stamp are 0 before any completion (entry
21). -/
def completionWords (s : State) : List Word :=
  let busy := bit s.cmd.busy.isSome
  match s.cmd.last with
  | some c =>
    [packWord [(0, c.number.toNat), (8, c.code.toNat), (16, c.result.code), (24, busy), (32, s.cmd.count.toNat)],
     stampWord c.stamp, 0]
  | none => [packWord [(24, busy), (32, s.cmd.count.toNat)], 0, 0]

/-- The words of a record after its header. -/
def recordBody (s : State) (r : RecordId) : List Word :=
  if r.val = 35 then completionWords s
  else
    let all := packFields (recordFields s r)
    (List.range (recordLength r - 1)).map fun i => BitVec.ofNat 64 (all >>> (64 * i))

/-- The words of a record at the base of the STATUS window (R178, R186), in the order they are issued: that it is the order of their
addresses is the model's choice (R95, entry 39). -/
def recordWords (s : State) (base : Nat) (r : RecordId) : List (Nat × Word) :=
  (recordHeader s r :: recordBody s r).zipIdx.map fun x => (base + recordOffset r + x.2, x.1)

/-! ## Submission (R94, R178) -/

/-- An entry for the record is queued or in its burst. -/
def recordBusy (s : State) (r : RecordId) : Bool := queuedOrBurst s fun e => e.source == .status r

/-- The status interval has passed since the last submission; it does not apply to the completion record (R177, R178). -/
def intervalPassed (s : State) (r : RecordId) : Bool :=
  r.val == 35 || (match s.status.records[r].submitted with
    | none => true
    | some t => t + s.identity.interval ≤ microNow s)

/-- The record is eligible (R178). -/
def eligible (s : State) (r : RecordId) : Bool :=
  s.status.records[r].changed && !recordBusy s r && intervalPassed s r

/-- The writer may submit: RUNNING with a STATUS window enabled (R178). -/
def writerReady (s : State) : Bool := s.status.running && (windowOf s .status 0).isSome

/-- The front outcome of a ring may be submitted but for a free place (R110). -/
def outcomeReady (s : State) (n : RingId) : Bool :=
  s.outRings[n].state == .capturing && (windowOf s .outcome n).isSome && !s.outRings[n].outcomes.isEmpty

/-- The oldest outstanding fault entry not yet submitted (R90). -/
def faultWaiting (s : State) : Option FaultEntry := s.log.outstanding.find? fun e => !e.submitted

/-- The earlier of two eligible records: the one that became eligible first, then the order of the map (R178). -/
def earlierRecord (s : State) (best : Option RecordId) (r : RecordId) : Option RecordId :=
  match s.status.records[r].since, best with
  | none, b => b
  | some _, none => some r
  | some t, some b => if t < s.status.records[b].since.getD 0 then some r else some b

/-- The status or completion record that R178 selects. -/
def statusCandidate (s : State) : Option RecordId :=
  if writerReady s then (List.finRange 36).foldl (earlierRecord s) none else none

/-- The ring of the earlier front request (R110). -/
def earlierRing (s : State) (best : Option RingId) (n : RingId) : Option RingId :=
  if outcomeReady s n then
    match best with
    | none => some n
    | some b =>
      if (s.outRings[n].outcomes.head?.map (·.request)).getD 0 < (s.outRings[b].outcomes.head?.map (·.request)).getD 0
      then some n else some b
  else best

/-- The ring whose front outcome R110 selects. -/
def outcomeCandidate (s : State) : Option RingId := (List.finRange 4).foldl (earlierRing s) none

/-- The event from which each source's offer could first have been submitted; absent with no offer (R94). -/
def offerSince (s : State) : Option Nat × Option Nat × Option Nat :=
  (match faultWaiting s with
    | some _ => some (s.log.since.getD 0)
    | none => none,
   match outcomeCandidate s with
    | some n => some (s.outRings[n].since.getD 0)
    | none => none,
   match statusCandidate s with
    | some r => some (max (s.status.records[r].since.getD 0) (s.status.since.getD 0))
    | none => none)

/-- No later than an offer that may be absent. -/
def noLater (t : Nat) (o : Option Nat) : Bool :=
  match o with
  | some u => t ≤ u
  | none => true

/-- Earlier than an offer that may be absent. -/
def sooner (t : Nat) (o : Option Nat) : Bool :=
  match o with
  | some u => t < u
  | none => true

/-- The place of the report part goes to the fault entry (R94). -/
def faultWins (s : State) : Bool :=
  match offerSince s with
  | (some t, o, r) => reportFree s && noLater t o && noLater t r
  | (none, _, _) => false

/-- The place goes to the outcome record (R94). -/
def outcomeWins (s : State) : Bool :=
  match offerSince s with
  | (f, some t, r) => reportFree s && sooner t f && noLater t r
  | (_, none, _) => false

/-- The place goes to the status or completion record (R94). -/
def statusWins (s : State) : Bool :=
  match offerSince s with
  | (f, o, some t) => reportFree s && sooner t f && sooner t o
  | (_, _, none) => false

end Sys2Proof.Machine
end

