-- ==== Sys2Proof/Machine/Settle.lean ====
section
/-! DEFINITION. What every event brings with it, whichever it is: lines follow their pins, inputs reach their consumers, the
ranking and the alarm outputs are recomputed, changed records are marked, and the records that may be submitted are dated
(entries 8 and 9). -/

namespace Sys2Proof.Machine

/-- RAIN_CHANGE at each change of the rain alert (R122). -/
def announceRain (old : State) (s : State) : State :=
  if rainAlert s == rainAlert old then s else raiseCause 19 s

/-- Every record whose content changed at the event is marked. -/
def markChanges (old : State) (s : State) : State :=
  let changed := (List.finRange 36).filter fun r => !(marking s r == marking old r)
  changed.foldl (fun s r => markRecord r s) s

/-- A date: kept while the condition holds, this event when it begins, absent otherwise. -/
def date (s : State) (holds : Bool) (old : Option Nat) : Option Nat :=
  if holds then some (old.getD s.events) else none

/-- The dates R94 and R178 compare. -/
def dateOffers (s : State) : State :=
  { s with
    status := { s.status with
      since := date s (writerReady s) s.status.since
      records := Vector.ofFn fun r : RecordId =>
        { s.status.records[r] with since := date s (eligible s r) s.status.records[r].since } }
    log := { s.log with since := date s (faultWaiting s).isSome s.log.since }
    outRings := Vector.ofFn fun n : RingId =>
      { s.outRings[n] with since := date s (outcomeReady s n) s.outRings[n].since } }

/-- The consequences of an event that took the state from `old` to `s`, in this order (entry 8). -/
def settle (old : State) (s : State) : State :=
  let t := refreshLines s |> takeInputs |> announceRain old |> rerank |> refreshAlarm |> refreshLines |> markChanges old
    |> dateOffers
  { t with events := t.events + 1 }

end Sys2Proof.Machine
end

