-- ==== Sys2Proof/Machine/Selector.lean ====
section
/-! DEFINITION. The launch selector (chapter 7): selection, ageing, answers of copies, OUT_FLUSH's flush. -/

namespace Sys2Proof.Machine

/-- What a selection would do with the front record of a class queue (R118). -/
inductive Choice where
  | wait
  | pinDown
  | place (paths : List PathId) (spill single rain : Bool)
  deriving DecidableEq, Repr

/-- The transmit queue of a path has room (R119). -/
def hasRoom (s : State) (p : PathId) : Bool := s.paths[p].port.transmit.length < 8

/-- The path's entry of the ranking list is marked selectable (R57). -/
def listedSelectable (s : State) (p : PathId) : Bool := s.ranking.list.any fun e => e.path == p && e.selectable

/-- The selectable air paths in ranking order. -/
def airCandidates (s : State) : List PathId :=
  (s.ranking.list.filter fun e => e.selectable && isAir e.path).map (·.path)

/-- The candidate list of a FASTEST record, or of a DUAL one (R119). -/
def candidates (s : State) (dual : Bool) : List PathId :=
  let air := airCandidates s
  if (air.isEmpty || (dual && air.length == 1)) && listedSelectable s 4 then air ++ [4] else air

/-- R120, the rain alert inactive. -/
def chooseFastest (s : State) : Choice :=
  match candidates s false with
  | [] => .wait
  | h :: rest =>
    if hasRoom s h then .place [h] false false false
    else if s.sel.spill then
      match rest.find? (hasRoom s) with
      | some p => .place [p] true false false
      | none => .wait
    else .wait

/-- R121; `rain` when a FASTEST record is placed as DUAL (R120). -/
def chooseDual (s : State) (rain : Bool) : Choice :=
  match candidates s true with
  | [] => .wait
  | [p] => if hasRoom s p then .place [p] false true rain else .wait
  | cs =>
    match cs.filter (hasRoom s) with
    | a :: b :: _ => .place [a, b] false false rain
    | _ => .wait

/-- R123. -/
def choosePinned (s : State) (p : PathId) : Choice :=
  if !listedSelectable s p then .pinDown else if hasRoom s p then .place [p] false false false else .wait

/-- R123, GROUND. -/
def chooseGround (s : State) : Choice :=
  if listedSelectable s 4 && hasRoom s 4 then .place [4] false false false else .wait

/-- What a selection would do with a record, by its mode. -/
def choose (s : State) (r : LaunchRecord) : Choice :=
  match r.mode with
  | .fastest => if rainAlert s then chooseDual s true else chooseFastest s
  | .dual => chooseDual s false
  | .pinned =>
    match r.pinned with
    | some p => choosePinned s p
    | none => .wait
  | .ground => chooseGround s

/-- The front record of a class queue with what a selection would do with it. -/
def frontChoice (s : State) (c : LaunchClass) : Option (LaunchRecord × Choice) :=
  match (classQueue s c).names with
  | [] => none
  | x :: _ =>
    match recordNamed s x with
    | none => none
    | some r =>
      match choose s r with
      | .wait => none
      | k => some (r, k)

/-- The selection that is possible, URGENT first (R118). -/
def nextSelection (s : State) : Option (LaunchRecord × Choice) :=
  if s.sel.launchHold then none
  else
    match frontChoice s .urgent with
    | some k => some k
    | none => frontChoice s .normal

/-- The ring's counters at a placing (R119 to R121). -/
def SelectorCounters.placed (c : SelectorCounters) (spill single rain : Bool) : SelectorCounters :=
  { c with
    selections := satInc c.selections
    spills := if spill then satInc c.spills else c.spills
    rainDuals := if rain then satInc c.rainDuals else c.rainDuals
    singles := if single then satInc c.singles else c.singles }

/-- A copy joins the end of a path's transmit queue (R119). -/
def joinTransmit (x : RecordName) (s : State) (p : PathId) : State :=
  onPort p (fun q => { q with transmit := q.transmit ++ [x] }) s

/-- A record gets its copies (R119). -/
def placeCopies (r : LaunchRecord) (ps : List PathId) (spill single rain : Bool) (s : State) : State :=
  let placed := { r with
    copies := ps.map fun p => ⟨p, .queued, none⟩
    spill := r.spill || spill
    single := r.single || single
    rain := r.rain || rain }
  ps.foldl (joinTransmit r.name) (putRecord placed s |> onQueue r.cls (·.without r.name)
    |> onCounters r.name.ring (·.placed spill single rain))

/-- SELECTION (R118); no effect when none is possible. A selection that gives PIN_DOWN places no copy and is not counted in the
ring's selections (the model's choice, entry 37). -/
def doSelection (s : State) : State :=
  match nextSelection s with
  | none => s
  | some (r, .place ps spill single rain) => placeCopies r ps spill single rain s
  | some (r, .pinDown) => requestOutcome r .pinDown s
  | some (_, .wait) => s

/-! ## Ageing (R125) -/

/-- One queued record, made STALE when its deadline has been passed. -/
def ageOne (s : State) (x : RecordName) : State :=
  match recordNamed s x with
  | some r => if r.isPast s.time.value then requestOutcome r .stale s else s
  | none => s

/-- Every queued record whose deadline has been passed, URGENT first (R125). -/
def ageRecords (s : State) : State := (s.sel.urgent.names ++ s.sel.normal.names).foldl ageOne s

/-! ## Answers (R130) -/

/-- A copy answered: ACCEPTED or FAILED. -/
def Copy.answered (c : Copy) (p : PathId) (ok : Bool) : Copy :=
  if c.path == p && c.state == .sent then { c with state := if ok then .accepted else .failed } else c

/-- The launch stamp of the copy on path `p`. -/
def LaunchRecord.launchOn (r : LaunchRecord) (p : PathId) : Option Stamp :=
  (r.copies.find? fun c => c.path == p).bind (·.launch)

/-- The answer of a copy handed to the selector (R130). -/
def answerCopy (p : PathId) (ok : Bool) (x : RecordName) (s : State) : State :=
  match recordNamed s x with
  | none => s
  | some r =>
    let done := { r with
      copies := r.copies.map fun c => c.answered p ok
      firstAccepted := if ok && r.firstAccepted.isNone then r.launchOn p else r.firstAccepted }
    settleCopies done (putRecord done s)

/-! ## OUT_FLUSH (R133) -/

/-- The queued records of ring `n`, URGENT first, each queue from front to back. -/
def flushable (s : State) (n : RingId) : List LaunchRecord :=
  ((s.sel.urgent.names ++ s.sel.normal.names).filterMap (recordNamed s)).filter fun r => r.name.ring == n

/-- Their outcomes FLUSHED are requested. -/
def flushRecords (n : RingId) (s : State) : State :=
  (flushable s n).foldl (fun s r => requestOutcome r .flushed s) s

end Sys2Proof.Machine
end

