-- ==== Sys2Proof/Machine/Merge.lean ====
section
/-! DEFINITION. The merge and the inbound deposit (chapter 8): arrivals, gap expiry, divert filters, dropped and submitted delivery
records. -/

namespace Sys2Proof.Machine

/-! ## Inbound deposit (R147, R151) -/

/-- Why a delivery record was dropped (R147). -/
inductive DropReason where
  | stopped | full | queue
  deriving DecidableEq, Repr

/-- The counts of a ring at a drop (R151). -/
def InRing.dropped (r : InRing) (why : DropReason) : InRing :=
  let c := { r with overflow := satInc r.overflow }
  match why with
  | .stopped => { c with dropsStopped := satInc r.dropsStopped }
  | .full => { c with dropsFull := satInc r.dropsFull }
  | .queue => { c with dropsQueue := satInc r.dropsQueue }

/-- A record dropped for ring `n`; the overflow flag is the pending flag of IRn_OVERFLOW (R151). -/
def dropRecord (n : RingId) (why : DropReason) (s : State) : State :=
  raiseCause (overflowCause n) (onInRing n (·.dropped why) s)

/-- Several records dropped for ring `n`. -/
def dropRecords (n : RingId) (why : DropReason) (count : Nat) (s : State) : State :=
  (List.range count).foldl (fun s _ => dropRecord n why s) s

/-- A delivery record handed to the deposit for ring `n` (R147). -/
def handRecord (rec : Delivery) (s : State) (n : RingId) : State :=
  let r := s.inRings[n]
  match r.state, r.slotCount, windowOf s .inbound n with
  | .active, some slots, some e =>
    if (r.assigned - r.release).toNat == slots then dropRecord n .full s
    else if 16 ≤ depositCount s then dropRecord n .queue s
    else
      let c := r.assigned.toNat
      let base := s.mem.windows[e].base + 8 * (c % slots)
      onInRing n (fun r => { r with assigned := r.assigned + 1 })
        (enqueue ⟨.delivery n, e, deliveryWords base (c / slots % 256) rec⟩ s)
  | _, _, _ => dropRecord n .stopped s

/-! ## Divert filters (R145) -/

/-- The record's type: byte 0 of its payload, or 0. -/
def Delivery.type (r : Delivery) : Byte := r.payload.headD 0

/-- An enabled filter that matches the record. -/
def DivertFilter.matches (f : DivertFilter) (r : Delivery) : Bool :=
  f.enabled && (BitVec.ofNat 4 r.stream.val ^^^ f.streamValue) &&& f.streamMask == 0
    && (r.type ^^^ f.typeValue) &&& f.typeMask == 0

/-- The record with flag DIVERTED. -/
def Delivery.divertedTo (r : Delivery) : Delivery := { r with flags := { r.flags with diverted := true } }

/-- A delivery record goes through the filters to the rings of Table 8-6. -/
def deliver (rec : Delivery) (s : State) : State :=
  let mapped := s.streams[rec.stream].ring
  match (List.finRange 8).find? fun i => s.filters[i].matches rec with
  | none => handRecord rec s mapped
  | some i =>
    let f := s.filters[i]
    let t := onFilter i (fun f => { f with hits := satInc f.hits }) s
    match f.action with
    | .divert => handRecord (if f.target == mapped then rec else rec.divertedTo) t f.target
    | .copy =>
      if f.target == mapped then handRecord rec t mapped
      else handRecord rec.divertedTo (handRecord rec t mapped) f.target
    | .discard => t

/-! ## Arrivals (R136 to R141) -/

/-- No flag set but TIME_SUSPECT, by the stamp's quality (R75). -/
def plainFlags (st : Stamp) : DeliveryFlags := ⟨false, false, false, false, false, !(st.quality == .locked)⟩

/-- A sequence joins the recent list, at most 32 (R140). -/
def joinRecent (l : List Recent) (e : Recent) : List Recent :=
  if l.length < 32 then l ++ [e] else l.drop 1 ++ [e]

/-- The tracker's side of an acceptance (R137). -/
def Stream.accept (x : Stream) (q : BitVec 32) (p : PathId) (st : Stamp) : Stream :=
  { x with accepted := satInc x.accepted, recent := joinRecent x.recent ⟨q, p, st⟩ }

/-- The gap entries a skip opens: lowest sequences first, as many as there is room for (R138). -/
def skipEntries (x : Stream) (skipped : Nat) (st : Stamp) : List Gap :=
  (List.range (min skipped (16 - x.gaps.length))).map fun i =>
    ⟨x.highest + BitVec.ofNat 32 (i + 1), st, ⟨st.time + x.gapWindow.toNat * 1000, st.quality⟩⟩

/-- A tracker cleared (R134, R143): IDLE with empty lists. -/
def Stream.clear (x : Stream) : Stream := { x with tracking := false, gaps := [], recent := [] }

/-- The cases of Table 8-3. -/
inductive ArrivalCase where
  | first | following | skip (skipped : Nat) | resync | lateFill | duplicate (e : Recent) | tooLate
  deriving DecidableEq, Repr

/-- The first case of Table 8-3 that holds. -/
def arrivalCase (x : Stream) (q : BitVec 32) : ArrivalCase :=
  let d := (q - x.highest).toInt
  if !x.tracking then .first
  else if d = 1 then .following
  else if 2 ≤ d ∧ d ≤ 4096 then .skip (d.toNat - 1)
  else if 4096 < d ∨ d < -4096 then .resync
  else if x.gaps.any (fun g => g.sequence == q) then .lateFill
  else
    match x.recent.find? fun e => e.sequence == q with
    | some e => .duplicate e
    | none => .tooLate

/-- One eighth of the way from `old` to `sample`, truncated toward zero (R22, R23, R141). -/
def eighth (old sample : Int) : Int := old + (sample - old).tdiv 8

/-- A 32-bit figure from an integer known to fit. -/
def bits32 (v : Int) : BitVec 32 := BitVec.ofInt 32 v

/-- The race credited to the first path (R141). -/
def creditRace (q : PathId) (sample : Nat) (s : State) : State :=
  let lead := min sample Config.maxNs
  onPath q (fun x => { x with
    wins := satInc x.wins
    leadMargin := match x.leadMargin with
      | none => some (BitVec.ofNat 32 lead)
      | some m => some (bits32 (eighth m.toNat lead)) }) s

/-- A delivery record of an accepted arrival (R146). -/
def arrivalRecord (i : StreamId) (p : PathId) (q : BitVec 32) (st : Stamp) (payload : List Byte) : Delivery :=
  ⟨i, some p, q, st, payload, plainFlags st⟩

/-- An accepted arrival takes its new highest and is delivered (R137). -/
def acceptArrival (i : StreamId) (p : PathId) (q : BitVec 32) (st : Stamp) (rec : Delivery) (s : State) : State :=
  onStream i (fun x => { x.accept q p st with tracking := true, highest := q }) s |> deliver rec

/-- An arrival of an enabled stream (R137). -/
def arrival (i : StreamId) (p : PathId) (q : BitVec 32) (st : Stamp) (payload : List Byte) (s : State) : State :=
  let x := s.streams[i]
  let rec0 := arrivalRecord i p q st payload
  match arrivalCase x q with
  | .first => acceptArrival i p q st rec0 s
  | .following => acceptArrival i p q st rec0 s
  | .skip skipped =>
    let opened := skipEntries x skipped st
    let unheld := skipped - opened.length
    let t := onStream i (fun x => { x with gaps := x.gaps ++ opened, lost := satAdd x.lost unheld }) s
    acceptArrival i p q st { rec0 with flags := { rec0.flags with skipped := unheld != 0 } }
      (if unheld == 0 then t else raiseCause 12 t)
  | .resync =>
    let t := onStream i (fun x =>
      { x.clear with lost := satAdd x.lost x.gaps.length, resyncs := satInc x.resyncs }) s
    acceptArrival i p q st { rec0 with flags := { rec0.flags with resync := true } }
      (if x.gaps.isEmpty then t else raiseCause 12 t)
  | .lateFill =>
    onStream i (fun x => { x.accept q p st with
      gaps := x.gaps.filter (fun g => !(g.sequence == q)), lateFills := satInc x.lateFills }) s
    |> deliver { rec0 with flags := { rec0.flags with lateFill := true } }
  | .duplicate e =>
    let t := onStream i (fun x => { x with duplicates := satInc x.duplicates }) s
    if e.path == p then t else creditRace e.path (st.time - e.stamp.time) t
  | .tooLate => onStream i (fun x => { x with tooLate := satInc x.tooLate }) s

/-- A good DATA frame handed to the merge (R136). -/
def mergeFrame (p : PathId) (h : FrameHeader) (payload : List Byte) (st : Stamp) (s : State) : State :=
  let i : StreamId := Fin.ofNat 16 h.stream
  if s.streams[i].enabled then arrival i p h.sequence st payload s
  else onStream i (fun x => { x with disabledDiscards := satInc x.disabledDiscards }) s

/-! ## Gap expiry (R142) -/

/-- A loss marker (R142, R75). -/
def lossMarker (i : StreamId) (q : BitVec 32) (st : Stamp) : Delivery :=
  ⟨i, none, q, st, [], { plainFlags st with lost := true }⟩

/-- One gap entry expires, already removed from the list. -/
def expireGap (i : StreamId) (s : State) (g : Gap) : State :=
  let t := raiseCause 12 (onStream i (fun x => { x with lost := satInc x.lost }) s)
  if t.streams[i].markers then deliver (lossMarker i g.sequence (stampNow t)) t else t

/-- The gap entry's expiry stamp has been passed. -/
def Gap.isPast (g : Gap) (now : Time) : Bool := g.expiry.time < now

/-- Every passed gap entry of a stream expires, in list order (R142). -/
def expireStream (s : State) (i : StreamId) : State :=
  let now := s.time.value
  let passed := s.streams[i].gaps.filter (·.isPast now)
  passed.foldl (expireGap i) (onStream i (fun x => { x with gaps := x.gaps.filter fun g => !g.isPast now }) s)

/-- Every deadline that the time value has passed: stale records, then gap entries stream by stream (R62, entry 10). -/
def passDeadlines (s : State) : State := (List.finRange 16).foldl expireStream (ageRecords s)

end Sys2Proof.Machine
end

