-- ==== Sys2Proof/Machine/Time.lean ====
section
/-! DEFINITION. The time base (chapter 4): moves of the time value, slews, discipline states, pulses, the watchdog, and the advance
from the reference clock. -/

namespace Sys2Proof.Machine

/-! ## Moves of the time value (R62, R76) -/

/-- The time value takes a greater or equal value: PPS_OUT when the seconds increase (R76), then the deadlines it passes. -/
def moveTime (v : Time) (s : State) : State :=
  let t := { s with time := { s.time with value := v } }
  let t := if s.time.value / Config.second < v / Config.second then
      { t with pulses := { t.pulses with ppsOut := some 0 } }
    else t
  passDeadlines t

/-- The nearest value the time base can hold (R62). -/
def atMost (v : Time) : Time := min v Config.maxTime

/-! ## Slews (R63) -/

/-- The slew of an amount: forward when positive, none for 0 (R63, R64). -/
def slewOf (amount : Int) : Option Slew :=
  if amount = 0 then none else some ⟨decide (0 < amount), amount.natAbs * 1000000000⟩

/-- What the remaining offset shrinks by in one nanosecond of reference time, in billionths (R63). -/
def slewShrink (w : Slew) (trim : Int) : Nat :=
  if w.forward then (500000 - trim).toNat else (500000 + trim).toNat

/-- The slew rate (R61). -/
def slewRate (w : Slew) : Int := if w.forward then 500000 else -500000

/-- The time status record is marked: the start and the end of a slew (R63), a step, an accepted or a rejected pulse (R71). -/
def markTime (s : State) : State := markRecord 6 s

/-- A slew is started, or with amount 0 ended (R63). -/
def startSlew (amount : Int) (s : State) : State :=
  let t := { s with time := { s.time with slew := slewOf amount } }
  if s.time.slew.isSome || t.time.slew.isSome then markTime t else t

/-- The value after `n` nanoseconds of reference time, its part below a nanosecond, and the slew left (R62, R63). -/
def advanced (t : TimeBase) (n : Nat) : Time × Nat × Option Slew :=
  let finish (billionths : Int) (w : Option Slew) : Time × Nat × Option Slew :=
    let total := t.fraction + billionths.toNat
    let v := t.value + total / 1000000000
    if Config.maxTime ≤ v then (Config.maxTime, 0, w) else (v, total % 1000000000, w)
  match t.slew with
  | none => finish (n * (1000000000 + t.trim)) none
  | some w =>
    let shrink := slewShrink w t.trim
    if shrink ≠ 0 ∧ w.rest ≤ n * shrink then
      finish (n * (1000000000 + t.trim) + (if w.forward then (w.rest : Int) else -(w.rest : Int))) none
    else finish (n * (1000000000 + slewRate w)) (some { w with rest := w.rest - n * shrink })

/-- The time value advances by `n` nanoseconds of reference time; at its greatest value it holds (R62, entry 5). -/
def advanceTime (n : Nat) (s : State) : State :=
  if s.time.value = Config.maxTime then s
  else
    let a := advanced s.time n
    let t := { s with time := { s.time with fraction := a.2.1, slew := a.2.2 } }
    let t := if s.time.slew.isSome && a.2.2.isNone then markTime t else t
    moveTime a.1 t

/-- The reference time after which the slew in progress ends (R63). -/
def slewLeft (t : TimeBase) : Option Nat :=
  match t.slew with
  | none => none
  | some w =>
    let shrink := slewShrink w t.trim
    if shrink = 0 then none else some ((w.rest + (shrink - 1)) / shrink)

/-! ## Discipline states (R71) -/

/-- The inbound one-way estimates of all paths become absent (R23). -/
def clearInbound (s : State) : State :=
  (List.finRange 5).foldl (fun s p => onSup p (fun u => { u with inbound := none }) s) s

/-- A change of discipline state (R71). -/
def setDiscipline (q : Quality) (s : State) : State :=
  if s.time.state == q then s
  else
    let t := raiseCause 7 { s with time := { s.time with state := q } }
    if s.time.state == .locked then clearInbound t else t

/-! ## Pulses (R66 to R69) -/

/-- The pulse is accepted (R66). -/
def pulseAccepted (t : TimeBase) : Bool :=
  match t.pulseAge with
  | none => true
  | some a => 900 ≤ a

/-- The captured time: the reading less the rejection width in microseconds (R66). -/
def captured (t : TimeBase) (width : Nat) : Int := (t.value : Int) - (width * 1000 : Nat)

/-- The signed distance from the nearest whole second (R67). -/
def pulseOffset (c : Int) : Int :=
  let n := c % 1000000000
  if n < 500000000 then n else n - 1000000000

/-- The trim held within its bounds (R69). -/
def clampTrim (v : Int) : Int := max (-500000) (min 500000 v)

/-- The trim may move at this pulse (R69). -/
def trimMoves (t : TimeBase) (offset : Int) : Bool :=
  (t.state == .acquire || t.state == .locked) && t.slew.isNone && !t.trimHold && decide (offset.natAbs ≤ 4000000)

/-- The pulse is within the lock threshold (R67). -/
def withinThreshold (t : TimeBase) (offset : Int) : Bool := decide (offset.natAbs ≤ t.lockThreshold)

/-- The lock run takes a value. -/
def setLockRun (n : Nat) (s : State) : State := { s with time := { s.time with lockRun := n } }

/-- The rows of ACQUIRE beyond the threshold (Table 4-3); a step marks the time status record, also where the steps count holds at
its maximum (R71). -/
def acquireBeyond (offset : Int) (s : State) : State :=
  let t := setLockRun 0 s
  if offset < 0 then
    let t := markTime (startSlew 0 { t with time := { t.time with steps := satInc t.time.steps } })
    moveTime (atMost (t.time.value + offset.natAbs)) t
  else startSlew (-offset) t

/-- The row of ACQUIRE within the threshold (Table 4-3). -/
def acquireWithin (offset : Int) (s : State) : State :=
  let run := min 4 (s.time.lockRun + 1)
  let t := startSlew (-offset) (setLockRun run s)
  if run = 4 then setDiscipline .locked t else t

/-- What an accepted pulse does after the trim has moved (Table 4-3). -/
def pulseByState (offset : Int) (s : State) : State :=
  let near := withinThreshold s.time offset
  match s.time.state with
  | .free | .holdover =>
    let t := setDiscipline .acquire (setLockRun 0 { s with time := { s.time with holdoverElapsed := 0, holdoverMs := 0 } })
    if near then startSlew (-offset) t else acquireBeyond offset t
  | .acquire => if near then acquireWithin offset s else acquireBeyond offset s
  | .locked => if near then startSlew (-offset) s else acquireBeyond offset (setDiscipline .acquire s)

/-- A pulse through a line of the given rejection width (R66 to R69); accepted or rejected, it marks the time status record, also
where its count holds at its maximum (R71, entry 9). -/
def takePulse (width : Nat) (s : State) : State :=
  if pulseAccepted s.time then
    let offset := pulseOffset (captured s.time width)
    let moved := if trimMoves s.time offset then clampTrim (s.time.trim - offset.tdiv 8) else s.time.trim
    pulseByState offset (markTime { s with time := { s.time with
      pulsesAccepted := satInc s.time.pulsesAccepted, pulseAge := some 0, lastOffset := some offset
      trim := moved, trimHold := false } })
  else markTime { s with time := { s.time with pulsesRejected := satInc s.time.pulsesRejected } }

/-! ## The watchdog and the holdover limit (R70) -/

/-- The pulse age reaches 1,500 ms (R70). -/
def watchdogFires (s : State) : State :=
  match s.time.state with
  | .locked => setDiscipline .holdover { s with time := { s.time with holdoverElapsed := 0, holdoverMs := 0 } }
  | .acquire => setDiscipline .free (setLockRun 0 s)
  | .free | .holdover => s

/-- The holdover elapsed reaches the limit (R70). -/
def limitReached (s : State) : State :=
  if s.time.state == .holdover && s.time.holdoverLimit ≤ s.time.holdoverElapsed then setDiscipline .free s else s

/-! ## The rows of the time base -/

/-- PULSE_WATCHDOG (R70): the watched age is brought to 1,500 ms (entry 2). -/
def doPulseWatchdog (s : State) : State :=
  if s.time.state == .acquire || s.time.state == .locked then
    watchdogFires { s with time := { s.time with pulseAge := some (max 1500 (s.time.pulseAge.getD 0)) } }
  else s

/-- HOLDOVER_LIMIT (R70): the elapsed seconds are brought to the limit (entry 2). -/
def doHoldoverLimit (s : State) : State :=
  if s.time.state == .holdover then
    limitReached { s with time := { s.time with holdoverElapsed := max s.time.holdoverLimit s.time.holdoverElapsed } }
  else s

/-- SLEW_END (R63): the time value advances by what the slew has left (entry 2). -/
def doSlewEnd (s : State) : State :=
  match slewLeft s.time with
  | some n => advanceTime n s
  | none => s

/-- PPS_OUT (R76): the time value advances to its next whole second; a slew keeps its remaining offset (entry 2). -/
def doPpsOut (s : State) : State :=
  let v := (s.time.value / Config.second + 1) * Config.second
  if v ≤ Config.maxTime then moveTime v { s with time := { s.time with fraction := 0 } } else s

/-- The earliest of some times. -/
def earliest (l : List Time) : Option Time := l.min?

/-- The time value advances to just past a deadline, unless it has passed it, and a slew keeps its remaining offset (entry 2); then
every passed deadline falls due. -/
def passTime (d : Time) (s : State) : State :=
  if d < s.time.value then passDeadlines s
  else if d < Config.maxTime then moveTime (d + 1) { s with time := { s.time with fraction := 0 } }
  else s

/-- GAP_EXPIRY (R142): the earliest gap entry of the stream expires. -/
def doGapExpiry (i : StreamId) (s : State) : State :=
  match earliest (s.streams[i].gaps.map (·.expiry.time)) with
  | some d => passTime d s
  | none => s

/-- AGEING (R125): the earliest deadline of a queued record is passed. -/
def doAgeing (s : State) : State :=
  match earliest (((s.sel.urgent.names ++ s.sel.normal.names).filterMap (recordNamed s)).filterMap (·.deadline)) with
  | some d => passTime d s
  | none => s

end Sys2Proof.Machine
end

