-- ==== Sys2Proof/Machine/Contract.lean ====
section
/-! DEFINITION. Changes of a path's state (chapter 1) and the contract exchange (chapter 2). -/

namespace Sys2Proof.Machine

/-! ## Path states (R24, R10) -/

/-- A change of a path's state is announced (R24). -/
def setPathState (p : PathId) (x : PathState) (s : State) : State :=
  if s.paths[p].sup.state == x then s
  else raiseCause (pathCause p) (onSup p (fun u => { u with state := x }) s)

/-- The ranking is recomputed within an event that has changed one of its inputs since `old`, and its record is marked when it shows
anything else than then: a reorder behind the head, a term, a head or fallback change (R50, R53, R54). -/
def rerankSince (old s : State) : State :=
  let t := rerank s
  if marking t 5 == marking old 5 then t else markRecord 5 t

/-- The fade conditions are evaluated (R10). An event may evaluate them more than once, so each evaluation gives the ranking the
state it leaves (R24, R50). -/
def evaluateFade (p : PathId) (s : State) : State :=
  if isAir p && s.paths[p].sup.state.inService then
    rerankSince s (setPathState p (if fadeHolds s.paths[p] then .fading else .up) s)
  else s

/-- Entry to service by the fade test (R9); the ground path is never FADING (R16). -/
def enterService (p : PathId) (s : State) : State :=
  if isAir p then setPathState p (if fadeHolds s.paths[p] then .fading else .up) s
  else setPathState p .up s |> runSilence p

/-- Entry to DOWN: the probe channel is preset and run, silence is stopped (R3, R13, R14); the last offered mask becomes
absent (Table 2-2). -/
def enterDown (p : PathId) (s : State) : State :=
  setPathState p .down s |> runProbe p |> stopSilence p |> onSup p (fun u => { u with lastOffered := none })

/-- What entry to HELD and to DISABLED have in common (R4, R12): the contract is given up, the probe list emptied, the probe and
silence channels stopped, the pending TUNE forgotten (R156). -/
def leaveContract (p : PathId) (s : State) : State :=
  emptyInsert p s
  |> onSup p (fun u => { u with
      contract := 0, target := none, pending := false, stepRun := 0, probeList := [], lastOffered := none })
  |> stopProbe p |> stopSilence p |> onPort p (fun q => { q with pendingTune := none })

/-- Entry to HELD (R12). -/
def enterHeld (p : PathId) (s : State) : State :=
  setPathState p .held s |> resteer p |> leaveContract p |> runHold p
  |> onSup p (fun u => { u with recentlyFailed := true })

/-- Entry to DISABLED (R4). -/
def enterDisabled (p : PathId) (s : State) : State := setPathState p .disabled s |> resteer p |> leaveContract p

/-- Entry to TRAINING (R8). -/
def enterTraining (p : PathId) (s : State) : State :=
  setPathState p .training s |> runSilence p |> onSup p (fun u => { u with stepRun := 0 })

/-- A new target with its TUNE (R42). -/
def aimAt (p : PathId) (k : Nat) (s : State) : State := onSup p (fun u => { u with target := some k }) s |> orderTune p k

/-- Entry to RETUNE (R11); the contract frame is placed after it. -/
def enterRetune (p : PathId) (target : Option Nat) (s : State) : State :=
  let t := setPathState p .retune s |> resteer p |> emptyInsert p
    |> onSup p (fun u => { u with stepRun := 0, target := target })
  match target with
  | some k => orderTune p k t
  | none => t

/-! ## OFFERs and GRANTs sent (R28, R29) -/

/-- The OFFER takes a new number (R28). -/
def offerIsNew (u : Supervisor) : Bool :=
  match u.lastOffered with
  | none => true
  | some o => !(o.mask == u.ownMask) || !(o.contract == u.contract)

/-- An OFFER of the own mask is placed; at a FOLLOW a new number sets pending (R28, R30). -/
def sendOffer (p : PathId) (s : State) : State :=
  let follow := s.paths[p].setup.role == .follow
  let t := onSup p (fun u =>
    if offerIsNew u then
      { u with
        lastOfferSent := nextNumber u.lastOfferSent, lastOffered := some ⟨u.ownMask, u.contract⟩
        pending := u.pending || follow }
    else u) s
  let u := t.paths[p].sup
  insertFrame p (.offer u.lastOfferSent u.ownMask u.contract) t

/-- The mismatch flag falls when a GRANT of a profile from 1 to 6 is sent or applied (R37). -/
def mismatchAfter (k : Nat) (flag : Bool) : Bool := if k = 0 then flag else false

/-- A GRANT with the next number is placed (R29). -/
def sendNewGrant (p : PathId) (answered : Byte) (k : Nat) (s : State) : State :=
  let t := onSup p (fun u => { u with
    lastGrant := nextNumber u.lastGrant, lastGranted := k, grantAnswered := answered, grantMismatch := k == 0
    mismatch := mismatchAfter k u.mismatch }) s
  insertFrame p (.grant t.paths[p].sup.lastGrant answered k (k == 0)) t

/-- The last GRANT is placed again, with the same number and content (R29, entry 12). -/
def repeatGrant (p : PathId) (s : State) : State :=
  let t := onSup p (fun u => { u with mismatch := mismatchAfter u.lastGranted u.mismatch }) s
  let u := t.paths[p].sup
  insertFrame p (.grant u.lastGrant u.grantAnswered u.lastGranted u.grantMismatch) t

/-! ## Mismatch (R37) -/

/-- A contract attempt found no common profile (R37). -/
def takeMismatch (p : PathId) (s : State) : State :=
  let t := if s.paths[p].sup.mismatch then s else raiseCause 16 s
  let t := onSup p (fun u => { u with mismatch := true, pending := false }) t
  if t.paths[p].sup.state.hears then enterHeld p t else t

/-! ## An OFFER taken (R32 to R34) -/

/-- The highest profile in both masks, 0 when there is none (R33). -/
def common (a b : ProfileMask) : Nat := highest (a &&& b)

/-- The LEAD answers an OFFER: the last GRANT again, or a new one (R29). `was` is the record before R32. -/
def answerOffer (p : PathId) (was : Supervisor) (number : Byte) (mask : ProfileMask) (g : Nat) (s : State) : State :=
  if was.lastOfferReceived == number && was.farMask == some mask && was.lastGranted == g then repeatGrant p s
  else sendNewGrant p number g s

/-- The LEAD's new decision: target, pending and TUNE (R33). -/
def decideProfile (p : PathId) (g : Nat) (s : State) : State := aimAt p g (onSup p (fun u => { u with pending := true }) s)

/-- A LEAD takes an OFFER (Table 2-3). -/
def leadTakesOffer (p : PathId) (was : Supervisor) (number : Byte) (mask : ProfileMask) (s : State) : State :=
  let u := s.paths[p].sup
  let g := common u.ownMask mask
  let answer := answerOffer p was number mask g
  if g = 0 then takeMismatch p (answer s)
  else
    match u.state with
    | .down => answer s |> decideProfile p g |> enterTraining p
    | .training =>
      if some g == (match u.target with | some k => some k | none => some u.contract) then answer s
      else answer s |> decideProfile p g
    | .up | .fading =>
      if g = u.contract then answer s
      else enterRetune p (some g) s |> onSup p (fun u => { u with pending := true }) |> answer
    | .retune => if u.target == some g then answer s else answer s |> decideProfile p g
    | .disabled | .held => s

/-- An OFFER that has passed the role check (R32). -/
def takeOffer (p : PathId) (number : Byte) (mask : ProfileMask) (contract : Nat) (s : State) : State :=
  let was := s.paths[p].sup
  let t := onSup p (fun u => { u with
    farMask := some mask, farContract := some (if contract ≤ 6 then contract else 0), lastOfferReceived := number }) s
  match s.paths[p].setup.role with
  | .lead => leadTakesOffer p was number mask t
  | .follow => sendOffer p t

/-! ## A GRANT taken (R35, R36) -/

/-- The discarded-grants count (Table 2-2). -/
def discardGrant (p : PathId) (s : State) : State :=
  onSup p (fun u => { u with discardedGrants := satInc u.discardedGrants }) s

/-- A GRANT of a profile inside the own mask (Table 2-4). -/
def followGrant (p : PathId) (k : Nat) (s : State) : State :=
  let u := s.paths[p].sup
  match u.state with
  | .down => aimAt p k s |> enterTraining p
  | .training => if some k == (match u.target with | some t => some t | none => some u.contract) then s else aimAt p k s
  | .up | .fading => if k = u.contract then s else enterRetune p (some k) s
  | .retune => if u.target == some k then s else aimAt p k s
  | .disabled | .held => s

/-- A GRANT is applied (R36). -/
def applyGrant (p : PathId) (number answered : Byte) (k : Nat) (mismatch : Bool) (s : State) : State :=
  let t := onSup p (fun u => { u with
    lastGrant := number, lastGranted := k, grantAnswered := answered, grantMismatch := mismatch }) s
  if k = 0 || mismatch then takeMismatch p t
  else
    let cleared := onSup p (fun u => { u with pending := false, mismatch := false }) t
    if inMask t.paths[p].sup.ownMask k then followGrant p k cleared else sendOffer p cleared

/-- A FOLLOW tests a GRANT that has passed the role check (R35). -/
def takeGrant (p : PathId) (number answered : Byte) (k : Nat) (mismatch : Bool) (s : State) : State :=
  let u := s.paths[p].sup
  if 6 < k then discardGrant p s
  else if answered == 0 then
    if u.pending then discardGrant p s else applyGrant p number answered k mismatch s
  else if !(answered == u.lastOfferSent) || u.lastOffered.isNone then discardGrant p s
  else applyGrant p number answered k mismatch s

/-! ## The role check (R31) -/

/-- The frame clashes (R31). -/
def clashes (own header : Role) (grant : Bool) : Bool := header == own || (grant && own == .lead)

/-- The role check before an OFFER or GRANT is handled by `k` (R31). -/
def roleCheck (p : PathId) (header : Role) (grant : Bool) (k : State → State) (s : State) : State :=
  let flag := s.paths[p].sup.roleClash
  if clashes s.paths[p].setup.role header grant then
    onSup p (fun u => { u with roleClash := true }) (if flag then s else raiseCause 17 s)
  else if flag then onSup p (fun u => { u with roleClash := false }) s
  else k s

/-! ## Resends (R38) and step-down (R39) -/

/-- The highest profile of the own mask and, when present, the far mask (R38). -/
def commonNow (u : Supervisor) : Nat :=
  match u.farMask with
  | some m => common u.ownMask m
  | none => highest u.ownMask

/-- The LEAD's part of a resend (R38). -/
def leadResends (p : PathId) (s : State) : State :=
  let u := s.paths[p].sup
  let h := commonNow u
  if h = 0 then sendNewGrant p 0 0 s |> takeMismatch p
  else if h = u.lastGranted then repeatGrant p s
  else sendNewGrant p 0 h s |> decideProfile p h

/-- A resend (R38). -/
def resend (p : PathId) (s : State) : State :=
  let t := match s.paths[p].setup.role with
    | .follow => sendOffer p s
    | .lead => leadResends p s
  match t.paths[p].sup.target with
  | some k => orderTune p k t
  | none => t

/-- A step-down due (R39). -/
def stepDown (p : PathId) (s : State) : State :=
  match s.paths[p].setup.role with
  | .follow => enterRetune p none s |> sendOffer p
  | .lead =>
    let h := commonNow s.paths[p].sup
    if h = 0 then enterRetune p none s |> sendNewGrant p 0 0 |> takeMismatch p
    else enterRetune p (some h) s |> onSup p (fun u => { u with pending := true }) |> sendNewGrant p 0 h

end Sys2Proof.Machine
end

