-- ==== Sys2Proof/Machine/Supervisor.lean ====
section
/-! DEFINITION. The path supervisor's own events (chapter 1): REPORTs, channel underflows and matches, control frames, probes and
latency estimates. -/

namespace Sys2Proof.Machine

/-! ## REPORT (R2, R9, R26, R40, R41) -/

/-- The three fields of a REPORT are stored; on an air path the own mask follows (R2, R16). -/
def storeReport (p : PathId) (margin : Byte) (profile : Nat) (unit : UnitState) (s : State) : State :=
  onSup p (fun u => { u with
    margin := margin, unitProfile := profile, unitState := unit
    ownMask := if isAir p then maskOfMargin margin else u.ownMask }) s

/-- The REPORT holds the path: unit FAULT, or the own mask empty (Table 1-7). -/
def reportFails (u : Supervisor) : Bool := u.unitState == .fault || u.ownMask == 0

/-- The REPORT confirms the target profile (R9, R42). -/
def reportConfirms (u : Supervisor) : Bool := u.unitState == .ready && u.target == some u.unitProfile

/-- Confirmation: the target becomes the contract; at a LEAD pending is cleared (R9, R42). -/
def confirm (p : PathId) (s : State) : State :=
  let lead := s.paths[p].setup.role == .lead
  onSup p (fun u => { u with
    contract := u.target.getD u.contract, target := none, pending := if lead then false else u.pending }) s

/-- Confirmation in RETUNE: the guard after a lower profile, then service (R9, R40). -/
def confirmRetune (p : PathId) (s : State) : State :=
  let before := s.paths[p].sup.contract
  let t := confirm p s
  let t := if t.paths[p].sup.contract < before then runGuard p t else t
  enterService p t

/-- The step-up run and, at a FOLLOW, pending at a REPORT without a step-down due (R30, R40). -/
def countSupport (p : PathId) (s : State) : State :=
  let follow := s.paths[p].setup.role == .follow
  onSup p (fun u =>
    if supportsStepUp u then { u with stepRun := min 8 (u.stepRun + 1) }
    else { u with stepRun := 0, pending := if follow then false else u.pending }) s

/-- The step-up guard runs (R40); in WIDE mode there is none. -/
def guardRuns (x : Path) : Bool := x.setup.holdMode == .narrow && x.holdHigh.run

/-- A step-up is due after the run has been counted (R40). -/
def stepUpDue (x : Path) : Bool := supportsStepUp x.sup && x.sup.stepRun == 8 && !guardRuns x

/-- The step-up request (R41). -/
def requestStepUp (p : PathId) (s : State) : State := sendOffer p s |> onSup p (fun u => { u with stepRun := 0 })

/-- The unit is off its contract profile (Table 1-7). -/
def offContract (u : Supervisor) : Bool :=
  u.unitState == .tuning || (u.unitState == .ready && !(u.unitProfile == u.contract))

/-- A REPORT in UP or FADING, after the failing and step-down rows (Table 1-7). -/
def reportInService (p : PathId) (s : State) : State :=
  let t := countSupport p s
  let u := t.paths[p].sup
  if offContract u then enterRetune p (some u.contract) t
  else evaluateFade p (if stepUpDue t.paths[p] then requestStepUp p t else t)

/-- What a stored REPORT does on an air path (Table 1-7). -/
def actOnReport (p : PathId) (s : State) : State :=
  let u := s.paths[p].sup
  match u.state with
  | .disabled | .down | .held => s
  | .training => if reportFails u then enterHeld p s else if reportConfirms u then confirm p s else s
  | .retune => if reportFails u then enterHeld p s else if reportConfirms u then confirmRetune p s else s
  | .up | .fading =>
    if reportFails u then enterHeld p s
    else if stepDownDue u then stepDown p s
    else reportInService p s

/-- What a stored REPORT does on the ground path (R16). -/
def actOnGroundReport (p : PathId) (s : State) : State :=
  let u := s.paths[p].sup
  if u.state == .up && u.unitState == .fault then enterHeld p s else s

/-- A REPORT handed to the supervisor (R2). -/
def takeReport (p : PathId) (margin : Byte) (profile : Nat) (unit : UnitState) (s : State) : State :=
  let t := storeReport p margin profile unit s
  if isAir p then actOnReport p t else actOnGroundReport p t

/-! ## Probing (R17 to R20) -/

/-- A PROBE is placed with the next number (R17). -/
def sendProbe (p : PathId) (s : State) : State :=
  let t := onSup p (fun u => { u with lastProbe := u.lastProbe + 1 }) s
  insertFrame p (.probe t.paths[p].sup.lastProbe) t

/-- An outcome enters the probe history, at most 8 (R20); the fade conditions are evaluated (R10). -/
def enterOutcome (p : PathId) (answered : Bool) (s : State) : State :=
  onSup p (fun u => { u with
    probeHistory := (if u.probeHistory.length < 8 then u.probeHistory else u.probeHistory.drop 1) ++ [answered]
    probesLost := if answered then u.probesLost else satInc u.probesLost }) s
  |> evaluateFade p

/-- The oldest probe is lost (R17, R19). -/
def loseOldest (p : PathId) (s : State) : State :=
  onSup p (fun u => { u with probeList := u.probeList.drop 1 }) s |> enterOutcome p false

/-- A PROBE's SEND starts: the probe joins the list, the oldest of four lost before (R17). -/
def startProbe (p : PathId) (number : Byte) (sent : Stamp) (s : State) : State :=
  let t := if s.paths[p].sup.probeList.length < 4 then s else loseOldest p s
  onSup p (fun u => { u with probeList := u.probeList ++ [⟨number, sent⟩] }) t

/-! ## Latency (R21 to R23) -/

/-- A value taken into 0 to 4,294,967,295 (R21). -/
def clampNs (v : Int) : Nat := min v.toNat Config.maxNs

/-- A latency sample: its value and kind (R21). -/
def latencySample (sent farArrival : Stamp) (echoSent arrived : Time) : Nat × LatencyKind :=
  let direct : Int := farArrival.time - sent.time
  if sent.quality = .locked ∧ farArrival.quality = .locked ∧ 0 ≤ direct then (clampNs direct, .oneWay)
  else
    let trip : Int := arrived - sent.time
    let turnaround : Int := echoSent - farArrival.time
    (clampNs ((trip - turnaround).tdiv 2), .halfRtt)

/-- A sample updates the latency estimate (R22). -/
def takeSample (p : PathId) (sample : Nat × LatencyKind) (s : State) : State :=
  onSup p (fun u =>
    if u.estimateCount == 0 || !(u.estimateKind == sample.2) then
      { u with estimate := BitVec.ofNat 32 sample.1, estimateKind := sample.2, estimateCount := 1 }
    else
      { u with
        estimate := bits32 (eighth u.estimate.toNat sample.1), estimateCount := satInc u.estimateCount }) s

/-- The inbound one-way estimate after a first sample: one above 32 bits has no stated result (R23, entry 7). -/
def inboundFirst (sample : Nat) (k : Nat) : BitVec 32 :=
  if sample ≤ Config.maxNs then BitVec.ofNat 32 sample else Config.inboundOverRange k

/-- The inbound one-way estimate moved toward a sample (R23, entry 7). -/
def inboundMoved (old : BitVec 32) (sample : Nat) (k : Nat) : BitVec 32 :=
  let v := eighth old.toNat sample
  if v ≤ Config.maxNs then bits32 v else Config.inboundOverRange k

/-- The inbound one-way estimate after a valid sample (R23). -/
def inboundAfter (old : Option (BitVec 32)) (sample k : Nat) : BitVec 32 :=
  match old with
  | none => inboundFirst sample k
  | some e => inboundMoved e sample k

/-- A good DATA frame's part in the inbound one-way estimate (R23). R163 hands the frame to the supervisor for it in HELD too, and R23
lists the states whose frames it uses without HELD: that a frame on a HELD path leaves the estimate as it is, R23 being followed, is
the model's choice (entry 42). -/
def takeInbound (p : PathId) (h : FrameHeader) (arrived : Stamp) (s : State) : State :=
  if !s.paths[p].sup.state.takesFrames then s
  else if h.quality == .locked && arrived.quality == .locked then
    if h.sent ≤ arrived.time then
      let v := inboundAfter s.paths[p].sup.inbound (arrived.time - h.sent) s.freeValues
      { onSup p (fun u => { u with inbound := some v }) s with freeValues := s.freeValues + 1 }
    else s
  else onSup p (fun u => { u with inbound := none }) s

/-! ## ECHO (R19) -/

/-- The path enters service at a matched ECHO (R9, R16, R19). -/
def echoEnters (p : PathId) (u : Supervisor) : Bool :=
  if isAir p then u.state == .training && !(u.contract == 0) && u.target.isNone else u.state == .down

/-- The match of an entry after those older than it are lost (R19). -/
def matchProbe (p : PathId) (e : ProbeEntry) (farArrival : Stamp) (echoSent arrived : Time) (older : Nat) (s : State) :
    State :=
  let t := (List.range older).foldl (fun s _ => loseOldest p s) s
  let t := onSup p (fun u => { u with probeList := u.probeList.drop 1 }) t |> enterOutcome p true
  let t := takeSample p (latencySample e.sent farArrival echoSent arrived) t
  if echoEnters p t.paths[p].sup then enterService p t else t

/-- An ECHO is matched against the probe list (R19, R185; entry 13). -/
def takeEcho (p : PathId) (number : Byte) (probeSent : Time) (farArrival : Stamp) (nsGood : Bool) (echoSent arrived : Time)
    (s : State) : State :=
  let l := s.paths[p].sup.probeList
  let hit (e : ProbeEntry) : Bool := e.number == number && e.sent.time == probeSent
  match l.find? hit with
  | some e => if nsGood then matchProbe p e farArrival echoSent arrived (l.takeWhile (fun e => !hit e)).length s else s
  | none => s

/-! ## QUERY and ANSWER (R44, R45); that they concern the ground path P4 too is the model's choice (entry 41) -/

/-- The computed bits of byte 0 (Table 2-5). -/
def answerBits (s : State) (p : PathId) : BitVec 32 :=
  BitVec.ofNat 32 (
    bit (s.paths[p].sup.state == .fading) + 2 * bit s.ranking.fallback
    + 4 * bit (s.time.state == .holdover || s.time.state == .free) + 8 * bit (rainAlert s))

/-- A QUERY is answered (R44), on P4 too (entry 41). -/
def takeQuery (p : PathId) (number : Byte) (s : State) : State :=
  insertFrame p (.answer number (s.paths[p].setup.statusBytes ||| answerBits s p)) s

/-- An ANSWER is stored or discarded (R45), on P4 too (entry 41). -/
def takeAnswer (p : PathId) (number : Byte) (status : BitVec 32) (s : State) : State :=
  let u := s.paths[p].sup
  if number == u.lastQuery && !(u.lastQuery == 0) then onSup p (fun u => { u with farStatus := some status }) s else s

/-! ## Control frames (R15) -/

/-- A frame with the other role clears the role-clash flag (R31), on P4 too (entry 41). -/
def clearClash (p : PathId) (header : Role) (s : State) : State :=
  if header == s.paths[p].setup.role then s else onSup p (fun u => { u with roleClash := false }) s

/-- A number the payload or the sequence field carries, as a byte. -/
def byteOf (bs : List Byte) (i : Nat) : Byte := bs.getD i 0

/-- A stamp of an ECHO's payload (Table 12-2). -/
def echoStamp (bs : List Byte) (quality seconds : Nat) : Stamp :=
  ⟨timeOf (bytesAt bs seconds 4) (bytesAt bs (seconds + 4) 4), Quality.ofCode (byteAt bs quality)⟩

/-- A control frame in a state that takes frames (R15, Table 12-2, R185). -/
def handleControl (p : PathId) (h : FrameHeader) (bs : List Byte) (arrived : Stamp) (s : State) : State :=
  match h.kind with
  | .data => s
  | .probe => clearClash p h.role s |> insertFrame p (.echo (BitVec.ofNat 8 h.sequence.toNat) ⟨h.sent, h.quality⟩ arrived)
  | .echo =>
    clearClash p h.role s
    |> takeEcho p (byteOf bs 0) (echoStamp bs 1 4).time (echoStamp bs 2 12)
        (bytesAt bs 8 4 ≤ 999999999 && bytesAt bs 16 4 ≤ 999999999) h.sent arrived.time
  | .offer =>
    if isAir p then
      roleCheck p h.role false (takeOffer p (byteOf bs 0) ((byteOf bs 1).extractLsb' 0 6) (byteAt bs 2)) s
    else s
  | .grant =>
    if isAir p then
      roleCheck p h.role true (takeGrant p (byteOf bs 0) (byteOf bs 1) (byteAt bs 2) ((byteOf bs 3).getLsbD 0)) s
    else s
  | .query => clearClash p h.role s |> takeQuery p (byteOf bs 0)
  | .answer => clearClash p h.role s |> takeAnswer p (byteOf bs 0) (BitVec.ofNat 32 (bytesAt bs 4 4))

/-- A control frame sorted to the supervisor (R15). -/
def takeControl (p : PathId) (h : FrameHeader) (bs : List Byte) (arrived : Stamp) (s : State) : State :=
  if s.paths[p].sup.state.takesFrames then handleControl p h bs arrived s else s

/-! ## Channel events (R7, R12, R13, R16) -/

/-- What the supervisor does at a probe-channel underflow (Table 1-9, R16). -/
def probeUnderflow (p : PathId) (s : State) : State :=
  let u := s.paths[p].sup
  match u.state with
  | .disabled | .held => s
  | .down => if isAir p then sendOffer p s else sendProbe p s
  | .training => if u.target.isSome || u.contract == 0 then resend p s else sendProbe p s
  | .retune => resend p s
  | .up | .fading => sendProbe p s

/-- What the supervisor does at a silence underflow (R12). -/
def silenceEnds (p : PathId) (s : State) : State := if s.paths[p].sup.state.hears then enterHeld p s else s

/-- What the supervisor does at the hold compare match (Table 1-10). -/
def holdMatches (p : PathId) (s : State) : State := if s.paths[p].sup.state == .held then enterDown p s else s

/-- What the supervisor does at the hold underflow (Table 1-10). -/
def holdEnds (p : PathId) (s : State) : State :=
  let t := onSup p (fun u => { u with recentlyFailed := false }) s
  if s.paths[p].sup.state == .held then enterDown p t else t

/-! ## The rows of the channels (entry 2) -/

/-- The reload at an underflow of the probe channel, which is its tick's (R166, R167). -/
def reloadProbe (p : PathId) (s : State) : State := if s.paths[p].probe.run then onPath p presetProbe s else s

/-- PROBE_CHANNEL_UNDERFLOW: the channel is reloaded and keeps running (R7, R167). -/
def doProbeChannelUnderflow (p : PathId) (s : State) : State :=
  if s.paths[p].probe.run then probeUnderflow p (onPath p presetProbe s) else s

/-- SILENCE_UNDERFLOW: the channel is reloaded and stops (R12, R167). -/
def doSilenceUnderflow (p : PathId) (s : State) : State :=
  if s.paths[p].silence.run then silenceEnds p (stopSilence p (onPath p presetSilence s)) else s

/-- The hold counter at its compare match: the tick's own part of the event. -/
def reachCompare (p : PathId) (s : State) : State :=
  let x := s.paths[p]
  match x.holdLow.loadedCompare with
  | some c => if x.holdLow.run && c.toNat < holdValue x then onPath p (setHoldValue c.toNat) s else s
  | none => s

/-- HOLD_COMPARE_MATCH: the hold counter reaches its loaded compare (R13, R170, R171). -/
def doHoldCompareMatch (p : PathId) (s : State) : State :=
  let x := s.paths[p]
  match x.holdLow.loadedCompare with
  | some c =>
    if x.holdLow.run && c.toNat < holdValue x then holdMatches p (onPath p (setHoldValue c.toNat) s) else s
  | none => s

/-- The hold counter is reloaded and stops (R170, R171). -/
def stopHold (x : Path) : Path := let y := presetHold x; { y with holdLow := y.holdLow.stop }

/-- HOLD_UNDERFLOW (R13). -/
def doHoldUnderflow (p : PathId) (s : State) : State :=
  if s.paths[p].holdLow.run then holdEnds p (onPath p stopHold s) else s

/-- The guard is reloaded and stops (R171). -/
def stopGuard (x : Path) : Path := let y := presetGuard x; { y with holdHigh := y.holdHigh.stop }

/-- GUARD_UNDERFLOW (R171, R40): step-ups are allowed again. -/
def doGuardUnderflow (p : PathId) (s : State) : State :=
  if guardRuns s.paths[p] then onPath p stopGuard s else s

end Sys2Proof.Machine
end

