-- ==== Sys2Proof/WellFormed.lean ====
section
/-! DEFINITION. Which commands belong to their own row of the table. A command that is not well formed names words of another
row; its meaning then is what those words say. -/

namespace Sys2Proof

/-- The codes of Table 12-8 that name a command: 1 to 17. -/
def knownCommandCode (code : Byte) : Bool := 1 ≤ code.toNat && code.toNat ≤ 17

/-- A REPORT's content is in range (R160). -/
def reportInRange (profile unit : Byte) : Bool := profile.toNat ≤ 6 && unit.toNat ≤ 2

/-- A CARRY's byte count is in range (R160). -/
def carryInRange (count : Nat) : Bool := 16 ≤ count && count ≤ 68

/-- The port can take a message with these header bytes (R160, Table 12-3). -/
def takenUnitMessage (b0 b1 b2 b3 : Byte) : Bool :=
  match b0.toNat with
  | 3 => carryInRange b1.toNat
  | 4 => true
  | 5 => true
  | 6 => reportInRange b2 b3
  | _ => false

/-- The word of a command belongs to the command's own row. -/
def Instr.wellFormed : Instr → Bool
  | .windowEnable _ _ _ d => d.getLsbD 31
  | .windowDisable _ _ _ d => !d.getLsbD 31
  | .inboundRelease _ _ _ d => !d.getLsbD 16
  | .ringStartField _ _ _ d => d.getLsbD 16
  | .unknownCommand _ _ code _ _ => !knownCommandCode code
  | .report _ _ profile unit => reportInRange profile unit
  | .unknownUnitMessage _ b0 b1 b2 b3 => !takenUnitMessage b0 b1 b2 b3
  | .carry _ _ bytes => carryInRange bytes.length
  | .reset .. | .pPortWrite .. | .pPortRead .. | .identityWord .. | .guardedSpanWord .. | .masterWord .. => true
  | .windowExtentWord .. | .selectorWord .. | .timeSetupWord .. | .pathModeWord .. | .timerSetupWord .. => true
  | .penaltyWord .. | .statusBytesWord .. | .streamSetupWord .. | .divertFilterWord .. | .faultLogRelease .. => true
  | .lineWord .. | .alarmSetupWord .. | .headerWrite .. | .stagingWrite .. => true
  | .pathEnable .. | .pathDisable .. | .pathReset .. | .ringStart .. | .ringStop .. | .ringReset .. => true
  | .outFlush .. | .outSeqSet .. | .streamReset .. | .timeSet .. | .timeAdjust .. | .rainSet .. | .rainClear .. => true
  | .queryPath .. | .alarmAck .. | .logReset .. | .snapshot .. => true
  | .accept .. | .reject .. | .gapExpiry .. | .ageing | .selection | .sendStart .. | .sendEnd .. => true
  | .tuneStart .. | .tuneEnd .. | .noAnswer .. | .probeChannelUnderflow .. | .silenceUnderflow .. => true
  | .holdCompareMatch .. | .holdUnderflow .. | .guardUnderflow .. | .pinChange .. | .filterExpiry .. => true
  | .pulseWatchdog | .holdoverLimit | .slewEnd | .ppsOut | .pulseEnd .. | .statusSubmit | .outcomeSubmit => true
  | .faultEntrySubmit | .passingAccessIssue | .burstStart | .burstEnd | .burstError .. => true

end Sys2Proof
end

