-- ==== Sys2Proof/Machine/Ports.lean ====
section
/-! DEFINITION. The path ports (chapter 9): messages from the unit, answers and their limit, frames received, messages to the
unit. -/

namespace Sys2Proof.Machine

/-! ## Answers (R158, R159) -/

/-- A PATH_DISABLE waiting for the path's list completes when it is empty (R5). -/
def answersDone (p : PathId) (s : State) : State :=
  if waiting s == .answers p && s.paths[p].port.awaiting.isEmpty then complete .done s else s

/-- The oldest entry is removed, counted, and its copy answered (R158, R159). -/
def finishOldest (p : PathId) (ok : Bool) (count : Port → Port) (s : State) : State :=
  match s.paths[p].port.awaiting with
  | [] => s
  | e :: rest =>
    let t := onPort p (fun q => { count q with awaiting := rest }) s
    let t := match e.copy with
      | some x => answerCopy p ok x t
      | none => t
    answersDone p t

/-- An answer with the list empty (R158). -/
def lateAnswer (p : PathId) (s : State) : State :=
  onPort p (fun q => { q with lateAnswers := satInc q.lateAnswers }) s

/-- ACCEPT (R158). -/
def doAccept (p : PathId) (s : State) : State :=
  if s.paths[p].port.awaiting.isEmpty then lateAnswer p s
  else finishOldest p true (fun q => { q with accepted := satInc q.accepted }) s

/-- REJECT (R158). -/
def doReject (p : PathId) (s : State) : State :=
  if s.paths[p].port.awaiting.isEmpty then lateAnswer p s
  else finishOldest p false (fun q => { q with rejected := satInc q.rejected }) s

/-- NO_ANSWER: the oldest entry fails (R159); no effect on an empty list. -/
def doNoAnswer (p : PathId) (s : State) : State :=
  finishOldest p false (fun q => { q with noAnswer := satInc q.noAnswer }) s

/-! ## Messages that cannot be taken (R160) -/

/-- The message is discarded and counted. -/
def discardMessage (p : PathId) (s : State) : State :=
  onPort p (fun q => { q with discards := satInc q.discards }) s

/-- REPORT (R160, R2): out of range it is discarded. -/
def doReport (p : PathId) (margin profile unit : Byte) (s : State) : State :=
  if reportInRange profile unit then takeReport p margin profile.toNat (UnitState.ofCode unit.toNat) s
  else discardMessage p s

/-! ## Frames received (R161 to R164) -/

/-- A mark enters the receive history, at most 16 (R164); the fade conditions are evaluated (R10). -/
def enterMark (p : PathId) (good : Bool) (s : State) : State :=
  onPort p (fun q => { q with
    history := (if q.history.length < 16 then q.history else q.history.drop 1) ++ [good]
    checkFailures := if good then q.checkFailures else satInc q.checkFailures }) s
  |> evaluateFade p

/-- A good frame is sorted by its kind (R163); a DATA frame on a HELD path leaves the inbound estimate alone (entry 42). -/
def sortFrame (p : PathId) (h : FrameHeader) (payload : List Byte) (arrived : Stamp) (s : State) : State :=
  match h.kind with
  | .data => takeInbound p h arrived s |> mergeFrame p h payload arrived
  | _ => takeControl p h payload arrived s

/-- A good frame: history, silence, sorting (R14, R163). -/
def goodFrame (p : PathId) (h : FrameHeader) (payload : List Byte) (arrived : Stamp) (s : State) : State :=
  let t := enterMark p true s
  sortFrame p h payload arrived (if t.paths[p].sup.state.hears then runSilence p t else t)

/-- A CARRY in range taken while the path is not DISABLED (R161); a condition other than CLEAN is ERRORED (R185). -/
def receiveFrame (p : PathId) (condition : Byte) (bytes : List Byte) (s : State) : State :=
  let arrived := stampNow s
  let t := onPort p (fun q => { q with received := satInc q.received }) s
  match judgeFrame p s.paths[p].setup.check (!(condition == 0)) bytes with
  | some (h, payload) => goodFrame p h payload arrived t
  | none => enterMark p false t

/-- CARRY (R160, R161). -/
def doCarry (p : PathId) (condition : Byte) (bytes : List Byte) (s : State) : State :=
  if !carryInRange bytes.length then discardMessage p s
  else if s.paths[p].sup.state == .disabled then s
  else receiveFrame p condition bytes s

/-- UNKNOWN_UNIT_MESSAGE (R160): discarded, unless its header is one the port takes (entry 23). -/
def doUnknownUnitMessage (p : PathId) (b0 b1 b2 b3 : Byte) (s : State) : State :=
  if !takenUnitMessage b0 b1 b2 b3 then discardMessage p s
  else if b0 == 4 then doAccept p s
  else if b0 == 5 then doReject p s
  else if b0 == 6 then doReport p b1 b2 b3 s
  else doCarry p b2 (List.replicate b1.toNat 0) s

/-! ## Messages to the unit (R156, R157) -/

/-- What a SEND may carry. -/
inductive Outgoing where
  | control (f : ControlFrame)
  | copy (x : RecordName)
  deriving DecidableEq, Repr

/-- The front insert frame. -/
def frontInsert (q : Port) : Option Outgoing := q.insert.head?.map fun f => .control f.frame

/-- The front copy, in a state that sends from the transmit queue (R128). -/
def frontCopy (x : Path) : Option Outgoing :=
  if x.sup.state.inService then x.port.transmit.head?.map .copy else none

/-- The front insert frame has been passed four times (R128). -/
def frontPassedFour (q : Port) : Bool :=
  match q.insert with
  | f :: _ => f.passed == 4
  | [] => false

/-- The frame chosen for the next SEND (R128). -/
def chooseFrame (x : Path) : Option Outgoing :=
  if !x.sup.state.takesFrames then none
  else
    match x.setup.priority with
    | .above => (frontInsert x.port).orElse fun _ => frontCopy x
    | .below =>
      if frontPassedFour x.port then frontInsert x.port else (frontCopy x).orElse fun _ => frontInsert x.port

/-- A SEND may start (R156). -/
def mayStart (q : Port) : Bool := q.link == .free && q.pendingTune.isNone && q.awaiting.length < 4

/-- The frame that SEND_START would send; a copy comes with its record. -/
def dueSend (s : State) (p : PathId) : Option (Outgoing × Option LaunchRecord) :=
  if mayStart s.paths[p].port then
    match chooseFrame s.paths[p] with
    | some (.control f) => some (.control f, none)
    | some (.copy x) => (recordNamed s x).map fun r => (.copy x, some r)
    | none => none
  else none

/-- The header of a control frame (Table 9-2). -/
def controlHeader (s : State) (p : PathId) (f : ControlFrame) : FrameHeader :=
  ⟨f.kind, p.val, s.paths[p].setup.role, s.time.state, 0, f.payload.length, f.number.zeroExtend 32, s.time.value⟩

/-- The header of a DATA frame (R129). -/
def dataHeader (s : State) (p : PathId) (r : LaunchRecord) : FrameHeader :=
  ⟨.data, p.val, s.paths[p].setup.role, s.time.state, r.stream.val, r.payload.length, r.sequence, s.time.value⟩

/-- The link takes the message, the SEND is counted and joins the awaiting-answer list (R157). -/
def handOver (p : PathId) (frame : List Byte) (e : AwaitEntry) (s : State) : State :=
  onPort p (fun q => { q with
    link := .sending (sendMessage frame), sent := satInc q.sent, awaiting := q.awaiting ++ [e] }) s

/-- A control frame's SEND starts; a PROBE joins the probe list (R157, R17). -/
def sendControl (p : PathId) (f : ControlFrame) (s : State) : State :=
  let frame := frameBytes s.paths[p].setup.check (controlHeader s p f) f.payload
  let t := onPort p (fun q => { q with insert := q.insert.drop 1 }) s
  match f with
  | .probe n => handOver p frame ⟨.probe, none, n, 0⟩ t |> startProbe p n (stampNow s)
  | _ => handOver p frame ⟨f.kind, none, 0, 0⟩ t

/-- The copy on path `p` becomes SENT with its launch stamp. -/
def Copy.launched (c : Copy) (p : PathId) (st : Stamp) : Copy :=
  if c.path == p && c.state == .queued then { c with state := .sent, launch := some st } else c

/-- A copy's SEND starts (R129). -/
def sendCopy (p : PathId) (r : LaunchRecord) (s : State) : State :=
  let frame := frameBytes s.paths[p].setup.check (dataHeader s p r) r.payload
  putRecord { r with copies := r.copies.map fun c => c.launched p (stampNow s) } s
  |> onPort p (fun q => { q with
      transmit := q.transmit.drop 1
      insert := q.insert.map fun f => { f with passed := min 4 (f.passed + 1) } })
  |> handOver p frame ⟨.data, some r.name, 0, 0⟩

/-- SEND_START (R157); no effect when no SEND is due. -/
def doSendStart (p : PathId) (s : State) : State :=
  match dueSend s p with
  | some (.control f, _) => sendControl p f s
  | some (.copy _, some r) => sendCopy p r s
  | some (.copy _, none) => s
  | none => s

/-- SEND_END (R156). -/
def doSendEnd (p : PathId) (s : State) : State :=
  match s.paths[p].port.link with
  | .sending _ => onPort p (fun q => { q with link := .free }) s
  | .free | .tuning _ => s

/-- A TUNE is due (R156). -/
def tuneDue (q : Port) : Option Nat := if q.link == .free then q.pendingTune else none

/-- TUNE_START (R156). -/
def doTuneStart (p : PathId) (s : State) : State :=
  match tuneDue s.paths[p].port with
  | some k => onPort p (fun q => { q with link := .tuning (tuneMessage k), pendingTune := none }) s
  | none => s

/-- TUNE_END (R156). -/
def doTuneEnd (p : PathId) (s : State) : State :=
  match s.paths[p].port.link with
  | .tuning _ => onPort p (fun q => { q with link := .free }) s
  | .free | .sending _ => s

end Sys2Proof.Machine
end

