-- ==== Sys2Proof/Machine/Capture.lean ====
section
/-! DEFINITION. Outbound capture (chapter 6): staging, header writes, captures and refusal outcomes. -/

namespace Sys2Proof.Machine

/-- How the owner of a window decides a write offered to it (R86, R175). -/
inductive Verdict where
  /-- The write passes and its content is taken. -/
  | taken (s : State)
  /-- The write passes and its content is not taken: TRAP RANGE. -/
  | trapped
  /-- The write is refused with a cause. -/
  | refused (cause : Cause) (s : State)
  deriving DecidableEq, Repr

/-- The bytes whose enables are set replace those of the word (R101). -/
def mergeBytes (old new : Word) (be : ByteEnables) : Word :=
  (List.range 8).foldl (fun w k =>
    if be.getLsbD k then (w &&& ~~~(0xFF#64 <<< (8 * k))) ||| (new &&& (0xFF#64 <<< (8 * k))) else w) old

/-- Slot `k` of ring `n` replaced by its image. -/
def onSlot (n : RingId) (k : Nat) (f : Slot → Slot) (s : State) : State :=
  onOutRing n (fun r => { r with table := r.table.map fun t => t.modify k f }) s

/-- Slot `k` of ring `n`. -/
def slotAt (s : State) (n : RingId) (k : Nat) : Option Slot := s.outRings[n].slots[k]?

/-- A staging write to word `w` (1 to 7) of slot `k` (R101). -/
def stage (n : RingId) (k : Nat) (w : Fin 7) (be : ByteEnables) (d : Word) (s : State) : State :=
  onSlot n k (fun x => { x with staging := x.staging.set w.val (mergeBytes x.staging[w] d be) w.isLt }) s

/-- The payload staged in words 2 to 7 (R106). -/
def stagedPayload (x : Slot) (length : Nat) : List Byte :=
  ((x.staging.toList.drop 1).flatMap wordBytes).take length

/-- The launch record of a capture (R103, Table 6-3). -/
def captureRecord (s : State) (n : RingId) (k : Nat) (x : Slot) (h : SlotHeader) (c : LaunchClass) : LaunchRecord where
  name := ⟨n, k⟩
  stream := h.stream
  sequence := s.nextSequence[h.stream]
  cls := c
  mode := h.mode
  pinned := if h.mode == .pinned then asIndex 5 h.pinnedCode else none
  payload := stagedPayload x h.length
  tag := x.staging[0]
  capture := stampNow s
  ageLimit := if h.age = 0 then none else some h.age
  copies := []
  spill := false
  single := false
  rain := false
  firstAccepted := none
  order := s.sel.captureOrder

/-- The record joins behind every record of its class queue (R117). -/
def joinClass (r : LaunchRecord) (s : State) : State :=
  let t := { s with sel := { s.sel with held := s.sel.held ++ [r], captureOrder := s.sel.captureOrder + 1 } }
  onQueue r.cls (fun q => { q with back := q.back ++ [r.name] }) t

/-- The next sequence of a stream takes a value (R107). -/
def setSequence (i : StreamId) (q : BitVec 32) (s : State) : State :=
  { s with nextSequence := s.nextSequence.set i.val q i.isLt }

/-- A capture (R103). -/
def capture (n : RingId) (k : Nat) (x : Slot) (h : SlotHeader) (c : LaunchClass) (s : State) : State :=
  let r := captureRecord s n k x h c
  setSequence h.stream (s.nextSequence[h.stream] + 1) s
  |> onHold c (· + 1)
  |> onSlot n k (fun x => { x with captured := true })
  |> onOutRing n (fun o => { o with captures := satInc o.captures })
  |> joinClass r

/-- A refusal outcome (R104). -/
def refusalEntry (s : State) (n : RingId) (k : Nat) (x : Slot) (h : SlotHeader) (res : OutcomeResult) : OutcomeEntry where
  slot := k
  result := res
  paths := 0
  stream := h.stream
  sequence := 0
  spill := false
  single := false
  rain := false
  capture := stampNow s
  launch := none
  tag := x.staging[0]
  refusal := true
  generation := s.outRings[n].generation
  request := 0

/-- The ring's counter of a refusal outcome (R104). -/
def OutRing.countRefusal (o : OutRing) (res : OutcomeResult) : OutRing :=
  match res with
  | .badHeader => { o with badHeader := satInc o.badHeader }
  | _ => { o with refusedFull := satInc o.refusedFull }

/-- A refusal outcome is entered (R104). -/
def enterRefusal (n : RingId) (k : Nat) (x : Slot) (h : SlotHeader) (res : OutcomeResult) (s : State) : State :=
  onSlot n k (fun x => { x with refusal := some res }) s
  |> onOutRing n (·.countRefusal res)
  |> joinOutcomes n (refusalEntry s n k x h res)

/-- The ring's counter of a refused header write (R102). -/
def OutRing.countRefused (o : OutRing) (c : Cause) : OutRing :=
  match c with
  | .slotBusy => { o with slotBusy := satInc o.slotBusy }
  | .partialHeader => { o with partialHeader := satInc o.partialHeader }
  | .ringHalted => { o with ringHalted := satInc o.ringHalted }
  | _ => o

/-- A header write is refused and counted (R102). -/
def refuseHeader (n : RingId) (c : Cause) (s : State) : Verdict := .refused c (onOutRing n (·.countRefused c) s)

/-- A header write with go set to a free slot (R102, steps 5 to 7). -/
def decideHeader (n : RingId) (k : Nat) (x : Slot) (h : SlotHeader) (s : State) : State :=
  match h.cls with
  | none => enterRefusal n k x h .badHeader s
  | some c =>
    if h.illegal then enterRefusal n k x h .badHeader s
    else if 16 ≤ holdCount s c then enterRefusal n k x h .refusedFull s
    else capture n k x h c s

/-- A header write (Table 6-2). -/
def takeHeader (n : RingId) (k : Nat) (be : ByteEnables) (d : Word) (s : State) : Verdict :=
  if s.outRings[n].state == .halted then refuseHeader n .ringHalted s
  else if !(be == 0xFF) then refuseHeader n .partialHeader s
  else if !(slotHeader d).go then .taken s
  else
    match slotAt s n k with
    | none => .taken s
    | some x =>
      if x.captured || x.refusal.isSome then refuseHeader n .slotBusy s
      else .taken (decideHeader n k x (slotHeader d) s)

/-- A write that has passed steps 1 to 5 into an OUTBOUND window (R86, R101). -/
def takeOutbound (n : RingId) (base : Nat) (a : Nat) (be : ByteEnables) (d : Word) (s : State) : Verdict :=
  let o := a - base
  match asIndex 7 (o % 8 - 1) with
  | some w => if o % 8 = 0 then takeHeader n (o / 8) be d s else .taken (stage n (o / 8) w be d s)
  | none => .taken s

end Sys2Proof.Machine
end

