-- ==== Sys2Proof/Machine/Setup.lean ====
section
/-! DEFINITION. The words of the setup region (Table 12-9): each judged whole, taken or trapped (R175). -/

namespace Sys2Proof.Machine

/-- A word is taken when its condition holds, else trapped (R175). -/
def takeIf (c : Bool) (s : State) : Verdict := if c then .taken s else .trapped

/-! ## Identity, selector, time -/

/-- The identity record: setup generation, then site code (R175). -/
def takeIdentity (i : Fin 2) (d : Word) (s : State) : Verdict :=
  .taken { s with identity :=
    if i = 0 then { s.identity with generation := bits d 0 16 } else { s.identity with site := bits d 0 16 } }

/-- The selector word: spill and the status interval; an interval of 0 traps it (R116, R175). -/
def takeSelector (d : Word) (s : State) : Verdict :=
  takeIf (field d 8 8 != 0) { s with
    sel := { s.sel with spill := d.getLsbD 0 }, identity := { s.identity with interval := field d 8 8 } }

/-- The time control word (R72); a limit already reached in HOLDOVER ends it (R70). -/
def takeTimeControl (d : Word) (s : State) : Verdict :=
  takeIf (10 ≤ field d 0 32 && field d 0 32 ≤ 100000 && 1 ≤ field d 32 16)
    (limitReached { s with time := { s.time with lockThreshold := field d 0 32, holdoverLimit := field d 32 16 } })

/-- The set value word (R72). -/
def takeSetValue (d : Word) (s : State) : Verdict :=
  takeIf (field d 0 30 ≤ 999999999) { s with time := { s.time with setValue := timeOf (field d 32 32) (field d 0 30) } }

/-- The adjust word (R72). -/
def takeAdjust (d : Word) (s : State) : Verdict :=
  .taken { s with time := { s.time with adjust := (bits d 0 32).toInt } }

/-- The three words of the time setup (R72). -/
def takeTimeSetup (i : Fin 3) (d : Word) (s : State) : Verdict :=
  if i = 0 then takeTimeControl d s else if i = 1 then takeSetValue d s else takeAdjust d s

/-! ## The path setup record -/

/-- The hold mode a mode word asks for. -/
def holdModeOf (d : Word) : HoldMode := if d.getLsbD 3 then .narrow else .wide

/-- The hold pair is stopped (R171). -/
def pairStopped (x : Path) : Bool :=
  match x.setup.holdMode with
  | .wide => !x.holdLow.run
  | .narrow => !x.holdLow.run && !x.holdHigh.run

/-- The conditions a mode word must meet (R171, R175). -/
def modeAllowed (x : Path) (d : Word) : Bool :=
  let off := x.sup.state == .disabled
  (Role.ofBit (d.getLsbD 0) == x.setup.role || off)
    && (holdModeOf d == x.setup.holdMode || (off && pairStopped x))

/-- The mode word in force; a change of hold mode presets both channels of the pair (R171). -/
def withMode (d : Word) (x : Path) : Path :=
  let y := { x with setup := { x.setup with
    role := Role.ofBit (d.getLsbD 0), check := d.getLsbD 1
    priority := if d.getLsbD 2 then .below else .above, holdMode := holdModeOf d } }
  if holdModeOf d == x.setup.holdMode then y else presetGuard (presetHold y)

/-- The mode word (R175). -/
def takePathMode (p : PathId) (d : Word) (s : State) : Verdict :=
  takeIf (modeAllowed s.paths[p] d) (onPath p (withMode d) s)

/-- The timers A word (R168): a tap code above 3 traps it. -/
def takeTimersA (p : PathId) (d : Word) (s : State) : Verdict :=
  match Tap.ofCode (field d 8 8), Tap.ofCode (field d 24 8), Tap.ofCode (field d 40 8) with
  | some probeTap, some silenceTap, some holdTap =>
    .taken (onSetup p (fun x => { x with
      probeReload := bits d 0 8, probeTap := probeTap, silenceReload := bits d 16 8, silenceTap := silenceTap
      guardReload := bits d 32 8, holdTap := holdTap }) s)
  | _, _, _ => .trapped

/-- The timers B word (R168): a narrow value above 255 traps it. -/
def takeTimersB (p : PathId) (d : Word) (s : State) : Verdict :=
  takeIf (field d 32 16 ≤ 255 && field d 48 16 ≤ 255)
    (onSetup p (fun x => { x with
      wideReload := bits d 0 16, wideCompare := bits d 16 16, narrowReload := bits d 32 8, narrowCompare := bits d 48 8 }) s)

/-- The penalty word (R49). -/
def takePenalties (p : PathId) (d : Word) (s : State) : Verdict :=
  .taken (onSetup p (fun x => { x with fadePenalty := bits d 0 32, recoveryPenalty := bits d 32 32 }) s)

/-- The status bytes word (R44). -/
def takeStatusBytes (p : PathId) (d : Word) (s : State) : Verdict :=
  .taken (onSetup p (fun x => { x with statusBytes := bits d 0 32 }) s)

/-- The five words of a path setup record. -/
def takePathSetup (p : PathId) (i : Nat) (d : Word) (s : State) : Verdict :=
  match i with
  | 0 => takePathMode p d s
  | 1 => takeTimersA p d s
  | 2 => takeTimersB p d s
  | 3 => takePenalties p d s
  | _ => takeStatusBytes p d s

/-! ## Streams, filters, rings -/

/-- The stream setup word: a gap window of 0 traps it (R135). -/
def takeStreamSetup (i : StreamId) (d : Word) (s : State) : Verdict :=
  takeIf (field d 16 16 != 0) (onStream i (fun x => { x with
    ring := (bits d 0 2).toFin, markers := d.getLsbD 2, enabled := d.getLsbD 3, gapWindow := bits d 16 16 }) s)

/-- The divert filter word: the reserved action traps it (R144). -/
def takeDivertFilter (f : Fin 8) (d : Word) (s : State) : Verdict :=
  match DivertAction.ofCode (field d 1 2) with
  | some action =>
    .taken (onFilter f (fun x => { x with
      enabled := d.getLsbD 0, action := action, target := (bits d 4 2).toFin, streamValue := bits d 8 4
      streamMask := bits d 12 4, typeValue := bits d 16 8, typeMask := bits d 24 8 }) s)
  | none => .trapped

/-- The fill of an inbound ring (R148). -/
def InRing.fill (r : InRing) : Nat := (r.deposit - r.release).toNat

/-- The start field starts the ring (R152). -/
def startsRing (r : InRing) : Bool := (r.state == .stopped && r.slotCount.isSome) || r.state == .halted

/-- The ring control word: release count (R150) and start field (R152). -/
def takeRingControl (n : RingId) (d : Word) (s : State) : Verdict :=
  let r := s.inRings[n]
  takeIf ((bits d 0 16 - r.release).toNat ≤ r.fill) (onInRing n (fun r => { r with
    release := bits d 0 16, state := if d.getLsbD 16 && startsRing r then .active else r.state }) s)

/-- The fault-log release word (R91). -/
def takeLogRelease (d : Word) (s : State) : Verdict :=
  takeIf ((bits d 0 16 - s.log.releaseCount).toNat ≤ s.log.fill)
    { s with log := { s.log with releaseCount := bits d 0 16 } }

/-! ## Lines and alarms -/

/-- The line gives up the event to another line (R172). -/
def Line.giveUp (x : Line) (e : LineEvent) : Line := if x.event == e then { x with event := .none } else x

/-- A line with the record of a line word; a new width restarts a count in progress (R172, R174). -/
def Line.withWord (x : Line) (e : LineEvent) (d : Word) : Line :=
  let width := widthOfCode (field d 10 2)
  { x with
    event := e, openDrain := d.getLsbD 8, activeLow := d.getLsbD 9, width := width
    count := if width = x.width then x.count else x.count.map fun _ => 0 }

/-- A line word: an encoding that names no event traps it (R172). -/
def takeLine (l : LineId) (d : Word) (s : State) : Verdict :=
  match LineEvent.ofCode (field d 0 5) with
  | none => .trapped
  | some e =>
    .taken (markRecord 31 (onLine l (fun x => x.withWord e d) { s with lines := s.lines.map fun x => x.giveUp e }))

/-- The cause word: enables and levels (R181). -/
def takeCauseWord (d : Word) (s : State) : Verdict :=
  .taken { s with alarm := { s.alarm with causes := Vector.ofFn fun i : CauseId =>
    { s.alarm.causes[i] with enabled := d.getLsbD i.val, level := bits d (20 + 2 * i.val) 2 } } }

/-- The alarm control word: a threshold of 0 traps it (R181). -/
def takeAlarmControl (d : Word) (s : State) : Verdict :=
  takeIf (bits d 0 2 != 0) { s with alarm := { s.alarm with threshold := bits d 0 2 } }

/-- The two words of the alarm setup (R181). -/
def takeAlarmSetup (i : Fin 2) (d : Word) (s : State) : Verdict :=
  if i = 0 then takeCauseWord d s else takeAlarmControl d s

end Sys2Proof.Machine
end

