-- ==== Sys2Proof/Machine/Submissions.lean ====
section
/-! DEFINITION. Submissions to the report part of the own-write queue (R90, R94, R110, R178), and the outcome list of a ring whose halt
has ended (R114). -/

namespace Sys2Proof.Machine

/-! ## The three sources -/

/-- A status or completion record is submitted; its words are read when its burst starts (R178). -/
def submitRecord (r : RecordId) (tick : Nat) (s : State) : State :=
  match windowOf s .status 0 with
  | none => s
  | some e =>
    let base := s.mem.windows[e].base + recordOffset r
    onMark r (fun m => { m with updates := m.updates + 1, submitted := some tick, since := none })
      (enqueue ⟨.status r, e, (List.range (recordLength r)).map fun i => (base + i, 0)⟩ s)

/-- STATUS_SUBMIT: the eligible record R178 selects, when the place is the status writer's (R94); no effect otherwise. -/
def doStatusSubmit (s : State) : State :=
  match statusCandidate s with
  | some r => if statusWins s then submitRecord r (microNow s) s else s
  | none => s

/-- The front outcome of ring `n` is submitted with its position (R110, R111). -/
def submitOutcome (n : RingId) (e : OutcomeEntry) (w : Fin 15) (s : State) : State :=
  let c := s.outRings[n].assigned.toNat
  let slots := s.mem.windows[w].length / 4
  let base := s.mem.windows[w].base + 4 * (c % slots)
  onOutRing n (fun r => { r with assigned := r.assigned + 1, outcomes := r.outcomes.drop 1, since := none })
    (enqueue ⟨.outcome n e, w, outcomeWords base (c / slots % 256) e⟩ s)

/-- OUTCOME_SUBMIT (R110); no effect unless the place is an outcome's (R94). -/
def doOutcomeSubmit (s : State) : State :=
  match outcomeCandidate s with
  | some n =>
    if outcomeWins s then
      match s.outRings[n].outcomes.head?, windowOf s .outcome n with
      | some e, some w => submitOutcome n e w s
      | _, _ => s
    else s
  | none => s

/-- The oldest outstanding entry not yet submitted is marked so. -/
def markSubmitted (l : List FaultEntry) : List FaultEntry :=
  match l with
  | [] => []
  | e :: rest => if e.submitted then e :: markSubmitted rest else { e with submitted := true } :: rest

/-- FAULT_ENTRY_SUBMIT (R90); no effect unless the place is the fault entry's (R94). That word 0 is issued before word 1 is the
model's choice (R95, entry 39). -/
def doFaultEntrySubmit (s : State) : State :=
  if faultWins s then
    match faultWaiting s, windowOf s .faultLog 0 with
    | some e, some w =>
      let t := enqueue ⟨.fault, w, [(e.address, e.word0), (e.address + 1, e.word1)]⟩ s
      { t with log := { t.log with outstanding := markSubmitted t.log.outstanding, since := none } }
    | _, _ => s
  else s

/-! ## The places one by one (R94, R110, R114) -/

/-- The record to which R94 gives the next free place of the report part is submitted; absent when no place is free or nothing is
offered. -/
def nextSubmission (s : State) : Option State :=
  if faultWins s then some (doFaultEntrySubmit s)
  else if outcomeWins s then some (doOutcomeSubmit s)
  else if statusWins s then some (doStatusSubmit s)
  else none

/-- While the front outcome of ring `n` is ready, the next free place goes to the record that R110 and R94 choose for it, be it that
outcome or another ring's, a fault entry or a status record that comes before it. What has become ready at this event is dated from
it. -/
def givePlace (n : RingId) (s : State) : State :=
  if outcomeReady s n then (nextSubmission (dateOffers s)).getD s else s

/-- The outcome list of a ring whose halt has ended is submitted again under R110 at this event, oldest request first (R114): places
are given out until the list is submitted or none of the sixteen is free. That the records which come before it are submitted at the
same event is the model's reading (entry 36). -/
def resubmit (n : RingId) (s : State) : State := (List.range 16).foldl (fun s _ => givePlace n s) s

end Sys2Proof.Machine
end

