-- ==== Sys2Proof/Machine/Commands.lean ====
section
/-! DEFINITION. The commands of Table 11-1, each acting on a state whose command state is already BUSY with it (R176). -/

namespace Sys2Proof.Machine

/-- A command on an argument out of range completes with RANGE; otherwise it acts. -/
def withIndex (n : Nat) (d : Word) (act : Fin n → State → State) (s : State) : State :=
  match asIndex n (commandIndex d) with
  | some i => act i s
  | none => complete .range s

/-! ## Paths -/

/-- PATH_ENABLE (R3). -/
def enablePath (p : PathId) (s : State) : State :=
  if s.paths[p].sup.state == .disabled then complete .done (enterDown p s) else complete .state s

/-- PATH_DISABLE (R4, R5). -/
def disablePath (p : PathId) (s : State) : State :=
  answersDone p (waitFor (.answers p) (if s.paths[p].sup.state == .disabled then s else enterDisabled p s))

/-- The record's history at its reset values (R6, R27). -/
def Supervisor.forget (u : Supervisor) : Supervisor :=
  { u with
    farMask := none, stepRun := 0, probeHistory := [], estimate := 0, estimateKind := .halfRtt, estimateCount := 0
    inbound := none, recentlyFailed := false, mismatch := false, roleClash := false, farStatus := none, probesLost := 0
    lastOffered := none, lastGranted := 0, farContract := none, discardedGrants := 0 }

/-- The port's counters and histories at their reset values (R6, R155, R164, R127). -/
def Port.forget (q : Port) : Port :=
  { q with
    history := [], sent := 0, accepted := 0, rejected := 0, noAnswer := 0, received := 0, checkFailures := 0
    lateAnswers := 0, insertDiscards := 0 }

/-- What PATH_RESET does to a path (R6, R27, R141, R155). -/
def Path.forget (x : Path) : Path :=
  { resetChannels x with sup := x.sup.forget, port := x.port.forget, wins := 0, leadMargin := none }

/-- PATH_RESET (R6). -/
def resetPath (p : PathId) (s : State) : State :=
  if s.paths[p].sup.state == .disabled then complete .done (onPath p (·.forget) s) else complete .state s

/-- QUERY_PATH (R43). That it acts on the ground path P4 as on an air path is the model's choice (entry 41). -/
def queryPath (p : PathId) (s : State) : State :=
  if s.paths[p].sup.state.inService then
    let t := onSup p (fun u => { u with lastQuery := nextNumber u.lastQuery }) s
    complete .done (insertFrame p (.query t.paths[p].sup.lastQuery) t)
  else complete .state s

/-! ## Inbound rings -/

/-- RING_START (R152). -/
def startRing (n : RingId) (s : State) : State :=
  if s.inRings[n].state == .stopped && s.inRings[n].slotCount.isSome then
    complete .done (onInRing n (fun r => { r with state := .active }) s)
  else complete .state s

/-- The queued records of ring `n` leave the deposit queue and are dropped; their number (R149, R153). -/
def dropQueued (n : RingId) (s : State) : State :=
  dropRecords n .stopped (s.mem.queue.filter (·.deliversTo n)).length (unqueue (·.deliversTo n) s)

/-- A burst of ring `n` is in progress. -/
def ringInBurst (n : RingId) (s : State) : Bool :=
  match s.mem.burst with
  | some e => e.deliversTo n
  | none => false

/-- RING_STOP of an ACTIVE ring (R153). -/
def stopActive (n : RingId) (s : State) : State :=
  let removed := (s.mem.queue.filter (·.deliversTo n)).length
  let t := onInRing n (fun r => { r with state := .stopped, assigned := r.assigned - BitVec.ofNat 16 removed }) s
    |> dropQueued n
  if ringInBurst n t then waitFor (.ringBurst n) t else complete .done t

/-- RING_STOP (R153). -/
def stopRing (n : RingId) (s : State) : State :=
  match s.inRings[n].state with
  | .active => stopActive n s
  | .halted => complete .done (onInRing n (fun r => { r with state := .stopped }) s)
  | .stopped => complete .done s

/-- The counts of a ring at RING_RESET (R154). -/
def InRing.zeroed (r : InRing) : InRing :=
  { r with
    deposit := 0, assigned := 0, release := 0, overflow := 0, dropsStopped := 0, dropsFull := 0, dropsQueue := 0 }

/-- RING_RESET (R154). -/
def resetRing (n : RingId) (s : State) : State :=
  if s.inRings[n].state == .stopped then
    complete .done (clearCause (overflowCause n) (onInRing n (·.zeroed) s))
  else complete .state s

/-! ## Outbound rings and streams -/

/-- A HALTED ring captures again and its outcomes are submitted again under R110 (R114). -/
def endHalt (n : RingId) (s : State) : State :=
  if s.outRings[n].state == .halted then resubmit n (onOutRing n (fun r => { r with state := .capturing }) s) else s

/-- OUT_FLUSH (R133, R114). -/
def flushRing (n : RingId) (s : State) : State :=
  let slots := (flushable s n).map (·.name.slot)
  let t := flushRecords n (endHalt n s)
  if slots.isEmpty then complete .done t else waitFor (.outcomes n slots) t

/-- OUT_SEQ_SET (R107). -/
def setOutSequence (d : Word) (i : StreamId) (s : State) : State := complete .done (setSequence i (bits d 32 32) s)

/-- STREAM_RESET (R143). -/
def resetStream (i : StreamId) (s : State) : State := complete .done (onStream i (·.clear) s)

/-! ## Time and rain -/

/-- TIME_SET (R65); a new time value marks the time status record (R71). R177 stamps the completion with the time value at the event
that replaces it and does not say whether with the old value or the new: the model completes after the replacement (entry 40). -/
def timeSet (s : State) : State :=
  if s.time.setValue < s.time.value then complete .backward s
  else
    let t := startSlew 0 { s with time := { s.time with trimHold := true, fraction := 0 } }
    let t := if s.time.value < s.time.setValue then markTime t else t
    complete .done (moveTime s.time.setValue t)

/-- TIME_ADJUST (R64). -/
def timeAdjust (s : State) : State :=
  complete .done (startSlew s.time.adjust { s with time := { s.time with trimHold := true } })

/-- RAIN_SET and RAIN_CLEAR (R122). -/
def setRain (b : Bool) (s : State) : State := complete .done { s with sel := { s.sel with rainFlag := b } }

/-! ## Alarms, fault log, status -/

/-- The pending flags of the named causes are cleared (R181). -/
def clearNamed (set : Nat) (s : State) : State :=
  { s with alarm := { s.alarm with causes := Vector.ofFn fun i : CauseId =>
    { s.alarm.causes[i] with pending := s.alarm.causes[i].pending && !set.testBit i.val } } }

/-- ALARM_ACK (R181, R177). -/
def ackAlarms (d : Word) (s : State) : State :=
  let set := field d 16 32
  if 2 ^ 20 ≤ set then completeWith (set.testBit 18) .range s
  else completeWith (set.testBit 18) .done (clearNamed set s)

/-- The clean log of LOG_RESET (R93). -/
def cleanLog (s : State) : State :=
  { s with log := { s.log with state := .ready, entryCount := 0, releaseCount := 0, lost := 0, resetting := false } }

/-- LOG_RESET (R93). -/
def resetLog (s : State) : State :=
  if s.log.outstanding.isEmpty then complete .done (cleanLog s)
  else waitFor .logEntries { s with log := { s.log with resetting := true } }

/-- The status record in its burst. -/
def recordInBurst (s : State) : Option RecordId :=
  match s.mem.burst with
  | some e =>
    match e.source with
    | .status r => some r
    | .delivery _ | .outcome _ _ | .fault => none
  | none => none

/-- The records a SNAPSHOT waits for: all but the completion record (R180). -/
def snapshotRecords : List RecordId := (List.finRange 36).filter fun r => r.val < 35

/-- The writer becomes RUNNING with every record marked (R179). -/
def restartWriter (s : State) : State := markAll { s with status := { s.status with running := true } }

/-- Every record is made eligible without regard to its interval (R180). -/
def forgetSubmissions (s : State) : State :=
  { s with status := { s.status with records := s.status.records.map fun m => { m with submitted := none } } }

/-- SNAPSHOT (R180). -/
def takeSnapshot (s : State) : State :=
  match windowOf s .status 0 with
  | none => complete .state s
  | some _ => waitFor (.records snapshotRecords (recordInBurst s)) (forgetSubmissions (restartWriter s))

/-! ## The command word (Table 12-8) -/

/-- The command a code names acts; any other code is UNKNOWN (R176). -/
def runCommand (d : Word) (s : State) : State :=
  match field d 0 8 with
  | 1 => withIndex 5 d enablePath s
  | 2 => withIndex 5 d disablePath s
  | 3 => withIndex 5 d resetPath s
  | 4 => withIndex 4 d startRing s
  | 5 => withIndex 4 d stopRing s
  | 6 => withIndex 4 d resetRing s
  | 7 => withIndex 4 d flushRing s
  | 8 => withIndex 16 d (setOutSequence d) s
  | 9 => withIndex 16 d resetStream s
  | 10 => timeSet s
  | 11 => timeAdjust s
  | 12 => setRain true s
  | 13 => setRain false s
  | 14 => withIndex 5 d queryPath s
  | 15 => ackAlarms d s
  | 16 => resetLog s
  | 17 => takeSnapshot s
  | _ => complete .unknown s

/-- A write of the command word: taken in IDLE, refused in BUSY (R176). -/
def takeCommand (d : Word) (s : State) : Verdict :=
  if s.cmd.busy.isSome then .refused .cmdBusy s
  else .taken (runCommand d { s with cmd := { s.cmd with busy := some ⟨bits d 0 8, bits d 8 8, .nothing⟩ } })

end Sys2Proof.Machine
end

