-- ==== Sys2Proof/Machine/Windows.lean ====
section
/-! DEFINITION. The words of the guarded span, the master table and the window table (R78 to R83). -/

namespace Sys2Proof.Machine

/-! ## Span and masters -/

/-- A range lies wholly in another. -/
def within (base length outerBase outerLength : Nat) : Bool :=
  outerBase ≤ base && base + length ≤ outerBase + outerLength

/-- The span may be taken (R79). -/
def spanAllowed (s : State) (base length : Nat) : Bool :=
  within (setupBase s) Config.setupWords base length && base + length ≤ Config.addressSpace
    && s.mem.windows.toList.all fun w => !w.enabled || within w.base w.length base length

/-- The span word (R79). -/
def takeSpan (d : Word) (s : State) : Verdict :=
  takeIf (spanAllowed s (field d 0 28) (field d 32 29))
    { s with mem := { s.mem with spanBase := field d 0 28, spanLength := field d 32 29 } }

/-- The master table with one privilege replaced. -/
def withPrivilege (s : State) (k : Master) (v : BitVec 2) : Vector (BitVec 2) 8 := s.mem.masters.set k.val v k.isLt

/-- A master word: some master keeps privilege 0, else it is trapped (R83). -/
def takeMaster (k : Master) (d : Word) (s : State) : Verdict :=
  takeIf ((withPrivilege s k (bits d 0 2)).toList.any (· == 0))
    { s with mem := { s.mem with masters := withPrivilege s k (bits d 0 2) } }

/-! ## Extent -/

/-- An extent word (R80). -/
def takeExtent (e : Fin 15) (d : Word) (s : State) : Verdict :=
  let w := s.mem.windows[e]
  let base := field d 0 28
  let length := field d 32 29
  if w.enabled then
    if base == w.base && length == w.length then .taken s else .refused .windowInUse s
  else takeIf (base + length ≤ Config.addressSpace) (onWindow e (fun w => { w with base := base, length := length }) s)

/-! ## Enable (R81) -/

/-- A slot count: a power of two from 16 to 1024 (R81). -/
def isSlotCount (n : Nat) : Bool :=
  n == 16 || n == 32 || n == 64 || n == 128 || n == 256 || n == 512 || n == 1024

/-- Two ranges overlap. -/
def overlap (base length base' length' : Nat) : Bool := base < base' + length' && base' < base + length

/-- No enabled window overlaps, entry 0 included (R81, condition 3). -/
def overlapsNone (s : State) (w : Window) : Bool :=
  !overlap w.base w.length (setupBase s) Config.setupWords
    && s.mem.windows.toList.all fun v => !v.enabled || !overlap w.base w.length v.base v.length

/-- No enabled entry has the same kind and number (R81, condition 4). -/
def kindIsFree (s : State) (w : Window) : Bool := w.kind == .plain || (windowOf s w.kind w.number).isNone

/-- The slot count agrees with the other window of the ring, when it is enabled (R81, conditions 5 and 6). -/
def slotsAgree (s : State) (k : WindowKind) (n : RingId) (words slots : Nat) : Bool :=
  match windowOf s k n with
  | some e => s.mem.windows[e].length == words * slots
  | none => true

/-- The length fits the kind (R81, conditions 5 and 6). -/
def lengthFits (s : State) (w : Window) : Bool :=
  match w.kind with
  | .plain => 1 ≤ w.length
  | .inbound => w.length % 8 == 0 && isSlotCount (w.length / 8)
  | .outbound => w.length % 8 == 0 && isSlotCount (w.length / 8) && slotsAgree s .outcome w.number 4 (w.length / 8)
  | .outcome => w.length % 4 == 0 && isSlotCount (w.length / 4) && slotsAgree s .outbound w.number 8 (w.length / 4)
  | .status => statusMapLength ≤ w.length
  | .faultLog => w.length % 2 == 0 && 2 ≤ w.length && w.length ≤ 1024 && s.log.fill ≤ w.length / 2

/-- Every condition of an enable holds (R81). -/
def mayEnable (s : State) (w : Window) : Bool :=
  within w.base w.length s.mem.spanBase s.mem.spanLength && overlapsNone s w && kindIsFree s w && lengthFits s w

/-- A slot just created: FREE, staging zero, no refusal (R100). -/
def freeSlot : Slot := ⟨false, Vector.replicate 7 0, none⟩

/-- The owner of the kind is told that its window exists (R100, R148, R179). -/
def windowOpened (w : Window) (s : State) : State :=
  match w.kind with
  | .plain | .faultLog => s
  | .status => restartWriter s
  | .outbound => onOutRing w.number (fun r => { r with table := some (List.replicate (w.length / 8) freeSlot) }) s
  | .outcome => onOutRing w.number (fun r => { r with outcomeCount := 0, assigned := 0 }) s
  | .inbound => onInRing w.number (fun r => { r with
      slotCount := some (w.length / 8), deposit := 0, assigned := 0, release := 0 }) s

/-! ## Disable (R82) -/

/-- Ring `n` has a CAPTURED slot or a class-held record (Table 5-3). -/
def outboundBusy (s : State) (n : RingId) : Bool :=
  s.outRings[n].slots.any (·.captured) || s.sel.held.any fun r => r.name.ring == n

/-- A window in use (Table 5-3). -/
def windowInUse (s : State) (w : Window) : Bool :=
  match w.kind with
  | .plain => false
  | .outbound => outboundBusy s w.number
  | .outcome => outboundBusy s w.number || queuedOrBurst s (·.outcomeOf w.number)
  | .inbound => !(s.inRings[w.number].state == .stopped) || queuedOrBurst s (·.deliversTo w.number)
  | .status => queuedOrBurst s (·.isStatus)
  | .faultLog => !s.log.outstanding.isEmpty

/-- The slot table is released; refusal outcomes still in the list are discarded and counted (R100), those of an earlier table that
R113 has put back included (the model's choice, entry 20). -/
def OutRing.release (r : OutRing) : OutRing :=
  { r with
    table := none
    outcomes := r.outcomes.filter fun e => !e.refusal
    discarded := satAdd r.discarded (r.outcomes.filter (·.refusal)).length
    generation := r.generation + 1
    since := none }

/-- A SNAPSHOT in progress ends with STATE (R180). -/
def snapshotLoses (r : CommandResult) (s : State) : State :=
  match waiting s with
  | .records _ _ => complete r s
  | .nothing | .answers _ | .ringBurst _ | .outcomes _ _ | .logEntries => s

/-- The owner of the kind is told that its window exists no more (R100, R148, R180). -/
def windowClosed (w : Window) (s : State) : State :=
  match w.kind with
  | .plain | .faultLog | .outcome => s
  | .status => snapshotLoses .state s
  | .outbound => onOutRing w.number (·.release) s
  | .inbound => onInRing w.number (fun r => { r with slotCount := none }) s

/-! ## The control word -/

/-- An entry with a control word's fields. -/
def Window.withControl (w : Window) (k : WindowKind) (d : Word) : Window :=
  { w with
    kind := k, number := (bits d 4 2).toFin, required := bits d 8 2, writers := bits d 16 8, enabled := d.getLsbD 31 }

/-- Same kind and, for a ring kind, same number (R81). -/
def sameUse (a b : Window) : Bool := a.kind == b.kind && (!a.kind.isRing || a.number == b.number)

/-- A control word (R81, R82); a kind out of range traps it first (entry 19). -/
def takeControlWord (e : Fin 15) (d : Word) (s : State) : Verdict :=
  match WindowKind.ofCode (field d 0 3) with
  | none => .trapped
  | some k =>
    let w := s.mem.windows[e]
    let v := w.withControl k d
    if v.enabled then
      if w.enabled then
        if sameUse w v then
          .taken (onWindow e (fun w => { w with required := v.required, writers := v.writers }) s)
        else .refused .windowInUse s
      else takeIf (mayEnable s v) (windowOpened v (onWindow e (fun _ => v) s))
    else if w.enabled then
      if windowInUse s w then .refused .windowInUse s else .taken (windowClosed w (onWindow e (fun _ => v) s))
    else .taken (onWindow e (fun _ => v) s)

end Sys2Proof.Machine
end

