-- ==== Sys2Proof/Machine/Access.lean ====
section
/-! DEFINITION. Accesses at the P-port (R84 to R87, R97): the setup region's map, the write check, the read hold. -/

namespace Sys2Proof.Machine

/-! ## The setup region (Table 12-9) -/

/-- One of `n` words from offset `first` on. -/
def offsetIn (o first n : Nat) : Option (Fin n) := if first ≤ o then asIndex n (o - first) else none

/-- Offsets 120 to 144: ring control, lines, alarm setup, the command word; any other offset belongs to no record (R175). -/
def takeUpperWord (o : Nat) (d : Word) (s : State) : Verdict :=
  match offsetIn o 120 4, offsetIn o 128 8, offsetIn o 136 2 with
  | some n, _, _ => takeRingControl n d s
  | _, some l, _ => takeLine l d s
  | _, _, some i => takeAlarmSetup i d s
  | none, none, none => if o = 124 then takeLogRelease d s else if o = 144 then takeCommand d s else .trapped

/-- Offsets 64 to 119: path setup, stream setup, divert filters. -/
def takeMiddleWord (o : Nat) (d : Word) (s : State) : Verdict :=
  match offsetIn o 64 25, offsetIn o 96 16, offsetIn o 112 8 with
  | some i, _, _ => takePathSetup ⟨i.val / 5, by omega⟩ (i.val % 5) d s
  | _, some st, _ => takeStreamSetup st d s
  | _, _, some f => takeDivertFilter f d s
  | none, none, none => .trapped

/-- A window entry's two words: extent, then control. -/
def takeWindowWord (i : Fin 30) (d : Word) (s : State) : Verdict :=
  if i.val % 2 = 0 then takeExtent ⟨i.val / 2, by omega⟩ d s else takeControlWord ⟨i.val / 2, by omega⟩ d s

/-- Offsets 0 to 63: identity, span, masters, windows, selector, time. -/
def takeLowerWord (o : Nat) (d : Word) (s : State) : Verdict :=
  match offsetIn o 0 2, offsetIn o 8 8, offsetIn o 16 30, offsetIn o 49 3 with
  | some i, _, _, _ => takeIdentity i d s
  | _, some k, _, _ => takeMaster k d s
  | _, _, some i, _ => takeWindowWord i d s
  | _, _, _, some i => takeTimeSetup i d s
  | none, none, none, none => if o = 2 then takeSpan d s else if o = 48 then takeSelector d s else .trapped

/-- The word at an offset of the setup region, taken by the record it belongs to (Table 12-9). -/
def takeSetupWord (o : Nat) (d : Word) (s : State) : Verdict :=
  if o < 64 then takeLowerWord o d s else if o < 120 then takeMiddleWord o d s else takeUpperWord o d s

/-! ## The write check (R85, R86) -/

/-- The window lets the master write: privilege or writer mask (step 3). -/
def mayWrite (s : State) (m : Master) (required : BitVec 2) (writers : BitVec 8) : Bool :=
  s.mem.masters[m].toNat ≤ required.toNat || writers.getLsbD m.val

/-- Steps 3, 5 and 6 in the setup region. -/
def checkSetup (x : Access) (s : State) : Verdict :=
  if !mayWrite s x.master 0 0 then .refused .access s
  else if !(x.enables == 0xFF) then .refused .partialSetup s
  else takeSetupWord (x.addr.toNat - setupBase s) x.data s

/-- Steps 3, 4 and 6 in a window of entries 1 to 15. -/
def checkWindow (w : Window) (x : Access) (s : State) : Verdict :=
  if !mayWrite s x.master w.required w.writers then .refused .access s
  else if w.kind.isOwned && !(s.mem.masters[x.master] == 0) then .refused .owned s
  else
    match w.kind with
    | .outbound => takeOutbound w.number w.base x.addr.toNat x.enables x.data s
    | .plain | .status | .outcome | .inbound | .faultLog => .taken s

/-- The write check (Table 5-4). -/
def writeCheck (x : Access) (s : State) : Verdict :=
  let a := x.addr.toNat
  if !inSpan s a then .taken s
  else if inSetupRegion s a then checkSetup x s
  else
    match windowAt s a with
    | none => .refused .beyondMap s
    | some e => checkWindow s.mem.windows[e] x s

/-! ## Taking accesses (R84) -/

/-- An access is passed to memory: it will be issued in the order taken (R84). -/
def passAccess (x : Access) (s : State) : State := { s with mem := { s.mem with passing := s.mem.passing ++ [x] } }

/-- A refused write is consumed: its requester receives a normal completion (R84). -/
def completeAccess (x : Access) (s : State) : State := { s with mem := { s.mem with answered := some ⟨x, .completed⟩ } }

/-- A write is taken (R84, R85, R88). -/
def takeWrite (x : Access) (s : State) : State :=
  match writeCheck x s with
  | .taken t => passAccess x t
  | .trapped => passAccess x (report .trap .range x.master x.addr.toNat s)
  | .refused c t => completeAccess x (report .fault c x.master x.addr.toNat t)

/-- The read-hold tracker holds the address (R97). -/
def isHeld (s : State) (a : Nat) : Bool :=
  match s.mem.burst with
  | some e => e.words.any fun w => w.1 == a
  | none => false

/-- An access waits at the P-port (R84). -/
def waitAtPort (x : Access) (s : State) : State := { s with mem := { s.mem with line := s.mem.line ++ [x] } }

/-- A read is taken: held or passed; no read changes anything else (R87, R97). -/
def takeRead (x : Access) (s : State) : State := if isHeld s x.addr.toNat then waitAtPort x s else passAccess x s

/-- An access is taken. -/
def takeAccess (x : Access) (s : State) : State := if x.write then takeWrite x s else takeRead x s

/-- An access arrives: behind a held read it waits (R84). -/
def arrive (x : Access) (s : State) : State := if s.mem.line.isEmpty then takeAccess x s else waitAtPort x s

/-- The waiting accesses are taken one by one when the hold has ended, each an event of its own (R84, R97, entry 18). -/
def drainLine (s : State) : State :=
  s.mem.line.foldl (fun s x => settle s (arrive x s)) { s with mem := { s.mem with line := [] } }

/-! ## The rows -/

/-- A write with all it carries. -/
def writeOf (m : Master) (a : Addr) (be : ByteEnables) (d : Word) : Access := ⟨m, true, a, be, d⟩

/-- A read with all it carries. -/
def readOf (m : Master) (a : Addr) : Access := ⟨m, false, a, 0, 0⟩

/-- A write of setup word `o` arrives. -/
def arriveSetup (o : Nat) (m : Master) (be : ByteEnables) (d : Word) (s : State) : State :=
  arrive (writeOf m (setupAddress s o) be d) s

/-- A write of the command word arrives. -/
def arriveCommand (code : Byte) (m : Master) (be : ByteEnables) (num : Byte) (arg : BitVec 48) (s : State) : State :=
  arriveSetup 144 m be (commandWord code num arg) s

end Sys2Proof.Machine
end

