-- ==== Sys2Proof/Machine/Bursts.lean ====
section
/-! DEFINITION. The M-port (R95 to R97): passing accesses, bursts, their ends and their errors. -/

namespace Sys2Proof.Machine

/-! ## The arbiter (R96) -/

/-- A passing access goes next (R96). -/
def passingNext (s : State) : Bool :=
  s.mem.burst.isNone && !s.mem.passing.isEmpty && (s.mem.queue.isEmpty || s.mem.runCount < 4)

/-- The oldest queued entry starts its burst (R96). At a run count of 4 it goes before a read that was taken earlier and still
waits for the M-port, also when the burst writes that read's word (the model's choice between R96 and R97, entry 35). -/
def burstNext (s : State) : Bool :=
  s.mem.burst.isNone && !s.mem.queue.isEmpty && (4 ≤ s.mem.runCount || s.mem.passing.isEmpty)

/-- PASSING_ACCESS_ISSUE (R96); no effect when it is not its turn. What memory answers, an error included, goes back to the
requester unchanged (R84, entry 34). -/
def doPassingAccessIssue (s : State) : State :=
  if passingNext s then
    { s with mem := { s.mem with
      passing := s.mem.passing.drop 1
      runCount := min 4 (s.mem.runCount + 1)
      answered := s.mem.passing.head?.map fun x => ⟨x, .asMemory⟩ } }
  else s

/-- An entry's words at the start of its burst: a status record's content is read now (R178). -/
def burstWords (s : State) (e : WriteEntry) : List (Nat × Word) :=
  match e.source with
  | .status r => recordWords s s.mem.windows[e.window].base r
  | .delivery _ | .outcome _ _ | .fault => e.words

/-- BURST_START (R95, R96); no effect when it is not its turn. -/
def doBurstStart (s : State) : State :=
  match s.mem.queue with
  | [] => s
  | e :: rest =>
    if burstNext s then
      { s with mem := { s.mem with queue := rest, burst := some { e with words := burstWords s e } } }
    else s

/-! ## The end of a burst (R95) -/

/-- The burst is over and the run count returns to 0 (R96). -/
def clearBurst (s : State) : State := { s with mem := { s.mem with burst := none, runCount := 0 } }

/-- A RING_STOP waiting for the ring's burst completes (R153). -/
def stopDone (n : RingId) (r : CommandResult) (s : State) : State :=
  if waiting s == .ringBurst n then complete r s else s

/-- A delivery record is written (R149). -/
def deliveryWritten (n : RingId) (s : State) : State :=
  onInRing n (fun r => { r with deposit := r.deposit + 1 }) s |> stopDone n .done

/-- An OUT_FLUSH waiting for a slot's outcome counts it; with the last it completes (R133). -/
def flushProgress (n : RingId) (e : OutcomeEntry) (s : State) : State :=
  match waiting s with
  | .outcomes m slots =>
    if m == n && !e.refusal && slots.contains e.slot then
      let left := slots.filter (fun k => !(k == e.slot))
      if left.isEmpty then complete .done s else waitFor (.outcomes m left) s
    else s
  | .nothing | .answers _ | .ringBurst _ | .logEntries | .records _ _ => s

/-- The slot of a written outcome is FREE again (R112). -/
def slotWritten (e : OutcomeEntry) (x : Slot) : Slot :=
  if e.refusal then { x with refusal := none } else { x with captured := false }

/-- An outcome record is written (R112). -/
def outcomeWritten (n : RingId) (e : OutcomeEntry) (s : State) : State :=
  let current := s.outRings[n].generation == e.generation
  let t := onOutRing n (fun r => { r with outcomeCount := r.outcomeCount + 1, written := satInc r.written }) s
  flushProgress n e (if current then onSlot n e.slot (slotWritten e) t else t)

/-- A SNAPSHOT counts a record written (R180). -/
def snapshotProgress (r : RecordId) (s : State) : State :=
  match waiting s with
  | .records left old =>
    if old == some r then waitFor (.records left none) s
    else
      let rest := left.filter (fun k => !(k == r))
      if rest.isEmpty then complete .done s else waitFor (.records rest old) s
  | .nothing | .answers _ | .ringBurst _ | .outcomes _ _ | .logEntries => s

/-- A status or completion record is written: its mark stays only for a change taken during the burst (R178). -/
def statusWritten (r : RecordId) (s : State) : State :=
  onMark r (fun m => { m with changed := m.again, again := false }) s |> snapshotProgress r

/-- A LOG_RESET waiting for the outstanding entries acts when there are none left (R93). -/
def logResetProgress (s : State) : State :=
  if s.log.resetting && s.log.outstanding.isEmpty then
    let t := cleanLog s
    if waiting t == .logEntries then complete .done t else t
  else s

/-- A fault entry is written (R92). -/
def faultWritten (s : State) : State :=
  raiseCause 13 { s with log := { s.log with outstanding := s.log.outstanding.drop 1 } } |> logResetProgress

/-- The burst ended without error: its source is told (R95). -/
def burstWritten (e : WriteEntry) (s : State) : State :=
  match e.source with
  | .delivery n => deliveryWritten n s
  | .outcome n o => outcomeWritten n o s
  | .status r => statusWritten r s
  | .fault => faultWritten s

/-- BURST_END (R95); no effect without a burst. -/
def doBurstEnd (s : State) : State :=
  match s.mem.burst with
  | some e => burstWritten e (clearBurst s)
  | none => s

/-! ## An error in a burst (R95, Table 5-6) -/

/-- Last abort and the ABORT cause (R92, R95). -/
def recordAbort (c : Cause) (a : Nat) (s : State) : State :=
  raiseCause 15 { s with log := { s.log with lastAbort := some ⟨c, a, stampNow s⟩ } }

/-- An ABORT report with its consequences in the fault-log writer (R88, R95). -/
def abort (c : Cause) (a : Nat) (s : State) : State := report .abort c 0 a s |> recordAbort c a

/-- DEPOSIT_ERROR (R149, R153). -/
def depositFailed (n : RingId) (s : State) : State :=
  onInRing n (fun r => { r with state := .halted }) s
  |> dropRecord n .stopped |> dropQueued n
  |> onInRing n (fun r => { r with assigned := r.deposit })
  |> stopDone n .halted

/-- The outcomes of ring `n` in the queue, oldest first. -/
def queuedOutcomes (s : State) (n : RingId) : List OutcomeEntry :=
  s.mem.queue.filterMap fun e =>
    match e.source with
    | .outcome m o => if m == n then some o else none
    | .delivery _ | .status _ | .fault => none

/-- An OUT_FLUSH of the ring ends with HALTED (R133). -/
def flushHalts (n : RingId) (s : State) : State :=
  match waiting s with
  | .outcomes m _ => if m == n then complete .halted s else s
  | .nothing | .answers _ | .ringBurst _ | .logEntries | .records _ _ => s

/-- OUTCOME_ERROR (R113). -/
def outcomeFailed (n : RingId) (e : OutcomeEntry) (s : State) : State :=
  let back := e :: queuedOutcomes s n
  unqueue (·.outcomeOf n) s
  |> onOutRing n (fun r => { r with
      state := .halted, outcomes := back ++ r.outcomes, assigned := r.outcomeCount, since := none })
  |> flushHalts n

/-- STATUS_ERROR (R179): the failed record keeps its mark. -/
def statusFailed (r : RecordId) (s : State) : State :=
  let t := unqueue (·.isStatus) s
  onMark r (fun m => { m with changed := true, again := false }) { t with status := { t.status with running := false } }
  |> snapshotLoses .halted

/-- An error on a fault-entry burst (R92): every outstanding entry is removed and counted lost. -/
def faultFailed (a : Nat) (s : State) : State :=
  let lost := s.log.outstanding.length
  let t := recordAbort .faultError a { s with log := { s.log with state := .failed, outstanding := [], since := none } }
  (List.range lost).foldl (fun s _ => countLost s) (unqueue (·.isFault) t) |> logResetProgress

/-- Memory answered the word at address `a` with an error (Table 5-6). -/
def burstFailed (e : WriteEntry) (a : Nat) (s : State) : State :=
  match e.source with
  | .delivery n => abort .depositError a s |> depositFailed n
  | .outcome n o => abort .outcomeError a s |> outcomeFailed n o
  | .status r => abort .statusError a s |> statusFailed r
  | .fault => faultFailed a s

/-- BURST_ERROR (R95): word `k` in issue order; no effect without such a word (entry 22). -/
def doBurstError (k : Fin 64) (s : State) : State :=
  match s.mem.burst with
  | some e =>
    match e.words[k.val]? with
    | some w => burstFailed e w.1 (clearBurst s)
    | none => s
  | none => s

end Sys2Proof.Machine
end

