-- ==== Sys2Proof/Machine/Clock.lean ====
section
/-! DEFINITION. Pins, filters and pulses as events (R173, R174), the reference clock (R62, R77), and what the block does on an empty
queue (entries 1 and 3). -/

namespace Sys2Proof.Machine

/-! ## Pins and filters (R66, R174) -/

/-- A pulse when line `l` carries PPS_IN and has become active (R66). -/
def pulseOnEdge (l : LineId) (before : Bool) (s : State) : State :=
  let x := s.lines[l]
  if x.event == .ppsIn && !before && x.isActive then takePulse x.width s else s

/-- PIN_CHANGE (R174). -/
def doPinChange (l : LineId) (high : Bool) (s : State) : State :=
  let before := s.lines[l].isActive
  pulseOnEdge l before (refreshLine (onLine l (fun x => { x with outside := high }) s) l)

/-- FILTER_EXPIRY: the filtered level takes the pin level when a count is in progress (R174, entry 2). -/
def doFilterExpiry (l : LineId) (s : State) : State :=
  let x := s.lines[l]
  match x.count with
  | some _ =>
    let pin := pinLevel s x
    pulseOnEdge l x.isActive (onLine l (fun x => { x with filtered := pin, count := none }) s)
  | none => s

/-- PULSE_END (R173). -/
def doPulseEnd (e : PulseEvent) (s : State) : State :=
  { s with pulses := match e with
    | .critical => { s.pulses with critical := none }
    | .pathSwitch => { s.pulses with pathSwitch := none }
    | .ppsOut => { s.pulses with ppsOut := none } }

/-! ## One microsecond (R77) -/

/-- A pulse's ticks: withdrawn at the second (R173). -/
def pulseTick (c : Option Nat) : Option Nat :=
  match c with
  | some k => if 1 ≤ k then none else some (k + 1)
  | none => none

/-- Every pulse event counts a tick; a withdrawal is an event. -/
def tickPulses (s : State) : State :=
  let q : Pulses := ⟨pulseTick s.pulses.critical, pulseTick s.pulses.pathSwitch, pulseTick s.pulses.ppsOut⟩
  let t := { s with pulses := q }
  if s.pulses.critical.isSome != q.critical.isSome || s.pulses.pathSwitch.isSome != q.pathSwitch.isSome
      || s.pulses.ppsOut.isSome != q.ppsOut.isSome then settle s t
  else t

/-- A nanosecond in which the pin has differed (R174, entry 15). -/
def countFilters (s : State) : State := { s with lines := s.lines.map fun x => { x with count := x.count.map (· + 1) } }

/-- A tick at the filter of a line: it completes the width when the pin has differed throughout it (R174). -/
def tickFilter (s : State) (l : LineId) : State :=
  let x := s.lines[l]
  match x.count with
  | none => s
  | some c => if x.width * 1000 ≤ c then settle s (doFilterExpiry l s) else s

/-- The oldest entry fails at its 1,000th tick (R159). -/
def failIfDue (p : PathId) (s : State) : State :=
  match s.paths[p].port.awaiting with
  | e :: _ => if 1000 ≤ e.ticks then settle s (doNoAnswer p s) else s
  | [] => s

/-- The answer limits of a path count a tick (R159), which the path status record shows (R155, R186). -/
def countAnswers (p : PathId) (s : State) : State :=
  if s.paths[p].port.awaiting.isEmpty then s
  else settle s (onPort p (fun q => { q with awaiting := q.awaiting.map fun e => { e with ticks := e.ticks + 1 } }) s)

/-- A tick at the answer limits of a path: entries at their 1,000th tick fail (R159). -/
def tickAnswers (s : State) (p : PathId) : State :=
  let t := countAnswers p s
  failIfDue p t |> failIfDue p |> failIfDue p |> failIfDue p

/-- The tap ticks now. -/
def tapTicks (s : State) (t : Tap) : Bool := s.time.reference % t.period == 0

/-- A counter one lower. -/
def Channel.lower (c : Channel) : Channel := { c with counter := c.counter - 1 }

/-- A tick of the probe channel (R167). -/
def tickProbe (p : PathId) (s : State) : State :=
  let c := s.paths[p].probe
  if !c.run || !tapTicks s c.loadedTap then s
  else if c.counter == 0 then settle (reloadProbe p s) (doProbeChannelUnderflow p s)
  else onPath p (fun x => { x with probe := x.probe.lower }) s

/-- A tick of the silence channel (R167). -/
def tickSilence (p : PathId) (s : State) : State :=
  let c := s.paths[p].silence
  if !c.run || !tapTicks s c.loadedTap then s
  else if c.counter == 0 then settle s (doSilenceUnderflow p s)
  else onPath p (fun x => { x with silence := x.silence.lower }) s

/-- The hold counter one lower. -/
def lowerHold (p : PathId) (s : State) : State := onPath p (setHoldValue (holdValue s.paths[p] - 1)) s

/-- A tick of the hold counter (R170, R171). -/
def tickHold (p : PathId) (s : State) : State :=
  let x := s.paths[p]
  if !x.holdLow.run || !tapTicks s x.holdLow.loadedTap then s
  else if holdValue x = 0 then settle s (doHoldUnderflow p s)
  else if x.holdLow.loadedCompare == some (BitVec.ofNat 16 (holdValue x - 1)) then settle (reachCompare p s) (doHoldCompareMatch p s)
  else lowerHold p s

/-- A tick of the guard (R171). -/
def tickGuard (p : PathId) (s : State) : State :=
  let c := s.paths[p].holdHigh
  if !guardRuns s.paths[p] || !tapTicks s c.loadedTap then s
  else if c.counter == 0 then settle s (doGuardUnderflow p s)
  else onPath p (fun x => { x with holdHigh := x.holdHigh.lower }) s

/-- The channels of a path count their ticks. -/
def tickChannels (s : State) (p : PathId) : State := tickProbe p s |> tickSilence p |> tickHold p |> tickGuard p

/-! ## One millisecond (R61, R70) -/

/-- The second of HOLDOVER counts a millisecond (R61, entry 4). -/
def tickHoldover (s : State) : State :=
  if s.time.state == .holdover then
    if 999 ≤ s.time.holdoverMs then
      settle s (limitReached { s with time := { s.time with
        holdoverMs := 0, holdoverElapsed := min 65535 (s.time.holdoverElapsed + 1) } })
    else { s with time := { s.time with holdoverMs := s.time.holdoverMs + 1 } }
  else s

/-- The pulse age counts a millisecond; the watchdog watches it (R61, R70). -/
def tickAge (s : State) : State :=
  match s.time.pulseAge with
  | none => s
  | some a =>
    let t := { s with time := { s.time with pulseAge := some (min 65535000 (a + 1)) } }
    if (s.time.state == .acquire || s.time.state == .locked) && 1500 ≤ a + 1 then settle t (watchdogFires t) else t

/-! ## One nanosecond (R62, R77) -/

/-- A tick of the 1 us tap and of the taps it completes, but for the pulses. -/
def tickMicro (s : State) : State :=
  let t := (List.finRange 8).foldl tickFilter s
  let t := (List.finRange 5).foldl tickChannels ((List.finRange 5).foldl tickAnswers t)
  if t.time.reference % 1000000 = 0 then tickAge (tickHoldover t) else t

/-- A nanosecond more of reference time. The pulses asserted count their tick first, so that a pulse the nanosecond itself
produces lasts beyond the next tick (R173). -/
def startNanosecond (s : State) : State :=
  let t := { countFilters s with time := { s.time with reference := s.time.reference + 1 } }
  if t.time.reference % 1000 = 0 then tickPulses t else t

/-- One nanosecond of the reference clock (R62, R77, entry 1). -/
def tick (s : State) : State :=
  let u := startNanosecond s
  let t := settle u (advanceTime 1 u)
  if t.time.reference % 1000 = 0 then tickMicro t else t

/-! ## An empty queue (entries 1 and 3) -/

/-- The first of the block's own events that is possible now. -/
def ownEvent (s : State) : Option State :=
  if (nextSelection s).isSome then some (doSelection s)
  else
    match (List.finRange 5).find? fun p => (tuneDue s.paths[p].port).isSome with
    | some p => some (doTuneStart p s)
    | none =>
      match (List.finRange 5).find? fun p => (dueSend s p).isSome with
      | some p => some (doSendStart p s)
      | none =>
        match nextSubmission s with
        | some t => some t
        | none =>
          if passingNext s then some (doPassingAccessIssue s)
          else if burstNext s then some (doBurstStart s)
          else none

/-- What the block does when no command waits: the first of its own events, else one nanosecond passes. -/
def idle (s : State) : State :=
  match ownEvent s with
  | some t => settle s t
  | none => tick s

end Sys2Proof.Machine
end

