-- ==== Sys2Proof/Machine/AccessRows.lean ====
section
/-! DEFINITION. The rows that are accesses at the P-port: each arrives with its address, byte enables and word, and is taken by what
they say (entry 23). -/

namespace Sys2Proof.Machine

/-- P_PORT_WRITE (R85). -/
def execPPortWrite (m : Master) (a : Addr) (be : ByteEnables) (d : Word) (s : State) : Answer :=
  .next (settle s (arrive (writeOf m a be d) s))

/-- P_PORT_READ (R87, R97). -/
def execPPortRead (m : Master) (a : Addr) (s : State) : Answer :=
  .next (settle s (arrive (readOf m a) s))

/-- IDENTITY_WORD (R175). -/
def execIdentityWord (m : Master) (be : ByteEnables) (i : Fin 2) (d : Word) (s : State) : Answer :=
  .next (settle s (arriveSetup i.val m be d s))

/-- GUARDED_SPAN_WORD (R79). -/
def execGuardedSpanWord (m : Master) (be : ByteEnables) (d : Word) (s : State) : Answer :=
  .next (settle s (arriveSetup 2 m be d s))

/-- MASTER_WORD (R83). -/
def execMasterWord (m : Master) (be : ByteEnables) (k : Master) (d : Word) (s : State) : Answer :=
  .next (settle s (arriveSetup (8 + k.val) m be d s))

/-- WINDOW_EXTENT_WORD (R80). -/
def execWindowExtentWord (m : Master) (be : ByteEnables) (e : Fin 15) (d : Word) (s : State) : Answer :=
  .next (settle s (arriveSetup (16 + 2 * e.val) m be d s))

/-- WINDOW_ENABLE (R81). -/
def execWindowEnable (m : Master) (be : ByteEnables) (e : Fin 15) (d : Word) (s : State) : Answer :=
  .next (settle s (arriveSetup (17 + 2 * e.val) m be d s))

/-- WINDOW_DISABLE (R82). -/
def execWindowDisable (m : Master) (be : ByteEnables) (e : Fin 15) (d : Word) (s : State) : Answer :=
  .next (settle s (arriveSetup (17 + 2 * e.val) m be d s))

/-- SELECTOR_WORD (R116, R175). -/
def execSelectorWord (m : Master) (be : ByteEnables) (d : Word) (s : State) : Answer :=
  .next (settle s (arriveSetup 48 m be d s))

/-- TIME_SETUP_WORD (R72). -/
def execTimeSetupWord (m : Master) (be : ByteEnables) (i : Fin 3) (d : Word) (s : State) : Answer :=
  .next (settle s (arriveSetup (49 + i.val) m be d s))

/-- PATH_MODE_WORD (R175). -/
def execPathModeWord (m : Master) (be : ByteEnables) (p : PathId) (d : Word) (s : State) : Answer :=
  .next (settle s (arriveSetup (64 + 5 * p.val) m be d s))

/-- TIMER_SETUP_WORD (R168). -/
def execTimerSetupWord (m : Master) (be : ByteEnables) (p : PathId) (i : Fin 2) (d : Word) (s : State) : Answer :=
  .next (settle s (arriveSetup (65 + 5 * p.val + i.val) m be d s))

/-- PENALTY_WORD (R49). -/
def execPenaltyWord (m : Master) (be : ByteEnables) (p : PathId) (d : Word) (s : State) : Answer :=
  .next (settle s (arriveSetup (67 + 5 * p.val) m be d s))

/-- STATUS_BYTES_WORD (R44). -/
def execStatusBytesWord (m : Master) (be : ByteEnables) (p : PathId) (d : Word) (s : State) : Answer :=
  .next (settle s (arriveSetup (68 + 5 * p.val) m be d s))

/-- STREAM_SETUP_WORD (R135). -/
def execStreamSetupWord (m : Master) (be : ByteEnables) (st : StreamId) (d : Word) (s : State) : Answer :=
  .next (settle s (arriveSetup (96 + st.val) m be d s))

/-- DIVERT_FILTER_WORD (R144). -/
def execDivertFilterWord (m : Master) (be : ByteEnables) (f : Fin 8) (d : Word) (s : State) : Answer :=
  .next (settle s (arriveSetup (112 + f.val) m be d s))

/-- INBOUND_RELEASE (R150). -/
def execInboundRelease (m : Master) (be : ByteEnables) (n : RingId) (d : Word) (s : State) : Answer :=
  .next (settle s (arriveSetup (120 + n.val) m be d s))

/-- RING_START_FIELD (R152). -/
def execRingStartField (m : Master) (be : ByteEnables) (n : RingId) (d : Word) (s : State) : Answer :=
  .next (settle s (arriveSetup (120 + n.val) m be d s))

/-- FAULT_LOG_RELEASE (R91). -/
def execFaultLogRelease (m : Master) (be : ByteEnables) (d : Word) (s : State) : Answer :=
  .next (settle s (arriveSetup 124 m be d s))

/-- LINE_WORD (R172). -/
def execLineWord (m : Master) (be : ByteEnables) (l : LineId) (d : Word) (s : State) : Answer :=
  .next (settle s (arriveSetup (128 + l.val) m be d s))

/-- ALARM_SETUP_WORD (R181). -/
def execAlarmSetupWord (m : Master) (be : ByteEnables) (i : Fin 2) (d : Word) (s : State) : Answer :=
  .next (settle s (arriveSetup (136 + i.val) m be d s))

/-- HEADER_WRITE (R102). -/
def execHeaderWrite (m : Master) (a : Addr) (be : ByteEnables) (d : Word) (s : State) : Answer :=
  .next (settle s (arrive (writeOf m a be d) s))

/-- STAGING_WRITE (R101). -/
def execStagingWrite (m : Master) (a : Addr) (be : ByteEnables) (d : Word) (s : State) : Answer :=
  .next (settle s (arrive (writeOf m a be d) s))

end Sys2Proof.Machine
end

