-- ==== Sys2Proof/Machine/CommandRows.lean ====
section
/-! DEFINITION. The rows that are writes of the command word (R176, Table 12-8). -/

namespace Sys2Proof.Machine

/-- PATH_ENABLE (R3). -/
def execPathEnable (m : Master) (be : ByteEnables) (num : Byte) (arg : BitVec 48) (s : State) : Answer :=
  .next (settle s (arriveCommand 1 m be num arg s))

/-- PATH_DISABLE (R4). -/
def execPathDisable (m : Master) (be : ByteEnables) (num : Byte) (arg : BitVec 48) (s : State) : Answer :=
  .next (settle s (arriveCommand 2 m be num arg s))

/-- PATH_RESET (R6). -/
def execPathReset (m : Master) (be : ByteEnables) (num : Byte) (arg : BitVec 48) (s : State) : Answer :=
  .next (settle s (arriveCommand 3 m be num arg s))

/-- RING_START (R152). -/
def execRingStart (m : Master) (be : ByteEnables) (num : Byte) (arg : BitVec 48) (s : State) : Answer :=
  .next (settle s (arriveCommand 4 m be num arg s))

/-- RING_STOP (R153). -/
def execRingStop (m : Master) (be : ByteEnables) (num : Byte) (arg : BitVec 48) (s : State) : Answer :=
  .next (settle s (arriveCommand 5 m be num arg s))

/-- RING_RESET (R154). -/
def execRingReset (m : Master) (be : ByteEnables) (num : Byte) (arg : BitVec 48) (s : State) : Answer :=
  .next (settle s (arriveCommand 6 m be num arg s))

/-- OUT_FLUSH (R133). -/
def execOutFlush (m : Master) (be : ByteEnables) (num : Byte) (arg : BitVec 48) (s : State) : Answer :=
  .next (settle s (arriveCommand 7 m be num arg s))

/-- OUT_SEQ_SET (R107). -/
def execOutSeqSet (m : Master) (be : ByteEnables) (num : Byte) (arg : BitVec 48) (s : State) : Answer :=
  .next (settle s (arriveCommand 8 m be num arg s))

/-- STREAM_RESET (R143). -/
def execStreamReset (m : Master) (be : ByteEnables) (num : Byte) (arg : BitVec 48) (s : State) : Answer :=
  .next (settle s (arriveCommand 9 m be num arg s))

/-- TIME_SET (R65). -/
def execTimeSet (m : Master) (be : ByteEnables) (num : Byte) (arg : BitVec 48) (s : State) : Answer :=
  .next (settle s (arriveCommand 10 m be num arg s))

/-- TIME_ADJUST (R64). -/
def execTimeAdjust (m : Master) (be : ByteEnables) (num : Byte) (arg : BitVec 48) (s : State) : Answer :=
  .next (settle s (arriveCommand 11 m be num arg s))

/-- RAIN_SET (R122). -/
def execRainSet (m : Master) (be : ByteEnables) (num : Byte) (arg : BitVec 48) (s : State) : Answer :=
  .next (settle s (arriveCommand 12 m be num arg s))

/-- RAIN_CLEAR (R122). -/
def execRainClear (m : Master) (be : ByteEnables) (num : Byte) (arg : BitVec 48) (s : State) : Answer :=
  .next (settle s (arriveCommand 13 m be num arg s))

/-- QUERY_PATH (R43; of P4, entry 41). -/
def execQueryPath (m : Master) (be : ByteEnables) (num : Byte) (arg : BitVec 48) (s : State) : Answer :=
  .next (settle s (arriveCommand 14 m be num arg s))

/-- ALARM_ACK (R181). -/
def execAlarmAck (m : Master) (be : ByteEnables) (num : Byte) (arg : BitVec 48) (s : State) : Answer :=
  .next (settle s (arriveCommand 15 m be num arg s))

/-- LOG_RESET (R93). -/
def execLogReset (m : Master) (be : ByteEnables) (num : Byte) (arg : BitVec 48) (s : State) : Answer :=
  .next (settle s (arriveCommand 16 m be num arg s))

/-- SNAPSHOT (R180). -/
def execSnapshot (m : Master) (be : ByteEnables) (num : Byte) (arg : BitVec 48) (s : State) : Answer :=
  .next (settle s (arriveCommand 17 m be num arg s))

/-- UNKNOWN_COMMAND (R176). -/
def execUnknownCommand (m : Master) (be : ByteEnables) (code num : Byte) (arg : BitVec 48) (s : State) : Answer :=
  .next (settle s (arriveCommand code m be num arg s))

end Sys2Proof.Machine
end

