-- ==== Sys2Proof/Machine/EventRows.lean ====
section
/-! DEFINITION. The rows that are the block's own events: deadlines, selections, timers, pins and pulses. -/

namespace Sys2Proof.Machine

/-- GAP_EXPIRY (R142). -/
def execGapExpiry (st : StreamId) (s : State) : Answer :=
  .next (settle s (doGapExpiry st s))

/-- AGEING (R125). -/
def execAgeing (s : State) : Answer :=
  .next (settle s (doAgeing s))

/-- SELECTION (R118). -/
def execSelection (s : State) : Answer :=
  .next (settle s (doSelection s))

/-- PROBE_CHANNEL_UNDERFLOW (R7); its reload alone marks nothing (R166). -/
def execProbeChannelUnderflow (p : PathId) (s : State) : Answer :=
  .next (settle (reloadProbe p s) (doProbeChannelUnderflow p s))

/-- SILENCE_UNDERFLOW (R12). -/
def execSilenceUnderflow (p : PathId) (s : State) : Answer :=
  .next (settle s (doSilenceUnderflow p s))

/-- HOLD_COMPARE_MATCH (R13); its tick alone marks nothing (R166). -/
def execHoldCompareMatch (p : PathId) (s : State) : Answer :=
  .next (settle (reachCompare p s) (doHoldCompareMatch p s))

/-- HOLD_UNDERFLOW (R13). -/
def execHoldUnderflow (p : PathId) (s : State) : Answer :=
  .next (settle s (doHoldUnderflow p s))

/-- GUARD_UNDERFLOW (R171). -/
def execGuardUnderflow (p : PathId) (s : State) : Answer :=
  .next (settle s (doGuardUnderflow p s))

/-- PIN_CHANGE (R174). -/
def execPinChange (l : LineId) (high : Bool) (s : State) : Answer :=
  .next (settle s (doPinChange l high s))

/-- FILTER_EXPIRY (R174). -/
def execFilterExpiry (l : LineId) (s : State) : Answer :=
  .next (settle s (doFilterExpiry l s))

/-- PULSE_WATCHDOG (R70). -/
def execPulseWatchdog (s : State) : Answer :=
  .next (settle s (doPulseWatchdog s))

/-- HOLDOVER_LIMIT (R70). -/
def execHoldoverLimit (s : State) : Answer :=
  .next (settle s (doHoldoverLimit s))

/-- SLEW_END (R63). -/
def execSlewEnd (s : State) : Answer :=
  .next (settle s (doSlewEnd s))

/-- PPS_OUT (R76). -/
def execPpsOut (s : State) : Answer :=
  .next (settle s (doPpsOut s))

/-- PULSE_END (R173). -/
def execPulseEnd (e : PulseEvent) (s : State) : Answer :=
  .next (settle s (doPulseEnd e s))

end Sys2Proof.Machine
end

