-- ==== Sys2Proof/Machine/MportRows.lean ====
section
/-! DEFINITION. The rows of the M-port: submissions, passing accesses and bursts (chapter 5). -/

namespace Sys2Proof.Machine

/-- STATUS_SUBMIT (R178). -/
def execStatusSubmit (s : State) : Answer :=
  .next (settle s (doStatusSubmit s))

/-- OUTCOME_SUBMIT (R110). -/
def execOutcomeSubmit (s : State) : Answer :=
  .next (settle s (doOutcomeSubmit s))

/-- FAULT_ENTRY_SUBMIT (R90). -/
def execFaultEntrySubmit (s : State) : Answer :=
  .next (settle s (doFaultEntrySubmit s))

/-- PASSING_ACCESS_ISSUE (R96). -/
def execPassingAccessIssue (s : State) : Answer :=
  .next (settle s (doPassingAccessIssue s))

/-- BURST_START (R96). -/
def execBurstStart (s : State) : Answer :=
  .next (settle s (doBurstStart s))

/-- BURST_END (R95). -/
def execBurstEnd (s : State) : Answer :=
  .next (drainLine (settle s (doBurstEnd s)))

/-- BURST_ERROR (R95). -/
def execBurstError (k : Fin 64) (s : State) : Answer :=
  .next (drainLine (settle s (doBurstError k s)))

end Sys2Proof.Machine
end

