-- ==== Sys2Proof/Machine/ResetRow.lean ====
section
/-! DEFINITION. RESET (R98, R115, R165, R183). -/

namespace Sys2Proof.Machine

/-- A line at reset: its filtered level takes the level the outside puts on its pin (R172, entry 33). -/
def Line.atReset (x : Line) : Line := Line.reset x.outside

/-- The state at reset; commands that wait and the levels outside stay (entries 32 and 33). -/
def doReset (straps : BitVec 4) (s : State) : State := State.afterReset straps (s.lines.map (·.atReset)) s.pending

/-- RESET (R98, R183). -/
def execReset (straps : BitVec 4) (s : State) : Answer := .next (doReset straps s)

end Sys2Proof.Machine
end

