-- ==== Sys2Proof/Machine/UnitRows.lean ====
section
/-! DEFINITION. The rows of the path ports and their units (chapter 9). -/

namespace Sys2Proof.Machine

/-- ACCEPT (R158). -/
def execAccept (p : PathId) (s : State) : Answer :=
  .next (settle s (doAccept p s))

/-- REJECT (R158). -/
def execReject (p : PathId) (s : State) : Answer :=
  .next (settle s (doReject p s))

/-- REPORT (R2, Table 12-3). -/
def execReport (p : PathId) (margin profile unit : Byte) (s : State) : Answer :=
  .next (settle s (doReport p margin profile unit s))

/-- UNKNOWN_UNIT_MESSAGE (R160). -/
def execUnknownUnitMessage (p : PathId) (b0 b1 b2 b3 : Byte) (s : State) : Answer :=
  .next (settle s (doUnknownUnitMessage p b0 b1 b2 b3 s))

/-- CARRY (R161). -/
def execCarry (p : PathId) (condition : Byte) (bytes : List Byte) (s : State) : Answer :=
  .next (settle s (doCarry p condition bytes s))

/-- SEND_START (R157). -/
def execSendStart (p : PathId) (s : State) : Answer :=
  .next (settle s (doSendStart p s))

/-- SEND_END (R156). -/
def execSendEnd (p : PathId) (s : State) : Answer :=
  .next (settle s (doSendEnd p s))

/-- TUNE_START (R156). -/
def execTuneStart (p : PathId) (s : State) : Answer :=
  .next (settle s (doTuneStart p s))

/-- TUNE_END (R156). -/
def execTuneEnd (p : PathId) (s : State) : Answer :=
  .next (settle s (doTuneEnd p s))

/-- NO_ANSWER (R159). -/
def execNoAnswer (p : PathId) (s : State) : Answer :=
  .next (settle s (doNoAnswer p s))

end Sys2Proof.Machine
end

