-- ==== Sys2Proof/Machine/Dispatch.lean ====
section
/-! DEFINITION. One arm for each row of spec/opcode_table.json. -/

namespace Sys2Proof.Machine

def exec (i : Instr) (s : State) : Host.Outcome State Fault Refusal :=
  match i with
  | .reset straps => Sys2Proof.Machine.execReset straps s
  | .pPortWrite m a be d => Sys2Proof.Machine.execPPortWrite m a be d s
  | .pPortRead m a => Sys2Proof.Machine.execPPortRead m a s
  | .identityWord m be i1 d => Sys2Proof.Machine.execIdentityWord m be i1 d s
  | .guardedSpanWord m be d => Sys2Proof.Machine.execGuardedSpanWord m be d s
  | .masterWord m be k d => Sys2Proof.Machine.execMasterWord m be k d s
  | .windowExtentWord m be e d => Sys2Proof.Machine.execWindowExtentWord m be e d s
  | .windowEnable m be e d => Sys2Proof.Machine.execWindowEnable m be e d s
  | .windowDisable m be e d => Sys2Proof.Machine.execWindowDisable m be e d s
  | .selectorWord m be d => Sys2Proof.Machine.execSelectorWord m be d s
  | .timeSetupWord m be i1 d => Sys2Proof.Machine.execTimeSetupWord m be i1 d s
  | .pathModeWord m be p d => Sys2Proof.Machine.execPathModeWord m be p d s
  | .timerSetupWord m be p i1 d => Sys2Proof.Machine.execTimerSetupWord m be p i1 d s
  | .penaltyWord m be p d => Sys2Proof.Machine.execPenaltyWord m be p d s
  | .statusBytesWord m be p d => Sys2Proof.Machine.execStatusBytesWord m be p d s
  | .streamSetupWord m be st d => Sys2Proof.Machine.execStreamSetupWord m be st d s
  | .divertFilterWord m be f d => Sys2Proof.Machine.execDivertFilterWord m be f d s
  | .inboundRelease m be n d => Sys2Proof.Machine.execInboundRelease m be n d s
  | .ringStartField m be n d => Sys2Proof.Machine.execRingStartField m be n d s
  | .faultLogRelease m be d => Sys2Proof.Machine.execFaultLogRelease m be d s
  | .lineWord m be l d => Sys2Proof.Machine.execLineWord m be l d s
  | .alarmSetupWord m be i1 d => Sys2Proof.Machine.execAlarmSetupWord m be i1 d s
  | .headerWrite m a be d => Sys2Proof.Machine.execHeaderWrite m a be d s
  | .stagingWrite m a be d => Sys2Proof.Machine.execStagingWrite m a be d s
  | .pathEnable m be num arg => Sys2Proof.Machine.execPathEnable m be num arg s
  | .pathDisable m be num arg => Sys2Proof.Machine.execPathDisable m be num arg s
  | .pathReset m be num arg => Sys2Proof.Machine.execPathReset m be num arg s
  | .ringStart m be num arg => Sys2Proof.Machine.execRingStart m be num arg s
  | .ringStop m be num arg => Sys2Proof.Machine.execRingStop m be num arg s
  | .ringReset m be num arg => Sys2Proof.Machine.execRingReset m be num arg s
  | .outFlush m be num arg => Sys2Proof.Machine.execOutFlush m be num arg s
  | .outSeqSet m be num arg => Sys2Proof.Machine.execOutSeqSet m be num arg s
  | .streamReset m be num arg => Sys2Proof.Machine.execStreamReset m be num arg s
  | .timeSet m be num arg => Sys2Proof.Machine.execTimeSet m be num arg s
  | .timeAdjust m be num arg => Sys2Proof.Machine.execTimeAdjust m be num arg s
  | .rainSet m be num arg => Sys2Proof.Machine.execRainSet m be num arg s
  | .rainClear m be num arg => Sys2Proof.Machine.execRainClear m be num arg s
  | .queryPath m be num arg => Sys2Proof.Machine.execQueryPath m be num arg s
  | .alarmAck m be num arg => Sys2Proof.Machine.execAlarmAck m be num arg s
  | .logReset m be num arg => Sys2Proof.Machine.execLogReset m be num arg s
  | .snapshot m be num arg => Sys2Proof.Machine.execSnapshot m be num arg s
  | .unknownCommand m be code num arg => Sys2Proof.Machine.execUnknownCommand m be code num arg s
  | .accept p => Sys2Proof.Machine.execAccept p s
  | .reject p => Sys2Proof.Machine.execReject p s
  | .report p margin profile unit => Sys2Proof.Machine.execReport p margin profile unit s
  | .unknownUnitMessage p b0 b1 b2 b3 => Sys2Proof.Machine.execUnknownUnitMessage p b0 b1 b2 b3 s
  | .carry p condition bytes => Sys2Proof.Machine.execCarry p condition bytes s
  | .gapExpiry st => Sys2Proof.Machine.execGapExpiry st s
  | .ageing => Sys2Proof.Machine.execAgeing s
  | .selection => Sys2Proof.Machine.execSelection s
  | .sendStart p => Sys2Proof.Machine.execSendStart p s
  | .sendEnd p => Sys2Proof.Machine.execSendEnd p s
  | .tuneStart p => Sys2Proof.Machine.execTuneStart p s
  | .tuneEnd p => Sys2Proof.Machine.execTuneEnd p s
  | .noAnswer p => Sys2Proof.Machine.execNoAnswer p s
  | .probeChannelUnderflow p => Sys2Proof.Machine.execProbeChannelUnderflow p s
  | .silenceUnderflow p => Sys2Proof.Machine.execSilenceUnderflow p s
  | .holdCompareMatch p => Sys2Proof.Machine.execHoldCompareMatch p s
  | .holdUnderflow p => Sys2Proof.Machine.execHoldUnderflow p s
  | .guardUnderflow p => Sys2Proof.Machine.execGuardUnderflow p s
  | .pinChange l high => Sys2Proof.Machine.execPinChange l high s
  | .filterExpiry l => Sys2Proof.Machine.execFilterExpiry l s
  | .pulseWatchdog => Sys2Proof.Machine.execPulseWatchdog s
  | .holdoverLimit => Sys2Proof.Machine.execHoldoverLimit s
  | .slewEnd => Sys2Proof.Machine.execSlewEnd s
  | .ppsOut => Sys2Proof.Machine.execPpsOut s
  | .pulseEnd e => Sys2Proof.Machine.execPulseEnd e s
  | .statusSubmit => Sys2Proof.Machine.execStatusSubmit s
  | .outcomeSubmit => Sys2Proof.Machine.execOutcomeSubmit s
  | .faultEntrySubmit => Sys2Proof.Machine.execFaultEntrySubmit s
  | .passingAccessIssue => Sys2Proof.Machine.execPassingAccessIssue s
  | .burstStart => Sys2Proof.Machine.execBurstStart s
  | .burstEnd => Sys2Proof.Machine.execBurstEnd s
  | .burstError k => Sys2Proof.Machine.execBurstError k s

end Sys2Proof.Machine
end

