-- ==== Sys2Proof/Machine/Step.lean ====
section
/-! DEFINITION. One step. -/

namespace Sys2Proof.Machine

/-- The command at the front of the queue is taken; on an empty queue the block takes one of its own events, or its clock runs
(entry 1). -/
def step (s : State) : Host.Outcome State Fault Refusal :=
  match s.pending with
  | c :: rest => exec c { s with pending := rest }
  | [] => .next (idle s)

/-- The command a table word spells, put at the front of the queue. -/
def State.withFetchWord (s : State) (nbits w : Nat) : State :=
  match decodeTableWord nbits w with
  | some c => { s with pending := c :: s.pending }
  | none => s

end Sys2Proof.Machine
end

