-- ==== Sys2Proof/Safety.lean ====
section
/-! DEFINITION. What counts as a safe run, and the words the statements are written in: what every event brings with it, what a
command leaves, when a setup word is taken, when a state is settled. -/

namespace Sys2Proof

open Machine

/-- The machine goes on from `s`. -/
def GoesOn (s : State) : Prop := ∃ t, step s = .next t

/-! ## What every event brings with it -/

/-- The causes that the consequences of any event may raise: HEAD_CHANGE, FALLBACK_CHANGE, RAIN_CHANGE. -/
def isConsequent (c : CauseId) : Bool := c == 5 || c == 6 || c == 19

/-- A cause without what those consequences change. -/
def keptCause (c : CauseId) (a : AlarmCause) : AlarmCause :=
  if isConsequent c then { a with pending := false, raises := 0 } else a

/-- The causes without what those consequences change. -/
def keptCauses (v : Vector AlarmCause 20) : Vector AlarmCause 20 := Vector.ofFn fun c : CauseId => keptCause c v[c]

/-- The lines without their filtered levels and filter counts. -/
def keptLines (v : Vector Line 8) : Vector Line 8 := v.map fun x => { x with filtered := false, count := none }

/-- The status records without their marks. -/
def keptMarks (v : Vector StatusMark 36) : Vector StatusMark 36 :=
  v.map fun m => { m with changed := false, again := false, since := none }

/-- The outbound rings without the model's dates. -/
def keptRings (v : Vector OutRing 4) : Vector OutRing 4 := v.map fun r => { r with since := none }

/-- The state without what the consequences of any event change: the ranking, the level inputs, filtered levels and filter counts,
ALARM and the critical flag, pulses, the three consequent causes, the marks of status records, and the model's dates. All
else is kept, so equal kept states say that nothing else differs. -/
def kept (s : State) : State :=
  { s with
    ranking := .reset
    sel := { s.sel with launchHold := false, rainInput := false }
    lines := keptLines s.lines
    alarm := { s.alarm with causes := keptCauses s.alarm.causes, alarm := false, inService := false }
    pulses := ⟨none, none, none⟩
    status := { s.status with records := keptMarks s.status.records, since := none }
    log := { s.log with since := none }
    outRings := keptRings s.outRings
    events := 0 }

/-- The command answers a next state that is `u` but for what every event brings with it. -/
def EndsIn (c : Instr) (s u : State) : Prop := ∃ t, exec c s = .next t ∧ kept t = kept u

/-- The command's own event leaves `u`, nothing left open, and brings with it what every event brings (entry 8). -/
def Settles (c : Instr) (s u : State) : Prop := exec c s = .next (settle s u)

/-- The command leaves `u` but for what every event brings with it, and the accesses that waited at the P-port are then taken, front
first, each an event of its own (R84, R97, entry 18). With none waiting this is `EndsIn`. -/
def EndsAndReleases (c : Instr) (s u : State) : Prop :=
  ∃ v, kept v = kept { u with mem := { u.mem with line := [] } }
    ∧ exec c s = .next (s.mem.line.foldl (fun w x => settle w (arrive x w)) v)

/-- The command's own event leaves `v`: the answer is `v`, but at a burst's end and at its error, where the accesses that waited at
the P-port are then taken, front first, each an event of its own (R84, R97, entry 18). -/
def Leaves (c : Instr) (s v : State) : Prop :=
  match c with
  | .burstEnd | .burstError _ => v.mem.line = s.mem.line
      ∧ exec c s = .next (s.mem.line.foldl (fun w x => settle w (arrive x w)) { v with mem := { v.mem with line := [] } })
  | _ => exec c s = .next v

/-! ## Announcements (R53, R55) -/

/-- From `a` to `b` the ranking stands and no head or fallback change is announced. -/
def Unannounced (a b : State) : Prop :=
  b.ranking = a.ranking ∧ b.pulses.pathSwitch = a.pulses.pathSwitch
  ∧ b.alarm.causes[5].raises = a.alarm.causes[5].raises ∧ b.alarm.causes[6].raises = a.alarm.causes[6].raises

/-- From `a` to `b` a change of the head is announced once, and only a change (R53); so is a change of the fallback flag (R55). -/
def Announced (a b : State) : Prop :=
  (b.ranking.head ≠ a.ranking.head →
    b.ranking.headChanges = satInc a.ranking.headChanges ∧ b.ranking.lastHeadChange = some ⟨b.time.value, b.time.state⟩
    ∧ b.pulses.pathSwitch = some 0 ∧ b.alarm.causes[5].pending = true
    ∧ b.alarm.causes[5].raises = satInc a.alarm.causes[5].raises)
  ∧ (b.ranking.head = a.ranking.head →
    b.ranking.headChanges = a.ranking.headChanges ∧ b.ranking.lastHeadChange = a.ranking.lastHeadChange
    ∧ b.pulses.pathSwitch = a.pulses.pathSwitch ∧ b.alarm.causes[5].raises = a.alarm.causes[5].raises)
  ∧ (b.ranking.fallback ≠ a.ranking.fallback →
    b.ranking.fallbackEntries
      = (if b.ranking.fallback then satInc a.ranking.fallbackEntries else a.ranking.fallbackEntries)
    ∧ b.alarm.causes[6].pending = true ∧ b.alarm.causes[6].raises = satInc a.alarm.causes[6].raises)
  ∧ (b.ranking.fallback = a.ranking.fallback →
    b.ranking.fallbackEntries = a.ranking.fallbackEntries ∧ b.alarm.causes[6].raises = a.alarm.causes[6].raises)

/-- From `a` to `b` nothing is announced, and no path's place in the ranking has changed: neither whether it is selectable nor its
effective latency (R47, R48). -/
def Steady (a b : State) : Prop :=
  Unannounced a b ∧ ∀ q : PathId, selectable b q = selectable a q ∧ effectiveLatency b q = effectiveLatency a q

/-! ## When words and commands are taken -/

/-- A full write of a setup word by master `m` reaches the setup block: nothing waits at the P-port, the setup region lies in
the guarded span, and the master has privilege 0 (R84, R79, R85). -/
def SetupReady (s : State) (m : Master) : Prop :=
  s.mem.line = [] ∧ within (setupBase s) Config.setupWords s.mem.spanBase s.mem.spanLength = true ∧ s.mem.masters[m] = 0

/-- A full write of the command word by master `m` is taken (R176). -/
def CommandReady (s : State) (m : Master) : Prop := SetupReady s m ∧ s.cmd.busy = none

/-- Setup word `o` has passed to memory with `d` on its way. -/
def wordPassed (s : State) (o : Nat) (m : Master) (d : Word) (u : State) : State :=
  passAccess (writeOf m (setupAddress s o) 0xFF d) u

/-- Setup word `o` has passed to memory and its content has not been taken: TRAP RANGE (R175). -/
def wordTrapped (s : State) (o : Nat) (m : Master) (d : Word) : State :=
  wordPassed s o m d (report .trap .range m (setupAddress s o).toNat s)

/-- `u` with the refused access consumed: its requester has received a normal completion (R84). -/
def consumed (x : Access) (u : State) : State := { u with mem := { u.mem with answered := some ⟨x, .completed⟩ } }

/-- The write of setup word `o` is refused with a cause, and does not reach memory (R84, R86). -/
def wordRefused (s : State) (o : Nat) (m : Master) (be : ByteEnables) (d : Word) (c : Cause) : State :=
  consumed (writeOf m (setupAddress s o) be d) (report .fault c m (setupAddress s o).toNat s)

/-- The command word has passed to memory. -/
def commandPassed (s : State) (code : Byte) (m : Master) (num : Byte) (arg : BitVec 48) (u : State) : State :=
  wordPassed s 144 m (commandWord code num arg) u

/-- `u` with the command complete: IDLE, the completion formed, CMD_DONE raised (R177). -/
def finished (code num : Byte) (r : CommandResult) (u : State) : State :=
  { raiseCause 18 u with cmd := ⟨none, some ⟨num, code, r, stampNow u⟩, u.cmd.count + 1⟩ }

/-- `u` with the command BUSY and waiting (R176). -/
def busyWith (code num : Byte) (w : Wait) (u : State) : State := { u with cmd := { u.cmd with busy := some ⟨code, num, w⟩ } }

/-- `u` with the command complete and CMD_DONE not raised (R177, step 3). -/
def finishedQuietly (code num : Byte) (r : CommandResult) (u : State) : State :=
  { u with cmd := ⟨none, some ⟨num, code, r, stampNow u⟩, u.cmd.count + 1⟩ }

/-- The path, ring or stream a command's argument names (Table 12-8). -/
def argIndex (arg : BitVec 48) : Nat := (arg.extractLsb' 0 8).toNat

/-- A write by master `m` at address `a`, word `o` of an enabled OUTBOUND(n) window, passes steps 1 to 5 of the write check
(R85). -/
def OutboundReady (s : State) (m : Master) (a : Addr) (n : RingId) (o : Nat) : Prop :=
  s.mem.line = [] ∧ inSpan s a.toNat = true ∧ inSetupRegion s a.toNat = false
  ∧ ∃ e, windowAt s a.toNat = some e ∧ s.mem.windows[e].kind = .outbound ∧ s.mem.windows[e].number = n
    ∧ mayWrite s m s.mem.windows[e].required s.mem.windows[e].writers = true ∧ a.toNat = s.mem.windows[e].base + o

/-! ## Moves of a path, field by field -/

/-- Path `p` leaves for `x` with its contract given up (R4, R12): its copies are re-steered, its insert queue and probe list
emptied, its probe and silence channels stopped, its pending TUNE forgotten, PATHn_CHANGE raised. -/
def leftService (p : PathId) (x : PathState) (s : State) : State :=
  resteer p (raiseCause (pathCause p) (onSup p (fun u => { u with state := x }) s))
  |> onPath p (fun y => { y with
      sup := { y.sup with
        contract := 0, target := none, pending := false, stepRun := 0, probeList := [], lastOffered := none }
      port := { y.port with insert := [], pendingTune := none }
      probe := { y.probe with run := false }, silence := { y.silence with run := false } })

/-- Path `p` enters HELD (R12): it leaves service, its hold counter is preset and run, it is recently failed. -/
def heldFrom (p : PathId) (s : State) : State :=
  leftService p .held s
  |> onPath p (fun y => { y with
      sup := { y.sup with recentlyFailed := true }
      holdLow := match y.setup.holdMode with
        | .wide => ⟨y.setup.wideReload.extractLsb' 0 8, true, y.setup.wideReload.extractLsb' 0 8, some y.setup.wideCompare,
            y.setup.holdTap⟩
        | .narrow => ⟨y.setup.narrowReload, true, y.setup.narrowReload, some (y.setup.narrowCompare.zeroExtend 16),
            y.setup.holdTap⟩
      holdHigh := match y.setup.holdMode with
        | .wide => ⟨y.setup.wideReload.extractLsb' 8 8, y.holdHigh.run, y.setup.wideReload.extractLsb' 8 8, none,
            y.setup.holdTap⟩
        | .narrow => y.holdHigh })

/-- Path `p` enters DOWN (R3, R13): its probe channel is preset and run, its silence channel stopped. -/
def downFrom (p : PathId) (s : State) : State :=
  raiseCause (pathCause p) (onPath p (fun y => { y with
    sup := { y.sup with state := .down, lastOffered := none }
    probe := ⟨y.setup.probeReload, true, y.setup.probeReload, none, y.setup.probeTap⟩
    silence := { y.silence with run := false } }) s)

/-- The fade conditions of an air path with its contract profile (R10). -/
abbrev Fading (x : Path) : Prop :=
  (Config.holdThreshold x.sup.contract ≤ x.sup.margin.toNat ∧ x.sup.margin.toNat < Config.holdThreshold x.sup.contract + 4)
  ∨ 2 ≤ (x.sup.probeHistory.filter (fun a => !a)).length ∨ 3 ≤ (x.port.history.filter (fun g => !g)).length

/-- Path `p` is in FADING or in UP as its fade conditions say, with PATHn_CHANGE at a change (R10, R24). -/
def fadeState (p : PathId) (s : State) : State :=
  if s.paths[p].sup.state = (if Fading s.paths[p] then .fading else .up) then s
  else raiseCause (pathCause p) (onSup p (fun u => { u with state := if Fading s.paths[p] then .fading else .up }) s)

/-- The fade conditions are judged on an air path in service, and the ranking is given the state (R10, R24, R50); its record is
marked when it then shows anything else (R53, R54). -/
def fadeJudged (p : PathId) (s : State) : State :=
  let t := rerank (fadeState p s)
  if p ≠ 4 ∧ (s.paths[p].sup.state = .up ∨ s.paths[p].sup.state = .fading) then
    if marking t 5 = marking s 5 then t else markRecord 5 t
  else s

/-- From `a` to `b` the fade conditions of path `p` are judged at most `n` times, each judgement with its own ranking, and between
them nothing moves the ranking. -/
def JudgedUpTo (p : PathId) : Nat → State → State → Prop
  | 0, a, b => Steady a b
  | n + 1, a, b => Steady a b ∨ ∃ c, Steady a c ∧ JudgedUpTo p n (fadeJudged p c) b

/-- Path `p` enters TRAINING (R8, R14): its silence channel is preset and run. -/
def trainingFrom (p : PathId) (s : State) : State :=
  raiseCause (pathCause p) (onPath p (fun y => { y with
    sup := { y.sup with state := .training, stepRun := 0 }
    silence := ⟨y.setup.silenceReload, true, y.setup.silenceReload, none, y.setup.silenceTap⟩ }) s)

/-- The silence channel of path `p` is preset and run (R14). -/
def silenceRestarted (p : PathId) (s : State) : State :=
  onPath p (fun y => { y with silence := ⟨y.setup.silenceReload, true, y.setup.silenceReload, none, y.setup.silenceTap⟩ }) s

/-- Path `p` enters service (R9, R16): an air path by its fade conditions, P4 UP with its silence channel run. -/
def serviceFrom (p : PathId) (s : State) : State :=
  if p = 4 then silenceRestarted p (raiseCause (pathCause p) (onSup p (fun u => { u with state := .up }) s))
  else fadeState p s

/-- Path `p` enters RETUNE (R11): its copies are re-steered, its insert queue emptied, a target ordered from its unit. -/
def retuneFrom (p : PathId) (target : Option Nat) (s : State) : State :=
  resteer p (raiseCause (pathCause p) (onSup p (fun u => { u with state := .retune }) s))
  |> onPath p (fun y => { y with
      sup := { y.sup with stepRun := 0, target := target }
      port := { y.port with insert := [], pendingTune := if target = none then y.port.pendingTune else target } })

/-! ## Histories, field by field -/

/-- A list of at most `n` with a newest entry (R20, R140, R164). -/
abbrev pushed {α : Type} (n : Nat) (l : List α) (x : α) : List α := (if l.length < n then l else l.drop 1) ++ [x]

/-- The oldest entry of the probe list leaves it for the probe history, and the fade conditions are judged (R17, R19, R20). -/
def probeJudged (p : PathId) (answered : Bool) (s : State) : State :=
  fadeJudged p (onSup p (fun u => { u with
    probeList := u.probeList.drop 1, probeHistory := pushed 8 u.probeHistory answered
    probesLost := if answered then u.probesLost else satInc u.probesLost }) s)

/-- A frame's mark enters the receive history, and the fade conditions are judged (R10, R164). -/
def frameMarked (p : PathId) (good : Bool) (s : State) : State :=
  fadeJudged p (onPort p (fun q => { q with
    history := pushed 16 q.history good
    checkFailures := if good then q.checkFailures else satInc q.checkFailures }) s)

/-- A PROBE with the next number (R17). -/
def probed (p : PathId) (s : State) : State :=
  insertFrame p (.probe (s.paths[p].sup.lastProbe + 1)) (onSup p (fun u => { u with lastProbe := u.lastProbe + 1 }) s)

/-! ## Contract frames, field by field -/

/-- `h` is the highest profile of a mask, 0 when it has none (R33, R38). -/
def HighestOf (m : ProfileMask) (h : Nat) : Prop :=
  (h = 0 ∧ m = 0) ∨ (1 ≤ h ∧ m.getLsbD (h - 1) = true ∧ ∀ j : Fin 6, h ≤ j.val → m.getLsbD j.val = false)

/-- An OFFER of the own mask, with the last number while mask and contract are those of the last OFFER and with the next number
otherwise; at a FOLLOW a new number sets pending (R28, R30). -/
def offered (p : PathId) (s : State) : State :=
  let u := s.paths[p].sup
  let again : Bool := decide (u.lastOffered = some ⟨u.ownMask, u.contract⟩)
  let q : Byte := if again then u.lastOfferSent else if u.lastOfferSent = 255 then 1 else u.lastOfferSent + 1
  insertFrame p (.offer q u.ownMask u.contract) (onSup p (fun x => { x with
    lastOfferSent := q, lastOffered := some ⟨u.ownMask, u.contract⟩
    pending := x.pending || (!again && decide (s.paths[p].setup.role = .follow)) }) s)

/-- A GRANT of profile `k` with the next number; a profile from 1 to 6 clears the mismatch flag (R29, R37). -/
def granted (p : PathId) (answered : Byte) (k : Nat) (s : State) : State :=
  let q : Byte := if s.paths[p].sup.lastGrant = 255 then 1 else s.paths[p].sup.lastGrant + 1
  insertFrame p (.grant q answered k (decide (k = 0))) (onSup p (fun x => { x with
    lastGrant := q, lastGranted := k, grantAnswered := answered, grantMismatch := decide (k = 0)
    mismatch := if k = 0 then x.mismatch else false }) s)

/-- The last GRANT again, with its number and content (R29). -/
def grantedAgain (p : PathId) (s : State) : State :=
  let u := s.paths[p].sup
  insertFrame p (.grant u.lastGrant u.grantAnswered u.lastGranted u.grantMismatch) (onSup p (fun x => { x with
    mismatch := if x.lastGranted = 0 then x.mismatch else false }) s)

/-- A mismatch (R37): the flag, its cause when it was clear, and HELD for a path in TRAINING, UP, FADING or RETUNE. -/
def mismatched (p : PathId) (s : State) : State :=
  let t := onSup p (fun u => { u with mismatch := true, pending := false })
    (if s.paths[p].sup.mismatch then s else raiseCause 16 s)
  if s.paths[p].sup.state = .training ∨ s.paths[p].sup.state = .up ∨ s.paths[p].sup.state = .fading
      ∨ s.paths[p].sup.state = .retune then heldFrom p t else t

/-- A target with its TUNE (R42). -/
def aimed (p : PathId) (k : Nat) (s : State) : State :=
  onPath p (fun y => { y with sup := { y.sup with target := some k }, port := { y.port with pendingTune := some k } }) s

/-- A LEAD's decision (R33, R38): a target with its TUNE, and pending set. -/
def decided (p : PathId) (k : Nat) (s : State) : State := aimed p k (onSup p (fun u => { u with pending := true }) s)

/-- A LEAD answers OFFER `number` of `mask` with profile `g`: the last GRANT again, or a new one (R29); `u` is the record as it
stood before R32. -/
def answered (p : PathId) (u : Supervisor) (number : Byte) (mask : ProfileMask) (g : Nat) (s : State) : State :=
  if u.lastOfferReceived = number ∧ u.farMask = some mask ∧ u.lastGranted = g then grantedAgain p s else granted p number g s

/-! ## Selection, field by field -/

/-- Path `p` stands in the ranking list as selectable (R57). -/
abbrev Listed (s : State) (p : PathId) : Prop := ∃ e ∈ s.ranking.list, e.path = p ∧ e.selectable = true

/-- The transmit queue of path `p` has room (R119). -/
abbrev Room (s : State) (p : PathId) : Prop := s.paths[p].port.transmit.length < 8

/-- The selectable air paths in ranking order (R119). -/
def airList (s : State) : List PathId :=
  (s.ranking.list.filter (fun e => e.selectable && decide (e.path ≠ 4))).map (fun e => e.path)

/-- The candidates of a FASTEST record: P4 only when no air path is selectable (R119). -/
def fastList (s : State) : List PathId :=
  airList s ++ if airList s = [] ∧ Listed s 4 then [4] else []

/-- The candidates of a DUAL record: P4 when at most one air path is selectable (R119). -/
def dualList (s : State) : List PathId :=
  airList s ++ if (airList s).length ≤ 1 ∧ Listed s 4 then [4] else []

/-- The names of a class queue, front first (R117). -/
def queueNames (s : State) : LaunchClass → List RecordName
  | .urgent => s.sel.urgent.front ++ s.sel.urgent.back
  | .normal => s.sel.normal.front ++ s.sel.normal.back

/-- Record `r` stands at the front of the queue of class `c` (R118). -/
def Fronts (s : State) (c : LaunchClass) (r : LaunchRecord) : Prop :=
  ∃ x more, queueNames s c = x :: more ∧ recordNamed s x = some r

/-- No room for a record placed as DUAL (Table 7-2). -/
def DualWaits (s : State) : Prop :=
  dualList s = [] ∨ (∃ p, dualList s = [p] ∧ ¬ Room s p)
  ∨ (2 ≤ (dualList s).length ∧ ((dualList s).filter (fun p => decide (Room s p))).length < 2)

/-- A record at the front of its class queue must wait (R120, R121, R123; a PINNED record always names a path, entry 26). -/
def MustWait (s : State) (r : LaunchRecord) : Prop :=
  match r.mode with
  | .fastest =>
    if s.sel.rainFlag = true ∨ s.sel.rainInput = true then DualWaits s
    else (∀ p ∈ fastList s, ¬ Room s p) ∨ (s.sel.spill = false ∧ ∃ h rest, fastList s = h :: rest ∧ ¬ Room s h)
  | .dual => DualWaits s
  | .pinned => match r.pinned with
    | none => True
    | some p => Listed s p ∧ ¬ Room s p
  | .ground => ¬ (Listed s 4 ∧ Room s 4)

/-- Record `r` gets a QUEUED copy on each of the paths, with its flags and its ring's counters (R119 to R121). -/
def placed (r : LaunchRecord) (ps : List PathId) (spill single rain : Bool) (s : State) : State :=
  ps.foldl (fun t p => onPort p (fun q => { q with transmit := q.transmit ++ [r.name] }) t)
    (onCounters r.name.ring (fun c => { c with
        selections := satInc c.selections
        spills := if spill then satInc c.spills else c.spills
        rainDuals := if rain then satInc c.rainDuals else c.rainDuals
        singles := if single then satInc c.singles else c.singles })
      (onQueue r.cls (fun q => ⟨q.front.filter (fun y => !(y == r.name)), q.back.filter (fun y => !(y == r.name))⟩)
        (putRecord { r with
          copies := ps.map (fun p => ⟨p, .queued, none⟩)
          spill := r.spill || spill, single := r.single || single, rain := r.rain || rain } s)))

/-! ## Offers for a place of the report part (R94) -/

/-- The fault log offers its next entry, dated `k` (R90, R94). -/
def FaultOffer (s : State) (k : Nat) : Prop := (∃ f ∈ s.log.outstanding, f.submitted = false) ∧ k = s.log.since.getD 0

/-- The front outcome of ring `n` is ready for a place, requested as the `q`-th (R110). -/
def OutcomeReady (s : State) (n : RingId) (q : Nat) : Prop :=
  s.outRings[n].state = .capturing ∧ windowOf s .outcome n ≠ none ∧ ∃ o rest, s.outRings[n].outcomes = o :: rest ∧ o.request = q

/-- The outcome rings offer the front outcome of ring `n`, the earliest requested, dated `k` (R110, R94). -/
def OutcomeOffer (s : State) (n : RingId) (k : Nat) : Prop :=
  (∃ q, OutcomeReady s n q ∧ ∀ m x, OutcomeReady s m x → q < x ∨ (q = x ∧ n ≤ m)) ∧ k = s.outRings[n].since.getD 0

/-- The status writer offers record `r`, the earliest eligible, dated `k` (R178, R94). -/
def StatusOffer (s : State) (r : RecordId) (k : Nat) : Prop :=
  s.status.running = true ∧ windowOf s .status 0 ≠ none
  ∧ ∃ a, s.status.records[r].since = some a ∧ (∀ j b, s.status.records[j].since = some b → a < b ∨ (a = b ∧ r ≤ j))
    ∧ k = max a (s.status.since.getD 0)

/-! ## What the block does of its own accord (R94, R96, R118, R156) -/

/-- The report part of the own-write queue has a free place (R94). -/
abbrev PlaceFree (s : State) : Prop := (s.mem.queue.filter (fun e => !e.isDeposit)).length < 16

/-- The link of path `p` may take a SEND: it is FREE, no TUNE is pending, and fewer than four entries await an answer (R156). -/
abbrev MayStart (s : State) (p : PathId) : Prop :=
  s.paths[p].port.link = .free ∧ s.paths[p].port.pendingTune = none ∧ s.paths[p].port.awaiting.length < 4

/-- The transmit queue of path `p` may be sent from (R128). -/
abbrev Transmits (s : State) (p : PathId) : Prop := s.paths[p].sup.state = .up ∨ s.paths[p].sup.state = .fading

/-- The front insert frame of path `p` is the frame R128 chooses: the insert queue may be sent from, and the frame goes before the
front copy by the insert priority or by its passed count, or there is no copy to send. -/
def InsertChosen (s : State) (p : PathId) (f : InsertFrame) : Prop :=
  s.paths[p].sup.state ≠ .held ∧ s.paths[p].sup.state ≠ .disabled ∧ s.paths[p].port.insert.head? = some f
  ∧ (s.paths[p].setup.priority = .above ∨ f.passed = 4 ∨ s.paths[p].port.transmit = [] ∨ ¬ Transmits s p)

/-- The front copy of path `p`, named `x`, is the frame R128 chooses: the transmit queue may be sent from, and no insert frame goes
before it. -/
def CopyChosen (s : State) (p : PathId) (x : RecordName) : Prop :=
  Transmits s p ∧ s.paths[p].port.transmit.head? = some x
  ∧ (s.paths[p].port.insert = []
    ∨ (s.paths[p].setup.priority = .below ∧ ∀ f, s.paths[p].port.insert.head? = some f → f.passed ≠ 4))

/-- The event is one of the block's own and possible now: a selection (R118), a TUNE or a SEND handed over (R156), a submission that
the next free place goes to (R94, R110, R178), an access or a burst that the arbiter issues (R96). -/
def Due (s : State) : Instr → Prop
  | .selection => s.sel.launchHold = false ∧ ∃ c r, Fronts s c r ∧ ¬ MustWait s r
  | .tuneStart p => s.paths[p].port.link = .free ∧ s.paths[p].port.pendingTune ≠ none
  | .sendStart p => MayStart s p
      ∧ ((∃ f, InsertChosen s p f) ∨ ∃ x, CopyChosen s p x ∧ recordNamed s x ≠ none)
  | .faultEntrySubmit => PlaceFree s ∧ ∃ k, FaultOffer s k ∧ (∀ n j, OutcomeOffer s n j → k ≤ j) ∧ (∀ r j, StatusOffer s r j → k ≤ j)
  | .outcomeSubmit => PlaceFree s ∧ ∃ n k, OutcomeOffer s n k ∧ (∀ j, FaultOffer s j → k < j) ∧ (∀ r j, StatusOffer s r j → k ≤ j)
  | .statusSubmit => PlaceFree s ∧ ∃ r k, StatusOffer s r k ∧ (∀ j, FaultOffer s j → k < j) ∧ (∀ n j, OutcomeOffer s n j → k < j)
  | .passingAccessIssue => s.mem.burst = none ∧ s.mem.passing ≠ [] ∧ (s.mem.queue = [] ∨ s.mem.runCount < 4)
  | .burstStart => s.mem.burst = none ∧ s.mem.queue ≠ [] ∧ (4 ≤ s.mem.runCount ∨ s.mem.passing = [])
  | _ => False

/-! ## Settled states -/

/-- A line follows its pin: its filtered level is the pin's, or its filter is counting (R174). -/
def lineFollows (s : State) (x : Line) : Prop := x.filtered = pinLevel s x ∨ (x.count.isSome = true ∧ x.width ≠ 0)

/-- What the rules say holds between events: the lines follow their pins (R174), the level inputs follow their lines (R56, R122,
R124), the ranking is that of its inputs (R51, R53, R55), ALARM and the critical flag are those of the causes (R182). -/
def Settled (s : State) : Prop :=
  (∀ l : LineId, lineFollows s s.lines[l])
  ∧ s.ranking.forced = inputActive s .forceFallback
  ∧ s.sel.launchHold = inputActive s .launchHold
  ∧ s.sel.rainInput = inputActive s .rainAlert
  ∧ s.ranking.list = rankList s
  ∧ s.ranking.head = headOf s.ranking.list
  ∧ s.ranking.fallback = fallbackHolds s
  ∧ s.alarm.alarm = alarmLevel s.alarm
  ∧ s.alarm.inService = criticalActive s.alarm

end Sys2Proof
end

