-- ==== Sys2Proof/Certificates/Slice0/Obligations.lean ====
section
/-! DEFINITION. The statements for the provers.

`EndsIn c s u` says that the command answers a next state which is `u` but for what every event brings with it (Safety.lean);
the statements on `settle` and on `Settled` say what that is. `Leaves c s v` says that the command's own event leaves `v`; the
statements with it say what every command announces and marks. `wordPassed`, `wordTrapped`, `wordRefused` and `commandPassed` say
what becomes of the written word, `finished` and `busyWith` what becomes of the command state. -/

open Sys2Proof Sys2Proof.Machine

/-! ## The queue of commands, reset, and what holds between events -/

/-- The front command of the queue is taken with the queue's rest (entry 30). -/
def Obligations.StepTakesTheFrontCommand : Prop :=
  ∀ (c : Instr) (s : State) (rest : List Instr),
    step { s with pending := c :: rest } = exec c { s with pending := rest }

/-- R46: the ranking at reset; no cause is raised and no PATH_SWITCH pulse is produced. -/
def Obligations.ResetLeavesTheRankingOfTable31 : Prop :=
  ∀ (straps : BitVec 4) (s : State), ∃ t, exec (.reset straps) s = .next t
    ∧ t.ranking.list = [⟨0, false, none⟩, ⟨1, false, none⟩, ⟨2, false, none⟩, ⟨3, false, none⟩, ⟨4, false, none⟩]
    ∧ t.ranking.head = none ∧ t.ranking.fallback = true ∧ t.ranking.forced = false
    ∧ t.ranking.headChanges = 0 ∧ t.ranking.lastHeadChange = none ∧ t.ranking.fallbackEntries = 0
    ∧ (∀ c : CauseId, t.alarm.causes[c].pending = false ∧ t.alarm.causes[c].raises = 0)
    ∧ t.pulses.pathSwitch = none

/-- Every path record, port, path setup and timer channel, and the time base, at reset (Tables 1-6, 2-2, 9-1, 7-3, 10-2 and 4-1,
the status bytes of R44, the penalties of R49, the race statistics of Table 8-4 (R141), the check setting of R162, the time setup of
R72, the tick generator of R77). The four channels are stopped and preset (R166), the hold pair in WIDE mode: the high channel holds
the upper part of the wide reload and no compare (R170). That the last GRANT's content is 0 and clear is the model's choice (entry
12), and so are the zeros of the two parts the model keeps finer than the spec, below a nanosecond and below a second of HOLDOVER
(entry 4). -/
def Obligations.ResetLeavesPathsAndTimeBase : Prop :=
  ∀ (straps : BitVec 4) (s : State), ∃ t, exec (.reset straps) s = .next t
    ∧ (∀ p : PathId,
      t.paths[p].sup = {
        state := .disabled, contract := 0, target := none, ownMask := 0, farMask := none, lastOfferSent := 0
        lastOfferReceived := 0, lastGrant := 0, pending := false, margin := 0, unitProfile := 0, unitState := .none
        stepRun := 0, lastProbe := 0, probeList := [], probeHistory := [], estimate := 0, estimateKind := .halfRtt
        estimateCount := 0, inbound := none, recentlyFailed := false, mismatch := false, roleClash := false
        farStatus := none, probesLost := 0, lastOffered := none, lastGranted := 0, farContract := none, lastQuery := 0
        discardedGrants := 0, grantAnswered := 0, grantMismatch := false }
      ∧ t.paths[p].port = {
        link := .free, pendingTune := none, awaiting := [], history := [], sent := 0, accepted := 0, rejected := 0
        noAnswer := 0, received := 0, checkFailures := 0, lateAnswers := 0, discards := 0, transmit := [], insert := []
        insertDiscards := 0 }
      ∧ t.paths[p].setup = {
        role := .follow, check := true, priority := .above, holdMode := .wide, probeReload := 10, probeTap := .us100
        silenceReload := 20, silenceTap := .ms1, guardReload := 250, holdTap := .ms1, wideReload := 5000
        wideCompare := 3000, narrowReload := 200, narrowCompare := 100, fadePenalty := 0, recoveryPenalty := 0
        statusBytes := 0 }
      ∧ t.paths[p].probe = ⟨10, false, 10, none, .us100⟩ ∧ t.paths[p].silence = ⟨20, false, 20, none, .ms1⟩
      ∧ t.paths[p].holdLow = ⟨136, false, 136, some 3000, .ms1⟩ ∧ t.paths[p].holdHigh = ⟨19, false, 19, none, .ms1⟩
      ∧ holdValue t.paths[p] = 5000 ∧ t.paths[p].wins = 0 ∧ t.paths[p].leadMargin = none)
    ∧ t.time.value = 0 ∧ t.time.state = .free ∧ t.time.trim = 0 ∧ t.time.slew = none ∧ t.time.trimHold = false
    ∧ t.time.lockRun = 0 ∧ t.time.lastOffset = none ∧ t.time.pulseAge = none ∧ t.time.holdoverElapsed = 0
    ∧ t.time.pulsesAccepted = 0 ∧ t.time.pulsesRejected = 0 ∧ t.time.steps = 0 ∧ t.time.lockThreshold = 1000
    ∧ t.time.holdoverLimit = 300 ∧ t.time.setValue = 0 ∧ t.time.adjust = 0 ∧ t.time.reference = 0
    ∧ t.time.fraction = 0 ∧ t.time.holdoverMs = 0

/-- The memory path, the fault-log writer, the rings, the selector and the merge at reset. That no access has been answered is the
model's choice (entry 34). -/
def Obligations.ResetLeavesMemoryPathRingsAndMerge : Prop :=
  ∀ (straps : BitVec 4) (s : State), ∃ t, exec (.reset straps) s = .next t
    ∧ t.mem.straps = straps ∧ t.mem.spanBase = straps.toNat * 16777216 ∧ t.mem.spanLength = 2048
    ∧ (∀ e : Fin 15, t.mem.windows[e] = ⟨0, 0, .plain, 0, 0, 0, false⟩)
    ∧ (∀ m : Master, t.mem.masters[m] = if m = 0 then 0 else 3)
    ∧ t.mem.queue = [] ∧ t.mem.burst = none ∧ t.mem.passing = [] ∧ t.mem.line = [] ∧ t.mem.runCount = 0
    ∧ t.mem.answered = none
    ∧ t.log.state = .ready ∧ t.log.entryCount = 0 ∧ t.log.releaseCount = 0 ∧ t.log.lost = 0 ∧ t.log.outstanding = []
    ∧ t.log.resetting = false ∧ t.log.lastAbort = none
    ∧ (∀ n : RingId, t.outRings[n].state = .capturing ∧ t.outRings[n].table = none ∧ t.outRings[n].outcomes = []
      ∧ t.outRings[n].outcomeCount = 0 ∧ t.outRings[n].assigned = 0 ∧ t.outRings[n].captures = 0
      ∧ t.outRings[n].slotBusy = 0 ∧ t.outRings[n].partialHeader = 0 ∧ t.outRings[n].ringHalted = 0
      ∧ t.outRings[n].badHeader = 0 ∧ t.outRings[n].refusedFull = 0 ∧ t.outRings[n].written = 0
      ∧ t.outRings[n].discarded = 0)
    ∧ (∀ i : StreamId, t.nextSequence[i] = 0)
    ∧ t.sel.held = [] ∧ t.sel.urgent = ⟨[], []⟩ ∧ t.sel.normal = ⟨[], []⟩ ∧ t.sel.holdUrgent = 0 ∧ t.sel.holdNormal = 0
    ∧ t.sel.rainFlag = false ∧ t.sel.rainInput = false ∧ t.sel.launchHold = false ∧ t.sel.spill = true
    ∧ (∀ n : RingId, t.sel.counters[n] = ⟨0, 0, 0, 0, 0, 0, 0, 0, 0⟩)
    ∧ (∀ i : StreamId, t.streams[i] = {
      tracking := false, highest := 0, gaps := [], recent := [], accepted := 0, duplicates := 0, lateFills := 0, lost := 0
      tooLate := 0, resyncs := 0, disabledDiscards := 0, ring := 0, gapWindow := 1000, markers := false, enabled := false })
    ∧ (∀ f : Fin 8, t.filters[f] = ⟨false, 0, 0, 0, 0, .divert, 0, 0⟩)
    ∧ (∀ n : RingId, t.inRings[n] = ⟨.stopped, none, 0, 0, 0, 0, 0, 0, 0⟩)

/-- The lines, the alarm unit, the command state, the status writer and the identity at reset; what is outside the block, the
levels at the pins and the commands that wait, is not touched (the model's choice, entries 32 and 33). -/
def Obligations.ResetLeavesLinesAlarmsAndCommands : Prop :=
  ∀ (straps : BitVec 4) (s : State), ∃ t, exec (.reset straps) s = .next t
    ∧ (∀ l : LineId, t.lines[l] =
      ⟨.none, false, false, 0, s.lines[l].outside, none, s.lines[l].outside⟩)
    ∧ t.pulses = ⟨none, none, none⟩
    ∧ (∀ c : CauseId, t.alarm.causes[c] = ⟨false, false, 0, 0⟩) ∧ t.alarm.threshold = 1 ∧ t.alarm.inService = false
    ∧ t.alarm.alarm = false
    ∧ t.cmd = ⟨none, none, 0⟩
    ∧ t.status.running = true
    ∧ (∀ r : RecordId, t.status.records[r].changed = false ∧ t.status.records[r].updates = 0
      ∧ t.status.records[r].submitted = none)
    ∧ t.identity = ⟨0, 0, 100⟩
    ∧ t.pending = s.pending

/-- The state right after reset is settled. -/
def Obligations.ResetStateIsSettled : Prop := Settled State.reset

/-- Every command, in every state, answers a next state, and leaves what the rules say holds between events. Every command but RESET
does so by an event of its own with its consequences; what they announce is in HeadAndFallbackChangesAreAnnounced,
AlarmOutputsFollowTheCauses and ChangedRecordsAreMarked. The level that a line shows after a line word that sets width 0 with a
count in progress is the model's choice (entry 38). -/
def Obligations.EveryCommandLeavesASettledState : Prop :=
  ∀ (c : Instr) (s : State), (∃ t, exec c s = .next t ∧ Settled t)
    ∧ ((∀ straps, c ≠ .reset straps) → ∃ o u, Leaves c s (settle o u))

/-- What the rules say holds between events is kept by every step, those on an empty queue included. What a step does on an
empty queue is the model's choice (entry 1). -/
def Obligations.EveryStepKeepsASettledState : Prop :=
  ∀ s t : State, Settled s → step s = .next t → Settled t

/-- The ranking after an event: the list holds the selectable air paths by effective latency, of two equal ones the lower path
number first, then P4 when it is selectable, then every unselectable path by number (R51); the head is its first entry when that is
selectable (R53). A change of the head is announced, and only a change is (R53); so is a change of the fallback flag (R55).
That an event takes its consequences once, after its own effect, and forms the ranking again at each judgement of the fade conditions
in it, is read from the rules (entry 8), and so is that a line word which moves an input shows only its net change (entry 16).
Then the same of every command but RESET, from the state before it to the state its own event leaves. The four commands that may judge
fade conditions are said apart: each judgement announces what it changes, and only that; a REPORT and a SEND's start judge at most
once, a frame at most once for its mark and once for each entry of the probe list; between judgements nothing moves the ranking, and
after the last one nothing is announced until the event's consequences are. Which states are judged is in FramesFromTheUnit,
ReportsAreStoredAndActedOn and MessagesToTheUnit. PULSE_END withdraws its own pulse. -/
def Obligations.HeadAndFallbackChangesAreAnnounced : Prop :=
  (∀ o s t : State, t = settle o s →
    t.ranking.list = rankList t ∧ t.ranking.head = headOf t.ranking.list
    ∧ (∀ entry : PathId → RankEntry, (∀ p, entry p = ⟨p, selectable t p, effectiveLatency t p⟩) →
      ∃ air : List RankEntry,
        t.ranking.list = air ++ (if selectable t 4 = true then [entry 4] else [])
          ++ ((List.finRange 5).filter (fun p => !selectable t p)).map entry
        ∧ (∀ e, e ∈ air ↔ ∃ p : PathId, p ≠ 4 ∧ selectable t p = true ∧ e = entry p)
        ∧ air.Pairwise (fun a b => a.latency.getD 0 < b.latency.getD 0 ∨ (a.latency.getD 0 = b.latency.getD 0 ∧ a.path < b.path)))
    ∧ (∀ e rest, t.ranking.list = e :: rest → t.ranking.head = if e.selectable then some e.path else none)
    ∧ (t.ranking.fallback = true ↔ ∀ p : PathId, p.val < 4 → selectable t p = false)
    ∧ (t.ranking.head ≠ s.ranking.head →
      t.ranking.headChanges = satInc s.ranking.headChanges ∧ t.ranking.lastHeadChange = some ⟨s.time.value, s.time.state⟩
      ∧ t.pulses.pathSwitch = some 0 ∧ t.alarm.causes[5].pending = true
      ∧ t.alarm.causes[5].raises = satInc s.alarm.causes[5].raises)
    ∧ (t.ranking.head = s.ranking.head →
      t.ranking.headChanges = s.ranking.headChanges ∧ t.ranking.lastHeadChange = s.ranking.lastHeadChange
      ∧ t.pulses.pathSwitch = s.pulses.pathSwitch ∧ t.alarm.causes[5] = s.alarm.causes[5])
    ∧ (t.ranking.fallback ≠ s.ranking.fallback →
      t.ranking.fallbackEntries
        = (if t.ranking.fallback then satInc s.ranking.fallbackEntries else s.ranking.fallbackEntries)
      ∧ t.alarm.causes[6].pending = true ∧ t.alarm.causes[6].raises = satInc s.alarm.causes[6].raises)
    ∧ (t.ranking.fallback = s.ranking.fallback →
      t.ranking.fallbackEntries = s.ranking.fallbackEntries ∧ t.alarm.causes[6] = s.alarm.causes[6]))
  ∧ (∀ (c : Instr) (s b : State), (∀ straps, c ≠ .reset straps) → (∀ p x l, c ≠ .carry p x l) →
    (∀ p x y z, c ≠ .report p x y z) → (∀ p w x y z, c ≠ .unknownUnitMessage p w x y z) → (∀ p, c ≠ .sendStart p) →
    b = (if c = .pulseEnd .pathSwitch then { s with pulses := { s.pulses with pathSwitch := none } } else s) →
    ∃ v, Leaves c s v ∧ Announced b v)
  ∧ (∀ (p : PathId) (a : State), Announced a (fadeJudged p a))
  ∧ ∀ (p : PathId) (c : Instr) (n : Nat) (s : State),
    ((((∃ x y z, c = .report p x y z) ∨ c = .sendStart p) ∧ n = 1)
      ∨ (((∃ x l, c = .carry p x l) ∨ ∃ w x y z, c = .unknownUnitMessage p w x y z)
        ∧ n = 1 + s.paths[p].sup.probeList.length)) →
    ∃ v u, JudgedUpTo p n s v ∧ Unannounced v u ∧ Settles c s u

/-- R182: the two outputs of the alarm unit after an event, from the causes and the threshold; the CRITICAL pulse is produced when
the flag becomes set, and at no other time. The last part says so of every command but RESET, from the state before it to the state
its own event leaves. That the outputs are recomputed once for each event, after its own effect, so that an output taken away and given
back within one event produces no pulse (an ALARM_ACK whose completion raises a CMD_DONE of level 3), is the model's reading (entry 8).
PULSE_END withdraws its own pulse. -/
def Obligations.AlarmOutputsFollowTheCauses : Prop :=
  ∀ outputs : State → State → Prop, (∀ b t, outputs b t ↔
    (t.alarm.alarm = true ↔ ∃ c : CauseId, t.alarm.causes[c].pending = true ∧ t.alarm.causes[c].enabled = true
      ∧ 1 ≤ t.alarm.causes[c].level.toNat ∧ t.alarm.threshold.toNat ≤ t.alarm.causes[c].level.toNat)
    ∧ (t.alarm.inService = true ↔ ∃ c : CauseId, t.alarm.causes[c].pending = true ∧ t.alarm.causes[c].enabled = true
      ∧ t.alarm.causes[c].level.toNat = 3)
    ∧ (t.alarm.inService = true → b.alarm.inService = false → t.pulses.critical = some 0)
    ∧ ((t.alarm.inService = false ∨ b.alarm.inService = true) → t.pulses.critical = b.pulses.critical)) →
  (∀ o s : State, outputs s (settle o s))
  ∧ ∀ (c : Instr) (s b : State), (∀ straps, c ≠ .reset straps) →
    b = (if c = .pulseEnd .critical then { s with pulses := { s.pulses with critical := none } } else s) →
    ∃ v, Leaves c s v ∧ outputs b v

/-- A record whose `marking` changed at an event is marked (R178), and an event changes nothing else but what `kept` leaves out.
`marking` is what a record shows but for the figures that move with the clock alone, and a change is found by comparing it before
and after: both are the model's reading (entry 9). A change during the record's own burst is kept apart (R178). The second part says
so of every command but RESET, from the state before it to the state its own event leaves; the reload of a probe channel and the
hold counter's tick to its compare are the clock's (entry 9).
The content of a record (R186): its position and length, its header, each field at the first multiple of its width that is free
after the fields before it, bit by bit, and what the fields are for each record of Table 11-2, with their codes; the words of the
completion record; and the stamp word (R184). A field of `b` takes 8 bits, of `h` 16, of `w` 32, of `d` 64. The points of layout that
R186 leaves open are the model's choices (entry 21), and so is the order in which a burst issues the words (entry 39). -/
def Obligations.ChangedRecordsAreMarked : Prop :=
  (∀ o s : State, kept (settle o s) = kept s
    ∧ ∀ r : RecordId, marking (settle o s) r ≠ marking o r → (settle o s).status.records[r].changed = true
      ∧ ∀ e, s.mem.burst = some e → e.source = .status r → (settle o s).status.records[r].again = true)
  ∧ (∀ (c : Instr) (s o : State), (∀ straps, c ≠ .reset straps) →
    o = (match c with
      | .probeChannelUnderflow p => if s.paths[p].probe.run = true then onPath p (fun x => { x with
          probe := ⟨x.setup.probeReload, true, x.setup.probeReload, none, x.setup.probeTap⟩ }) s else s
      | .holdCompareMatch p => match s.paths[p].holdLow.loadedCompare with
        | some k => if s.paths[p].holdLow.run = true ∧ k.toNat < holdValue s.paths[p] then
            onPath p (setHoldValue k.toNat) s else s
        | none => s
      | _ => s) →
    ∃ v, Leaves c s v ∧ ∀ r : RecordId, marking v r ≠ marking o r → v.status.records[r].changed = true
      ∧ ∀ e, v.mem.burst = some e → e.source = .status r → v.status.records[r].again = true)
  ∧ (∀ (s : State) (r : RecordId), marking s r = ((recordFields s r).filter (fun f => !f.silent)).map (·.value))
  ∧ (∀ r : RecordId,
    recordOffset r = (if r.val < 5 then 64 * r.val else if r.val = 5 then 320 else if r.val = 6 then 352
      else if r.val < 11 then 368 + 8 * (r.val - 7) else if r.val < 15 then 400 + 32 * (r.val - 11)
      else if r.val < 31 then 528 + 32 * (r.val - 15) else if r.val = 31 then 1040 else if r.val = 32 then 1072
      else if r.val = 33 then 1080 else if r.val = 34 then 1120 else 1136)
    ∧ recordLength r = (if r.val < 5 then 64 else if r.val = 5 then 32 else if r.val = 6 then 16 else if r.val < 11 then 8
      else if r.val < 32 then 32 else if r.val = 32 then 8 else if r.val = 33 then 40 else if r.val = 34 then 16 else 4))
  ∧ (∀ (s : State) (base : Nat) (r : RecordId), ∃ (header : Word) (body : List Word),
    recordWords s base r = (header :: body).zipIdx.map (fun x => (base + recordOffset r + x.2, x.1))
    ∧ body.length + 1 = recordLength r
    ∧ header.extractLsb' 0 16 = s.status.records[r].updates ∧ header.extractLsb' 16 16 = s.identity.generation
    ∧ header.extractLsb' 32 16 = s.identity.site ∧ (header.extractLsb' 48 16).toNat = r.val
    ∧ (r.val ≠ 35 → ∀ (place : Nat → Nat → Nat) (behind : List Shown → Nat),
      (∀ n w, place n w = (n + (w - 1)) / w * w) → behind [] = 0 →
      (∀ l f, behind (l ++ [f]) = place (behind l) f.width + f.width) →
      ∀ k, k < 64 * body.length → ((body.getD (k / 64) 0).getLsbD (k % 64) = true ↔ ∃ before f rest,
        recordFields s r = before ++ f :: rest ∧ place (behind before) f.width ≤ k
        ∧ f.value.testBit (k - place (behind before) f.width) = true))
    ∧ (r.val = 35 → ∃ x stamp : Word, body = [x, stamp, 0]
      ∧ (x.extractLsb' 24 8 = if s.cmd.busy = none then 0 else 1) ∧ x.extractLsb' 32 16 = s.cmd.count ∧ x.extractLsb' 48 16 = 0
      ∧ match s.cmd.last with
        | some c => x.extractLsb' 0 8 = c.number ∧ x.extractLsb' 8 8 = c.code ∧ (x.extractLsb' 16 8).toNat = c.result.code
          ∧ stamp = stampWord c.stamp
        | none => x.extractLsb' 0 24 = 0 ∧ stamp = 0))
  ∧ (∀ s : State,
    let b : Nat → Shown := fun v => ⟨8, v, false⟩
    let h : Nat → Shown := fun v => ⟨16, v, false⟩
    let w : Nat → Shown := fun v => ⟨32, v, false⟩
    let d : Nat → Shown := fun v => ⟨64, v, false⟩
    let flag : Bool → Shown := fun x => b (if x then 1 else 0)
    let count : BitVec 32 → Shown := fun x => w x.toNat
    let signed : Int → Shown := fun v => w (BitVec.ofInt 32 v).toNat
    let stamp : Stamp → Shown := fun v => d (stampWord v).toNat
    let optional : Nat → Option Nat → List Shown := fun width v => [flag v.isSome, ⟨width, v.getD 0, false⟩]
    let places : Nat → List Shown → List (List Shown) → List Shown := fun capacity unused l =>
      h l.length :: (l.flatten ++ (List.replicate (capacity - l.length) unused).flatten)
    let bytes : BitVec 32 → List Shown := fun x =>
      [b (x.extractLsb' 0 8).toNat, b (x.extractLsb' 8 8).toNat, b (x.extractLsb' 16 8).toNat, b (x.extractLsb' 24 8).toNat]
    let channel : Channel → List Shown := fun c => [flag c.run, b c.counter.toNat]
    (∀ p : PathId, ∀ u q x, x = s.paths[p] → u = x.sup → q = x.port → recordFields s ⟨p.val, by omega⟩ =
      [b u.state.code, b x.setup.role.code, b u.contract] ++ optional 8 u.target ++ [b u.ownMask.toNat]
      ++ optional 8 (u.farMask.map (·.toNat))
      ++ [b u.lastOfferSent.toNat, b u.lastOfferReceived.toNat, b u.lastGrant.toNat, flag u.pending, b u.margin.toNat,
        b u.unitProfile, b u.unitState.code, b u.stepRun, b u.lastProbe.toNat]
      ++ places 4 [b 0, d 0] (u.probeList.map fun e => [b e.number.toNat, stamp e.sent])
      ++ places 8 [b 0] (u.probeHistory.map fun e => [flag e])
      ++ [count u.estimate, b u.estimateKind.code, h u.estimateCount.toNat] ++ optional 32 (u.inbound.map (·.toNat))
      ++ [flag u.recentlyFailed, flag u.mismatch, flag u.roleClash]
      ++ ([flag u.farStatus.isSome] ++ bytes (u.farStatus.getD 0))
      ++ [count q.sent, count q.accepted, count q.rejected, count q.noAnswer, count q.received, count q.checkFailures,
        count u.probesLost, count q.lateAnswers]
      ++ optional 8 (u.lastOffered.map (·.mask.toNat)) ++ optional 8 (u.lastOffered.map (·.contract)) ++ [b u.lastGranted]
      ++ optional 8 u.farContract ++ [b u.lastQuery.toNat, h u.discardedGrants.toNat]
      ++ [h q.transmit.length, count q.insertDiscards, count x.wins] ++ optional 32 (x.leadMargin.map (·.toNat))
      ++ places 4 [b 0, b 0, h 0, b 0, h 0] (q.awaiting.map fun e => [b e.kind.code, b ((e.copy.map (·.ring.val)).getD 0),
        h ((e.copy.map (·.slot)).getD 0), b e.probe.toNat, h (1000 - e.ticks)])
      ++ [h q.history.length, h (q.history.filter (fun good => !good)).length, count q.discards]
      ++ channel x.probe ++ channel x.silence ++ channel x.holdLow ++ channel x.holdHigh ++ bytes x.setup.statusBytes)
    ∧ (∀ terms : PathId → List Shown,
      (∀ p, terms p = if inService s p then [count s.paths[p].sup.estimate, h (serializationTerm s p), w (fadeTerm s p),
          w (recoveryTerm s p)] else [w 0, h 0, w 0, w 0]) →
      recordFields s 5 =
        places 5 [] (s.ranking.list.map fun e => [b e.path.val, flag e.selectable] ++ optional 64 e.latency)
        ++ optional 8 (s.ranking.head.map (·.val))
        ++ [flag s.ranking.fallback, flag s.ranking.forced, count s.ranking.headChanges, count s.ranking.fallbackEntries]
        ++ optional 64 (s.ranking.lastHeadChange.map fun v => (stampWord v).toNat)
        ++ terms 0 ++ terms 1 ++ terms 2 ++ terms 3 ++ terms 4)
    ∧ recordFields s 6 =
      [⟨64, (stampWord ⟨s.time.value, .free⟩).toNat, true⟩, b s.time.state.code, signed s.time.trim, flag s.time.slew.isSome,
        b (match s.time.slew with | some v => if v.forward then 0 else 1 | none => 0),
        ⟨32, match s.time.slew with | some v => (v.rest + 999999999) / 1000000000 | none => 0, true⟩,
        flag s.time.trimHold, b s.time.lockRun, flag s.time.lastOffset.isSome, signed (s.time.lastOffset.getD 0),
        h s.time.holdoverElapsed, count s.time.pulsesAccepted, count s.time.pulsesRejected, count s.time.steps,
        w s.time.lockThreshold, h s.time.holdoverLimit,
        signed (match s.time.slew with | some v => if v.forward then 500000 else -500000 | none => s.time.trim)]
    ∧ (∀ n : RingId, ∀ r, r = s.inRings[n] → recordFields s ⟨7 + n.val, by omega⟩ =
      [b r.state.code] ++ optional 16 r.slotCount
      ++ [h r.deposit.toNat, h r.assigned.toNat, h r.release.toNat, count r.overflow, count r.dropsStopped,
        count r.dropsFull, count r.dropsQueue, flag s.alarm.causes[overflowCause n].pending])
    ∧ (∀ n : RingId, ∀ r c slots, r = s.outRings[n] → c = s.sel.counters[n] → slots = r.table.getD [] →
      recordFields s ⟨11 + n.val, by omega⟩ =
      [b r.state.code] ++ optional 16 (r.table.map (·.length))
      ++ [h r.outcomeCount.toNat, h r.assigned.toNat, count r.captures, count r.slotBusy, count r.partialHeader,
        count r.ringHalted, count r.badHeader, count r.refusedFull, count r.written, count r.discarded,
        h r.outcomes.length, h (slots.filter (fun x => x.captured)).length,
        h (slots.filter (fun x => x.refusal.isSome)).length, b s.sel.holdUrgent, b s.sel.holdNormal]
      ++ s.nextSequence.toList.map count
      ++ [count c.selections, count c.spills, count c.rainDuals, count c.singles, count c.launched, count c.rejected,
        count c.stale, count c.pinDown, count c.flushed, h (s.sel.urgent.front ++ s.sel.urgent.back).length,
        h (s.sel.normal.front ++ s.sel.normal.back).length, flag s.sel.rainFlag, flag s.sel.rainInput,
        flag (s.sel.rainFlag || s.sel.rainInput), flag s.sel.launchHold])
    ∧ (∀ i : StreamId, ∀ x, x = s.streams[i] → recordFields s ⟨15 + i.val, by omega⟩ =
      [flag x.tracking, count x.highest, h x.gaps.length, h x.recent.length, count x.accepted, count x.duplicates,
        count x.lateFills, count x.lost, count x.tooLate, count x.resyncs, count x.disabledDiscards, b x.ring.val,
        h x.gapWindow.toNat, flag x.markers, flag x.enabled]
      ++ (s.filters.toList.flatMap fun f => [flag f.enabled, b f.streamValue.toNat, b f.streamMask.toNat, b f.typeValue.toNat,
        b f.typeMask.toNat, b f.action.code, b f.target.val, count f.hits]))
    ∧ recordFields s 31 =
      (s.alarm.causes.toList.flatMap fun c =>
        [flag c.pending, flag c.enabled, b c.level.toNat, ⟨16, c.raises.toNat, true⟩])
      ++ [b s.alarm.threshold.toNat, flag s.alarm.inService, flag s.alarm.alarm]
      ++ (s.lines.toList.flatMap fun x => [b x.event.code, flag x.openDrain, flag x.activeLow,
        b (if x.width = 0 then 0 else if x.width = 2 then 1 else if x.width = 8 then 2 else 3),
        b (if x.filtered then 0 else 1), flag (drives s x)])
    ∧ recordFields s 32 = s.mem.masters.toList.map (fun m => b m.toNat)
    ∧ recordFields s 33 =
      [w (s.mem.straps.toNat * 16777216), w 2048, b 7, b 0, b 0, b 0, b 1]
      ++ (s.mem.windows.toList.flatMap fun x => [w x.base, w x.length, b x.kind.code, b x.number.val, b x.required.toNat,
        b x.writers.toNat, flag x.enabled])
      ++ [w s.mem.spanBase, w s.mem.spanLength]
    ∧ recordFields s 34 =
      [b s.log.state.code, h s.log.entryCount.toNat, h s.log.releaseCount.toNat, count s.log.lost]
      ++ places 4 [d 0, d 0] (s.log.outstanding.map fun e => [d e.word0.toNat, d e.word1.toNat])
      ++ [flag s.log.resetting, flag s.log.lastAbort.isSome]
      ++ (match s.log.lastAbort with
        | some a => [b a.cause.code, w a.address, stamp a.stamp]
        | none => [b 0, w 0, d 0])
      ++ optional 16 (logCapacity s))
  ∧ ([PathState.disabled, .down, .training, .up, .fading, .retune, .held].map PathState.code = [0, 1, 2, 3, 4, 5, 6]
    ∧ [UnitState.ready, .tuning, .fault, .none].map UnitState.code = [0, 1, 2, 3]
    ∧ [Role.lead, .follow].map Role.code = [0, 1] ∧ [LatencyKind.oneWay, .halfRtt].map LatencyKind.code = [0, 1]
    ∧ [Quality.free, .acquire, .locked, .holdover].map Quality.code = [0, 1, 2, 3]
    ∧ [FrameKind.data, .probe, .echo, .offer, .grant, .query, .answer].map FrameKind.code = [0, 1, 2, 3, 4, 5, 6]
    ∧ [WindowKind.plain, .status, .outbound, .outcome, .inbound, .faultLog].map WindowKind.code = [0, 1, 2, 3, 4, 5]
    ∧ [DivertAction.divert, .copy, .discard].map DivertAction.code = [0, 1, 2]
    ∧ [LineEvent.none, .alarm, .critical, .fallback, .pathSwitch, .timeLocked, .ppsOut, .pathUp 0, .pathUp 1, .pathUp 2, .pathUp 3,
        .pathUp 4, .launchHeld, .ppsIn, .forceFallback, .launchHold, .rainAlert].map LineEvent.code
      = [0, 1, 2, 3, 4, 5, 6, 7, 8, 9, 10, 11, 12, 16, 17, 18, 19]
    ∧ [InRingState.stopped, .active, .halted].map InRingState.code = [0, 1, 2]
    ∧ [OutRingState.capturing, .halted].map OutRingState.code = [0, 1] ∧ [LogState.ready, .failed].map LogState.code = [0, 1]
    ∧ [CommandResult.done, .state, .range, .backward, .halted, .unknown].map CommandResult.code = [0, 1, 2, 3, 4, 5]
    ∧ [Cause.beyondMap, .access, .owned, .partialSetup, .windowInUse, .cmdBusy, .slotBusy, .partialHeader, .ringHalted, .range,
        .depositError, .outcomeError, .statusError, .faultError].map Cause.code = [0, 1, 2, 3, 4, 5, 6, 7, 8, 9, 10, 11, 12, 13])
  ∧ ∀ v : Stamp, ((stampWord v).extractLsb' 0 30).toNat = v.time % 1000000000
    ∧ ((stampWord v).extractLsb' 30 2).toNat = v.quality.code
    ∧ ((stampWord v).extractLsb' 32 32).toNat = v.time / 1000000000 % 4294967296

/-- R47 and R48: which paths are in service and selectable, and the effective latency as the sum of its four terms. -/
def Obligations.SelectabilityAndEffectiveLatency : Prop :=
  ∀ (s : State) (p : PathId),
    (inService s p = true ↔ if p = 4 then s.paths[p].sup.state = .up
      else s.paths[p].sup.state = .up ∨ s.paths[p].sup.state = .fading)
    ∧ (selectable s p = true ↔ inService s p = true ∧ (p = 4 ∨ s.ranking.forced = false))
    ∧ (inService s p = false → effectiveLatency s p = none)
    ∧ (inService s p = true → effectiveLatency s p = some (
        s.paths[p].sup.estimate.toNat
        + (if p = 4 then 544
          else if s.paths[p].sup.contract = 1 then 10880 else if s.paths[p].sup.contract = 2 then 5440
          else if s.paths[p].sup.contract = 3 then 3627 else if s.paths[p].sup.contract = 4 then 2720
          else if s.paths[p].sup.contract = 5 then 1813 else if s.paths[p].sup.contract = 6 then 1360 else 0)
        + (if s.paths[p].sup.state = .fading then s.paths[p].setup.fadePenalty.toNat else 0)
        + (if s.paths[p].sup.recentlyFailed then s.paths[p].setup.recoveryPenalty.toNat else 0)))

/-- R22: a sample restarts the latency estimate or moves it by one eighth of the difference. -/
def Obligations.SampleUpdatesTheLatencyEstimate : Prop :=
  ∀ (p : PathId) (v : Nat) (k : LatencyKind) (s : State), v ≤ 4294967295 →
    ((s.paths[p].sup.estimateCount = 0 ∨ k ≠ s.paths[p].sup.estimateKind) →
      takeSample p (v, k) s = onSup p (fun u => { u with
        estimate := BitVec.ofNat 32 v, estimateKind := k, estimateCount := 1 }) s)
    ∧ (s.paths[p].sup.estimateCount ≠ 0 → k = s.paths[p].sup.estimateKind →
      ∃ e : BitVec 32,
        (e.toNat : Int) = s.paths[p].sup.estimate.toNat + ((v : Int) - s.paths[p].sup.estimate.toNat).tdiv 8
        ∧ takeSample p (v, k) s = onSup p (fun u => { u with
          estimate := e
          estimateCount := if u.estimateCount.toNat < 65535 then u.estimateCount + 1 else u.estimateCount }) s)

/-- What the port puts into a link frame is what a port at the other end reads from it, with the frame check on or off. Then when
any frame is bad (R161, R162), field by field from its bytes (Table 12-1): each of the seven conditions makes it bad, and nothing
else does, and what is read from a good one. `errored` is the unit's receive condition. The role has one bit and the quality two, so
neither can hold a code without a value; the stream is in no condition. The frame check is the CRC of MessagesToTheUnit. -/
def Obligations.LinkFramesReadBackAsSent : Prop :=
  (∀ (p : PathId) (check : Bool) (h : FrameHeader) (payload : List Byte),
    h.path = p.val → h.stream < 16 → h.length = payload.length → h.length ≤ 48 →
    (∀ n, h.kind.fixedLength = some n → h.length = n) → h.sent ≤ 4294967295 * 1000000000 + 999999999 →
    judgeFrame p check false (frameBytes check h payload) = some (h, payload))
  ∧ ∀ (p : PathId) (check errored : Bool) (bytes : List Byte) (b0 b1 length : Nat) (bad : Prop),
    b0 = byteAt bytes 0 → b1 = byteAt bytes 1 → length = byteAt bytes 2 →
    (bad ↔ errored = true ∨ 6 < b0 % 16 ∨ b0 / 16 % 8 ≠ p.val ∨ 48 < length
      ∨ (b0 % 16 = 1 ∧ length ≠ 0) ∨ (b0 % 16 = 2 ∧ length ≠ 20)
      ∨ ((b0 % 16 = 3 ∨ b0 % 16 = 4 ∨ b0 % 16 = 5) ∧ length ≠ 4) ∨ (b0 % 16 = 6 ∧ length ≠ 8)
      ∨ 999999999 < bytesAt bytes 12 4
      ∨ bytes.length ≠ 16 + length + (if check then 4 else 0)
      ∨ (check = true ∧ bytesAt bytes (16 + length) 4 ≠ (crc32 (bytes.take (16 + length))).toNat)) →
    (bad → judgeFrame p check errored bytes = none)
    ∧ (¬ bad → ∃ h : FrameHeader,
      judgeFrame p check errored bytes = some (h, (bytes.drop 16).take length)
      ∧ h.kind.code = b0 % 16 ∧ h.path = p.val ∧ h.role.code = b0 / 128 ∧ h.quality.code = b1 % 4 ∧ h.stream = b1 / 4 % 16
      ∧ h.length = length ∧ h.sequence.toNat = bytesAt bytes 4 4
      ∧ h.sent = bytesAt bytes 8 4 * 1000000000 + bytesAt bytes 12 4)

/-! ## Setup words (R175 and the rules of their owners) -/

/-- The identity words, the selector word and the alarm words. -/
def Obligations.IdentitySelectorAndAlarmWords : Prop :=
  ∀ (m : Master) (d : Word) (s : State), SetupReady s m →
    EndsIn (.identityWord m 0xFF 0 d) s
      (wordPassed s 0 m d { s with identity := { s.identity with generation := d.extractLsb' 0 16 } })
    ∧ EndsIn (.identityWord m 0xFF 1 d) s
      (wordPassed s 1 m d { s with identity := { s.identity with site := d.extractLsb' 0 16 } })
    ∧ (field d 8 8 ≠ 0 → EndsIn (.selectorWord m 0xFF d) s (wordPassed s 48 m d { s with
        sel := { s.sel with spill := d.getLsbD 0 }, identity := { s.identity with interval := field d 8 8 } }))
    ∧ (field d 8 8 = 0 → EndsIn (.selectorWord m 0xFF d) s (wordTrapped s 48 m d))
    ∧ EndsIn (.alarmSetupWord m 0xFF 0 d) s (wordPassed s 136 m d { s with
        alarm := { s.alarm with causes := Vector.ofFn fun c : CauseId =>
          { s.alarm.causes[c] with enabled := d.getLsbD c.val, level := d.extractLsb' (20 + 2 * c.val) 2 } } })
    ∧ (field d 0 2 ≠ 0 → EndsIn (.alarmSetupWord m 0xFF 1 d) s
        (wordPassed s 137 m d { s with alarm := { s.alarm with threshold := d.extractLsb' 0 2 } }))
    ∧ (field d 0 2 = 0 → EndsIn (.alarmSetupWord m 0xFF 1 d) s (wordTrapped s 137 m d))

/-- The guarded span (R79), the master table (R83) and the extent words (R80). -/
def Obligations.SpanMasterAndExtentWords : Prop :=
  ∀ (m : Master) (d : Word) (s : State), SetupReady s m →
    ((field d 0 28 ≤ setupBase s ∧ setupBase s + 2048 ≤ field d 0 28 + field d 32 29
        ∧ field d 0 28 + field d 32 29 ≤ 268435456
        ∧ ∀ e : Fin 15, s.mem.windows[e].enabled = true → field d 0 28 ≤ s.mem.windows[e].base
          ∧ s.mem.windows[e].base + s.mem.windows[e].length ≤ field d 0 28 + field d 32 29) →
      EndsIn (.guardedSpanWord m 0xFF d) s
        (wordPassed s 2 m d { s with mem := { s.mem with spanBase := field d 0 28, spanLength := field d 32 29 } }))
    ∧ (¬ (field d 0 28 ≤ setupBase s ∧ setupBase s + 2048 ≤ field d 0 28 + field d 32 29
        ∧ field d 0 28 + field d 32 29 ≤ 268435456
        ∧ ∀ e : Fin 15, s.mem.windows[e].enabled = true → field d 0 28 ≤ s.mem.windows[e].base
          ∧ s.mem.windows[e].base + s.mem.windows[e].length ≤ field d 0 28 + field d 32 29) →
      EndsIn (.guardedSpanWord m 0xFF d) s (wordTrapped s 2 m d))
    ∧ (∀ k : Master,
      ((d.extractLsb' 0 2 = 0 ∨ ∃ j : Master, j ≠ k ∧ s.mem.masters[j] = 0) →
        EndsIn (.masterWord m 0xFF k d) s (wordPassed s (8 + k.val) m d
          { s with mem := { s.mem with masters := s.mem.masters.set k.val (d.extractLsb' 0 2) k.isLt } }))
      ∧ (¬ (d.extractLsb' 0 2 = 0 ∨ ∃ j : Master, j ≠ k ∧ s.mem.masters[j] = 0) →
        EndsIn (.masterWord m 0xFF k d) s (wordTrapped s (8 + k.val) m d)))
    ∧ ∀ e : Fin 15,
      (s.mem.windows[e].enabled = false → field d 0 28 + field d 32 29 ≤ 268435456 →
        EndsIn (.windowExtentWord m 0xFF e d) s (wordPassed s (16 + 2 * e.val) m d
          (onWindow e (fun w => { w with base := field d 0 28, length := field d 32 29 }) s)))
      ∧ (s.mem.windows[e].enabled = false → 268435456 < field d 0 28 + field d 32 29 →
        EndsIn (.windowExtentWord m 0xFF e d) s (wordTrapped s (16 + 2 * e.val) m d))
      ∧ (s.mem.windows[e].enabled = true → field d 0 28 = s.mem.windows[e].base → field d 32 29 = s.mem.windows[e].length →
        EndsIn (.windowExtentWord m 0xFF e d) s (wordPassed s (16 + 2 * e.val) m d s))
      ∧ (s.mem.windows[e].enabled = true →
        (field d 0 28 ≠ s.mem.windows[e].base ∨ field d 32 29 ≠ s.mem.windows[e].length) →
        EndsIn (.windowExtentWord m 0xFF e d) s (wordRefused s (16 + 2 * e.val) m 0xFF d .windowInUse))

/-- R81: a control word that sets enable. `v` is the entry with the word's fields; WindowConditionsSpelledOut says when it may be
enabled. The owner of the kind is told: a slot table (R100), counts at 0 (R110, R148), the writer running with every status record
marked as changed (R179). -/
def Obligations.WindowEnableWord : Prop :=
  ∀ (m : Master) (e : Fin 15) (d : Word) (s : State), SetupReady s m → d.getLsbD 31 = true →
    (6 ≤ field d 0 3 → EndsIn (.windowEnable m 0xFF e d) s (wordTrapped s (17 + 2 * e.val) m d))
    ∧ ∀ (k : WindowKind) (v : Window), field d 0 3 = k.code →
      v = ⟨s.mem.windows[e].base, s.mem.windows[e].length, k, (d.extractLsb' 4 2).toFin, d.extractLsb' 8 2,
        d.extractLsb' 16 8, true⟩ →
      (s.mem.windows[e].enabled = false → mayEnable s v = false →
        EndsIn (.windowEnable m 0xFF e d) s (wordTrapped s (17 + 2 * e.val) m d))
      ∧ (s.mem.windows[e].enabled = false → mayEnable s v = true →
        EndsIn (.windowEnable m 0xFF e d) s (wordPassed s (17 + 2 * e.val) m d
          (match k with
            | .plain | .faultLog => onWindow e (fun _ => v) s
            | .status => onWindow e (fun _ => v) { s with status := { s.status with running := true } }
            | .outbound => onWindow e (fun _ => v) (onOutRing v.number (fun r => { r with
                table := some (List.replicate (v.length / 8) ⟨false, Vector.replicate 7 0, none⟩) }) s)
            | .outcome => onWindow e (fun _ => v)
                (onOutRing v.number (fun r => { r with outcomeCount := 0, assigned := 0 }) s)
            | .inbound => onWindow e (fun _ => v) (onInRing v.number (fun r => { r with
                slotCount := some (v.length / 8), deposit := 0, assigned := 0, release := 0 }) s))))
      ∧ (s.mem.windows[e].enabled = false → mayEnable s v = true → k = .status →
        ∃ t, exec (.windowEnable m 0xFF e d) s = .next t ∧ t.status.running = true
          ∧ ∀ r : RecordId, t.status.records[r].changed = true)
      ∧ (s.mem.windows[e].enabled = true → s.mem.windows[e].kind = k →
        (k.isRing = false ∨ s.mem.windows[e].number = v.number) →
        EndsIn (.windowEnable m 0xFF e d) s (wordPassed s (17 + 2 * e.val) m d
          (onWindow e (fun w => { w with required := v.required, writers := v.writers }) s)))
      ∧ (s.mem.windows[e].enabled = true →
        (s.mem.windows[e].kind ≠ k ∨ (k.isRing = true ∧ s.mem.windows[e].number ≠ v.number)) →
        EndsIn (.windowEnable m 0xFF e d) s (wordRefused s (17 + 2 * e.val) m 0xFF d .windowInUse))

/-- R82: a control word that clears enable. On a disabled entry, and on an enabled one that is not in use, the word's fields are
taken; the owner of the kind is told (R100, R148), whether a command is in progress or not: a SNAPSHOT that waits completes with
STATE when the STATUS window is disabled (R180). A kind of 6 or 7 traps the word on any entry, also on an enabled one in use: that
that is the model's reading (entry 19). That the disable of an OUTBOUND window discards and counts every refusal outcome of the ring's
list, also one of an earlier slot table, and that the next table gets a new number, is the model's choice (entry 20). -/
def Obligations.WindowDisableWord : Prop :=
  ∀ (m : Master) (e : Fin 15) (d : Word) (s : State), SetupReady s m → d.getLsbD 31 = false →
    (6 ≤ field d 0 3 → EndsIn (.windowDisable m 0xFF e d) s (wordTrapped s (17 + 2 * e.val) m d))
    ∧ ∀ (k : WindowKind) (v w : Window), field d 0 3 = k.code → w = s.mem.windows[e] →
      v = ⟨w.base, w.length, k, (d.extractLsb' 4 2).toFin, d.extractLsb' 8 2, d.extractLsb' 16 8, false⟩ →
      (w.enabled = false →
        EndsIn (.windowDisable m 0xFF e d) s (wordPassed s (17 + 2 * e.val) m d (onWindow e (fun _ => v) s)))
      ∧ (w.enabled = true → windowInUse s w = true →
        EndsIn (.windowDisable m 0xFF e d) s (wordRefused s (17 + 2 * e.val) m 0xFF d .windowInUse))
      ∧ (w.enabled = true → windowInUse s w = false → ∀ u, u = (match w.kind with
            | .plain | .faultLog | .outcome | .status => onWindow e (fun _ => v) s
            | .outbound => onWindow e (fun _ => v) (onOutRing w.number (fun r => { r with
                table := none, outcomes := r.outcomes.filter (fun o => !o.refusal)
                discarded := satAdd r.discarded (r.outcomes.filter (fun o => o.refusal)).length
                generation := r.generation + 1 }) s)
            | .inbound => onWindow e (fun _ => v) (onInRing w.number (fun r => { r with slotCount := none }) s)) →
        ((w.kind ≠ .status ∨ ∀ c left old, s.cmd.busy = some c → c.waits ≠ .records left old) →
          EndsIn (.windowDisable m 0xFF e d) s (wordPassed s (17 + 2 * e.val) m d u))
        ∧ ∀ c left old, w.kind = .status → s.cmd.busy = some c → c.waits = .records left old →
          EndsIn (.windowDisable m 0xFF e d) s (wordPassed s (17 + 2 * e.val) m d (finished c.code c.number .state u)))

/-- The five conditions of an enable (R81) and Table 5-3, spelled out. -/
def Obligations.WindowConditionsSpelledOut : Prop :=
  ∀ (s : State) (w : Window),
    (mayEnable s w = true ↔
      s.mem.spanBase ≤ w.base ∧ w.base + w.length ≤ s.mem.spanBase + s.mem.spanLength
      ∧ (setupBase s + 2048 ≤ w.base ∨ w.base + w.length ≤ setupBase s)
      ∧ (∀ e : Fin 15, s.mem.windows[e].enabled = true →
        s.mem.windows[e].base + s.mem.windows[e].length ≤ w.base ∨ w.base + w.length ≤ s.mem.windows[e].base)
      ∧ (w.kind = .plain ∨ ∀ e : Fin 15, s.mem.windows[e].enabled = true → s.mem.windows[e].kind = w.kind →
        w.kind.isRing = true ∧ s.mem.windows[e].number ≠ w.number)
      ∧ (match w.kind with
        | .plain => 1 ≤ w.length
        | .inbound => ∃ k, 4 ≤ k ∧ k ≤ 10 ∧ w.length = 8 * 2 ^ k
        | .outbound => (∃ k, 4 ≤ k ∧ k ≤ 10 ∧ w.length = 8 * 2 ^ k)
          ∧ ∀ e, windowOf s .outcome w.number = some e → s.mem.windows[e].length / 4 = w.length / 8
            ∧ s.mem.windows[e].length % 4 = 0
        | .outcome => (∃ k, 4 ≤ k ∧ k ≤ 10 ∧ w.length = 4 * 2 ^ k)
          ∧ ∀ e, windowOf s .outbound w.number = some e → s.mem.windows[e].length / 8 = w.length / 4
            ∧ s.mem.windows[e].length % 8 = 0
        | .status => 1140 ≤ w.length
        | .faultLog => w.length % 2 = 0 ∧ 2 ≤ w.length ∧ w.length ≤ 1024
          ∧ (s.log.entryCount - s.log.releaseCount).toNat ≤ w.length / 2))
    ∧ (windowInUse s w = true ↔ match w.kind with
      | .plain => False
      | .outbound => (∃ x ∈ s.outRings[w.number].slots, x.captured = true) ∨ ∃ r ∈ s.sel.held, r.name.ring = w.number
      | .outcome => ((∃ x ∈ s.outRings[w.number].slots, x.captured = true) ∨ ∃ r ∈ s.sel.held, r.name.ring = w.number)
        ∨ (∃ q ∈ s.mem.queue, ∃ o, q.source = .outcome w.number o) ∨ ∃ q o, s.mem.burst = some q ∧ q.source = .outcome w.number o
      | .inbound => s.inRings[w.number].state ≠ .stopped ∨ (∃ q ∈ s.mem.queue, q.source = .delivery w.number)
        ∨ ∃ q, s.mem.burst = some q ∧ q.source = .delivery w.number
      | .status => (∃ q ∈ s.mem.queue, ∃ r, q.source = .status r) ∨ ∃ q r, s.mem.burst = some q ∧ q.source = .status r
      | .faultLog => s.log.outstanding ≠ [])

/-- The three words of the time setup (R72), and the end of HOLDOVER at a new limit (R70). -/
def Obligations.TimeSetupWords : Prop :=
  ∀ (m : Master) (d : Word) (s : State), SetupReady s m →
    (10 ≤ field d 0 32 → field d 0 32 ≤ 100000 → 1 ≤ field d 32 16 →
      (s.time.state = .holdover ∧ field d 32 16 ≤ s.time.holdoverElapsed →
        EndsIn (.timeSetupWord m 0xFF 0 d) s (wordPassed s 49 m d (raiseCause 7 { s with time := { s.time with
          lockThreshold := field d 0 32, holdoverLimit := field d 32 16, state := .free } })))
      ∧ (¬ (s.time.state = .holdover ∧ field d 32 16 ≤ s.time.holdoverElapsed) →
        EndsIn (.timeSetupWord m 0xFF 0 d) s (wordPassed s 49 m d { s with time := { s.time with
          lockThreshold := field d 0 32, holdoverLimit := field d 32 16 } })))
    ∧ ((field d 0 32 < 10 ∨ 100000 < field d 0 32 ∨ field d 32 16 = 0) →
      EndsIn (.timeSetupWord m 0xFF 0 d) s (wordTrapped s 49 m d))
    ∧ (field d 0 30 ≤ 999999999 → EndsIn (.timeSetupWord m 0xFF 1 d) s (wordPassed s 50 m d { s with
        time := { s.time with setValue := field d 32 32 * 1000000000 + field d 0 30 } }))
    ∧ (1000000000 ≤ field d 0 30 → EndsIn (.timeSetupWord m 0xFF 1 d) s (wordTrapped s 50 m d))
    ∧ EndsIn (.timeSetupWord m 0xFF 2 d) s (wordPassed s 51 m d { s with
        time := { s.time with adjust := (d.extractLsb' 0 32).toInt } })

/-- The mode word (R175, R171): role and hold mode change under their conditions only; a change of hold mode presets both channels
of the pair under the new mode. -/
def Obligations.PathModeWord : Prop :=
  ∀ (m : Master) (p : PathId) (d : Word) (s : State) (r : Role) (h : HoldMode), SetupReady s m →
    r = (if d.getLsbD 0 then .follow else .lead) → h = (if d.getLsbD 3 then .narrow else .wide) →
    (((r ≠ s.paths[p].setup.role ∧ s.paths[p].sup.state ≠ .disabled)
        ∨ (h ≠ s.paths[p].setup.holdMode ∧ (s.paths[p].sup.state ≠ .disabled ∨ s.paths[p].holdLow.run = true
          ∨ (s.paths[p].setup.holdMode = .narrow ∧ s.paths[p].holdHigh.run = true)))) →
      EndsIn (.pathModeWord m 0xFF p d) s (wordTrapped s (64 + 5 * p.val) m d))
    ∧ (¬ (r ≠ s.paths[p].setup.role ∧ s.paths[p].sup.state ≠ .disabled) → h = s.paths[p].setup.holdMode →
      EndsIn (.pathModeWord m 0xFF p d) s (wordPassed s (64 + 5 * p.val) m d (onSetup p (fun x => { x with
        role := r, check := d.getLsbD 1, priority := if d.getLsbD 2 then .below else .above }) s)))
    ∧ (s.paths[p].sup.state = .disabled → s.paths[p].holdLow.run = false → s.paths[p].setup.holdMode = .wide → h = .narrow →
      EndsIn (.pathModeWord m 0xFF p d) s (wordPassed s (64 + 5 * p.val) m d (onPath p (fun x => { x with
        setup := { x.setup with
          role := r, check := d.getLsbD 1, priority := if d.getLsbD 2 then .below else .above, holdMode := .narrow }
        holdLow := ⟨x.setup.narrowReload, x.holdLow.run, x.setup.narrowReload, some (x.setup.narrowCompare.zeroExtend 16),
          x.setup.holdTap⟩
        holdHigh := ⟨x.setup.guardReload, x.holdHigh.run, x.setup.guardReload, none, x.setup.holdTap⟩ }) s)))
    ∧ (s.paths[p].sup.state = .disabled → s.paths[p].holdLow.run = false → s.paths[p].holdHigh.run = false →
      s.paths[p].setup.holdMode = .narrow → h = .wide →
      EndsIn (.pathModeWord m 0xFF p d) s (wordPassed s (64 + 5 * p.val) m d (onPath p (fun x => { x with
        setup := { x.setup with
          role := r, check := d.getLsbD 1, priority := if d.getLsbD 2 then .below else .above, holdMode := .wide }
        holdLow := ⟨x.setup.wideReload.extractLsb' 0 8, x.holdLow.run, x.setup.wideReload.extractLsb' 0 8,
          some x.setup.wideCompare, x.setup.holdTap⟩
        holdHigh := ⟨x.setup.wideReload.extractLsb' 8 8, x.holdHigh.run, x.setup.wideReload.extractLsb' 8 8, none,
          x.setup.holdTap⟩ }) s)))

/-- The timer words (R168), the penalty word (R49) and the status bytes (R44); a running count is not disturbed. -/
def Obligations.TimerPenaltyAndStatusBytesWords : Prop :=
  ∀ (m : Master) (p : PathId) (d : Word) (s : State), SetupReady s m →
    (∀ a b c : Tap, Tap.ofCode (field d 8 8) = some a → Tap.ofCode (field d 24 8) = some b →
        Tap.ofCode (field d 40 8) = some c →
      EndsIn (.timerSetupWord m 0xFF p 0 d) s (wordPassed s (65 + 5 * p.val) m d (onSetup p (fun x => { x with
        probeReload := d.extractLsb' 0 8, probeTap := a, silenceReload := d.extractLsb' 16 8, silenceTap := b
        guardReload := d.extractLsb' 32 8, holdTap := c }) s)))
    ∧ ((3 < field d 8 8 ∨ 3 < field d 24 8 ∨ 3 < field d 40 8) →
      EndsIn (.timerSetupWord m 0xFF p 0 d) s (wordTrapped s (65 + 5 * p.val) m d))
    ∧ (field d 32 16 ≤ 255 → field d 48 16 ≤ 255 →
      EndsIn (.timerSetupWord m 0xFF p 1 d) s (wordPassed s (66 + 5 * p.val) m d (onSetup p (fun x => { x with
        wideReload := d.extractLsb' 0 16, wideCompare := d.extractLsb' 16 16
        narrowReload := d.extractLsb' 32 8, narrowCompare := d.extractLsb' 48 8 }) s)))
    ∧ ((255 < field d 32 16 ∨ 255 < field d 48 16) →
      EndsIn (.timerSetupWord m 0xFF p 1 d) s (wordTrapped s (66 + 5 * p.val) m d))
    ∧ EndsIn (.penaltyWord m 0xFF p d) s (wordPassed s (67 + 5 * p.val) m d (onSetup p (fun x => { x with
        fadePenalty := d.extractLsb' 0 32, recoveryPenalty := d.extractLsb' 32 32 }) s))
    ∧ EndsIn (.statusBytesWord m 0xFF p d) s (wordPassed s (68 + 5 * p.val) m d (onSetup p (fun x => { x with
        statusBytes := d.extractLsb' 0 32 }) s))

/-- The stream setup word (R135), the divert filter word (R144) and the line word (R172): the line takes the word's record, and
another line that carried the event loses it. The filter of that line after the word (R174): a count in progress goes on under the
same width and starts again under a new one, wherever the pin still differs. With the line's event an input or NONE the pin is the
outside's, and all of it is said; with an output event the line may drive its own pin, and the count of a new width is none or starts
again. That a line word which sets width 0 during a count lets the filtered level take the pin level is the model's choice (entry 38).
-/
def Obligations.StreamFilterAndLineWords : Prop :=
  ∀ (m : Master) (d : Word) (s : State), SetupReady s m →
    (∀ i : StreamId,
      (field d 16 16 ≠ 0 → EndsIn (.streamSetupWord m 0xFF i d) s (wordPassed s (96 + i.val) m d
        (onStream i (fun x => { x with
          ring := (d.extractLsb' 0 2).toFin, markers := d.getLsbD 2, enabled := d.getLsbD 3
          gapWindow := d.extractLsb' 16 16 }) s)))
      ∧ (field d 16 16 = 0 → EndsIn (.streamSetupWord m 0xFF i d) s (wordTrapped s (96 + i.val) m d)))
    ∧ (∀ f : Fin 8,
      (∀ a : DivertAction, field d 1 2 = a.code →
        EndsIn (.divertFilterWord m 0xFF f d) s (wordPassed s (112 + f.val) m d (onFilter f (fun x => { x with
          enabled := d.getLsbD 0, action := a, target := (d.extractLsb' 4 2).toFin, streamValue := d.extractLsb' 8 4
          streamMask := d.extractLsb' 12 4, typeValue := d.extractLsb' 16 8, typeMask := d.extractLsb' 24 8 }) s)))
      ∧ (field d 1 2 = 3 → EndsIn (.divertFilterWord m 0xFF f d) s (wordTrapped s (112 + f.val) m d)))
    ∧ ∀ l : LineId,
      (LineEvent.ofCode (field d 0 5) = none → EndsIn (.lineWord m 0xFF l d) s (wordTrapped s (128 + l.val) m d))
      ∧ ∀ e : LineEvent, LineEvent.ofCode (field d 0 5) = some e →
        EndsIn (.lineWord m 0xFF l d) s (wordPassed s (128 + l.val) m d { s with
          lines := Vector.ofFn fun k : LineId =>
            if k = l then { s.lines[k] with
              event := e, openDrain := d.getLsbD 8, activeLow := d.getLsbD 9
              width := if field d 10 2 = 0 then 0 else if field d 10 2 = 1 then 2 else if field d 10 2 = 2 then 8 else 32 }
            else if s.lines[k].event = e then { s.lines[k] with event := .none }
            else s.lines[k] })
        ∧ ∃ t, exec (.lineWord m 0xFF l d) s = .next t ∧ ∀ w : Nat,
          w = (if field d 10 2 = 0 then 0 else if field d 10 2 = 1 then 2 else if field d 10 2 = 2 then 8 else 32) →
          (w ≠ s.lines[l].width → t.lines[l].count = none ∨ t.lines[l].count = some 0)
          ∧ (e.isOutput = false →
            (s.lines[l].filtered = s.lines[l].outside →
              t.lines[l].filtered = s.lines[l].filtered ∧ t.lines[l].count = none)
            ∧ (s.lines[l].filtered ≠ s.lines[l].outside → w = 0 →
              t.lines[l].filtered = s.lines[l].outside ∧ t.lines[l].count = none)
            ∧ (s.lines[l].filtered ≠ s.lines[l].outside → w ≠ 0 →
              t.lines[l].filtered = s.lines[l].filtered
              ∧ t.lines[l].count = some (if w = s.lines[l].width then s.lines[l].count.getD 0 else 0)))

/-- The control words of the inbound rings (R150, R152) and the fault-log release word (R91). -/
def Obligations.RingControlAndLogReleaseWords : Prop :=
  ∀ (m : Master) (d : Word) (s : State), SetupReady s m →
    (∀ n : RingId,
      ((d.extractLsb' 0 16 - s.inRings[n].release).toNat ≤ (s.inRings[n].deposit - s.inRings[n].release).toNat →
        (d.getLsbD 16 = false → EndsIn (.inboundRelease m 0xFF n d) s (wordPassed s (120 + n.val) m d
          (onInRing n (fun r => { r with release := d.extractLsb' 0 16 }) s)))
        ∧ (d.getLsbD 16 = true →
          ((s.inRings[n].state = .stopped ∧ s.inRings[n].slotCount ≠ none) ∨ s.inRings[n].state = .halted) →
          EndsIn (.ringStartField m 0xFF n d) s (wordPassed s (120 + n.val) m d
            (onInRing n (fun r => { r with release := d.extractLsb' 0 16, state := .active }) s)))
        ∧ (d.getLsbD 16 = true →
          ¬ ((s.inRings[n].state = .stopped ∧ s.inRings[n].slotCount ≠ none) ∨ s.inRings[n].state = .halted) →
          EndsIn (.ringStartField m 0xFF n d) s (wordPassed s (120 + n.val) m d
            (onInRing n (fun r => { r with release := d.extractLsb' 0 16 }) s))))
      ∧ ((s.inRings[n].deposit - s.inRings[n].release).toNat < (d.extractLsb' 0 16 - s.inRings[n].release).toNat →
        EndsIn (.inboundRelease m 0xFF n d) s (wordTrapped s (120 + n.val) m d)
        ∧ EndsIn (.ringStartField m 0xFF n d) s (wordTrapped s (120 + n.val) m d)))
    ∧ ((d.extractLsb' 0 16 - s.log.releaseCount).toNat ≤ (s.log.entryCount - s.log.releaseCount).toNat →
      EndsIn (.faultLogRelease m 0xFF d) s (wordPassed s 124 m d
        { s with log := { s.log with releaseCount := d.extractLsb' 0 16 } }))
    ∧ ((s.log.entryCount - s.log.releaseCount).toNat < (d.extractLsb' 0 16 - s.log.releaseCount).toNat →
      EndsIn (.faultLogRelease m 0xFF d) s (wordTrapped s 124 m d))

/-! ## Writes and reads at the P-port -/

/-- Every row of a setup word, and every command row, is the write of its word at its place in the setup region (Table 12-9). That a
named row is that write is the model's reading (entry 28); that it is so for operands outside its row too (a WINDOW_ENABLE with enable
clear, an UNKNOWN_COMMAND with a known code, a HEADER_WRITE at another word) is its choice (entry 23). -/
def Obligations.SetupRowsAreWritesAtTheirPlace : Prop :=
  ∀ (m : Master) (be : ByteEnables) (d : Word) (s : State),
    (∀ i, exec (.identityWord m be i d) s = exec (.pPortWrite m (setupAddress s i.val) be d) s)
    ∧ exec (.guardedSpanWord m be d) s = exec (.pPortWrite m (setupAddress s 2) be d) s
    ∧ (∀ k, exec (.masterWord m be k d) s = exec (.pPortWrite m (setupAddress s (8 + k.val)) be d) s)
    ∧ (∀ e, exec (.windowExtentWord m be e d) s = exec (.pPortWrite m (setupAddress s (16 + 2 * e.val)) be d) s
      ∧ exec (.windowEnable m be e d) s = exec (.pPortWrite m (setupAddress s (17 + 2 * e.val)) be d) s
      ∧ exec (.windowDisable m be e d) s = exec (.pPortWrite m (setupAddress s (17 + 2 * e.val)) be d) s)
    ∧ exec (.selectorWord m be d) s = exec (.pPortWrite m (setupAddress s 48) be d) s
    ∧ (∀ i, exec (.timeSetupWord m be i d) s = exec (.pPortWrite m (setupAddress s (49 + i.val)) be d) s)
    ∧ (∀ p, exec (.pathModeWord m be p d) s = exec (.pPortWrite m (setupAddress s (64 + 5 * p.val)) be d) s
      ∧ (∀ i, exec (.timerSetupWord m be p i d) s
        = exec (.pPortWrite m (setupAddress s (65 + 5 * p.val + i.val)) be d) s)
      ∧ exec (.penaltyWord m be p d) s = exec (.pPortWrite m (setupAddress s (67 + 5 * p.val)) be d) s
      ∧ exec (.statusBytesWord m be p d) s = exec (.pPortWrite m (setupAddress s (68 + 5 * p.val)) be d) s)
    ∧ (∀ i, exec (.streamSetupWord m be i d) s = exec (.pPortWrite m (setupAddress s (96 + i.val)) be d) s)
    ∧ (∀ f, exec (.divertFilterWord m be f d) s = exec (.pPortWrite m (setupAddress s (112 + f.val)) be d) s)
    ∧ (∀ n, exec (.inboundRelease m be n d) s = exec (.pPortWrite m (setupAddress s (120 + n.val)) be d) s
      ∧ exec (.ringStartField m be n d) s = exec (.pPortWrite m (setupAddress s (120 + n.val)) be d) s)
    ∧ exec (.faultLogRelease m be d) s = exec (.pPortWrite m (setupAddress s 124) be d) s
    ∧ (∀ l, exec (.lineWord m be l d) s = exec (.pPortWrite m (setupAddress s (128 + l.val)) be d) s)
    ∧ (∀ i, exec (.alarmSetupWord m be i d) s = exec (.pPortWrite m (setupAddress s (136 + i.val)) be d) s)
    ∧ (∀ a, exec (.headerWrite m a be d) s = exec (.pPortWrite m a be d) s
      ∧ exec (.stagingWrite m a be d) s = exec (.pPortWrite m a be d) s)
    ∧ ∀ (num : Byte) (arg : BitVec 48),
      exec (.pathEnable m be num arg) s = exec (.pPortWrite m (setupAddress s 144) be (arg ++ num ++ 1#8)) s
      ∧ exec (.pathDisable m be num arg) s = exec (.pPortWrite m (setupAddress s 144) be (arg ++ num ++ 2#8)) s
      ∧ exec (.pathReset m be num arg) s = exec (.pPortWrite m (setupAddress s 144) be (arg ++ num ++ 3#8)) s
      ∧ exec (.ringStart m be num arg) s = exec (.pPortWrite m (setupAddress s 144) be (arg ++ num ++ 4#8)) s
      ∧ exec (.ringStop m be num arg) s = exec (.pPortWrite m (setupAddress s 144) be (arg ++ num ++ 5#8)) s
      ∧ exec (.ringReset m be num arg) s = exec (.pPortWrite m (setupAddress s 144) be (arg ++ num ++ 6#8)) s
      ∧ exec (.outFlush m be num arg) s = exec (.pPortWrite m (setupAddress s 144) be (arg ++ num ++ 7#8)) s
      ∧ exec (.outSeqSet m be num arg) s = exec (.pPortWrite m (setupAddress s 144) be (arg ++ num ++ 8#8)) s
      ∧ exec (.streamReset m be num arg) s = exec (.pPortWrite m (setupAddress s 144) be (arg ++ num ++ 9#8)) s
      ∧ exec (.timeSet m be num arg) s = exec (.pPortWrite m (setupAddress s 144) be (arg ++ num ++ 10#8)) s
      ∧ exec (.timeAdjust m be num arg) s = exec (.pPortWrite m (setupAddress s 144) be (arg ++ num ++ 11#8)) s
      ∧ exec (.rainSet m be num arg) s = exec (.pPortWrite m (setupAddress s 144) be (arg ++ num ++ 12#8)) s
      ∧ exec (.rainClear m be num arg) s = exec (.pPortWrite m (setupAddress s 144) be (arg ++ num ++ 13#8)) s
      ∧ exec (.queryPath m be num arg) s = exec (.pPortWrite m (setupAddress s 144) be (arg ++ num ++ 14#8)) s
      ∧ exec (.alarmAck m be num arg) s = exec (.pPortWrite m (setupAddress s 144) be (arg ++ num ++ 15#8)) s
      ∧ exec (.logReset m be num arg) s = exec (.pPortWrite m (setupAddress s 144) be (arg ++ num ++ 16#8)) s
      ∧ exec (.snapshot m be num arg) s = exec (.pPortWrite m (setupAddress s 144) be (arg ++ num ++ 17#8)) s
      ∧ ∀ code, exec (.unknownCommand m be code num arg) s
        = exec (.pPortWrite m (setupAddress s 144) be (arg ++ num ++ code)) s

/-- The write check in the setup region (Table 5-4, R175): a master of another privilege is refused, then a partial write, then a
command while one is in progress; a word of no record is trapped. -/
def Obligations.SetupWritesRefusedOrTrapped : Prop :=
  ∀ (m : Master) (be : ByteEnables) (d : Word) (s : State) (o : Nat), o < 2048 → s.mem.line = [] →
    s.mem.spanBase ≤ setupBase s → setupBase s + 2048 ≤ s.mem.spanBase + s.mem.spanLength →
    (s.mem.masters[m] ≠ 0 → EndsIn (.pPortWrite m (setupAddress s o) be d) s (wordRefused s o m be d .access))
    ∧ (s.mem.masters[m] = 0 → be ≠ 0xFF →
      EndsIn (.pPortWrite m (setupAddress s o) be d) s (wordRefused s o m be d .partialSetup))
    ∧ (s.mem.masters[m] = 0 → o = 144 → s.cmd.busy ≠ none →
      EndsIn (.pPortWrite m (setupAddress s o) 0xFF d) s (wordRefused s o m 0xFF d .cmdBusy))
    ∧ (s.mem.masters[m] = 0 →
      ((3 ≤ o ∧ o ≤ 7) ∨ o = 46 ∨ o = 47 ∨ (52 ≤ o ∧ o ≤ 63) ∨ (89 ≤ o ∧ o ≤ 95) ∨ (125 ≤ o ∧ o ≤ 127)
        ∨ (138 ≤ o ∧ o ≤ 143) ∨ 145 ≤ o) →
      EndsIn (.pPortWrite m (setupAddress s o) 0xFF d) s (wordTrapped s o m d))

/-- The write check outside the setup region (Table 5-4), for writes that no owner refuses. -/
def Obligations.WindowWritesAreChecked : Prop :=
  ∀ (m : Master) (a : Addr) (be : ByteEnables) (d : Word) (s : State), s.mem.line = [] →
    (inSpan s a.toNat = false → EndsIn (.pPortWrite m a be d) s (passAccess (writeOf m a be d) s))
    ∧ (inSpan s a.toNat = true → inSetupRegion s a.toNat = false →
      (windowAt s a.toNat = none → EndsIn (.pPortWrite m a be d) s (consumed (writeOf m a be d) (report .fault .beyondMap m a.toNat s)))
      ∧ ∀ (e : Fin 15) (w : Window), windowAt s a.toNat = some e → w = s.mem.windows[e] →
        ((w.required.toNat < s.mem.masters[m].toNat ∧ w.writers.getLsbD m.val = false) →
          EndsIn (.pPortWrite m a be d) s (consumed (writeOf m a be d) (report .fault .access m a.toNat s)))
        ∧ ((s.mem.masters[m].toNat ≤ w.required.toNat ∨ w.writers.getLsbD m.val = true) →
          (w.kind.isOwned = true → s.mem.masters[m] ≠ 0 →
            EndsIn (.pPortWrite m a be d) s (consumed (writeOf m a be d) (report .fault .owned m a.toNat s)))
          ∧ ((w.kind = .plain ∨ (w.kind.isOwned = true ∧ s.mem.masters[m] = 0)) →
            EndsIn (.pPortWrite m a be d) s (passAccess (writeOf m a be d) s))))

/-- A read is never refused (R87): it passes to memory, or is held with everything behind it while a burst writes its word (R97,
R84). -/
def Obligations.ReadsPassOrWaitForTheBurst : Prop :=
  ∀ (m : Master) (a : Addr) (be : ByteEnables) (d : Word) (s : State),
    (s.mem.line = [] → (∀ b, s.mem.burst = some b → ∀ w ∈ b.words, w.1 ≠ a.toNat) →
      EndsIn (.pPortRead m a) s (passAccess ⟨m, false, a, 0, 0⟩ s))
    ∧ (s.mem.line = [] → (∃ b, s.mem.burst = some b ∧ ∃ w ∈ b.words, w.1 = a.toNat) →
      EndsIn (.pPortRead m a) s { s with mem := { s.mem with line := [⟨m, false, a, 0, 0⟩] } })
    ∧ (s.mem.line ≠ [] →
      EndsIn (.pPortRead m a) s { s with mem := { s.mem with line := s.mem.line ++ [⟨m, false, a, 0, 0⟩] } }
      ∧ EndsIn (.pPortWrite m a be d) s { s with mem := { s.mem with line := s.mem.line ++ [⟨m, true, a, be, d⟩] } })

/-- A fault report becomes an outstanding entry, or is counted lost and raises FAULT_LOG_FULL (R90); the two words of the entry, bit
by bit, with the class and cause codes of section 12.4 (Table 12-7). -/
def Obligations.FaultReportsBecomeEntriesOrAreLost : Prop :=
  ([ReportClass.fault, .trap, .abort].map ReportClass.code = [0, 1, 2]
    ∧ [Cause.beyondMap, .access, .owned, .partialSetup, .windowInUse, .cmdBusy, .slotBusy, .partialHeader, .ringHalted, .range,
        .depositError, .outcomeError, .statusError, .faultError].map Cause.code = [0, 1, 2, 3, 4, 5, 6, 7, 8, 9, 10, 11, 12, 13])
  ∧ ∀ (cls : ReportClass) (c : Cause) (m : Master) (a : Nat) (s : State),
    ((s.log.state = .failed ∨ s.log.resetting = true ∨ windowOf s .faultLog 0 = none ∨ 4 ≤ s.log.outstanding.length
        ∨ (∃ e, windowOf s .faultLog 0 = some e
          ∧ (s.log.entryCount - s.log.releaseCount).toNat = s.mem.windows[e].length / 2)) →
      report cls c m a s = raiseCause 14 { s with log := { s.log with lost := satInc s.log.lost } })
    ∧ ∀ (e : Fin 15) (cap n : Nat), s.log.state = .ready → s.log.resetting = false → windowOf s .faultLog 0 = some e →
      s.log.outstanding.length < 4 → cap = s.mem.windows[e].length / 2 → n = s.log.entryCount.toNat →
      (s.log.entryCount - s.log.releaseCount).toNat ≠ cap →
      ∃ w : Word, report cls c m a s = { s with log := { s.log with
          entryCount := s.log.entryCount + 1
          outstanding := s.log.outstanding ++ [⟨s.mem.windows[e].base + 2 * (n % cap), w, BitVec.ofNat 64 a, false⟩] } }
        ∧ (w.extractLsb' 0 8).toNat = n / cap % 256 ∧ (w.extractLsb' 8 2).toNat = cls.code
        ∧ (w.extractLsb' 10 5).toNat = c.code ∧ (w.extractLsb' 15 3).toNat = m.val
        ∧ (w.extractLsb' 18 30).toNat = s.time.value % 1000000000
        ∧ (w.extractLsb' 48 16).toNat = s.time.value / 1000000000 % 65536

/-! ## Outbound slots (chapter 6) -/

/-- Table 6-2, steps 1 to 4: header writes that are refused and counted, and a header write with go clear. -/
def Obligations.HeaderWritesRefused : Prop :=
  ∀ (m : Master) (a : Addr) (be : ByteEnables) (d : Word) (s : State) (n : RingId) (k : Nat),
    OutboundReady s m a n (8 * k) →
    (s.outRings[n].state = .halted → EndsIn (.headerWrite m a be d) s (consumed ⟨m, true, a, be, d⟩
      (report .fault .ringHalted m a.toNat (onOutRing n (fun r => { r with ringHalted := satInc r.ringHalted }) s))))
    ∧ (s.outRings[n].state = .capturing →
      (be ≠ 0xFF → EndsIn (.headerWrite m a be d) s (consumed ⟨m, true, a, be, d⟩
        (report .fault .partialHeader m a.toNat
          (onOutRing n (fun r => { r with partialHeader := satInc r.partialHeader }) s))))
      ∧ (d.getLsbD 0 = false → EndsIn (.headerWrite m a 0xFF d) s (passAccess ⟨m, true, a, 0xFF, d⟩ s))
      ∧ (∀ x, d.getLsbD 0 = true → slotAt s n k = some x → (x.captured = true ∨ x.refusal ≠ none) →
        EndsIn (.headerWrite m a 0xFF d) s (consumed ⟨m, true, a, 0xFF, d⟩
          (report .fault .slotBusy m a.toNat (onOutRing n (fun r => { r with slotBusy := satInc r.slotBusy }) s)))))

/-- Table 6-2, steps 5 to 7: a capture with all its effects (R103), and the two refusal outcomes (R104). The two order
numbers are the model's own (entry 29). -/
def Obligations.HeaderWritesCaptureOrDrawARefusal : Prop :=
  ∀ (m : Master) (a : Addr) (d : Word) (s : State) (n : RingId) (k : Nat) (x : Slot) (i : StreamId) (md : LaunchMode),
    OutboundReady s m a n (8 * k) → s.outRings[n].state = .capturing → d.getLsbD 0 = true → slotAt s n k = some x →
    x.captured = false → x.refusal = none → i.val = field d 16 4 → md = LaunchMode.ofCode (field d 20 2) →
    (∀ c : LaunchClass, 1 ≤ field d 8 8 → field d 8 8 ≤ 48 → (md = .pinned → field d 24 3 ≤ 4) →
      field d 28 2 = (match c with | .urgent => 0 | .normal => 1) →
      (match c with | .urgent => s.sel.holdUrgent | .normal => s.sel.holdNormal) < 16 →
      EndsIn (.headerWrite m a 0xFF d) s (passAccess ⟨m, true, a, 0xFF, d⟩
        (onSlot n k (fun x => { x with captured := true })
          (onOutRing n (fun o => { o with captures := satInc o.captures }) { s with
            nextSequence := s.nextSequence.set i.val (s.nextSequence[i] + 1) i.isLt
            sel := { s.sel with
              held := s.sel.held ++ [{
                name := ⟨n, k⟩, stream := i, sequence := s.nextSequence[i], cls := c, mode := md
                pinned := if md = .pinned then asIndex 5 (field d 24 3) else none
                payload := ((x.staging.toList.drop 1).flatMap wordBytes).take (field d 8 8)
                tag := x.staging[0], capture := ⟨s.time.value, s.time.state⟩
                ageLimit := if field d 32 16 = 0 then none else some (field d 32 16)
                copies := [], spill := false, single := false, rain := false, firstAccepted := none
                order := s.sel.captureOrder }]
              urgent := if c = .urgent then { s.sel.urgent with back := s.sel.urgent.back ++ [⟨n, k⟩] } else s.sel.urgent
              normal := if c = .normal then { s.sel.normal with back := s.sel.normal.back ++ [⟨n, k⟩] } else s.sel.normal
              holdUrgent := if c = .urgent then s.sel.holdUrgent + 1 else s.sel.holdUrgent
              holdNormal := if c = .normal then s.sel.holdNormal + 1 else s.sel.holdNormal
              captureOrder := s.sel.captureOrder + 1 } }))))
    ∧ (∀ (res : OutcomeResult),
      ((res = .badHeader ∧ (field d 8 8 = 0 ∨ 48 < field d 8 8 ∨ (md = .pinned ∧ 4 < field d 24 3) ∨ 1 < field d 28 2))
        ∨ (res = .refusedFull ∧ 1 ≤ field d 8 8 ∧ field d 8 8 ≤ 48 ∧ (md = .pinned → field d 24 3 ≤ 4)
          ∧ ((field d 28 2 = 0 ∧ 16 ≤ s.sel.holdUrgent) ∨ (field d 28 2 = 1 ∧ 16 ≤ s.sel.holdNormal)))) →
      EndsIn (.headerWrite m a 0xFF d) s (passAccess ⟨m, true, a, 0xFF, d⟩
        (onSlot n k (fun x => { x with refusal := some res })
          (onOutRing n (fun o => { o with
            badHeader := if res = .badHeader then satInc o.badHeader else o.badHeader
            refusedFull := if res = .badHeader then o.refusedFull else satInc o.refusedFull
            outcomes := o.outcomes ++ [{
              slot := k, result := res, paths := 0, stream := i, sequence := 0, spill := false, single := false
              rain := false, capture := ⟨s.time.value, s.time.state⟩, launch := none, tag := x.staging[0]
              refusal := true, generation := o.generation, request := s.sel.requestOrder }] })
            { s with sel := { s.sel with requestOrder := s.sel.requestOrder + 1 } }))))

/-- A staging write (R101): each enabled byte replaces the same byte of the staged word, in any slot state and ring state. -/
def Obligations.StagingWritesReplaceEnabledBytes : Prop :=
  (∀ (m : Master) (a : Addr) (be : ByteEnables) (d : Word) (s : State) (n : RingId) (k : Nat) (w : Fin 7),
    OutboundReady s m a n (8 * k + (w.val + 1)) →
    EndsIn (.stagingWrite m a be d) s (passAccess ⟨m, true, a, be, d⟩
      (onSlot n k (fun x => { x with staging := x.staging.set w.val (mergeBytes x.staging[w] d be) w.isLt }) s)))
  ∧ ∀ (old new : Word) (be : ByteEnables) (j : Fin 8),
    (mergeBytes old new be).extractLsb' (8 * j.val) 8
      = if be.getLsbD j.val then new.extractLsb' (8 * j.val) 8 else old.extractLsb' (8 * j.val) 8

/-! ## Commands of the command word (chapter 11) -/

/-- Commands turned away: an argument out of range completes with RANGE and changes nothing; a code that names no command completes
with UNKNOWN (R176, Table 11-1). -/
def Obligations.CommandsOutOfRangeOrUnknown : Prop :=
  ∀ (m : Master) (num code : Byte) (arg : BitVec 48) (s : State), CommandReady s m →
    (4 < argIndex arg →
      EndsIn (.pathEnable m 0xFF num arg) s (commandPassed s 1 m num arg (finished 1 num .range s))
      ∧ EndsIn (.pathDisable m 0xFF num arg) s (commandPassed s 2 m num arg (finished 2 num .range s))
      ∧ EndsIn (.pathReset m 0xFF num arg) s (commandPassed s 3 m num arg (finished 3 num .range s))
      ∧ EndsIn (.queryPath m 0xFF num arg) s (commandPassed s 14 m num arg (finished 14 num .range s)))
    ∧ (3 < argIndex arg →
      EndsIn (.ringStart m 0xFF num arg) s (commandPassed s 4 m num arg (finished 4 num .range s))
      ∧ EndsIn (.ringStop m 0xFF num arg) s (commandPassed s 5 m num arg (finished 5 num .range s))
      ∧ EndsIn (.ringReset m 0xFF num arg) s (commandPassed s 6 m num arg (finished 6 num .range s))
      ∧ EndsIn (.outFlush m 0xFF num arg) s (commandPassed s 7 m num arg (finished 7 num .range s)))
    ∧ (15 < argIndex arg →
      EndsIn (.outSeqSet m 0xFF num arg) s (commandPassed s 8 m num arg (finished 8 num .range s))
      ∧ EndsIn (.streamReset m 0xFF num arg) s (commandPassed s 9 m num arg (finished 9 num .range s)))
    ∧ ((code.toNat = 0 ∨ 17 < code.toNat) →
      EndsIn (.unknownCommand m 0xFF code num arg) s (commandPassed s code m num arg (finished code num .unknown s)))

/-- PATH_ENABLE (R3): from DISABLED to DOWN with the probe channel preset and run; STATE in any other state; RANGE above P4. -/
def Obligations.PathEnableMovesToDown : Prop :=
  ∀ (m : Master) (num : Byte) (arg : BitVec 48) (s : State), CommandReady s m →
    (4 < argIndex arg →
      EndsIn (.pathEnable m 0xFF num arg) s (commandPassed s 1 m num arg (finished 1 num .range s)))
    ∧ ∀ p : PathId, argIndex arg = p.val →
      (s.paths[p].sup.state = .disabled →
        EndsIn (.pathEnable m 0xFF num arg) s (commandPassed s 1 m num arg (finished 1 num .done
          (raiseCause (pathCause p) (onPath p (fun x => { x with
            sup := { x.sup with state := .down, lastOffered := none }
            probe := ⟨x.setup.probeReload, true, x.setup.probeReload, none, x.setup.probeTap⟩
            silence := { x.silence with run := false } }) s)))))
      ∧ (s.paths[p].sup.state ≠ .disabled →
        EndsIn (.pathEnable m 0xFF num arg) s (commandPassed s 1 m num arg (finished 1 num .state s)))

/-- PATH_DISABLE (R4, R5): at once to DISABLED; it completes when the awaiting-answer list is empty, and waits otherwise. The last
part spells out the re-steer of a path's queued copies, front first (R132): a record with another copy that has not failed keeps
it, and is LAUNCHED when that one is accepted; any other returns to its class queue in capture order (R117), or is STALE when
its deadline has been passed (R125). -/
def Obligations.PathDisableLeavesServiceAndWaits : Prop :=
  (∀ (m : Master) (num : Byte) (arg : BitVec 48) (s u : State) (p : PathId), CommandReady s m → argIndex arg = p.val →
    u = (if s.paths[p].sup.state = .disabled then s else leftService p .disabled s) →
    (s.paths[p].port.awaiting = [] →
      EndsIn (.pathDisable m 0xFF num arg) s (commandPassed s 2 m num arg (finished 2 num .done u)))
    ∧ (s.paths[p].port.awaiting ≠ [] →
      EndsIn (.pathDisable m 0xFF num arg) s (commandPassed s 2 m num arg (busyWith 2 num (.answers p) u))))
  ∧ ∀ (p : PathId) (t : State),
    resteer p t = t.paths[p].port.transmit.foldl (resteerOne p) (onPort p (fun q => { q with transmit := [] }) t)
    ∧ ∀ (x : RecordName) (r y w : LaunchRecord) (others : List Copy), recordNamed t x = some r →
      others = r.copies.filter (fun c => decide (c.path ≠ p)) → y = { r with copies := others } → w = { r with copies := [] } →
      ((∃ c ∈ others, c.state = .queued ∨ c.state = .sent) → resteerOne p t x = putRecord y t)
      ∧ ((∃ c ∈ others, c.state = .accepted) → (∀ c ∈ others, c.state = .accepted ∨ c.state = .failed) →
        resteerOne p t x = requestOutcome y .launched (putRecord y t))
      ∧ ((∀ c ∈ others, c.state = .failed) →
        ((∃ us, r.ageLimit = some us ∧ r.capture.time + us * 1000 < t.time.value) →
          resteerOne p t x = requestOutcome w .stale (putRecord w t))
        ∧ ((∀ us, r.ageLimit = some us → t.time.value ≤ r.capture.time + us * 1000) → ∀ earlier : RecordName → Bool,
          (∀ n, earlier n = true ↔ ∃ z, recordNamed (putRecord w t) n = some z ∧ z.order < r.order) →
          resteerOne p t x = onQueue r.cls (fun q => { q with
            front := q.front.takeWhile earlier ++ [r.name] ++ q.front.dropWhile earlier }) (putRecord w t)))

/-- PATH_RESET (R6, R27, R141, R127): the history of a DISABLED path returns to its reset values; the channels are stopped and
preset; role, own mask, unit fields and frame numbers stay. That the last GRANT's content, the offer answered and the mismatch flag,
stays too is the model's choice (entry 12). -/
def Obligations.PathResetForgetsHistory : Prop :=
  ∀ (m : Master) (num : Byte) (arg : BitVec 48) (s : State), CommandReady s m →
    (4 < argIndex arg →
      EndsIn (.pathReset m 0xFF num arg) s (commandPassed s 3 m num arg (finished 3 num .range s)))
    ∧ ∀ p : PathId, argIndex arg = p.val →
      (s.paths[p].sup.state ≠ .disabled →
        EndsIn (.pathReset m 0xFF num arg) s (commandPassed s 3 m num arg (finished 3 num .state s)))
      ∧ (s.paths[p].sup.state = .disabled →
        EndsIn (.pathReset m 0xFF num arg) s (commandPassed s 3 m num arg (finished 3 num .done (onPath p (fun x => { x with
          sup := { x.sup with
            farMask := none, stepRun := 0, probeHistory := [], estimate := 0, estimateKind := .halfRtt, estimateCount := 0
            inbound := none, recentlyFailed := false, mismatch := false, roleClash := false, farStatus := none
            probesLost := 0, lastOffered := none, lastGranted := 0, farContract := none, discardedGrants := 0 }
          port := { x.port with
            history := [], sent := 0, accepted := 0, rejected := 0, noAnswer := 0, received := 0, checkFailures := 0
            lateAnswers := 0, insertDiscards := 0 }
          probe := ⟨x.setup.probeReload, false, x.setup.probeReload, none, x.setup.probeTap⟩
          silence := ⟨x.setup.silenceReload, false, x.setup.silenceReload, none, x.setup.silenceTap⟩
          holdLow := match x.setup.holdMode with
            | .wide => ⟨x.setup.wideReload.extractLsb' 0 8, false, x.setup.wideReload.extractLsb' 0 8,
                some x.setup.wideCompare, x.setup.holdTap⟩
            | .narrow => ⟨x.setup.narrowReload, false, x.setup.narrowReload, some (x.setup.narrowCompare.zeroExtend 16),
                x.setup.holdTap⟩
          holdHigh := match x.setup.holdMode with
            | .wide => ⟨x.setup.wideReload.extractLsb' 8 8, false, x.setup.wideReload.extractLsb' 8 8, none, x.setup.holdTap⟩
            | .narrow => ⟨x.setup.guardReload, false, x.setup.guardReload, none, x.setup.holdTap⟩
          wins := 0, leadMargin := none }) s))))

/-- RING_START (R152), RING_STOP (R153) and RING_RESET (R154). `k` is the number of records of the ring in the deposit queue. -/
def Obligations.InboundRingCommands : Prop :=
  ∀ (m : Master) (num : Byte) (arg : BitVec 48) (s : State) (n : RingId), CommandReady s m → argIndex arg = n.val →
    (s.inRings[n].state = .stopped → s.inRings[n].slotCount ≠ none →
      EndsIn (.ringStart m 0xFF num arg) s (commandPassed s 4 m num arg
        (finished 4 num .done (onInRing n (fun r => { r with state := .active }) s))))
    ∧ ((s.inRings[n].state ≠ .stopped ∨ s.inRings[n].slotCount = none) →
      EndsIn (.ringStart m 0xFF num arg) s (commandPassed s 4 m num arg (finished 4 num .state s)))
    ∧ (s.inRings[n].state ≠ .active →
      EndsIn (.ringStop m 0xFF num arg) s (commandPassed s 5 m num arg
        (finished 5 num .done (onInRing n (fun r => { r with state := .stopped }) s))))
    ∧ (∀ (k : Nat) (u : State), s.inRings[n].state = .active →
      k = (s.mem.queue.filter (fun e => e.source == .delivery n)).length →
      u = (List.range k).foldl (fun v _ => raiseCause (overflowCause n) (onInRing n (fun r => { r with
          overflow := satInc r.overflow, dropsStopped := satInc r.dropsStopped }) v))
        { onInRing n (fun r => { r with state := .stopped, assigned := r.assigned - BitVec.ofNat 16 k }) s with
          mem := { s.mem with queue := s.mem.queue.filter (fun e => !(e.source == .delivery n)) } } →
      ((∀ b, s.mem.burst = some b → b.source ≠ .delivery n) →
        EndsIn (.ringStop m 0xFF num arg) s (commandPassed s 5 m num arg (finished 5 num .done u)))
      ∧ ((∃ b, s.mem.burst = some b ∧ b.source = .delivery n) →
        EndsIn (.ringStop m 0xFF num arg) s (commandPassed s 5 m num arg (busyWith 5 num (.ringBurst n) u))))
    ∧ (s.inRings[n].state = .stopped →
      EndsIn (.ringReset m 0xFF num arg) s (commandPassed s 6 m num arg (finished 6 num .done
        (onCause (overflowCause n) (fun c => { c with pending := false }) (onInRing n (fun r => { r with
          deposit := 0, assigned := 0, release := 0, overflow := 0, dropsStopped := 0, dropsFull := 0
          dropsQueue := 0 }) s)))))
    ∧ (s.inRings[n].state ≠ .stopped →
      EndsIn (.ringReset m 0xFF num arg) s (commandPassed s 6 m num arg (finished 6 num .state s)))

/-- OUT_FLUSH (R133, R114): a HALTED ring captures again and its outcomes are submitted under R110; then the queued records of the
ring get the outcome FLUSHED, URGENT first, and the command waits for their outcomes. OUT_SEQ_SET (R107).
The second part says how the places of the report part are given out: while the ring's front outcome is ready and a place is free,
the place goes to the offer that comes first by R94 and R110, be it another's, and is taken as its submission row takes it. That the
offers which come before the ring's are taken at the event of the command is the model's reading of R114 (entry 36); what becomes
ready at the event is dated from it (entry 24). The third part is the outcome of this where nothing else is offered: the oldest
outcomes, as many as places are free, each at a position afresh from the assigned count; the slot count that places them is that of
the OUTCOME window (entry 26), the order of an entry's words is entry 39. -/
def Obligations.OutboundCommands : Prop :=
  (∀ (m : Master) (num : Byte) (arg : BitVec 48) (s : State), CommandReady s m →
    (∀ (n : RingId) (u : State) (flushed : List LaunchRecord), argIndex arg = n.val →
      flushed = ((s.sel.urgent.front ++ s.sel.urgent.back ++ (s.sel.normal.front ++ s.sel.normal.back)).filterMap
        (recordNamed s)).filter (fun r => decide (r.name.ring = n)) →
      ((s.outRings[n].state = .capturing ∧ u = s)
        ∨ (s.outRings[n].state = .halted ∧ windowOf s .outcome n = none
          ∧ u = onOutRing n (fun r => { r with state := .capturing }) s)
        ∨ (s.outRings[n].state = .halted ∧ windowOf s .outcome n ≠ none
          ∧ u = (List.range 16).foldl (fun v _ => givePlace n v) (onOutRing n (fun r => { r with state := .capturing }) s))) →
      (flushed = [] →
        EndsIn (.outFlush m 0xFF num arg) s (commandPassed s 7 m num arg (finished 7 num .done u)))
      ∧ (flushed ≠ [] →
        EndsIn (.outFlush m 0xFF num arg) s (commandPassed s 7 m num arg
          (busyWith 7 num (.outcomes n (flushed.map (fun r => r.name.slot)))
            (flushed.foldl (fun v r => requestOutcome r .flushed v) u)))))
    ∧ ∀ i : StreamId, argIndex arg = i.val →
      EndsIn (.outSeqSet m 0xFF num arg) s (commandPassed s 8 m num arg (finished 8 num .done
        { s with nextSequence := s.nextSequence.set i.val (arg.extractLsb' 16 32) i.isLt })))
  ∧ (∀ (n : RingId) (v t : State) (ready : Prop), t = dateOffers v → (ready ↔ ∃ q, OutcomeReady v n q) →
    (¬ ready ∨ 16 ≤ (v.mem.queue.filter (fun x => !x.isDeposit)).length → givePlace n v = v)
    ∧ (ready → (v.mem.queue.filter (fun x => !x.isDeposit)).length < 16 →
      (∀ k, FaultOffer t k → (∀ m j, OutcomeOffer t m j → k ≤ j) → (∀ r j, StatusOffer t r j → k ≤ j) →
        givePlace n v = doFaultEntrySubmit t)
      ∧ (∀ m k, OutcomeOffer t m k → (∀ j, FaultOffer t j → k < j) → (∀ r j, StatusOffer t r j → k ≤ j) →
        givePlace n v = doOutcomeSubmit t)
      ∧ (∀ r k, StatusOffer t r k → (∀ j, FaultOffer t j → k < j) → (∀ m j, OutcomeOffer t m j → k < j) →
        givePlace n v = doStatusSubmit t))
    ∧ exec .faultEntrySubmit t = .next (settle t (doFaultEntrySubmit t))
    ∧ exec .outcomeSubmit t = .next (settle t (doOutcomeSubmit t))
    ∧ exec .statusSubmit t = .next (settle t (doStatusSubmit t)))
  ∧ ∀ (n : RingId) (e : Fin 15) (k : Nat) (s : State), s.outRings[n].state = .capturing → windowOf s .outcome n = some e →
    (∀ f ∈ s.log.outstanding, f.submitted = true) →
    (s.status.running = false ∨ windowOf s .status 0 = none ∨ ∀ r : RecordId, s.status.records[r].changed = false) →
    (∀ m : RingId, m ≠ n → s.outRings[m].state = .halted ∨ windowOf s .outcome m = none ∨ s.outRings[m].outcomes = []) →
    k = min s.outRings[n].outcomes.length (16 - (s.mem.queue.filter (fun x => !x.isDeposit)).length) →
    kept ((List.range 16).foldl (fun v _ => givePlace n v) s) = kept (onOutRing n (fun r => { r with
      assigned := r.assigned + BitVec.ofNat 16 k, outcomes := r.outcomes.drop k }) { s with
        mem := { s.mem with queue := s.mem.queue ++ (s.outRings[n].outcomes.take k).mapIdx (fun i o =>
          let c := (s.outRings[n].assigned + BitVec.ofNat 16 i).toNat
          let slots := s.mem.windows[e].length / 4
          ⟨.outcome n o, e, outcomeWords (s.mem.windows[e].base + 4 * (c % slots)) (c / slots % 256) o⟩) } })

/-- R143: STREAM_RESET clears the tracker of a stream from 0 to 15 and nothing else, and completes; above 15 it completes with
RANGE. -/
def Obligations.StreamResetClearsTheTracker : Prop :=
  ∀ (m : Master) (num : Byte) (arg : BitVec 48) (s : State), CommandReady s m →
    (∀ i : StreamId, argIndex arg = i.val →
      EndsIn (.streamReset m 0xFF num arg) s (commandPassed s 9 m num arg (finished 9 num .done
        (onStream i (fun x => { x with tracking := false, gaps := [], recent := [] }) s))))
    ∧ (15 < argIndex arg →
      EndsIn (.streamReset m 0xFF num arg) s (commandPassed s 9 m num arg (finished 9 num .range s)))

/-- TIME_SET (R65): a value below the time value is BACKWARD; any other becomes the time value, ends a slew, sets the trim
hold. RAIN_SET and RAIN_CLEAR (R122). A change of the rain alert, by either command or by the RAIN_ALERT input, raises RAIN_CHANGE and
marks the four outbound ring records; one that leaves the alert as it was does neither. PPS_OUT is produced when the seconds increase
(R76); the rest of what `moveTime` does is in TimeBaseEvents. That the part of the time value below a nanosecond becomes 0 is the
model's choice (entry 4), and so is that the completion carries the time value after the replacement (entry 40). -/
def Obligations.TimeSetAndRainCommands : Prop :=
  ∀ (m : Master) (num : Byte) (arg : BitVec 48) (s : State), CommandReady s m →
    (s.time.setValue < s.time.value →
      EndsIn (.timeSet m 0xFF num arg) s (commandPassed s 10 m num arg (finished 10 num .backward s)))
    ∧ (s.time.value ≤ s.time.setValue → ∀ u,
      u = moveTime s.time.setValue { s with time := { s.time with slew := none, trimHold := true, fraction := 0 } } →
      u.time.value = s.time.setValue
      ∧ EndsIn (.timeSet m 0xFF num arg) s (commandPassed s 10 m num arg (finished 10 num .done u))
      ∧ (finished 10 num .done u).cmd.last = some ⟨num, 10, .done, ⟨s.time.setValue, s.time.state⟩⟩
      ∧ ∃ t, exec (.timeSet m 0xFF num arg) s = .next t ∧ t.pulses.ppsOut
        = if s.time.value / 1000000000 < s.time.setValue / 1000000000 then some 0 else s.pulses.ppsOut)
    ∧ EndsIn (.rainSet m 0xFF num arg) s (commandPassed s 12 m num arg (finished 12 num .done
        { s with sel := { s.sel with rainFlag := true } }))
    ∧ EndsIn (.rainClear m 0xFF num arg) s (commandPassed s 13 m num arg (finished 13 num .done
        { s with sel := { s.sel with rainFlag := false } }))
    ∧ (Settled s → ∀ (announced : Bool → Bool → State → Prop),
      (∀ before after t, announced before after t ↔
        (before = after → t.alarm.causes[19] = s.alarm.causes[19])
        ∧ (before ≠ after → t.alarm.causes[19] = { s.alarm.causes[19] with
            pending := true, raises := satInc s.alarm.causes[19].raises }
          ∧ ∀ n : RingId, t.status.records[11 + n.val].changed = true)) →
      (∃ t, exec (.rainSet m 0xFF num arg) s = .next t ∧ announced (s.sel.rainFlag || s.sel.rainInput) true t)
      ∧ (∃ t, exec (.rainClear m 0xFF num arg) s = .next t
        ∧ announced (s.sel.rainFlag || s.sel.rainInput) s.sel.rainInput t)
      ∧ ∀ (l : LineId) (high : Bool), s.lines[l].event = .rainAlert → s.lines[l].width = 0 →
        (∀ k : LineId, k ≠ l → s.lines[k].event ≠ .rainAlert) →
        ∃ t, exec (.pinChange l high) s = .next t ∧ t.sel.rainFlag = s.sel.rainFlag
          ∧ t.sel.rainInput = (high != s.lines[l].activeLow)
          ∧ announced (s.sel.rainFlag || s.sel.rainInput) (s.sel.rainFlag || (high != s.lines[l].activeLow)) t)

/-- R64: TIME_ADJUST starts a slew of the adjust word's amount in its direction, replacing any slew in progress, or with 0 ends it;
it sets the trim hold and completes at once. -/
def Obligations.TimeAdjustStartsASlew : Prop :=
  ∀ (m : Master) (num : Byte) (arg : BitVec 48) (s : State), CommandReady s m →
    EndsIn (.timeAdjust m 0xFF num arg) s (commandPassed s 11 m num arg (finished 11 num .done { s with
      time := { s.time with
        trimHold := true
        slew := if s.time.adjust = 0 then none
          else some ⟨decide (0 < s.time.adjust), s.time.adjust.natAbs * 1000000000⟩ } }))

/-- R43: QUERY_PATH on a path in UP or FADING places a QUERY with the next number, which is never 0; in any other state it
completes with STATE, and on no path with RANGE. That the ground path P4 is queried as an air path is, which the opening of the
chapter leaves open, is the model's choice (entry 41). -/
def Obligations.QueryPathPlacesAQuery : Prop :=
  ∀ (m : Master) (num : Byte) (arg : BitVec 48) (s : State), CommandReady s m →
    (4 < argIndex arg →
      EndsIn (.queryPath m 0xFF num arg) s (commandPassed s 14 m num arg (finished 14 num .range s)))
    ∧ ∀ p : PathId, argIndex arg = p.val →
      ((s.paths[p].sup.state = .up ∨ s.paths[p].sup.state = .fading) → ∀ q : Byte,
        q = (if s.paths[p].sup.lastQuery = 255 then 1 else s.paths[p].sup.lastQuery + 1) →
        q ≠ 0 ∧ EndsIn (.queryPath m 0xFF num arg) s (commandPassed s 14 m num arg (finished 14 num .done
          (insertFrame p (.query q) (onSup p (fun u => { u with lastQuery := q }) s)))))
      ∧ ((s.paths[p].sup.state ≠ .up ∧ s.paths[p].sup.state ≠ .fading) →
        EndsIn (.queryPath m 0xFF num arg) s (commandPassed s 14 m num arg (finished 14 num .state s)))

/-- ALARM_ACK (R181, R177), LOG_RESET (R93) and SNAPSHOT (R180). That an ALARM_ACK out of range that names CMD_DONE raises none is
the model's choice (entry 26). A SNAPSHOT waits for the 35 records before the completion record; the end of a burst begun before
it counts for none of them, and its record is written again. -/
def Obligations.AlarmLogAndSnapshotCommands : Prop :=
  ∀ (m : Master) (num : Byte) (arg : BitVec 48) (s : State) (named : Nat), CommandReady s m →
    named = (arg.extractLsb' 0 32).toNat →
    (named < 1048576 → ∀ u, u = { s with alarm := { s.alarm with causes := Vector.ofFn fun c : CauseId =>
          { s.alarm.causes[c] with pending := s.alarm.causes[c].pending && !named.testBit c.val } } } →
      (named.testBit 18 = false →
        EndsIn (.alarmAck m 0xFF num arg) s (commandPassed s 15 m num arg (finished 15 num .done u)))
      ∧ (named.testBit 18 = true →
        EndsIn (.alarmAck m 0xFF num arg) s (commandPassed s 15 m num arg (finishedQuietly 15 num .done u)))
      ∧ (Settled s → ∃ t, exec (.alarmAck m 0xFF num arg) s = .next t
        ∧ ∀ c : CauseId, named.testBit c.val = true → t.alarm.causes[c].pending = false))
    ∧ (1048576 ≤ named →
      (named.testBit 18 = false →
        EndsIn (.alarmAck m 0xFF num arg) s (commandPassed s 15 m num arg (finished 15 num .range s)))
      ∧ (named.testBit 18 = true →
        EndsIn (.alarmAck m 0xFF num arg) s (commandPassed s 15 m num arg (finishedQuietly 15 num .range s))))
    ∧ (s.log.outstanding = [] →
      EndsIn (.logReset m 0xFF num arg) s (commandPassed s 16 m num arg (finished 16 num .done { s with
        log := { s.log with
          state := .ready, entryCount := 0, releaseCount := 0, lost := 0, resetting := false } })))
    ∧ (s.log.outstanding ≠ [] →
      EndsIn (.logReset m 0xFF num arg) s (commandPassed s 16 m num arg
        (busyWith 16 num .logEntries { s with log := { s.log with resetting := true } })))
    ∧ (windowOf s .status 0 = none →
      EndsIn (.snapshot m 0xFF num arg) s (commandPassed s 17 m num arg (finished 17 num .state s)))
    ∧ ∀ old : Option RecordId, windowOf s .status 0 ≠ none →
      (∀ r, old = some r ↔ ∃ b, s.mem.burst = some b ∧ b.source = .status r) →
      EndsIn (.snapshot m 0xFF num arg) s (commandPassed s 17 m num arg
        (busyWith 17 num (.records ((List.finRange 36).filter (fun r => decide (r.val < 35))) old) { s with
          status := { s.status with
            running := true, records := s.status.records.map fun k => { k with submitted := none } } }))
      ∧ ∃ t, exec (.snapshot m 0xFF num arg) s = .next t
        ∧ ∀ r : RecordId, t.status.records[r].changed = true ∧ (old = some r → t.status.records[r].again = true)

/-! ## Units and link frames (chapter 9) -/

/-- ACCEPT, REJECT (R158) and NO_ANSWER (R159): the oldest entry leaves the awaiting-answer list, its counter counts, its copy is
answered, and a PATH_DISABLE waiting for the list completes when it is empty. NO_ANSWER sent early brings its limit about (the
model's choice, entry 2). The last part says what the answer of a copy does (R126, R130, R131): its state, the first accepted
launch stamp, and the outcome when every copy is complete. Then a tick of the 1 us tap: every entry of the path counts it, and the
oldest fails while it has seen 1,000 (R159), each failure being the NO_ANSWER row. -/
def Obligations.AnswersFinishTheOldestEntry : Prop :=
  (∀ (p : PathId) (s : State),
    (s.paths[p].port.awaiting = [] →
      EndsIn (.accept p) s (onPort p (fun q => { q with lateAnswers := satInc q.lateAnswers }) s)
      ∧ EndsIn (.reject p) s (onPort p (fun q => { q with lateAnswers := satInc q.lateAnswers }) s)
      ∧ EndsIn (.noAnswer p) s s)
    ∧ ∀ (e : AwaitEntry) (rest : List AwaitEntry) (done : State → State), s.paths[p].port.awaiting = e :: rest →
      done = (fun u => if rest = [] ∧ ∃ b, s.cmd.busy = some b ∧ b.waits = .answers p then
        (match s.cmd.busy with | some b => finished b.code b.number .done u | none => u) else u) →
      (e.copy = none →
        EndsIn (.accept p) s (done (onPort p (fun q => { q with accepted := satInc q.accepted, awaiting := rest }) s))
        ∧ EndsIn (.reject p) s (done (onPort p (fun q => { q with rejected := satInc q.rejected, awaiting := rest }) s))
        ∧ EndsIn (.noAnswer p) s (done (onPort p (fun q => { q with noAnswer := satInc q.noAnswer, awaiting := rest }) s)))
      ∧ (∀ x, e.copy = some x →
        EndsIn (.accept p) s (done (answerCopy p true x
          (onPort p (fun q => { q with accepted := satInc q.accepted, awaiting := rest }) s)))
        ∧ EndsIn (.reject p) s (done (answerCopy p false x
          (onPort p (fun q => { q with rejected := satInc q.rejected, awaiting := rest }) s)))
        ∧ EndsIn (.noAnswer p) s (done (answerCopy p false x
          (onPort p (fun q => { q with noAnswer := satInc q.noAnswer, awaiting := rest }) s)))))
  ∧ (∀ (p : PathId) (ok : Bool) (x : RecordName) (t : State) (r v : LaunchRecord), recordNamed t x = some r →
    v = { r with
      copies := r.copies.map (fun c => if c.path = p ∧ c.state = .sent then
        { c with state := if ok then .accepted else .failed } else c)
      firstAccepted := if ok = true ∧ r.firstAccepted = none then (r.copies.find? (fun c => c.path == p)).bind (fun c => c.launch)
        else r.firstAccepted } →
    ((∃ c ∈ v.copies, c.state = .queued ∨ c.state = .sent) → answerCopy p ok x t = putRecord v t)
    ∧ ((∀ c ∈ v.copies, c.state = .accepted ∨ c.state = .failed) →
      ((∃ c ∈ v.copies, c.state = .accepted) → answerCopy p ok x t = requestOutcome v .launched (putRecord v t))
      ∧ (v.copies ≠ [] → (∀ c ∈ v.copies, c.state = .failed) →
        answerCopy p ok x t = requestOutcome v .rejected (putRecord v t))))
  ∧ ∀ (p : PathId) (s t : State),
    t = (if s.paths[p].port.awaiting = [] then s else settle s (onPort p (fun q => { q with
      awaiting := q.awaiting.map (fun e => { e with ticks := e.ticks + 1 }) }) s)) →
    tickAnswers s p = failIfDue p (failIfDue p (failIfDue p (failIfDue p t)))
    ∧ ∀ v : State, ((∀ e rest, v.paths[p].port.awaiting = e :: rest → e.ticks < 1000) → failIfDue p v = v)
      ∧ ∀ e rest, v.paths[p].port.awaiting = e :: rest → 1000 ≤ e.ticks → exec (.noAnswer p) v = .next (failIfDue p v)

/-- REPORT (R2, R16, R160): what is stored, the own mask, and a report out of range; then Table 1-7 row by row: the failures that
hold a path, confirmation in TRAINING and in RETUNE with the guard after a lower profile (R9, R40), the step-down of either role
(R39), a unit off its contract profile (R11), the step-up run, its request (R40, R41) and the fade conditions (R10). Readings of the
model's own: a LEAD's step-down with no common profile places a GRANT of 0, which the entry to HELD then empties from the insert queue
(entry 11), and enters RETUNE before HELD (entry 26); a REPORT that enters RETUNE for a unit off its profile first counts or clears
the step-up run (entry 31). `k` is the contract profile, `u` the state with the REPORT stored, `c` the state with the step-up run
counted. -/
def Obligations.ReportsAreStoredAndActedOn : Prop :=
  ∀ (p : PathId) (margin profile unit : Byte) (s u c : State) (x : PathState) (k : Nat) (role : Role) (rises guarded : Prop),
    x = s.paths[p].sup.state → k = s.paths[p].sup.contract → role = s.paths[p].setup.role →
    u = onSup p (fun y => { y with
      margin := margin, unitProfile := profile.toNat
      unitState := if unit = 0 then .ready else if unit = 1 then .tuning else .fault
      ownMask := if p = 4 then y.ownMask
        else if margin < 8 then 0 else if margin < 16 then 1 else if margin < 24 then 3 else if margin < 32 then 7
        else if margin < 42 then 15 else if margin < 52 then 31 else 63 }) s →
    (rises ↔ 1 ≤ k ∧ k ≤ 5 ∧ Config.holdThreshold (k + 1) + 8 ≤ margin.toNat) →
    (guarded ↔ s.paths[p].setup.holdMode = .narrow ∧ s.paths[p].holdHigh.run = true) →
    (rises → c = onSup p (fun y => { y with stepRun := min 8 (y.stepRun + 1) }) u) →
    (¬ rises → c = onSup p (fun y => { y with
      stepRun := 0, pending := if role = .follow then false else y.pending }) u) →
    ((6 < profile.toNat ∨ 2 < unit.toNat) →
      Settles (.report p margin profile unit) s (onPort p (fun q => { q with discards := satInc q.discards }) s))
    ∧ (profile.toNat ≤ 6 → unit.toNat ≤ 2 →
      ((x = .disabled ∨ x = .down ∨ x = .held) → Settles (.report p margin profile unit) s u)
      ∧ (p = 4 → x = .up → unit = 2 → Settles (.report p margin profile unit) s (heldFrom p u))
      ∧ (p = 4 → x = .up → unit ≠ 2 → Settles (.report p margin profile unit) s u)
      ∧ (p ≠ 4 → (x = .training ∨ x = .retune ∨ x = .up ∨ x = .fading) → (unit = 2 ∨ margin < 8) →
        Settles (.report p margin profile unit) s (heldFrom p u))
      ∧ (p ≠ 4 → unit ≠ 2 → 8 ≤ margin.toNat →
        ((x = .training ∨ x = .retune) → (unit = 1 ∨ s.paths[p].sup.target ≠ some profile.toNat) →
          Settles (.report p margin profile unit) s u)
        ∧ (∀ v : State, unit = 0 → s.paths[p].sup.target = some profile.toNat →
          v = onSup p (fun y => { y with
            contract := profile.toNat, target := none, pending := if role = .lead then false else y.pending }) u →
          (x = .training → Settles (.report p margin profile unit) s v)
          ∧ (x = .retune → (k ≤ profile.toNat ∨ s.paths[p].setup.holdMode = .wide) →
            Settles (.report p margin profile unit) s (serviceFrom p v))
          ∧ (x = .retune → profile.toNat < k → s.paths[p].setup.holdMode = .narrow →
            Settles (.report p margin profile unit) s (serviceFrom p (onPath p (fun y => { y with
              holdHigh := ⟨y.setup.guardReload, true, y.setup.guardReload, none, y.setup.holdTap⟩ }) v))))
        ∧ ((x = .up ∨ x = .fading) → 2 ≤ k → k ≤ 6 → margin.toNat < Config.holdThreshold k →
          (role = .follow → Settles (.report p margin profile unit) s (offered p (retuneFrom p none u)))
          ∧ ∀ h, role = .lead → HighestOf (match s.paths[p].sup.farMask with
              | some m => u.paths[p].sup.ownMask &&& m | none => u.paths[p].sup.ownMask) h →
            (h ≠ 0 → Settles (.report p margin profile unit) s
              (granted p 0 h (onSup p (fun y => { y with pending := true }) (retuneFrom p (some h) u))))
            ∧ (h = 0 → Settles (.report p margin profile unit) s (mismatched p (granted p 0 0 (retuneFrom p none u)))))
        ∧ ((x = .up ∨ x = .fading) → ¬ (2 ≤ k ∧ k ≤ 6 ∧ margin.toNat < Config.holdThreshold k) →
          ((unit = 1 ∨ profile.toNat ≠ k) → Settles (.report p margin profile unit) s (retuneFrom p (some k) c))
          ∧ (unit = 0 → profile.toNat = k →
            (rises ∧ 7 ≤ s.paths[p].sup.stepRun ∧ ¬ guarded →
              Settles (.report p margin profile unit) s
                (fadeJudged p (onSup p (fun y => { y with stepRun := 0 }) (offered p c))))
            ∧ (¬ (rises ∧ 7 ≤ s.paths[p].sup.stepRun ∧ ¬ guarded) →
              Settles (.report p margin profile unit) s (fadeJudged p c))))))

/-- Messages that cannot be taken are discarded and counted (R160); a DISABLED path takes no frame; any other marks a frame in its
receive history, good or bad (R161, R164), judges the fade conditions at each mark (R10), restarts silence at a good one where
it runs (R14), and sorts it (R15, R163): a DATA frame to the inbound estimate and the merge, a control frame to the supervisor,
which takes none in HELD. Then the inbound one-way estimate (R23; a sample above 32 bits leaves a free value, entry 7), and what
each kind of control frame does: PROBE (R18), ECHO (R19, R21), QUERY (R44), ANSWER (R45), OFFER and GRANT with the role check
(R31), each from the record as it stands. A repeat of the last GRANT follows entry 12, a GRANT of 0 before HELD entry 11, an
ECHO's nanoseconds entry 13; that the numbers of OFFER, GRANT, QUERY, ANSWER and ECHO are those of the payload is the model's reading
(entry 14), and so is that a GRANT applied outside the own mask clears mismatch (entry 26). That QUERY and ANSWER act on the ground
path P4, and that a frame of the other role clears its role clash, is the model's choice (entry 41), and so is that a DATA frame on
a HELD path leaves the inbound estimate alone, where R163 hands it on in HELD and R23 does not name HELD (entry 42). A message header
that the port takes is that of an ACCEPT, a REJECT, a REPORT in range or a CARRY with 16 to 68 bytes (R160, Table 12-3); when
`judgeFrame` finds a frame bad is in LinkFramesReadBackAsSent, a condition byte other than 0 being ERRORED (R185). -/
def Obligations.FramesFromTheUnit : Prop :=
  (∀ b0 b1 b2 b3 : Byte, takenUnitMessage b0 b1 b2 b3 = true ↔
    (b0 = 3 ∧ 16 ≤ b1.toNat ∧ b1.toNat ≤ 68) ∨ b0 = 4 ∨ b0 = 5 ∨ (b0 = 6 ∧ b2.toNat ≤ 6 ∧ b3.toNat ≤ 2))
  ∧ (∀ (p : PathId) (condition b0 b1 b2 b3 : Byte) (bytes : List Byte) (s g : State),
    g = onPort p (fun q => { q with received := satInc q.received }) s →
    (takenUnitMessage b0 b1 b2 b3 = false →
      Settles (.unknownUnitMessage p b0 b1 b2 b3) s (onPort p (fun q => { q with discards := satInc q.discards }) s))
    ∧ ((bytes.length < 16 ∨ 68 < bytes.length) →
      Settles (.carry p condition bytes) s (onPort p (fun q => { q with discards := satInc q.discards }) s))
    ∧ (16 ≤ bytes.length → bytes.length ≤ 68 →
      (s.paths[p].sup.state = .disabled → Settles (.carry p condition bytes) s s)
      ∧ (s.paths[p].sup.state ≠ .disabled →
        (judgeFrame p s.paths[p].setup.check (decide (condition ≠ 0)) bytes = none →
          Settles (.carry p condition bytes) s (frameMarked p false g))
        ∧ ∀ (h : FrameHeader) (payload : List Byte) (st : Stamp) (v : State),
          judgeFrame p s.paths[p].setup.check (decide (condition ≠ 0)) bytes = some (h, payload) →
          st = ⟨s.time.value, s.time.state⟩ →
          v = (if s.paths[p].sup.state = .down ∨ s.paths[p].sup.state = .held then frameMarked p true g
            else silenceRestarted p (frameMarked p true g)) →
          (h.kind = .data → Settles (.carry p condition bytes) s (mergeFrame p h payload st (takeInbound p h st v)))
          ∧ (h.kind ≠ .data → s.paths[p].sup.state ≠ .held →
            Settles (.carry p condition bytes) s (handleControl p h payload st v))
          ∧ (h.kind ≠ .data → s.paths[p].sup.state = .held → Settles (.carry p condition bytes) s v))))
  ∧ (∀ (p : PathId) (h : FrameHeader) (st : Stamp) (t : State),
    ((t.paths[p].sup.state = .disabled ∨ t.paths[p].sup.state = .held) → takeInbound p h st t = t)
    ∧ (t.paths[p].sup.state ≠ .disabled → t.paths[p].sup.state ≠ .held →
      ((h.quality ≠ .locked ∨ st.quality ≠ .locked) →
        takeInbound p h st t = onSup p (fun u => { u with inbound := none }) t)
      ∧ (h.quality = .locked → st.quality = .locked →
        (st.time < h.sent → takeInbound p h st t = t)
        ∧ (h.sent ≤ st.time → ∃ e : BitVec 32,
          takeInbound p h st t
            = { onSup p (fun u => { u with inbound := some e }) t with freeValues := t.freeValues + 1 }
          ∧ (st.time - h.sent ≤ 4294967295 →
            (t.paths[p].sup.inbound = none → e.toNat = st.time - h.sent)
            ∧ ∀ o, t.paths[p].sup.inbound = some o →
              (e.toNat : Int) = o.toNat + ((st.time - h.sent : Nat) - (o.toNat : Int)).tdiv 8)))))
  ∧ ∀ (p : PathId) (h : FrameHeader) (bs : List Byte) (st : Stamp) (t c : State) (u : Supervisor) (own : Role),
    u = t.paths[p].sup → own = t.paths[p].setup.role →
    c = (if h.role = own then t else onSup p (fun x => { x with roleClash := false }) t) →
    (h.kind = .probe → handleControl p h bs st t
      = insertFrame p (.echo (BitVec.ofNat 8 h.sequence.toNat) ⟨h.sent, h.quality⟩ st) c)
    ∧ (h.kind = .query → handleControl p h bs st t
      = insertFrame p (.answer (bs.getD 0 0) (t.paths[p].setup.statusBytes ||| BitVec.ofNat 32 (
          (if u.state = .fading then 1 else 0) + (if t.ranking.fallback = true then 2 else 0)
          + (if t.time.state = .holdover ∨ t.time.state = .free then 4 else 0)
          + (if t.sel.rainFlag = true ∨ t.sel.rainInput = true then 8 else 0)))) c)
    ∧ (h.kind = .answer → handleControl p h bs st t
      = if bs.getD 0 0 = u.lastQuery ∧ u.lastQuery ≠ 0 then
          onSup p (fun x => { x with farStatus := some (BitVec.ofNat 32 (bytesAt bs 4 4)) }) c
        else c)
    ∧ (h.kind = .echo → ∀ (hit : ProbeEntry → Prop) (far : Time),
      (∀ e, hit e ↔ e.number = bs.getD 0 0 ∧ e.sent.time = bytesAt bs 4 4 * 1000000000 + bytesAt bs 8 4) →
      far = bytesAt bs 12 4 * 1000000000 + bytesAt bs 16 4 →
      ((∀ e ∈ u.probeList, ¬ hit e) → handleControl p h bs st t = c)
      ∧ ((999999999 < bytesAt bs 8 4 ∨ 999999999 < bytesAt bs 16 4) → handleControl p h bs st t = c)
      ∧ ∀ (older newer : List ProbeEntry) (e : ProbeEntry) (sample : Nat × LatencyKind) (w : State) (y : Supervisor),
        bytesAt bs 8 4 ≤ 999999999 → bytesAt bs 16 4 ≤ 999999999 → u.probeList = older ++ e :: newer →
        (∀ x ∈ older, ¬ hit x) → hit e →
        sample = (if e.sent.quality = .locked ∧ Quality.ofCode (byteAt bs 2) = .locked ∧ e.sent.time ≤ far then
            (min (far - e.sent.time) 4294967295, .oneWay)
          else (min (((st.time : Int) - e.sent.time - (h.sent - far)).tdiv 2).toNat 4294967295, .halfRtt)) →
        w = takeSample p sample (probeJudged p true (older.foldl (fun x _ => probeJudged p false x) c)) → y = w.paths[p].sup →
        handleControl p h bs st t =
          if (p ≠ 4 ∧ y.state = .training ∧ y.contract ≠ 0 ∧ y.target = none) ∨ (p = 4 ∧ y.state = .down) then serviceFrom p w
          else w)
    ∧ ((h.kind = .offer ∨ h.kind = .grant) →
      (p = 4 → handleControl p h bs st t = t)
      ∧ (p ≠ 4 → (h.role = own ∨ (h.kind = .grant ∧ own = .lead)) → handleControl p h bs st t
        = onSup p (fun x => { x with roleClash := true }) (if u.roleClash = true then t else raiseCause 17 t))
      ∧ (p ≠ 4 → ¬ (h.role = own ∨ (h.kind = .grant ∧ own = .lead)) → u.roleClash = true →
        handleControl p h bs st t = onSup p (fun x => { x with roleClash := false }) t))
    ∧ (h.kind = .offer → p ≠ 4 → h.role ≠ own → u.roleClash = false →
      ∀ (mask : ProfileMask) (g : Nat) (v : State) (answer : State → State),
      mask = (bs.getD 1 0).extractLsb' 0 6 → HighestOf (u.ownMask &&& mask) g →
      v = onSup p (fun x => { x with
        farMask := some mask, farContract := some (if byteAt bs 2 ≤ 6 then byteAt bs 2 else 0)
        lastOfferReceived := bs.getD 0 0 }) t →
      answer = answered p u (bs.getD 0 0) mask g →
      (own = .follow → handleControl p h bs st t = offered p v)
      ∧ (own = .lead → g = 0 → handleControl p h bs st t = mismatched p (answer v))
      ∧ (own = .lead → g ≠ 0 →
        (u.state = .down → handleControl p h bs st t = trainingFrom p (decided p g (answer v)))
        ∧ (u.state = .training → handleControl p h bs st t
          = if u.target.getD u.contract = g then answer v else decided p g (answer v))
        ∧ (u.state = .retune → handleControl p h bs st t
          = if u.target = some g then answer v else decided p g (answer v))
        ∧ ((u.state = .up ∨ u.state = .fading) → handleControl p h bs st t
          = if u.contract = g then answer v
            else answer (onSup p (fun x => { x with pending := true }) (retuneFrom p (some g) v)))))
    ∧ (h.kind = .grant → p ≠ 4 → h.role = .lead → own = .follow → u.roleClash = false →
      ∀ (number offer : Byte) (k : Nat) (none0 : Bool) (v w : State),
      number = bs.getD 0 0 → offer = bs.getD 1 0 → k = byteAt bs 2 → none0 = (bs.getD 3 0).getLsbD 0 →
      v = onSup p (fun x => { x with
        lastGrant := number, lastGranted := k, grantAnswered := offer, grantMismatch := none0 }) t →
      w = onSup p (fun x => { x with pending := false, mismatch := false }) v →
      ((6 < k ∨ (offer = 0 ∧ u.pending = true) ∨ (offer ≠ 0 ∧ (offer ≠ u.lastOfferSent ∨ u.lastOffered = none))) →
        handleControl p h bs st t = onSup p (fun x => { x with discardedGrants := satInc x.discardedGrants }) t)
      ∧ (k ≤ 6 → ((offer = 0 ∧ u.pending = false) ∨ (offer ≠ 0 ∧ offer = u.lastOfferSent ∧ u.lastOffered ≠ none)) →
        ((k = 0 ∨ none0 = true) → handleControl p h bs st t = mismatched p v)
        ∧ (1 ≤ k → none0 = false →
          (u.ownMask.getLsbD (k - 1) = false → handleControl p h bs st t = offered p w)
          ∧ (u.ownMask.getLsbD (k - 1) = true →
            (u.state = .down → handleControl p h bs st t = trainingFrom p (aimed p k w))
            ∧ (u.state = .training → handleControl p h bs st t
              = if u.target.getD u.contract = k then w else aimed p k w)
            ∧ (u.state = .retune → handleControl p h bs st t = if u.target = some k then w else aimed p k w)
            ∧ ((u.state = .up ∨ u.state = .fading) → handleControl p h bs st t
              = if u.contract = k then w else retuneFrom p (some k) w)))))

/-- The deposit of a record for ring `n` (R147, R151): it takes the ring's next position, or is dropped and counted with its reason.
The divert filters (R145, Table 8-6): the first enabled filter that matches counts a hit and decides which rings receive the
record; without one it is the mapped ring. Table 8-3 (R136 to R141): what each case of an arrival does to the tracker, to the race
statistics and to the record it hands on; `kept` joins the recent list with the accepted sequence. The words of an inbound slot
(Table 12-5), bit by bit, in the order in which they are issued: words 1 to 7 and then the header (R149). -/
def Obligations.DeliveredRecordsAreQueuedOrDropped : Prop :=
  (∀ (rec : Delivery) (s : State) (n : RingId) (r : InRing), r = s.inRings[n] →
    (r.state ≠ .active → handRecord rec s n = raiseCause (overflowCause n) (onInRing n (fun r => { r with
      overflow := satInc r.overflow, dropsStopped := satInc r.dropsStopped }) s))
    ∧ ∀ (slots base c : Nat) (e : Fin 15), r.state = .active → r.slotCount = some slots → windowOf s .inbound n = some e →
      c = r.assigned.toNat → base = s.mem.windows[e].base + 8 * (c % slots) →
      ((r.assigned - r.release).toNat = slots →
        handRecord rec s n = raiseCause (overflowCause n) (onInRing n (fun r => { r with
          overflow := satInc r.overflow, dropsFull := satInc r.dropsFull }) s))
      ∧ ((r.assigned - r.release).toNat ≠ slots → 16 ≤ depositCount s →
        handRecord rec s n = raiseCause (overflowCause n) (onInRing n (fun r => { r with
          overflow := satInc r.overflow, dropsQueue := satInc r.dropsQueue }) s))
      ∧ ((r.assigned - r.release).toNat ≠ slots → depositCount s < 16 →
        handRecord rec s n = onInRing n (fun r => { r with assigned := r.assigned + 1 }) { s with
          mem := { s.mem with queue := s.mem.queue ++ [⟨.delivery n, e,
            deliveryWords base (c / slots % 256) rec⟩] } }))
  ∧ (∀ (base lap : Nat) (rec : Delivery), lap < 256 → rec.payload.length ≤ 48 → ∃ (head : Word) (data : Fin 6 → Word),
    deliveryWords base lap rec = [(base + 1, stampWord rec.stamp), (base + 2, data 0), (base + 3, data 1), (base + 4, data 2),
      (base + 5, data 3), (base + 6, data 4), (base + 7, data 5), (base, head)]
    ∧ (∀ (k : Fin 6) (j : Fin 8), (data k).extractLsb' (8 * j.val) 8 = rec.payload.getD (8 * k.val + j.val) 0)
    ∧ (head.extractLsb' 0 8).toNat = lap ∧ (head.extractLsb' 8 8).toNat = rec.payload.length
    ∧ (head.extractLsb' 16 4).toNat = rec.stream.val
    ∧ (head.extractLsb' 20 3).toNat = (match rec.path with | some p => p.val | none => 7) ∧ head.getLsbD 23 = false
    ∧ head.getLsbD 24 = rec.flags.lateFill ∧ head.getLsbD 25 = rec.flags.resync ∧ head.getLsbD 26 = rec.flags.skipped
    ∧ head.getLsbD 27 = rec.flags.lost ∧ head.getLsbD 28 = rec.flags.diverted ∧ head.getLsbD 29 = rec.flags.timeSuspect
    ∧ head.extractLsb' 30 2 = 0 ∧ head.extractLsb' 32 32 = rec.sequence)
  ∧ (∀ (rec : Delivery) (s : State) (mapped : RingId) (type : Byte) (hit : Fin 8 → Prop),
    mapped = s.streams[rec.stream].ring → type = rec.payload.headD 0 →
    (∀ f, hit f ↔ s.filters[f].enabled = true
      ∧ (∀ k : Fin 4, s.filters[f].streamMask.getLsbD k.val = true →
        rec.stream.val.testBit k.val = s.filters[f].streamValue.getLsbD k.val)
      ∧ ∀ k : Fin 8, s.filters[f].typeMask.getLsbD k.val = true → type.getLsbD k.val = s.filters[f].typeValue.getLsbD k.val) →
    ((∀ f, ¬ hit f) → deliver rec s = handRecord rec s mapped)
    ∧ ∀ (f : Fin 8) (target : RingId) (marked : Delivery) (t : State), hit f → (∀ j : Fin 8, j < f → ¬ hit j) →
      target = s.filters[f].target → marked = { rec with flags := { rec.flags with diverted := true } } →
      t = onFilter f (fun y => { y with hits := satInc y.hits }) s →
      (s.filters[f].action = .discard → deliver rec s = t)
      ∧ (s.filters[f].action ≠ .discard → target = mapped → deliver rec s = handRecord rec t mapped)
      ∧ (s.filters[f].action = .divert → target ≠ mapped → deliver rec s = handRecord marked t target)
      ∧ (s.filters[f].action = .copy → target ≠ mapped →
        deliver rec s = handRecord marked (handRecord rec t mapped) target))
  ∧ ∀ (p : PathId) (h : FrameHeader) (bs : List Byte) (st : Stamp) (s : State) (i : StreamId) (x : Stream) (q : BitVec 32)
    (d : Int) (rec : Delivery) (kept : Stream → Stream),
    i.val = h.stream → x = s.streams[i] → q = h.sequence → d = (q - x.highest).toInt →
    rec = ⟨i, some p, q, st, bs, ⟨false, false, false, false, false, decide (st.quality ≠ .locked)⟩⟩ →
    kept = (fun y => { y with accepted := satInc y.accepted, recent := pushed 32 y.recent ⟨q, p, st⟩ }) →
    (x.enabled = false →
      mergeFrame p h bs st s = onStream i (fun y => { y with disabledDiscards := satInc y.disabledDiscards }) s)
    ∧ (x.enabled = true →
      ((x.tracking = false ∨ d = 1) → mergeFrame p h bs st s
        = deliver rec (onStream i (fun y => { kept y with tracking := true, highest := q }) s))
      ∧ (x.tracking = true →
        (∀ opened unheld : Nat, 2 ≤ d → d ≤ 4096 → opened = min (d.toNat - 1) (16 - x.gaps.length) →
          unheld = d.toNat - 1 - opened → ∀ t, t = onStream i (fun y => { kept y with
            highest := q, lost := satAdd y.lost unheld
            gaps := y.gaps ++ (List.range opened).map (fun k => ⟨x.highest + BitVec.ofNat 32 (k + 1), st,
              ⟨st.time + x.gapWindow.toNat * 1000, st.quality⟩⟩) }) s →
          mergeFrame p h bs st s = deliver { rec with flags := { rec.flags with skipped := decide (unheld ≠ 0) } }
            (if unheld = 0 then t else raiseCause 12 t))
        ∧ ((4096 < d ∨ d < -4096) → ∀ t, t = onStream i (fun y => { kept { y with recent := [] } with
            highest := q, gaps := [], lost := satAdd y.lost y.gaps.length, resyncs := satInc y.resyncs }) s →
          mergeFrame p h bs st s = deliver { rec with flags := { rec.flags with resync := true } }
            (if x.gaps = [] then t else raiseCause 12 t))
        ∧ (-4096 ≤ d → d ≤ 0 →
          ((∃ g ∈ x.gaps, g.sequence = q) → mergeFrame p h bs st s
            = deliver { rec with flags := { rec.flags with lateFill := true } } (onStream i (fun y => { kept y with
              gaps := y.gaps.filter (fun g => decide (g.sequence ≠ q)), lateFills := satInc y.lateFills }) s))
          ∧ ((∀ g ∈ x.gaps, g.sequence ≠ q) →
            ((∀ e ∈ x.recent, e.sequence ≠ q) →
              mergeFrame p h bs st s = onStream i (fun y => { y with tooLate := satInc y.tooLate }) s)
            ∧ ∀ (older newer : List Recent) (e : Recent) (t : State), x.recent = older ++ e :: newer →
              (∀ y ∈ older, y.sequence ≠ q) → e.sequence = q →
              t = onStream i (fun y => { y with duplicates := satInc y.duplicates }) s →
              (e.path = p → mergeFrame p h bs st s = t)
              ∧ (e.path ≠ p → ∃ m : BitVec 32,
                (m.toNat : Int) = (match s.paths[e.path].leadMargin with
                  | none => (min (st.time - e.stamp.time) 4294967295 : Nat)
                  | some o => o.toNat + ((min (st.time - e.stamp.time) 4294967295 : Nat) - (o.toNat : Int)).tdiv 8)
                ∧ mergeFrame p h bs st s
                  = onPath e.path (fun y => { y with wins := satInc y.wins, leadMargin := some m }) t)))))

/-- SEND_START (R157), with the choice of the frame under either insert priority (R128), a PROBE's entry in the probe list (R17), a
copy's launch (R129) and the passed counts (R127, R128), and where it starts nothing: the link not FREE, a TUNE pending, four entries
awaiting an answer, the path HELD or DISABLED, or nothing to send (R156, R128); that a row out of its turn has no effect is the
model's choice (entry 2). SEND_END, TUNE_START and TUNE_END (R156). Then the bytes of a frame: the header of Table 12-1 and the control
payloads of Table 12-2, bit by bit, multi-byte fields least significant byte first (R184), and the frame check (R162). -/
def Obligations.MessagesToTheUnit : Prop :=
  (∀ (p : PathId) (s : State),
    (∀ (f : InsertFrame) (rest : List InsertFrame) (frame : List Byte),
      s.paths[p].port.link = .free → s.paths[p].port.pendingTune = none → s.paths[p].port.awaiting.length < 4 →
      s.paths[p].sup.state ≠ .held → s.paths[p].sup.state ≠ .disabled → s.paths[p].port.insert = f :: rest →
      (s.paths[p].setup.priority = .above ∨ f.passed = 4 ∨ s.paths[p].port.transmit = []
        ∨ (s.paths[p].sup.state ≠ .up ∧ s.paths[p].sup.state ≠ .fading)) →
      frame = frameBytes s.paths[p].setup.check ⟨f.frame.kind, p.val, s.paths[p].setup.role, s.time.state, 0,
        f.frame.payload.length, f.frame.number.zeroExtend 32, s.time.value⟩ f.frame.payload →
      (f.frame.kind ≠ .probe → Settles (.sendStart p) s (onPort p (fun q => { q with
        insert := rest, link := .sending ([1, BitVec.ofNat 8 frame.length, 0, 0] ++ frame), sent := satInc q.sent
        awaiting := q.awaiting ++ [⟨f.frame.kind, none, 0, 0⟩] }) s))
      ∧ ∀ (n : Byte) (u : State), f.frame = .probe n → u = onPort p (fun q => { q with
          insert := rest, link := .sending ([1, BitVec.ofNat 8 frame.length, 0, 0] ++ frame), sent := satInc q.sent
          awaiting := q.awaiting ++ [⟨.probe, none, n, 0⟩] }) s →
        Settles (.sendStart p) s (onSup p (fun x => { x with
            probeList := x.probeList ++ [⟨n, ⟨s.time.value, s.time.state⟩⟩] })
          (if s.paths[p].sup.probeList.length < 4 then u else probeJudged p false u)))
    ∧ (∀ (x : RecordName) (rest : List RecordName) (r : LaunchRecord) (frame : List Byte),
      s.paths[p].port.link = .free → s.paths[p].port.pendingTune = none → s.paths[p].port.awaiting.length < 4 →
      (s.paths[p].sup.state = .up ∨ s.paths[p].sup.state = .fading) → s.paths[p].port.transmit = x :: rest →
      (s.paths[p].port.insert = []
        ∨ (s.paths[p].setup.priority = .below ∧ ∀ f more, s.paths[p].port.insert = f :: more → f.passed ≠ 4)) →
      recordNamed s x = some r →
      frame = frameBytes s.paths[p].setup.check ⟨.data, p.val, s.paths[p].setup.role, s.time.state, r.stream.val,
        r.payload.length, r.sequence, s.time.value⟩ r.payload →
      Settles (.sendStart p) s (onPort p (fun q => { q with
        transmit := rest, link := .sending ([1, BitVec.ofNat 8 frame.length, 0, 0] ++ frame), sent := satInc q.sent
        insert := q.insert.map (fun f => { f with passed := min 4 (f.passed + 1) })
        awaiting := q.awaiting ++ [⟨.data, some x, 0, 0⟩] })
        (putRecord { r with copies := r.copies.map fun c => if c.path = p ∧ c.state = .queued then
          { c with state := .sent, launch := some ⟨s.time.value, s.time.state⟩ } else c } s)))
    ∧ ((s.paths[p].port.link ≠ .free ∨ s.paths[p].port.pendingTune ≠ none ∨ 4 ≤ s.paths[p].port.awaiting.length
        ∨ s.paths[p].sup.state = .held ∨ s.paths[p].sup.state = .disabled
        ∨ (s.paths[p].port.insert = [] ∧ (s.paths[p].port.transmit = []
          ∨ (s.paths[p].sup.state ≠ .up ∧ s.paths[p].sup.state ≠ .fading)))) → Settles (.sendStart p) s s)
    ∧ ((s.paths[p].port.link ≠ .free ∨ s.paths[p].port.pendingTune = none) → Settles (.tuneStart p) s s)
    ∧ (∀ b, s.paths[p].port.link = .sending b →
      Settles (.sendEnd p) s (onPort p (fun q => { q with link := .free }) s))
    ∧ (∀ k, s.paths[p].port.link = .free → s.paths[p].port.pendingTune = some k →
      Settles (.tuneStart p) s (onPort p (fun q => { q with
        link := .tuning [2, BitVec.ofNat 8 k, 0, 0], pendingTune := none }) s))
    ∧ (∀ b, s.paths[p].port.link = .tuning b →
      Settles (.tuneEnd p) s (onPort p (fun q => { q with link := .free }) s)))
  ∧ (∀ (le : BitVec 32 → List Byte) (seconds nanoseconds : Time → BitVec 32),
    (∀ v, le v = [v.extractLsb' 0 8, v.extractLsb' 8 8, v.extractLsb' 16 8, v.extractLsb' 24 8]) →
    (∀ v, seconds v = BitVec.ofNat 32 (v / 1000000000)) → (∀ v, nanoseconds v = BitVec.ofNat 32 (v % 1000000000)) →
    (∀ (f : ControlFrame) (k : FrameKind) (n : Byte) (content : List Byte),
      ((f = .probe n ∧ k = .probe ∧ content = [])
        ∨ (∃ sent arrival : Stamp, f = .echo n sent arrival ∧ k = .echo
          ∧ content = [n, BitVec.ofNat 8 sent.quality.code, BitVec.ofNat 8 arrival.quality.code, 0]
            ++ le (seconds sent.time) ++ le (nanoseconds sent.time) ++ le (seconds arrival.time) ++ le (nanoseconds arrival.time))
        ∨ (∃ (mask : ProfileMask) (contract : Nat), f = .offer n mask contract ∧ k = .offer
          ∧ content = [n, mask.zeroExtend 8, BitVec.ofNat 8 contract, 0])
        ∨ (∃ (answered : Byte) (profile : Nat) (mismatch : Bool), f = .grant n answered profile mismatch ∧ k = .grant
          ∧ content = [n, answered, BitVec.ofNat 8 profile, if mismatch then 1 else 0])
        ∨ (f = .query n ∧ k = .query ∧ content = [n, 0, 0, 0])
        ∨ ∃ status : BitVec 32, f = .answer n status ∧ k = .answer ∧ content = [n, 0, 0, 0] ++ le status) →
      f.kind = k ∧ f.number = n ∧ f.payload = content)
    ∧ ∀ (check : Bool) (h : FrameHeader) (payload : List Byte), h.path < 8 → h.stream < 16 → ∃ (b0 b1 : Byte) (head : List Byte),
      head = [b0, b1, BitVec.ofNat 8 h.length, 0] ++ le h.sequence ++ le (seconds h.sent) ++ le (nanoseconds h.sent)
      ∧ frameBytes check h payload = head ++ payload ++ (if check then le (crc32 (head ++ payload)) else [])
      ∧ (b0.extractLsb' 0 4).toNat = h.kind.code ∧ (b0.extractLsb' 4 3).toNat = h.path ∧ b0.getLsbD 7 = decide (h.role = .follow)
      ∧ (b1.extractLsb' 0 2).toNat = h.quality.code ∧ (b1.extractLsb' 2 4).toNat = h.stream ∧ b1.extractLsb' 6 2 = 0)
  ∧ ∀ (bytes : List Byte) (poly : BitVec 32) (reg : Nat → BitVec 32),
    (∀ i : Fin 32, poly.getLsbD i.val = (0x04C11DB7 : BitVec 32).getLsbD (31 - i.val)) → reg 0 = 0xFFFFFFFF →
    (∀ k, k < 8 * bytes.length → reg (k + 1) = (reg k >>> 1)
      ^^^ (if (reg k).getLsbD 0 ≠ (bytes.getD (k / 8) 0).getLsbD (k % 8) then poly else 0)) →
    crc32 bytes = ~~~ reg (8 * bytes.length)

/-! ## The block's own events -/

/-- GAP_EXPIRY (R142) and AGEING (R125). `d` is the earliest expiry of the stream, or the earliest deadline of the queued records.
Where the time value has not passed it, it is first brought to `d + 1` with no fraction of a nanosecond, PPS_OUT with it when the
seconds increase: that the rows bring their deadline about is the model's choice (entries 2 and 4). Everything the time value
`now` has passed falls due: gap entries in list order, each with its loss marker where markers are on, records in class queue
order, URGENT first. In the first part no queued record's deadline is passed, in the second no gap entry's; in neither one of
another stream. In both the PPS_OUT pulse of the next state is that of `u`: produced when the move makes the seconds increase (R76),
and left as it was otherwise. -/
def Obligations.DeadlinesExpireGapsAndAgeRecords : Prop :=
  ∀ (s u : State) (d now : Time) (names : List RecordName),
    now = (if d < s.time.value then s.time.value else d + 1) → now ≤ 4294967295 * 1000000000 + 999999999 →
    u = (if d < s.time.value then s else { s with
      time := { s.time with value := now, fraction := 0 }
      pulses := if s.time.value / 1000000000 < now / 1000000000 then { s.pulses with ppsOut := some 0 } else s.pulses }) →
    names = s.sel.urgent.front ++ s.sel.urgent.back ++ (s.sel.normal.front ++ s.sel.normal.back) →
    (∀ i : StreamId, (∃ g ∈ s.streams[i].gaps, g.expiry.time = d) → (∀ g ∈ s.streams[i].gaps, d ≤ g.expiry.time) →
      (∀ x ∈ names, ∀ r us, recordNamed s x = some r → r.ageLimit = some us → now ≤ r.capture.time + us * 1000) →
      (∀ j : StreamId, j ≠ i → ∀ g ∈ s.streams[j].gaps, now ≤ g.expiry.time) →
      EndsIn (.gapExpiry i) s ((s.streams[i].gaps.filter (fun g => decide (g.expiry.time < now))).foldl
        (fun t g =>
          let lost := raiseCause 12 (onStream i (fun x => { x with lost := satInc x.lost }) t)
          if s.streams[i].markers then deliver ⟨i, none, g.sequence, ⟨now, s.time.state⟩, [],
              ⟨false, false, false, true, false, decide (s.time.state ≠ .locked)⟩⟩ lost
          else lost)
        (onStream i (fun x => { x with gaps := x.gaps.filter (fun g => decide (now ≤ g.expiry.time)) }) u))
      ∧ ∃ t, exec (.gapExpiry i) s = .next t
        ∧ t.pulses.ppsOut = if s.time.value / 1000000000 < now / 1000000000 then some 0 else s.pulses.ppsOut)
    ∧ ((∃ x ∈ names, ∃ r us, recordNamed s x = some r ∧ r.ageLimit = some us ∧ r.capture.time + us * 1000 = d) →
      (∀ x ∈ names, ∀ r us, recordNamed s x = some r → r.ageLimit = some us → d ≤ r.capture.time + us * 1000) →
      (∀ j : StreamId, ∀ g ∈ s.streams[j].gaps, now ≤ g.expiry.time) →
      EndsIn .ageing s (names.foldl (fun t x =>
        match recordNamed t x with
        | some r =>
          match r.ageLimit with
          | some us => if r.capture.time + us * 1000 < now then requestOutcome r .stale t else t
          | none => t
        | none => t) u)
      ∧ ∃ t, exec .ageing s = .next t
        ∧ t.pulses.ppsOut = if s.time.value / 1000000000 < now / 1000000000 then some 0 else s.pulses.ppsOut)

/-- SELECTION (R118 to R124): none under the launch hold, and none when neither class has a front record that may go. A front
record goes when it is URGENT's, or NORMAL's while URGENT is empty or must wait; where it goes is its mode's: FASTEST with its spill
(R120), DUAL with one candidate or two, and FASTEST as DUAL under the rain alert (R121, R122), PINNED and GROUND (R123). That a
PIN_DOWN counts no selection is the model's choice (entry 37). -/
def Obligations.SelectionPlacesTheFrontRecord : Prop :=
  (∀ s : State, (s.sel.launchHold = true ∨ ((∀ r, ¬ Fronts s .urgent r ∨ MustWait s r) ∧ ∀ r, ¬ Fronts s .normal r ∨ MustWait s r)) →
    EndsIn .selection s s)
  ∧ ∀ (s : State) (r : LaunchRecord), s.sel.launchHold = false → Fronts s r.cls r →
    (r.cls = .normal → ∀ y, Fronts s .urgent y → MustWait s y) →
    (r.mode = .fastest → s.sel.rainFlag = false → s.sel.rainInput = false →
      (∀ h rest, fastList s = h :: rest → Room s h → EndsIn .selection s (placed r [h] false false false s))
      ∧ (∀ h p full more, fastList s = h :: (full ++ p :: more) → ¬ Room s h → s.sel.spill = true →
        (∀ q ∈ full, ¬ Room s q) → Room s p → EndsIn .selection s (placed r [p] true false false s)))
    ∧ (∀ rain : Bool, ((r.mode = .dual ∧ rain = false)
        ∨ (r.mode = .fastest ∧ (s.sel.rainFlag = true ∨ s.sel.rainInput = true) ∧ rain = true)) →
      (∀ p, dualList s = [p] → Room s p → EndsIn .selection s (placed r [p] false true rain s))
      ∧ (∀ p q rest, (dualList s).filter (fun x => decide (Room s x)) = p :: q :: rest →
        EndsIn .selection s (placed r [p, q] false false rain s)))
    ∧ (∀ p, r.mode = .pinned → r.pinned = some p →
      (¬ Listed s p → EndsIn .selection s (requestOutcome r .pinDown s))
      ∧ (Listed s p → Room s p → EndsIn .selection s (placed r [p] false false false s)))
    ∧ (r.mode = .ground → Listed s 4 → Room s 4 → EndsIn .selection s (placed r [4] false false false s))

/-- What a request of an outcome does (R108, R109, R111, R117, R131): the record is held no more and leaves its class queue, its class
hold count falls, its ring's counter for the result counts, and the outcome joins the end of its ring's list; the other class, the
other rings and everything else stay as they are. The table number and the order number are the model's own (entries 20 and 29). -/
def Obligations.RequestedOutcomesJoinTheirList : Prop :=
  ∀ (r : LaunchRecord) (res : OutcomeResult) (s t : State), t = requestOutcome r res s →
    t.sel.held = s.sel.held.filter (fun x => !(x.name == r.name))
    ∧ (∀ y ∈ t.sel.urgent.front ++ t.sel.urgent.back, r.cls = .urgent → y ≠ r.name)
    ∧ (∀ y ∈ t.sel.normal.front ++ t.sel.normal.back, r.cls = .normal → y ≠ r.name)
    ∧ t.sel.holdUrgent = (if r.cls = .urgent then s.sel.holdUrgent - 1 else s.sel.holdUrgent)
    ∧ t.sel.holdNormal = (if r.cls = .normal then s.sel.holdNormal - 1 else s.sel.holdNormal)
    ∧ t.outRings[r.name.ring].outcomes = s.outRings[r.name.ring].outcomes ++ [{
        slot := r.name.slot, result := res
        paths := pathSet ((r.copies.filter (fun c => c.state == .accepted)).map (fun c => c.path))
        stream := r.stream, sequence := r.sequence, spill := r.spill, single := r.single, rain := r.rain
        capture := r.capture, launch := r.firstAccepted, tag := r.tag, refusal := false
        generation := s.outRings[r.name.ring].generation, request := s.sel.requestOrder }]
    ∧ (∀ (l : List PathId) (i : PathId), (pathSet l).getLsbD i.val = decide (i ∈ l))
    ∧ t.sel.urgent = (if r.cls = .urgent then ⟨s.sel.urgent.front.filter (fun y => decide (y ≠ r.name)),
        s.sel.urgent.back.filter (fun y => decide (y ≠ r.name))⟩ else s.sel.urgent)
    ∧ t.sel.normal = (if r.cls = .normal then ⟨s.sel.normal.front.filter (fun y => decide (y ≠ r.name)),
        s.sel.normal.back.filter (fun y => decide (y ≠ r.name))⟩ else s.sel.normal)
    ∧ t.sel.counters[r.name.ring] = (match res with
        | .launched => { s.sel.counters[r.name.ring] with launched := satInc s.sel.counters[r.name.ring].launched }
        | .rejected => { s.sel.counters[r.name.ring] with rejected := satInc s.sel.counters[r.name.ring].rejected }
        | .stale => { s.sel.counters[r.name.ring] with stale := satInc s.sel.counters[r.name.ring].stale }
        | .pinDown => { s.sel.counters[r.name.ring] with pinDown := satInc s.sel.counters[r.name.ring].pinDown }
        | .flushed => { s.sel.counters[r.name.ring] with flushed := satInc s.sel.counters[r.name.ring].flushed }
        | .refusedFull | .badHeader => s.sel.counters[r.name.ring])
    ∧ (∀ n : RingId, n ≠ r.name.ring → t.sel.counters[n] = s.sel.counters[n] ∧ t.outRings[n] = s.outRings[n])
    ∧ t.outRings[r.name.ring] = { s.outRings[r.name.ring] with outcomes := t.outRings[r.name.ring].outcomes }
    ∧ t = { s with sel := t.sel, outRings := t.outRings }
    ∧ t.sel = { s.sel with
        held := t.sel.held, urgent := t.sel.urgent, normal := t.sel.normal, holdUrgent := t.sel.holdUrgent
        holdNormal := t.sel.holdNormal, counters := t.sel.counters, requestOrder := s.sel.requestOrder + 1 }

/-- The five rows of the timer channels: the probe channel's underflow by state (R7, R16), with the resend of either role (R38),
HELD by silence (R12), the two hold events (R13) and the end of the guard (R171). Each row brings its own tick about (the model's
choice, entry 2); a resend that places a GRANT of 0 before HELD follows entry 11, and one that repeats the last GRANT entry 12.
Then how a control frame joins the insert queue, which discards its oldest when it is full (R127). The last part is the clock's: a
tick of a channel's loaded tap lowers the counter of a running channel, and at 0, or where the hold count reaches its loaded
compare, it is the channel's row (R167, R170, R171). That a tick falls where the reference count is a multiple of the tap's period
is read from the rules (entry 27); the order probe, silence, hold, guard within one tick is the model's choice (entry 3). -/
def Obligations.ChannelEventsMoveThePath : Prop :=
  (∀ (p : PathId) (s v : State),
    (s.paths[p].probe.run = true →
      v = onPath p (fun x => { x with
        probe := ⟨x.setup.probeReload, true, x.setup.probeReload, none, x.setup.probeTap⟩ }) s →
      (p ≠ 4 → s.paths[p].sup.state = .down → EndsIn (.probeChannelUnderflow p) s (offered p v))
      ∧ ((p = 4 ∧ s.paths[p].sup.state = .down) ∨ s.paths[p].sup.state = .up ∨ s.paths[p].sup.state = .fading
          ∨ (s.paths[p].sup.state = .training ∧ s.paths[p].sup.target = none ∧ s.paths[p].sup.contract ≠ 0) →
        EndsIn (.probeChannelUnderflow p) s (probed p v))
      ∧ ∀ (h : Nat) (w : State),
        (s.paths[p].sup.state = .retune
          ∨ (s.paths[p].sup.state = .training ∧ (s.paths[p].sup.target ≠ none ∨ s.paths[p].sup.contract = 0))) →
        HighestOf (match s.paths[p].sup.farMask with
          | some m => s.paths[p].sup.ownMask &&& m | none => s.paths[p].sup.ownMask) h →
        w = (if s.paths[p].setup.role = .follow then offered p v
          else if h = 0 then mismatched p (granted p 0 0 v)
          else if h = s.paths[p].sup.lastGranted then grantedAgain p v
          else decided p h (granted p 0 h v)) →
        EndsIn (.probeChannelUnderflow p) s
          (onPort p (fun q => { q with
            pendingTune := match w.paths[p].sup.target with | some k => some k | none => q.pendingTune }) w))
    ∧ (s.paths[p].silence.run = true → (s.paths[p].sup.state = .training ∨ s.paths[p].sup.state = .up
        ∨ s.paths[p].sup.state = .fading ∨ s.paths[p].sup.state = .retune) →
      EndsIn (.silenceUnderflow p) s (heldFrom p (onPath p (fun x => { x with
        silence := ⟨x.setup.silenceReload, false, x.setup.silenceReload, none, x.setup.silenceTap⟩ }) s)))
    ∧ (∀ (c : BitVec 16) (wide : Bool) (u : State), s.paths[p].holdLow.run = true → s.paths[p].holdLow.loadedCompare = some c →
      wide = decide (s.paths[p].setup.holdMode = .wide) →
      c.toNat < (if wide = true then 256 * s.paths[p].holdHigh.counter.toNat else 0) + s.paths[p].holdLow.counter.toNat →
      u = onPath p (fun x => { x with
        holdLow := { x.holdLow with counter := c.extractLsb' 0 8 }
        holdHigh := { x.holdHigh with counter := if wide then c.extractLsb' 8 8 else x.holdHigh.counter } }) s →
      (s.paths[p].sup.state = .held → EndsIn (.holdCompareMatch p) s (downFrom p u))
      ∧ (s.paths[p].sup.state ≠ .held → EndsIn (.holdCompareMatch p) s u))
    ∧ (s.paths[p].holdLow.run = true → ∀ u, u = onPath p (fun x => { x with
        sup := { x.sup with recentlyFailed := false }
        holdLow := match x.setup.holdMode with
          | .wide => ⟨x.setup.wideReload.extractLsb' 0 8, false, x.setup.wideReload.extractLsb' 0 8, some x.setup.wideCompare,
              x.setup.holdTap⟩
          | .narrow => ⟨x.setup.narrowReload, false, x.setup.narrowReload, some (x.setup.narrowCompare.zeroExtend 16),
              x.setup.holdTap⟩
        holdHigh := match x.setup.holdMode with
          | .wide => ⟨x.setup.wideReload.extractLsb' 8 8, x.holdHigh.run, x.setup.wideReload.extractLsb' 8 8, none,
              x.setup.holdTap⟩
          | .narrow => x.holdHigh }) s →
      (s.paths[p].sup.state = .held → EndsIn (.holdUnderflow p) s (downFrom p u))
      ∧ (s.paths[p].sup.state ≠ .held → EndsIn (.holdUnderflow p) s u))
    ∧ (s.paths[p].setup.holdMode = .narrow → s.paths[p].holdHigh.run = true →
      EndsIn (.guardUnderflow p) s (onPath p (fun x => { x with
        holdHigh := ⟨x.setup.guardReload, false, x.setup.guardReload, none, x.setup.holdTap⟩ }) s)))
  ∧ (∀ (p : PathId) (f : ControlFrame) (t : State),
    (t.paths[p].port.insert.length < 4 →
      insertFrame p f t = onPort p (fun q => { q with insert := q.insert ++ [⟨f, 0⟩] }) t)
    ∧ (4 ≤ t.paths[p].port.insert.length →
      insertFrame p f t = onPort p (fun q => { q with
        insert := q.insert.drop 1 ++ [⟨f, 0⟩], insertDiscards := satInc q.insertDiscards }) t))
  ∧ ∀ (p : PathId) (s : State) (x : Path) (ticks : Channel → Prop) (value : Nat), x = s.paths[p] →
    (∀ c, ticks c ↔ c.run = true ∧ s.time.reference % (match c.loadedTap with
      | .us1 => 1000 | .us10 => 10000 | .us100 => 100000 | .ms1 => 1000000) = 0) →
    value = (if x.setup.holdMode = .wide then 256 * x.holdHigh.counter.toNat + x.holdLow.counter.toNat
      else x.holdLow.counter.toNat) →
    (¬ ticks x.probe → tickProbe p s = s)
    ∧ (ticks x.probe → x.probe.counter ≠ 0 →
      tickProbe p s = onPath p (fun y => { y with probe := { y.probe with counter := y.probe.counter - 1 } }) s)
    ∧ (ticks x.probe → x.probe.counter = 0 → exec (.probeChannelUnderflow p) s = .next (tickProbe p s))
    ∧ (¬ ticks x.silence → tickSilence p s = s)
    ∧ (ticks x.silence → x.silence.counter ≠ 0 →
      tickSilence p s = onPath p (fun y => { y with silence := { y.silence with counter := y.silence.counter - 1 } }) s)
    ∧ (ticks x.silence → x.silence.counter = 0 → exec (.silenceUnderflow p) s = .next (tickSilence p s))
    ∧ (¬ ticks x.holdLow → tickHold p s = s)
    ∧ (ticks x.holdLow → value = 0 → exec (.holdUnderflow p) s = .next (tickHold p s))
    ∧ (ticks x.holdLow → value ≠ 0 →
      (∀ c, x.holdLow.loadedCompare = some c → c.toNat = value - 1 → exec (.holdCompareMatch p) s = .next (tickHold p s))
      ∧ ((∀ c, x.holdLow.loadedCompare = some c → c.toNat ≠ value - 1) → tickHold p s = onPath p (fun y => { y with
          holdLow := { y.holdLow with counter := y.holdLow.counter - 1 }
          holdHigh := if y.setup.holdMode = .wide ∧ y.holdLow.counter = 0 then
            { y.holdHigh with counter := y.holdHigh.counter - 1 } else y.holdHigh }) s))
    ∧ ((x.setup.holdMode = .wide ∨ ¬ ticks x.holdHigh) → tickGuard p s = s)
    ∧ (x.setup.holdMode = .narrow → ticks x.holdHigh →
      (x.holdHigh.counter ≠ 0 →
        tickGuard p s = onPath p (fun y => { y with holdHigh := { y.holdHigh with counter := y.holdHigh.counter - 1 } }) s)
      ∧ (x.holdHigh.counter = 0 → exec (.guardUnderflow p) s = .next (tickGuard p s)))
    ∧ tickChannels s p = tickGuard p (tickHold p (tickSilence p (tickProbe p s)))

/-- Which level an output line shows and when it drives its pin (R173, Table 10-5), and so the level at the pin. PIN_CHANGE and
FILTER_EXPIRY (R174) on a line that drives nothing, where they make no pulse: another event than PPS_IN, a change of PPS_IN to its
inactive level or of a line that was active, or a change that only starts or ends a count (PulsesActByDisciplineState has the rest);
a line that drives its pin does not see the outside. PULSE_END (R173). FILTER_EXPIRY and PULSE_END bring their own tick about (the
model's choice, entry 2). The last two parts are the clock's own part: a tick of the 1 us tap is the end of a count that has
reached its width (entry 15), and the second tick of a pulse is its end. -/
def Obligations.PinsFiltersAndPulses : Prop :=
  (∀ (s : State) (x : Line) (p : PathId) (low high drive : Prop),
    (high ↔ asserted s x.event ≠ x.activeLow) → (low ↔ ¬ high) → (drive ↔ x.event.isOutput = true ∧ (x.openDrain = false ∨ low)) →
    (drives s x = true ↔ drive) ∧ (drive → (pinLevel s x = true ↔ high)) ∧ (¬ drive → pinLevel s x = x.outside)
    ∧ (x.event.isOutput = true ↔ ∀ e ∈ [LineEvent.none, .ppsIn, .forceFallback, .launchHold, .rainAlert], x.event ≠ e)
    ∧ (asserted s .alarm = true ↔ s.alarm.alarm = true) ∧ (asserted s .critical = true ↔ s.pulses.critical ≠ none)
    ∧ (asserted s .fallback = true ↔ s.ranking.fallback = true) ∧ (asserted s .pathSwitch = true ↔ s.pulses.pathSwitch ≠ none)
    ∧ (asserted s .timeLocked = true ↔ s.time.state = .locked) ∧ (asserted s .ppsOut = true ↔ s.pulses.ppsOut ≠ none)
    ∧ (asserted s (.pathUp p) = true ↔ s.paths[p].sup.state = .up ∨ s.paths[p].sup.state = .fading)
    ∧ (asserted s .launchHeld = true ↔ s.sel.launchHold = true))
  ∧ ∀ (s : State),
    (∀ (l : LineId) (high : Bool), (s.lines[l].event.isOutput = false ∨ (Settled s ∧ drives s s.lines[l] = false)) →
      ((s.lines[l].event ≠ .ppsIn ∨ s.lines[l].width ≠ 0 ∨ high = s.lines[l].activeLow
          ∨ s.lines[l].filtered ≠ s.lines[l].activeLow) →
        ∃ t, exec (.pinChange l high) s = .next t ∧ kept t = kept (onLine l (fun x => { x with outside := high }) s)
        ∧ (s.lines[l].width = 0 → t.lines[l].filtered = high)
        ∧ (s.lines[l].width ≠ 0 → t.lines[l].filtered = s.lines[l].filtered)
        ∧ (s.lines[l].filtered = high → t.lines[l].count = none)
        ∧ (s.lines[l].width ≠ 0 → s.lines[l].filtered ≠ high → s.lines[l].count = none → t.lines[l].count = some 0))
      ∧ (s.lines[l].count ≠ none → (s.lines[l].event ≠ .ppsIn ∨ s.lines[l].outside = s.lines[l].activeLow
          ∨ s.lines[l].filtered ≠ s.lines[l].activeLow) →
        ∃ t, exec (.filterExpiry l) s = .next t ∧ kept t = kept s ∧ t.lines[l].filtered = s.lines[l].outside
          ∧ t.lines[l].count = none))
    ∧ (∀ (l : LineId) (high : Bool), Settled s → drives s s.lines[l] = true →
      ∃ t, exec (.pinChange l high) s = .next t ∧ kept t = kept (onLine l (fun x => { x with outside := high }) s)
        ∧ t.lines[l].filtered = s.lines[l].filtered ∧ (s.lines[l].count = none → t.lines[l].count = none))
    ∧ (Settled s →
      (∃ t, exec (.pulseEnd .critical) s = .next t ∧ kept t = kept s
        ∧ t.pulses = { s.pulses with critical := none })
      ∧ (∃ t, exec (.pulseEnd .pathSwitch) s = .next t ∧ kept t = kept s
        ∧ t.pulses = { s.pulses with pathSwitch := none })
      ∧ (∃ t, exec (.pulseEnd .ppsOut) s = .next t ∧ kept t = kept s
        ∧ t.pulses = { s.pulses with ppsOut := none }))
    ∧ (∀ l : LineId,
      (s.lines[l].count = none → tickFilter s l = s)
      ∧ ∀ c, s.lines[l].count = some c →
        (c < s.lines[l].width * 1000 → tickFilter s l = s)
        ∧ (s.lines[l].width * 1000 ≤ c → exec (.filterExpiry l) s = .next (tickFilter s l)))
    ∧ ∀ (counted : Option Nat → Option Nat) (u : State), (∀ c, counted c = if c = some 0 then some 1 else none) →
      u = { s with pulses := ⟨counted s.pulses.critical, counted s.pulses.pathSwitch, counted s.pulses.ppsOut⟩ } →
      ((∀ c k, (c = s.pulses.critical ∨ c = s.pulses.pathSwitch ∨ c = s.pulses.ppsOut) → c = some k → k = 0) → tickPulses s = u)
      ∧ ((∃ c k, (c = s.pulses.critical ∨ c = s.pulses.pathSwitch ∨ c = s.pulses.ppsOut) ∧ c = some k ∧ 1 ≤ k) →
        tickPulses s = settle s u)

/-- R67: the offset of an accepted pulse, its range, the last offset, and the lock threshold. A captured time below zero is
taken modulo one second (the model's choice, entry 6). -/
def Obligations.PulseOffsetFromTheNearestSecond : Prop :=
  ∀ (width : Nat) (s : State) (n off : Int), n = ((s.time.value : Int) - width * 1000) % 1000000000 →
    off = (if n ≤ 499999999 then n else n - 1000000000) → (s.time.pulseAge = none ∨ ∃ a, s.time.pulseAge = some a ∧ 900 ≤ a) →
    0 ≤ n ∧ n ≤ 999999999 ∧ -500000000 ≤ off ∧ off ≤ 499999999
    ∧ (takePulse width s).time.lastOffset = some off
    ∧ (withinThreshold s.time off = true ↔ off.natAbs ≤ s.time.lockThreshold)

/-- Table 4-3 with the trim of R69, reached by a pin that makes PPS_IN active, at either polarity, at width 0 or by the end of a
filter count (R66); a change of PPS_IN to inactive is no pulse (PinsFiltersAndPulses); a
rejected pulse; every row within the threshold and beyond it, behind (the time value steps forward and no slew is left) and ahead
(a slew back). A step produces PPS_OUT when the seconds increase (R76); the rest of what `moveTime` does is in TimeBaseEvents. Every
pulse, accepted with or without a step or rejected, marks the time status record (R71), also where its count holds at its maximum
(the model's reading, entry 9), and a change during that record's own burst is kept apart (R178). That the FILTER_EXPIRY row ends the
count early is the model's choice (entry 2), and so are a captured time below zero (entry 6) and that a step leaves the part of the
time value below a nanosecond as it is (entry 4). -/
def Obligations.PulsesActByDisciplineState : Prop :=
  ∀ (l : LineId) (active : Bool) (c : Instr) (s v : State) (off : Int) (u a : State),
    s.lines[l].event = .ppsIn → s.lines[l].filtered = s.lines[l].activeLow → active = !s.lines[l].activeLow →
    ((c = .pinChange l active ∧ s.lines[l].width = 0 ∧ v = onLine l (fun x => { x with outside := active }) s)
      ∨ (c = .filterExpiry l ∧ s.lines[l].count ≠ none ∧ s.lines[l].outside = active ∧ v = s)) →
    off = pulseOffset ((s.time.value : Int) - (s.lines[l].width * 1000 : Nat)) →
    u = { v with time := { s.time with
      pulsesAccepted := satInc s.time.pulsesAccepted, pulseAge := some 0, lastOffset := some off, trimHold := false
      trim := if (s.time.state = .acquire ∨ s.time.state = .locked) ∧ s.time.slew = none ∧ s.time.trimHold = false
          ∧ off.natAbs ≤ 4000000
        then max (-500000) (min 500000 (s.time.trim - off.tdiv 8)) else s.time.trim } } →
    a = (if s.time.state = .acquire then { u with time := { u.time with lockRun := 0 } }
      else if s.time.state = .locked then raiseCause 7 { u with
        time := { u.time with state := .acquire, lockRun := 0 }
        paths := s.paths.map fun x => { x with sup := { x.sup with inbound := none } } }
      else raiseCause 7 { u with
        time := { u.time with state := .acquire, lockRun := 0, holdoverElapsed := 0, holdoverMs := 0 } }) →
    (∃ t, exec c s = .next t ∧ t.status.records[6].changed = true
      ∧ ∀ b, s.mem.burst = some b → b.source = .status 6 → t.status.records[6].again = true)
    ∧ ((∃ k, s.time.pulseAge = some k ∧ k < 900) →
      EndsIn c s { v with time := { s.time with pulsesRejected := satInc s.time.pulsesRejected } })
    ∧ ((s.time.pulseAge = none ∨ ∃ k, s.time.pulseAge = some k ∧ 900 ≤ k) →
      (off.natAbs ≤ s.time.lockThreshold → ∀ w, w = (if off = 0 then none else some ⟨decide (off < 0), off.natAbs * 1000000000⟩) →
        ((s.time.state = .free ∨ s.time.state = .holdover) → EndsIn c s { a with time := { a.time with slew := w } })
        ∧ (s.time.state = .acquire → s.time.lockRun < 3 →
          EndsIn c s { u with time := { u.time with lockRun := s.time.lockRun + 1, slew := w } })
        ∧ (s.time.state = .acquire → s.time.lockRun = 3 →
          EndsIn c s (raiseCause 7 { u with time := { u.time with lockRun := 4, slew := w, state := .locked } }))
        ∧ (s.time.state = .locked → EndsIn c s { u with time := { u.time with slew := w } }))
      ∧ (s.time.lockThreshold < off.natAbs →
        (off < 0 → ∀ y z, y = min (4294967295 * 1000000000 + 999999999) (s.time.value + off.natAbs) →
          z = moveTime y { a with time := { a.time with slew := none, steps := satInc s.time.steps } } →
          z.time.value = y ∧ EndsIn c s z ∧ ∃ t, exec c s = .next t
            ∧ t.pulses.ppsOut = if s.time.value / 1000000000 < y / 1000000000 then some 0 else s.pulses.ppsOut)
        ∧ (0 ≤ off →
          EndsIn c s { a with time := { a.time with slew := some ⟨false, off.natAbs * 1000000000⟩ } })))

/-- PULSE_WATCHDOG and HOLDOVER_LIMIT (R70, R71), SLEW_END (R63) and PPS_OUT (R76); each brings its own condition about (the
model's choice, entry 2). At SLEW_END the slew's last nanosecond is counted whole and what lies beyond the offset is not applied,
with the part of the value below a nanosecond carried on (the model's reading, entry 4), and the value holds at its greatest
(entry 5). Then the advance of the time value in one nanosecond of reference time (R62, R63, entries 4 and 5); what every move of the
time value does: PPS_OUT when the seconds increase (R76), and every deadline it passes falls due (R62), records ageing first, in class
queue order with URGENT first, then gap entries stream by stream in list order (R125, R142; that order is entry 10); the millisecond
of HOLDOVER and of the pulse age (R61, R70); and what a step does on an empty queue, which is the model's choice (entries 1 and 3):
the first of the block's own events that are possible, in the order selection, a TUNE, a SEND (each at the lowest path first), the
submission that the next free place goes to, a passing access, a burst, as its row does it; and where none is possible one nanosecond
of the reference clock, in which the filters count, the pulses count the tick, the time value advances, and at each tick of the 1 us
tap (R77) the filters, the answer limits and the timer channels take it, at each of the 1 ms tap the second of HOLDOVER and the
pulse age. -/
def Obligations.TimeBaseEvents : Prop :=
  (∀ (s : State),
    (s.time.state = .locked → EndsIn .pulseWatchdog s (raiseCause 7 { s with
      time := { s.time with
        state := .holdover, holdoverElapsed := 0, holdoverMs := 0, pulseAge := some (max 1500 (s.time.pulseAge.getD 0)) }
      paths := s.paths.map fun x => { x with sup := { x.sup with inbound := none } } }))
    ∧ (s.time.state = .acquire → EndsIn .pulseWatchdog s (raiseCause 7 { s with
      time := { s.time with
        state := .free, lockRun := 0, pulseAge := some (max 1500 (s.time.pulseAge.getD 0)) } }))
    ∧ (s.time.state = .holdover → EndsIn .holdoverLimit s (raiseCause 7 { s with
      time := { s.time with
        state := .free, holdoverElapsed := max s.time.holdoverLimit s.time.holdoverElapsed } }))
    ∧ (∀ (w : Slew) (n shrink : Nat) (b : Int), s.time.slew = some w →
      s.time.value < 4294967295 * 1000000000 + 999999999 →
      shrink = (if w.forward then 500000 - s.time.trim else 500000 + s.time.trim).toNat → 0 < shrink →
      n = (w.rest + (shrink - 1)) / shrink →
      b = n * (1000000000 + s.time.trim) + (if w.forward then (w.rest : Int) else -(w.rest : Int)) →
      ∃ t, exec .slewEnd s = .next t ∧ t.time.slew = none
        ∧ t.time.value = min (4294967295 * 1000000000 + 999999999)
          (s.time.value + (s.time.fraction + b.toNat) / 1000000000))
    ∧ (∀ v, v = (s.time.value / 1000000000 + 1) * 1000000000 → v ≤ 4294967295 * 1000000000 + 999999999 →
      ∃ t, exec .ppsOut s = .next t ∧ t.time.value = v ∧ t.pulses.ppsOut = some 0))
  ∧ (∀ (s : State) (most : Time) (advance : Int → Option Slew → State → State), most = 4294967295 * 1000000000 + 999999999 →
    (∀ b w z total v, total = s.time.fraction + b.toNat → v = s.time.value + total / 1000000000 →
      advance b w z = moveTime (min most v) { z with time := { z.time with
        fraction := if most ≤ v then 0 else total % 1000000000, slew := w } }) →
    (s.time.value = most → advanceTime 1 s = s)
    ∧ (s.time.value ≠ most →
      (s.time.slew = none → advanceTime 1 s = advance (1000000000 + s.time.trim) none s)
      ∧ ∀ (w : Slew) (shrink : Nat), s.time.slew = some w →
        shrink = (if w.forward then 500000 - s.time.trim else 500000 + s.time.trim).toNat →
        ((shrink = 0 ∨ shrink < w.rest) → advanceTime 1 s
          = advance (1000000000 + if w.forward then 500000 else -500000) (some { w with rest := w.rest - shrink }) s)
        ∧ (0 < shrink → w.rest ≤ shrink → advanceTime 1 s
          = advance (1000000000 + s.time.trim + if w.forward then (w.rest : Int) else -(w.rest : Int)) none (markRecord 6 s))))
  ∧ (∀ (s u : State) (e : Nat),
    e = min 65535 (s.time.holdoverElapsed + 1) →
    u = { s with time := { s.time with holdoverMs := 0, holdoverElapsed := e } } →
    (s.time.state ≠ .holdover → tickHoldover s = s)
    ∧ (s.time.state = .holdover →
      (s.time.holdoverMs < 999 → tickHoldover s = { s with time := { s.time with holdoverMs := s.time.holdoverMs + 1 } })
      ∧ (999 ≤ s.time.holdoverMs → e < s.time.holdoverLimit → tickHoldover s = settle s u)
      ∧ (999 ≤ s.time.holdoverMs → s.time.holdoverLimit ≤ e →
        tickHoldover s = settle s (raiseCause 7 { u with time := { u.time with state := .free } }))))
  ∧ (∀ s : State,
    (s.time.pulseAge = none → tickAge s = s)
    ∧ ∀ (a : Nat) (u : State), s.time.pulseAge = some a →
      u = { s with time := { s.time with pulseAge := some (min 65535000 (a + 1)) } } →
      ((a + 1 < 1500 ∨ s.time.state = .free ∨ s.time.state = .holdover) → tickAge s = u)
      ∧ (1500 ≤ a + 1 → (s.time.state = .acquire ∨ s.time.state = .locked) → exec .pulseWatchdog u = .next (tickAge s)))
  ∧ (∀ (v : Time) (s t u : State),
    t = { s with
      time := { s.time with value := v }
      pulses := if s.time.value / 1000000000 < v / 1000000000 then { s.pulses with ppsOut := some 0 } else s.pulses } →
    u = (s.sel.urgent.front ++ s.sel.urgent.back ++ (s.sel.normal.front ++ s.sel.normal.back)).foldl (fun w x =>
      match recordNamed w x with
      | some r =>
        match r.ageLimit with
        | some us => if r.capture.time + us * 1000 < v then requestOutcome r .stale w else w
        | none => w
      | none => w) t →
    moveTime v s = (List.finRange 16).foldl (fun (w : State) (i : StreamId) =>
      (w.streams[i].gaps.filter (fun g => decide (g.expiry.time < v))).foldl (fun y g =>
        let lost := raiseCause 12 (onStream i (fun x => { x with lost := satInc x.lost }) y)
        if y.streams[i].markers then deliver ⟨i, none, g.sequence, ⟨v, s.time.state⟩, [],
            ⟨false, false, false, true, false, decide (s.time.state ≠ .locked)⟩⟩ lost
        else lost)
      (onStream i (fun x => { x with gaps := x.gaps.filter (fun g => decide (v ≤ g.expiry.time)) }) w)) u)
  ∧ ∀ (s : State) (rank : Instr → Nat), s.pending = [] → rank .selection = 0 →
    (∀ p : PathId, rank (.tuneStart p) = 1 + p.val ∧ rank (.sendStart p) = 6 + p.val) →
    rank .faultEntrySubmit = 11 → rank .outcomeSubmit = 12 → rank .statusSubmit = 13 → rank .passingAccessIssue = 14 →
    rank .burstStart = 15 →
    (∀ c, Due s c → (∀ d, Due s d → rank c ≤ rank d) → exec c s = step s)
    ∧ ((∀ c, ¬ Due s c) → ∀ u v w t : State,
      u = { s with
        lines := s.lines.map (fun x => { x with count := x.count.map (fun c => c + 1) })
        time := { s.time with reference := s.time.reference + 1 } } →
      v = (if (s.time.reference + 1) % 1000 = 0 then tickPulses u else u) → w = settle v (advanceTime 1 v) →
      w.time.reference = s.time.reference + 1
      ∧ ((s.time.reference + 1) % 1000 ≠ 0 → step s = .next w)
      ∧ ((s.time.reference + 1) % 1000 = 0 →
        t = (List.finRange 5).foldl tickChannels ((List.finRange 5).foldl tickAnswers ((List.finRange 8).foldl tickFilter w)) →
        step s = .next (if t.time.reference % 1000000 = 0 then tickAge (tickHoldover t) else t)))

/-! ## The M-port (R94 to R97) -/

/-- The three submissions to the report part (R178, R110, R111, R90), when the free place is theirs (R94): each source offers its
own next record, and the earliest offer takes the place, a fault entry before an outcome and an outcome before a status record at
one event. Without a free place none of the three rows has an effect. The last part says from which event an offer is dated: that
is the model's reading of R94 (entry 24). A queued status entry keeps zero words until its burst starts (the model's choice,
entry 25). The words of an outcome record (Table 12-6), bit by bit, with its result codes and the paths code of a set of at most two
paths. The slot count that places an outcome is that of the OUTCOME window (read from R110 and R111, entry 26); the order in which an
entry's words are issued, one after the other from the lowest address, is the model's choice (entry 39). -/
def Obligations.SubmissionsJoinTheReportPart : Prop :=
  (∀ (s : State) (free : Prop), (free ↔ (s.mem.queue.filter (fun e => !e.isDeposit)).length < 16) →
    (¬ free → EndsIn .statusSubmit s s ∧ EndsIn .outcomeSubmit s s ∧ EndsIn .faultEntrySubmit s s)
    ∧ (∀ (r : RecordId) (e : Fin 15) (at0 : Nat), free → StatusOffer s r at0 →
      (∀ k, FaultOffer s k → at0 < k) → (∀ n k, OutcomeOffer s n k → at0 < k) → windowOf s .status 0 = some e →
      EndsIn .statusSubmit s (onMark r (fun k => { k with
          updates := k.updates + 1, submitted := some (s.time.reference / 1000) })
        { s with mem := { s.mem with queue := s.mem.queue ++ [⟨.status r, e,
          (List.range (recordLength r)).map fun i => (s.mem.windows[e].base + recordOffset r + i, 0)⟩] } })
      ∧ ∃ t, exec .statusSubmit s = .next t ∧ t.status.records[r].updates = s.status.records[r].updates + 1
        ∧ t.status.records[r].submitted = some (s.time.reference / 1000))
    ∧ (∀ (n : RingId) (e : Fin 15) (o : OutcomeEntry) (rest : List OutcomeEntry) (c slots at0 : Nat), free → OutcomeOffer s n at0 →
      (∀ k, FaultOffer s k → at0 < k) → (∀ r k, StatusOffer s r k → at0 ≤ k) → windowOf s .outcome n = some e →
      s.outRings[n].outcomes = o :: rest → c = s.outRings[n].assigned.toNat → slots = s.mem.windows[e].length / 4 →
      EndsIn .outcomeSubmit s (onOutRing n (fun r => { r with assigned := r.assigned + 1, outcomes := rest })
        { s with mem := { s.mem with queue := s.mem.queue ++ [⟨.outcome n o, e,
          outcomeWords (s.mem.windows[e].base + 4 * (c % slots)) (c / slots % 256) o⟩] } }))
    ∧ (∀ (e : Fin 15) (f : FaultEntry) (old new : List FaultEntry) (at0 : Nat), free → FaultOffer s at0 →
      (∀ n k, OutcomeOffer s n k → at0 ≤ k) → (∀ r k, StatusOffer s r k → at0 ≤ k) →
      windowOf s .faultLog 0 = some e → s.log.outstanding = old ++ f :: new →
      (∀ x ∈ old, x.submitted = true) → f.submitted = false →
      EndsIn .faultEntrySubmit s { s with
        log := { s.log with outstanding := old ++ { f with submitted := true } :: new }
        mem := { s.mem with queue := s.mem.queue ++ [⟨.fault, e, [(f.address, f.word0), (f.address + 1, f.word1)]⟩] } }))
  ∧ [OutcomeResult.launched, .rejected, .stale, .pinDown, .flushed, .refusedFull, .badHeader].map OutcomeResult.code
    = [0, 1, 2, 3, 4, 5, 6]
  ∧ (∀ (base lap : Nat) (o : OutcomeEntry) (code : Fin 16), lap < 256 → o.slot < 1024 →
    o.paths = ([0, 1, 2, 4, 8, 16, 1 + 2, 1 + 4, 1 + 8, 1 + 16, 2 + 4, 2 + 8, 2 + 16, 4 + 8, 4 + 16, 8 + 16].getD code.val 0 : BitVec 5) →
    ∃ head : Word, outcomeWords base lap o = [(base, head), (base + 1, stampWord o.capture),
      (base + 2, match o.launch with | some st => stampWord st | none => 0), (base + 3, o.tag)]
    ∧ (head.extractLsb' 0 8).toNat = lap ∧ (head.extractLsb' 8 10).toNat = o.slot
    ∧ (head.extractLsb' 18 3).toNat = o.result.code ∧ (head.extractLsb' 21 4).toNat = o.stream.val
    ∧ head.getLsbD 25 = o.spill ∧ head.getLsbD 26 = o.single ∧ head.getLsbD 27 = o.rain
    ∧ (head.extractLsb' 28 4).toNat = code.val ∧ head.extractLsb' 32 32 = o.sequence)
  ∧ ∀ o s t : State, t = settle o s →
    t.status.since = (if s.status.running = true ∧ windowOf s .status 0 ≠ none then some (s.status.since.getD s.events) else none)
    ∧ (∀ (r : RecordId) (eligible : Prop), (eligible ↔ t.status.records[r].changed = true
        ∧ (∀ e ∈ s.mem.queue, e.source ≠ .status r) ∧ (∀ e, s.mem.burst = some e → e.source ≠ .status r)
        ∧ (r = 35 ∨ s.status.records[r].submitted = none
          ∨ ∃ k, s.status.records[r].submitted = some k ∧ k + s.identity.interval ≤ s.time.reference / 1000)) →
      (eligible → t.status.records[r].since = some (s.status.records[r].since.getD s.events))
      ∧ (¬ eligible → t.status.records[r].since = none))
    ∧ t.log.since = (if ∃ f ∈ s.log.outstanding, f.submitted = false then some (s.log.since.getD s.events) else none)
    ∧ ∀ n : RingId, t.outRings[n].since
      = if s.outRings[n].state = .capturing ∧ windowOf s .outcome n ≠ none ∧ s.outRings[n].outcomes ≠ []
        then some (s.outRings[n].since.getD s.events) else none

/-- R96: the arbiter. A burst in progress keeps the M-port; otherwise a passing access goes next, at most four before a
queued entry; the oldest entry starts its burst; the run count returns to 0 at the end of each burst. At the end of a burst, or at
its error, a held read and the reads behind it are released, in order (R97, R84). That a row out of its turn has no effect is the
model's choice (entry 2); so is the burst that starts at a run count of 4 before a read of its words that was taken earlier (entry
35), and that the answer to an access is kept as the latest one (entry 34). -/
def Obligations.ArbiterChoosesTheNextUse : Prop :=
  ∀ (s : State),
    (∀ b, s.mem.burst = some b → EndsIn .passingAccessIssue s s ∧ EndsIn .burstStart s s)
    ∧ (∀ x rest, s.mem.burst = none → s.mem.passing = x :: rest → (s.mem.queue = [] ∨ s.mem.runCount < 4) →
      EndsIn .passingAccessIssue s { s with mem := { s.mem with
        passing := rest, runCount := min 4 (s.mem.runCount + 1), answered := some ⟨x, .asMemory⟩ } })
    ∧ (∀ e rest, s.mem.burst = none → s.mem.queue = e :: rest → (4 ≤ s.mem.runCount ∨ s.mem.passing = []) →
      EndsIn .burstStart s { s with mem := { s.mem with queue := rest, burst := some { e with
        words := match e.source with
          | .status r => recordWords s s.mem.windows[e.window].base r
          | _ => e.words } } }
      ∧ (s.mem.passing ≠ [] → EndsIn .passingAccessIssue s s))
    ∧ (∀ x rest e more, s.mem.passing = x :: rest → s.mem.queue = e :: more → s.mem.runCount < 4 → EndsIn .burstStart s s)
    ∧ (∀ b, s.mem.burst = some b → (∀ x ∈ s.mem.line, x.write = false) → ∀ released : State → Prop,
      (∀ t, released t ↔ t.mem.burst = none ∧ t.mem.runCount = 0 ∧ t.mem.line = []
        ∧ t.mem.passing = s.mem.passing ++ s.mem.line) →
      (∃ t, exec .burstEnd s = .next t ∧ released t)
      ∧ ∀ k : Fin 64, k.val < b.words.length → ∃ t, exec (.burstError k) s = .next t ∧ released t)

/-- A burst without error tells its source (R95): a deposit is counted (R149), a slot is FREE again (R112), a status record keeps
its mark only for a change taken during the burst (R178), a fault entry leaves the outstanding list (R92). A command that waits
for it completes or goes on waiting: RING_STOP (R153), OUT_FLUSH (R133), SNAPSHOT (R180), LOG_RESET with the clean log of R93.
An outcome of an earlier slot table frees no slot (the model's reading of R100, entry 20). The accesses that waited at the P-port
behind the burst are then taken, in order, each as its row takes it (R97, R84; that each is an event of its own is the model's
reading, entry 18). -/
def Obligations.BurstEndTellsTheSource : Prop :=
  (∀ (s u : State) (b : WriteEntry) (ended : Wait → State → State), s.mem.burst = some b →
    u = { s with mem := { s.mem with burst := none, runCount := 0 } } →
    (∀ w v, ended w v = match s.cmd.busy with
      | some c => if c.waits = w then finished c.code c.number .done v else v
      | none => v) →
    (∀ n, b.source = .delivery n →
      EndsAndReleases .burstEnd s (ended (.ringBurst n) (onInRing n (fun r => { r with deposit := r.deposit + 1 }) u)))
    ∧ (∀ n o v, b.source = .outcome n o →
      v = (if o.generation = s.outRings[n].generation then
          onSlot n o.slot (fun x => if o.refusal then { x with refusal := none } else { x with captured := false })
            (onOutRing n (fun r => { r with outcomeCount := r.outcomeCount + 1, written := satInc r.written }) u)
        else onOutRing n (fun r => { r with outcomeCount := r.outcomeCount + 1, written := satInc r.written }) u) →
      ((∀ c slots, s.cmd.busy = some c → c.waits = .outcomes n slots → o.refusal = true ∨ o.slot ∉ slots) →
        EndsAndReleases .burstEnd s v)
      ∧ ∀ c slots left, s.cmd.busy = some c → c.waits = .outcomes n slots → o.refusal = false → o.slot ∈ slots →
        left = slots.filter (fun k => decide (k ≠ o.slot)) →
        (left = [] → EndsAndReleases .burstEnd s (finished c.code c.number .done v))
        ∧ (left ≠ [] → EndsAndReleases .burstEnd s (busyWith c.code c.number (.outcomes n left) v)))
    ∧ (∀ r, b.source = .status r →
      ((∀ c left old, s.cmd.busy = some c → c.waits ≠ .records left old) → EndsAndReleases .burstEnd s u)
      ∧ (∀ c left old rest, s.cmd.busy = some c → c.waits = .records left old → rest = left.filter (fun k => decide (k ≠ r)) →
        (old = some r → EndsAndReleases .burstEnd s (busyWith c.code c.number (.records left none) u))
        ∧ (old ≠ some r → rest ≠ [] → EndsAndReleases .burstEnd s (busyWith c.code c.number (.records rest old) u))
        ∧ (old ≠ some r → rest = [] → EndsAndReleases .burstEnd s (finished c.code c.number .done u)))
      ∧ ∀ t, s.mem.line = [] → exec .burstEnd s = .next t → (r.val < 35 ∨ s.cmd.busy = none) →
        marking t r = marking s r →
        t.status.records[r].changed = s.status.records[r].again)
    ∧ (b.source = .fault →
      ((s.log.resetting = false ∨ 2 ≤ s.log.outstanding.length) → EndsAndReleases .burstEnd s (raiseCause 13 { u with
        log := { u.log with outstanding := u.log.outstanding.drop 1 } }))
      ∧ (s.log.resetting = true → s.log.outstanding.length ≤ 1 → EndsAndReleases .burstEnd s (ended .logEntries (raiseCause 13 { u with
        log := { u.log with
          outstanding := [], state := .ready, entryCount := 0, releaseCount := 0, lost := 0, resetting := false } })))))
  ∧ ∀ (w : State) (m : Master) (addr : Addr) (be : ByteEnables) (d : Word),
    exec (.pPortRead m addr) w = .next (settle w (arrive ⟨m, false, addr, 0, 0⟩ w))
    ∧ exec (.pPortWrite m addr be d) w = .next (settle w (arrive ⟨m, true, addr, be, d⟩ w))

/-- An error in a burst (R95, Table 5-6, R92): ABORT with its report, the last abort and the cause; the owning function halts, and
the queued entries of the same target leave the queue unwritten: deliveries are dropped as into a ring that is not ACTIVE (R149),
outcomes return to the front of their list (R113), status records keep their marks (R179), fault entries are counted lost (R92). A
command that waits for one of them ends: RING_STOP (R153), OUT_FLUSH (R133) and SNAPSHOT (R180) with HALTED, LOG_RESET with the
clean log (R93). At a status record's error every marked record stays marked, those whose queued entries leave among them, and the
failed one is marked (R179). The accesses that waited at the P-port are then taken as at a burst's end (R97, R84, BurstEndTellsTheSource). -/
def Obligations.BurstErrorHaltsTheOwner : Prop :=
  ∀ (s u : State) (b : WriteEntry) (k : Fin 64) (a : Nat) (w : Word) (ab : Cause → State)
    (without : (Source → Bool) → State → State) (ended : CommandResult → (Wait → Bool) → State → State),
    s.mem.burst = some b → b.words[k.val]? = some (a, w) →
    u = { s with mem := { s.mem with burst := none, runCount := 0 } } →
    (∀ c v, v = report .abort c 0 a u →
      ab c = raiseCause 15 { v with log := { v.log with lastAbort := some ⟨c, a, ⟨s.time.value, s.time.state⟩⟩ } }) →
    (∀ f v, without f v = { v with mem := { v.mem with queue := v.mem.queue.filter (fun e => !f e.source) } }) →
    (∀ r f v, ended r f v = match s.cmd.busy with
      | some c => if f c.waits = true then finished c.code c.number r v else v
      | none => v) →
    (∀ n, b.source = .delivery n →
      EndsAndReleases (.burstError k) s (ended .halted (fun x => x == .ringBurst n)
        ((List.range ((s.mem.queue.filter (fun e => e.source == .delivery n)).length + 1)).foldl
          (fun v _ => raiseCause (overflowCause n) (onInRing n (fun r => { r with
            overflow := satInc r.overflow, dropsStopped := satInc r.dropsStopped }) v))
          (onInRing n (fun r => { r with state := .halted, assigned := r.deposit })
            (without (fun x => x == .delivery n) (ab .depositError))))))
    ∧ (∀ n o back, b.source = .outcome n o →
      back = s.mem.queue.filterMap (fun e => match e.source with
        | .outcome m x => if m = n then some x else none
        | .delivery _ | .status _ | .fault => none) →
      EndsAndReleases (.burstError k) s (ended .halted (fun x => match x with | .outcomes m _ => m == n | _ => false)
        (onOutRing n (fun r => { r with
            state := .halted, outcomes := o :: (back ++ r.outcomes), assigned := r.outcomeCount })
          (without (fun x => match x with | .outcome m _ => m == n | _ => false) (ab .outcomeError)))))
    ∧ (∀ r, b.source = .status r → ∀ v, v = without (fun x => match x with | .status _ => true | _ => false) (ab .statusError) →
      EndsAndReleases (.burstError k) s (ended .halted (fun x => match x with | .records _ _ => true | _ => false)
        { v with status := { v.status with running := false } })
      ∧ ∃ t, Leaves (.burstError k) s t ∧ t.status.running = false ∧ t.status.records[r].changed = true
        ∧ ∀ q : RecordId, s.status.records[q].changed = true → t.status.records[q].changed = true)
    ∧ (b.source = .fault → ∀ v, v = (List.range s.log.outstanding.length).foldl
        (fun v _ => raiseCause 14 { v with log := { v.log with lost := satInc v.log.lost } })
        (without (fun x => x == .fault) (raiseCause 15 { u with log := { u.log with
          state := .failed, outstanding := [], lastAbort := some ⟨.faultError, a, ⟨s.time.value, s.time.state⟩⟩ } })) →
      (s.log.resetting = false → EndsAndReleases (.burstError k) s v)
      ∧ (s.log.resetting = true → EndsAndReleases (.burstError k) s (ended .done (fun x => x == .logEntries) { v with log := { v.log with
        state := .ready, entryCount := 0, releaseCount := 0, lost := 0, resetting := false } })))
end

