-- ==== Sys2Proof/Laws/State.lean ====
section
/-! SUPPORT. What each named update leaves alone, field by field, and what it does to the instance it names. -/

namespace Sys2Proof.Machine

@[simp] theorem onPath_pending (p : PathId) (f : Path → Path) (s : State) : (onPath p f s).pending = s.pending := rfl
@[simp] theorem onPath_ranking (p : PathId) (f : Path → Path) (s : State) : (onPath p f s).ranking = s.ranking := rfl
@[simp] theorem onPath_time (p : PathId) (f : Path → Path) (s : State) : (onPath p f s).time = s.time := rfl
@[simp] theorem onPath_mem (p : PathId) (f : Path → Path) (s : State) : (onPath p f s).mem = s.mem := rfl
@[simp] theorem onPath_log (p : PathId) (f : Path → Path) (s : State) : (onPath p f s).log = s.log := rfl
@[simp] theorem onPath_outRings (p : PathId) (f : Path → Path) (s : State) : (onPath p f s).outRings = s.outRings := rfl
@[simp] theorem onPath_nextSequence (p : PathId) (f : Path → Path) (s : State) : (onPath p f s).nextSequence = s.nextSequence := rfl
@[simp] theorem onPath_sel (p : PathId) (f : Path → Path) (s : State) : (onPath p f s).sel = s.sel := rfl
@[simp] theorem onPath_streams (p : PathId) (f : Path → Path) (s : State) : (onPath p f s).streams = s.streams := rfl
@[simp] theorem onPath_filters (p : PathId) (f : Path → Path) (s : State) : (onPath p f s).filters = s.filters := rfl
@[simp] theorem onPath_inRings (p : PathId) (f : Path → Path) (s : State) : (onPath p f s).inRings = s.inRings := rfl
@[simp] theorem onPath_lines (p : PathId) (f : Path → Path) (s : State) : (onPath p f s).lines = s.lines := rfl
@[simp] theorem onPath_pulses (p : PathId) (f : Path → Path) (s : State) : (onPath p f s).pulses = s.pulses := rfl
@[simp] theorem onPath_alarm (p : PathId) (f : Path → Path) (s : State) : (onPath p f s).alarm = s.alarm := rfl
@[simp] theorem onPath_cmd (p : PathId) (f : Path → Path) (s : State) : (onPath p f s).cmd = s.cmd := rfl
@[simp] theorem onPath_status (p : PathId) (f : Path → Path) (s : State) : (onPath p f s).status = s.status := rfl
@[simp] theorem onPath_identity (p : PathId) (f : Path → Path) (s : State) : (onPath p f s).identity = s.identity := rfl
@[simp] theorem onPath_events (p : PathId) (f : Path → Path) (s : State) : (onPath p f s).events = s.events := rfl
@[simp] theorem onPath_freeValues (p : PathId) (f : Path → Path) (s : State) : (onPath p f s).freeValues = s.freeValues := rfl

@[simp] theorem onSup_pending (p : PathId) (f : Supervisor → Supervisor) (s : State) : (onSup p f s).pending = s.pending := rfl
@[simp] theorem onSup_ranking (p : PathId) (f : Supervisor → Supervisor) (s : State) : (onSup p f s).ranking = s.ranking := rfl
@[simp] theorem onSup_time (p : PathId) (f : Supervisor → Supervisor) (s : State) : (onSup p f s).time = s.time := rfl
@[simp] theorem onSup_mem (p : PathId) (f : Supervisor → Supervisor) (s : State) : (onSup p f s).mem = s.mem := rfl
@[simp] theorem onSup_log (p : PathId) (f : Supervisor → Supervisor) (s : State) : (onSup p f s).log = s.log := rfl
@[simp] theorem onSup_outRings (p : PathId) (f : Supervisor → Supervisor) (s : State) : (onSup p f s).outRings = s.outRings := rfl
@[simp] theorem onSup_nextSequence (p : PathId) (f : Supervisor → Supervisor) (s : State) : (onSup p f s).nextSequence = s.nextSequence := rfl
@[simp] theorem onSup_sel (p : PathId) (f : Supervisor → Supervisor) (s : State) : (onSup p f s).sel = s.sel := rfl
@[simp] theorem onSup_streams (p : PathId) (f : Supervisor → Supervisor) (s : State) : (onSup p f s).streams = s.streams := rfl
@[simp] theorem onSup_filters (p : PathId) (f : Supervisor → Supervisor) (s : State) : (onSup p f s).filters = s.filters := rfl
@[simp] theorem onSup_inRings (p : PathId) (f : Supervisor → Supervisor) (s : State) : (onSup p f s).inRings = s.inRings := rfl
@[simp] theorem onSup_lines (p : PathId) (f : Supervisor → Supervisor) (s : State) : (onSup p f s).lines = s.lines := rfl
@[simp] theorem onSup_pulses (p : PathId) (f : Supervisor → Supervisor) (s : State) : (onSup p f s).pulses = s.pulses := rfl
@[simp] theorem onSup_alarm (p : PathId) (f : Supervisor → Supervisor) (s : State) : (onSup p f s).alarm = s.alarm := rfl
@[simp] theorem onSup_cmd (p : PathId) (f : Supervisor → Supervisor) (s : State) : (onSup p f s).cmd = s.cmd := rfl
@[simp] theorem onSup_status (p : PathId) (f : Supervisor → Supervisor) (s : State) : (onSup p f s).status = s.status := rfl
@[simp] theorem onSup_identity (p : PathId) (f : Supervisor → Supervisor) (s : State) : (onSup p f s).identity = s.identity := rfl
@[simp] theorem onSup_events (p : PathId) (f : Supervisor → Supervisor) (s : State) : (onSup p f s).events = s.events := rfl
@[simp] theorem onSup_freeValues (p : PathId) (f : Supervisor → Supervisor) (s : State) : (onSup p f s).freeValues = s.freeValues := rfl

@[simp] theorem onPort_pending (p : PathId) (f : Port → Port) (s : State) : (onPort p f s).pending = s.pending := rfl
@[simp] theorem onPort_ranking (p : PathId) (f : Port → Port) (s : State) : (onPort p f s).ranking = s.ranking := rfl
@[simp] theorem onPort_time (p : PathId) (f : Port → Port) (s : State) : (onPort p f s).time = s.time := rfl
@[simp] theorem onPort_mem (p : PathId) (f : Port → Port) (s : State) : (onPort p f s).mem = s.mem := rfl
@[simp] theorem onPort_log (p : PathId) (f : Port → Port) (s : State) : (onPort p f s).log = s.log := rfl
@[simp] theorem onPort_outRings (p : PathId) (f : Port → Port) (s : State) : (onPort p f s).outRings = s.outRings := rfl
@[simp] theorem onPort_nextSequence (p : PathId) (f : Port → Port) (s : State) : (onPort p f s).nextSequence = s.nextSequence := rfl
@[simp] theorem onPort_sel (p : PathId) (f : Port → Port) (s : State) : (onPort p f s).sel = s.sel := rfl
@[simp] theorem onPort_streams (p : PathId) (f : Port → Port) (s : State) : (onPort p f s).streams = s.streams := rfl
@[simp] theorem onPort_filters (p : PathId) (f : Port → Port) (s : State) : (onPort p f s).filters = s.filters := rfl
@[simp] theorem onPort_inRings (p : PathId) (f : Port → Port) (s : State) : (onPort p f s).inRings = s.inRings := rfl
@[simp] theorem onPort_lines (p : PathId) (f : Port → Port) (s : State) : (onPort p f s).lines = s.lines := rfl
@[simp] theorem onPort_pulses (p : PathId) (f : Port → Port) (s : State) : (onPort p f s).pulses = s.pulses := rfl
@[simp] theorem onPort_alarm (p : PathId) (f : Port → Port) (s : State) : (onPort p f s).alarm = s.alarm := rfl
@[simp] theorem onPort_cmd (p : PathId) (f : Port → Port) (s : State) : (onPort p f s).cmd = s.cmd := rfl
@[simp] theorem onPort_status (p : PathId) (f : Port → Port) (s : State) : (onPort p f s).status = s.status := rfl
@[simp] theorem onPort_identity (p : PathId) (f : Port → Port) (s : State) : (onPort p f s).identity = s.identity := rfl
@[simp] theorem onPort_events (p : PathId) (f : Port → Port) (s : State) : (onPort p f s).events = s.events := rfl
@[simp] theorem onPort_freeValues (p : PathId) (f : Port → Port) (s : State) : (onPort p f s).freeValues = s.freeValues := rfl

@[simp] theorem onSetup_pending (p : PathId) (f : PathSetup → PathSetup) (s : State) : (onSetup p f s).pending = s.pending := rfl
@[simp] theorem onSetup_ranking (p : PathId) (f : PathSetup → PathSetup) (s : State) : (onSetup p f s).ranking = s.ranking := rfl
@[simp] theorem onSetup_time (p : PathId) (f : PathSetup → PathSetup) (s : State) : (onSetup p f s).time = s.time := rfl
@[simp] theorem onSetup_mem (p : PathId) (f : PathSetup → PathSetup) (s : State) : (onSetup p f s).mem = s.mem := rfl
@[simp] theorem onSetup_log (p : PathId) (f : PathSetup → PathSetup) (s : State) : (onSetup p f s).log = s.log := rfl
@[simp] theorem onSetup_outRings (p : PathId) (f : PathSetup → PathSetup) (s : State) : (onSetup p f s).outRings = s.outRings := rfl
@[simp] theorem onSetup_nextSequence (p : PathId) (f : PathSetup → PathSetup) (s : State) : (onSetup p f s).nextSequence = s.nextSequence := rfl
@[simp] theorem onSetup_sel (p : PathId) (f : PathSetup → PathSetup) (s : State) : (onSetup p f s).sel = s.sel := rfl
@[simp] theorem onSetup_streams (p : PathId) (f : PathSetup → PathSetup) (s : State) : (onSetup p f s).streams = s.streams := rfl
@[simp] theorem onSetup_filters (p : PathId) (f : PathSetup → PathSetup) (s : State) : (onSetup p f s).filters = s.filters := rfl
@[simp] theorem onSetup_inRings (p : PathId) (f : PathSetup → PathSetup) (s : State) : (onSetup p f s).inRings = s.inRings := rfl
@[simp] theorem onSetup_lines (p : PathId) (f : PathSetup → PathSetup) (s : State) : (onSetup p f s).lines = s.lines := rfl
@[simp] theorem onSetup_pulses (p : PathId) (f : PathSetup → PathSetup) (s : State) : (onSetup p f s).pulses = s.pulses := rfl
@[simp] theorem onSetup_alarm (p : PathId) (f : PathSetup → PathSetup) (s : State) : (onSetup p f s).alarm = s.alarm := rfl
@[simp] theorem onSetup_cmd (p : PathId) (f : PathSetup → PathSetup) (s : State) : (onSetup p f s).cmd = s.cmd := rfl
@[simp] theorem onSetup_status (p : PathId) (f : PathSetup → PathSetup) (s : State) : (onSetup p f s).status = s.status := rfl
@[simp] theorem onSetup_identity (p : PathId) (f : PathSetup → PathSetup) (s : State) : (onSetup p f s).identity = s.identity := rfl
@[simp] theorem onSetup_events (p : PathId) (f : PathSetup → PathSetup) (s : State) : (onSetup p f s).events = s.events := rfl
@[simp] theorem onSetup_freeValues (p : PathId) (f : PathSetup → PathSetup) (s : State) : (onSetup p f s).freeValues = s.freeValues := rfl

@[simp] theorem onStream_pending (i : StreamId) (f : Stream → Stream) (s : State) : (onStream i f s).pending = s.pending := rfl
@[simp] theorem onStream_paths (i : StreamId) (f : Stream → Stream) (s : State) : (onStream i f s).paths = s.paths := rfl
@[simp] theorem onStream_ranking (i : StreamId) (f : Stream → Stream) (s : State) : (onStream i f s).ranking = s.ranking := rfl
@[simp] theorem onStream_time (i : StreamId) (f : Stream → Stream) (s : State) : (onStream i f s).time = s.time := rfl
@[simp] theorem onStream_mem (i : StreamId) (f : Stream → Stream) (s : State) : (onStream i f s).mem = s.mem := rfl
@[simp] theorem onStream_log (i : StreamId) (f : Stream → Stream) (s : State) : (onStream i f s).log = s.log := rfl
@[simp] theorem onStream_outRings (i : StreamId) (f : Stream → Stream) (s : State) : (onStream i f s).outRings = s.outRings := rfl
@[simp] theorem onStream_nextSequence (i : StreamId) (f : Stream → Stream) (s : State) : (onStream i f s).nextSequence = s.nextSequence := rfl
@[simp] theorem onStream_sel (i : StreamId) (f : Stream → Stream) (s : State) : (onStream i f s).sel = s.sel := rfl
@[simp] theorem onStream_filters (i : StreamId) (f : Stream → Stream) (s : State) : (onStream i f s).filters = s.filters := rfl
@[simp] theorem onStream_inRings (i : StreamId) (f : Stream → Stream) (s : State) : (onStream i f s).inRings = s.inRings := rfl
@[simp] theorem onStream_lines (i : StreamId) (f : Stream → Stream) (s : State) : (onStream i f s).lines = s.lines := rfl
@[simp] theorem onStream_pulses (i : StreamId) (f : Stream → Stream) (s : State) : (onStream i f s).pulses = s.pulses := rfl
@[simp] theorem onStream_alarm (i : StreamId) (f : Stream → Stream) (s : State) : (onStream i f s).alarm = s.alarm := rfl
@[simp] theorem onStream_cmd (i : StreamId) (f : Stream → Stream) (s : State) : (onStream i f s).cmd = s.cmd := rfl
@[simp] theorem onStream_status (i : StreamId) (f : Stream → Stream) (s : State) : (onStream i f s).status = s.status := rfl
@[simp] theorem onStream_identity (i : StreamId) (f : Stream → Stream) (s : State) : (onStream i f s).identity = s.identity := rfl
@[simp] theorem onStream_events (i : StreamId) (f : Stream → Stream) (s : State) : (onStream i f s).events = s.events := rfl
@[simp] theorem onStream_freeValues (i : StreamId) (f : Stream → Stream) (s : State) : (onStream i f s).freeValues = s.freeValues := rfl

@[simp] theorem onFilter_pending (i : Fin 8) (f : DivertFilter → DivertFilter) (s : State) : (onFilter i f s).pending = s.pending := rfl
@[simp] theorem onFilter_paths (i : Fin 8) (f : DivertFilter → DivertFilter) (s : State) : (onFilter i f s).paths = s.paths := rfl
@[simp] theorem onFilter_ranking (i : Fin 8) (f : DivertFilter → DivertFilter) (s : State) : (onFilter i f s).ranking = s.ranking := rfl
@[simp] theorem onFilter_time (i : Fin 8) (f : DivertFilter → DivertFilter) (s : State) : (onFilter i f s).time = s.time := rfl
@[simp] theorem onFilter_mem (i : Fin 8) (f : DivertFilter → DivertFilter) (s : State) : (onFilter i f s).mem = s.mem := rfl
@[simp] theorem onFilter_log (i : Fin 8) (f : DivertFilter → DivertFilter) (s : State) : (onFilter i f s).log = s.log := rfl
@[simp] theorem onFilter_outRings (i : Fin 8) (f : DivertFilter → DivertFilter) (s : State) : (onFilter i f s).outRings = s.outRings := rfl
@[simp] theorem onFilter_nextSequence (i : Fin 8) (f : DivertFilter → DivertFilter) (s : State) : (onFilter i f s).nextSequence = s.nextSequence := rfl
@[simp] theorem onFilter_sel (i : Fin 8) (f : DivertFilter → DivertFilter) (s : State) : (onFilter i f s).sel = s.sel := rfl
@[simp] theorem onFilter_streams (i : Fin 8) (f : DivertFilter → DivertFilter) (s : State) : (onFilter i f s).streams = s.streams := rfl
@[simp] theorem onFilter_inRings (i : Fin 8) (f : DivertFilter → DivertFilter) (s : State) : (onFilter i f s).inRings = s.inRings := rfl
@[simp] theorem onFilter_lines (i : Fin 8) (f : DivertFilter → DivertFilter) (s : State) : (onFilter i f s).lines = s.lines := rfl
@[simp] theorem onFilter_pulses (i : Fin 8) (f : DivertFilter → DivertFilter) (s : State) : (onFilter i f s).pulses = s.pulses := rfl
@[simp] theorem onFilter_alarm (i : Fin 8) (f : DivertFilter → DivertFilter) (s : State) : (onFilter i f s).alarm = s.alarm := rfl
@[simp] theorem onFilter_cmd (i : Fin 8) (f : DivertFilter → DivertFilter) (s : State) : (onFilter i f s).cmd = s.cmd := rfl
@[simp] theorem onFilter_status (i : Fin 8) (f : DivertFilter → DivertFilter) (s : State) : (onFilter i f s).status = s.status := rfl
@[simp] theorem onFilter_identity (i : Fin 8) (f : DivertFilter → DivertFilter) (s : State) : (onFilter i f s).identity = s.identity := rfl
@[simp] theorem onFilter_events (i : Fin 8) (f : DivertFilter → DivertFilter) (s : State) : (onFilter i f s).events = s.events := rfl
@[simp] theorem onFilter_freeValues (i : Fin 8) (f : DivertFilter → DivertFilter) (s : State) : (onFilter i f s).freeValues = s.freeValues := rfl

@[simp] theorem onInRing_pending (n : RingId) (f : InRing → InRing) (s : State) : (onInRing n f s).pending = s.pending := rfl
@[simp] theorem onInRing_paths (n : RingId) (f : InRing → InRing) (s : State) : (onInRing n f s).paths = s.paths := rfl
@[simp] theorem onInRing_ranking (n : RingId) (f : InRing → InRing) (s : State) : (onInRing n f s).ranking = s.ranking := rfl
@[simp] theorem onInRing_time (n : RingId) (f : InRing → InRing) (s : State) : (onInRing n f s).time = s.time := rfl
@[simp] theorem onInRing_mem (n : RingId) (f : InRing → InRing) (s : State) : (onInRing n f s).mem = s.mem := rfl
@[simp] theorem onInRing_log (n : RingId) (f : InRing → InRing) (s : State) : (onInRing n f s).log = s.log := rfl
@[simp] theorem onInRing_outRings (n : RingId) (f : InRing → InRing) (s : State) : (onInRing n f s).outRings = s.outRings := rfl
@[simp] theorem onInRing_nextSequence (n : RingId) (f : InRing → InRing) (s : State) : (onInRing n f s).nextSequence = s.nextSequence := rfl
@[simp] theorem onInRing_sel (n : RingId) (f : InRing → InRing) (s : State) : (onInRing n f s).sel = s.sel := rfl
@[simp] theorem onInRing_streams (n : RingId) (f : InRing → InRing) (s : State) : (onInRing n f s).streams = s.streams := rfl
@[simp] theorem onInRing_filters (n : RingId) (f : InRing → InRing) (s : State) : (onInRing n f s).filters = s.filters := rfl
@[simp] theorem onInRing_lines (n : RingId) (f : InRing → InRing) (s : State) : (onInRing n f s).lines = s.lines := rfl
@[simp] theorem onInRing_pulses (n : RingId) (f : InRing → InRing) (s : State) : (onInRing n f s).pulses = s.pulses := rfl
@[simp] theorem onInRing_alarm (n : RingId) (f : InRing → InRing) (s : State) : (onInRing n f s).alarm = s.alarm := rfl
@[simp] theorem onInRing_cmd (n : RingId) (f : InRing → InRing) (s : State) : (onInRing n f s).cmd = s.cmd := rfl
@[simp] theorem onInRing_status (n : RingId) (f : InRing → InRing) (s : State) : (onInRing n f s).status = s.status := rfl
@[simp] theorem onInRing_identity (n : RingId) (f : InRing → InRing) (s : State) : (onInRing n f s).identity = s.identity := rfl
@[simp] theorem onInRing_events (n : RingId) (f : InRing → InRing) (s : State) : (onInRing n f s).events = s.events := rfl
@[simp] theorem onInRing_freeValues (n : RingId) (f : InRing → InRing) (s : State) : (onInRing n f s).freeValues = s.freeValues := rfl

@[simp] theorem onOutRing_pending (n : RingId) (f : OutRing → OutRing) (s : State) : (onOutRing n f s).pending = s.pending := rfl
@[simp] theorem onOutRing_paths (n : RingId) (f : OutRing → OutRing) (s : State) : (onOutRing n f s).paths = s.paths := rfl
@[simp] theorem onOutRing_ranking (n : RingId) (f : OutRing → OutRing) (s : State) : (onOutRing n f s).ranking = s.ranking := rfl
@[simp] theorem onOutRing_time (n : RingId) (f : OutRing → OutRing) (s : State) : (onOutRing n f s).time = s.time := rfl
@[simp] theorem onOutRing_mem (n : RingId) (f : OutRing → OutRing) (s : State) : (onOutRing n f s).mem = s.mem := rfl
@[simp] theorem onOutRing_log (n : RingId) (f : OutRing → OutRing) (s : State) : (onOutRing n f s).log = s.log := rfl
@[simp] theorem onOutRing_nextSequence (n : RingId) (f : OutRing → OutRing) (s : State) : (onOutRing n f s).nextSequence = s.nextSequence := rfl
@[simp] theorem onOutRing_sel (n : RingId) (f : OutRing → OutRing) (s : State) : (onOutRing n f s).sel = s.sel := rfl
@[simp] theorem onOutRing_streams (n : RingId) (f : OutRing → OutRing) (s : State) : (onOutRing n f s).streams = s.streams := rfl
@[simp] theorem onOutRing_filters (n : RingId) (f : OutRing → OutRing) (s : State) : (onOutRing n f s).filters = s.filters := rfl
@[simp] theorem onOutRing_inRings (n : RingId) (f : OutRing → OutRing) (s : State) : (onOutRing n f s).inRings = s.inRings := rfl
@[simp] theorem onOutRing_lines (n : RingId) (f : OutRing → OutRing) (s : State) : (onOutRing n f s).lines = s.lines := rfl
@[simp] theorem onOutRing_pulses (n : RingId) (f : OutRing → OutRing) (s : State) : (onOutRing n f s).pulses = s.pulses := rfl
@[simp] theorem onOutRing_alarm (n : RingId) (f : OutRing → OutRing) (s : State) : (onOutRing n f s).alarm = s.alarm := rfl
@[simp] theorem onOutRing_cmd (n : RingId) (f : OutRing → OutRing) (s : State) : (onOutRing n f s).cmd = s.cmd := rfl
@[simp] theorem onOutRing_status (n : RingId) (f : OutRing → OutRing) (s : State) : (onOutRing n f s).status = s.status := rfl
@[simp] theorem onOutRing_identity (n : RingId) (f : OutRing → OutRing) (s : State) : (onOutRing n f s).identity = s.identity := rfl
@[simp] theorem onOutRing_events (n : RingId) (f : OutRing → OutRing) (s : State) : (onOutRing n f s).events = s.events := rfl
@[simp] theorem onOutRing_freeValues (n : RingId) (f : OutRing → OutRing) (s : State) : (onOutRing n f s).freeValues = s.freeValues := rfl

@[simp] theorem onLine_pending (l : LineId) (f : Line → Line) (s : State) : (onLine l f s).pending = s.pending := rfl
@[simp] theorem onLine_paths (l : LineId) (f : Line → Line) (s : State) : (onLine l f s).paths = s.paths := rfl
@[simp] theorem onLine_ranking (l : LineId) (f : Line → Line) (s : State) : (onLine l f s).ranking = s.ranking := rfl
@[simp] theorem onLine_time (l : LineId) (f : Line → Line) (s : State) : (onLine l f s).time = s.time := rfl
@[simp] theorem onLine_mem (l : LineId) (f : Line → Line) (s : State) : (onLine l f s).mem = s.mem := rfl
@[simp] theorem onLine_log (l : LineId) (f : Line → Line) (s : State) : (onLine l f s).log = s.log := rfl
@[simp] theorem onLine_outRings (l : LineId) (f : Line → Line) (s : State) : (onLine l f s).outRings = s.outRings := rfl
@[simp] theorem onLine_nextSequence (l : LineId) (f : Line → Line) (s : State) : (onLine l f s).nextSequence = s.nextSequence := rfl
@[simp] theorem onLine_sel (l : LineId) (f : Line → Line) (s : State) : (onLine l f s).sel = s.sel := rfl
@[simp] theorem onLine_streams (l : LineId) (f : Line → Line) (s : State) : (onLine l f s).streams = s.streams := rfl
@[simp] theorem onLine_filters (l : LineId) (f : Line → Line) (s : State) : (onLine l f s).filters = s.filters := rfl
@[simp] theorem onLine_inRings (l : LineId) (f : Line → Line) (s : State) : (onLine l f s).inRings = s.inRings := rfl
@[simp] theorem onLine_pulses (l : LineId) (f : Line → Line) (s : State) : (onLine l f s).pulses = s.pulses := rfl
@[simp] theorem onLine_alarm (l : LineId) (f : Line → Line) (s : State) : (onLine l f s).alarm = s.alarm := rfl
@[simp] theorem onLine_cmd (l : LineId) (f : Line → Line) (s : State) : (onLine l f s).cmd = s.cmd := rfl
@[simp] theorem onLine_status (l : LineId) (f : Line → Line) (s : State) : (onLine l f s).status = s.status := rfl
@[simp] theorem onLine_identity (l : LineId) (f : Line → Line) (s : State) : (onLine l f s).identity = s.identity := rfl
@[simp] theorem onLine_events (l : LineId) (f : Line → Line) (s : State) : (onLine l f s).events = s.events := rfl
@[simp] theorem onLine_freeValues (l : LineId) (f : Line → Line) (s : State) : (onLine l f s).freeValues = s.freeValues := rfl

@[simp] theorem onCause_pending (c : CauseId) (f : AlarmCause → AlarmCause) (s : State) : (onCause c f s).pending = s.pending := rfl
@[simp] theorem onCause_paths (c : CauseId) (f : AlarmCause → AlarmCause) (s : State) : (onCause c f s).paths = s.paths := rfl
@[simp] theorem onCause_ranking (c : CauseId) (f : AlarmCause → AlarmCause) (s : State) : (onCause c f s).ranking = s.ranking := rfl
@[simp] theorem onCause_time (c : CauseId) (f : AlarmCause → AlarmCause) (s : State) : (onCause c f s).time = s.time := rfl
@[simp] theorem onCause_mem (c : CauseId) (f : AlarmCause → AlarmCause) (s : State) : (onCause c f s).mem = s.mem := rfl
@[simp] theorem onCause_log (c : CauseId) (f : AlarmCause → AlarmCause) (s : State) : (onCause c f s).log = s.log := rfl
@[simp] theorem onCause_outRings (c : CauseId) (f : AlarmCause → AlarmCause) (s : State) : (onCause c f s).outRings = s.outRings := rfl
@[simp] theorem onCause_nextSequence (c : CauseId) (f : AlarmCause → AlarmCause) (s : State) : (onCause c f s).nextSequence = s.nextSequence := rfl
@[simp] theorem onCause_sel (c : CauseId) (f : AlarmCause → AlarmCause) (s : State) : (onCause c f s).sel = s.sel := rfl
@[simp] theorem onCause_streams (c : CauseId) (f : AlarmCause → AlarmCause) (s : State) : (onCause c f s).streams = s.streams := rfl
@[simp] theorem onCause_filters (c : CauseId) (f : AlarmCause → AlarmCause) (s : State) : (onCause c f s).filters = s.filters := rfl
@[simp] theorem onCause_inRings (c : CauseId) (f : AlarmCause → AlarmCause) (s : State) : (onCause c f s).inRings = s.inRings := rfl
@[simp] theorem onCause_lines (c : CauseId) (f : AlarmCause → AlarmCause) (s : State) : (onCause c f s).lines = s.lines := rfl
@[simp] theorem onCause_pulses (c : CauseId) (f : AlarmCause → AlarmCause) (s : State) : (onCause c f s).pulses = s.pulses := rfl
@[simp] theorem onCause_cmd (c : CauseId) (f : AlarmCause → AlarmCause) (s : State) : (onCause c f s).cmd = s.cmd := rfl
@[simp] theorem onCause_status (c : CauseId) (f : AlarmCause → AlarmCause) (s : State) : (onCause c f s).status = s.status := rfl
@[simp] theorem onCause_identity (c : CauseId) (f : AlarmCause → AlarmCause) (s : State) : (onCause c f s).identity = s.identity := rfl
@[simp] theorem onCause_events (c : CauseId) (f : AlarmCause → AlarmCause) (s : State) : (onCause c f s).events = s.events := rfl
@[simp] theorem onCause_freeValues (c : CauseId) (f : AlarmCause → AlarmCause) (s : State) : (onCause c f s).freeValues = s.freeValues := rfl

@[simp] theorem onMark_pending (r : RecordId) (f : StatusMark → StatusMark) (s : State) : (onMark r f s).pending = s.pending := rfl
@[simp] theorem onMark_paths (r : RecordId) (f : StatusMark → StatusMark) (s : State) : (onMark r f s).paths = s.paths := rfl
@[simp] theorem onMark_ranking (r : RecordId) (f : StatusMark → StatusMark) (s : State) : (onMark r f s).ranking = s.ranking := rfl
@[simp] theorem onMark_time (r : RecordId) (f : StatusMark → StatusMark) (s : State) : (onMark r f s).time = s.time := rfl
@[simp] theorem onMark_mem (r : RecordId) (f : StatusMark → StatusMark) (s : State) : (onMark r f s).mem = s.mem := rfl
@[simp] theorem onMark_log (r : RecordId) (f : StatusMark → StatusMark) (s : State) : (onMark r f s).log = s.log := rfl
@[simp] theorem onMark_outRings (r : RecordId) (f : StatusMark → StatusMark) (s : State) : (onMark r f s).outRings = s.outRings := rfl
@[simp] theorem onMark_nextSequence (r : RecordId) (f : StatusMark → StatusMark) (s : State) : (onMark r f s).nextSequence = s.nextSequence := rfl
@[simp] theorem onMark_sel (r : RecordId) (f : StatusMark → StatusMark) (s : State) : (onMark r f s).sel = s.sel := rfl
@[simp] theorem onMark_streams (r : RecordId) (f : StatusMark → StatusMark) (s : State) : (onMark r f s).streams = s.streams := rfl
@[simp] theorem onMark_filters (r : RecordId) (f : StatusMark → StatusMark) (s : State) : (onMark r f s).filters = s.filters := rfl
@[simp] theorem onMark_inRings (r : RecordId) (f : StatusMark → StatusMark) (s : State) : (onMark r f s).inRings = s.inRings := rfl
@[simp] theorem onMark_lines (r : RecordId) (f : StatusMark → StatusMark) (s : State) : (onMark r f s).lines = s.lines := rfl
@[simp] theorem onMark_pulses (r : RecordId) (f : StatusMark → StatusMark) (s : State) : (onMark r f s).pulses = s.pulses := rfl
@[simp] theorem onMark_alarm (r : RecordId) (f : StatusMark → StatusMark) (s : State) : (onMark r f s).alarm = s.alarm := rfl
@[simp] theorem onMark_cmd (r : RecordId) (f : StatusMark → StatusMark) (s : State) : (onMark r f s).cmd = s.cmd := rfl
@[simp] theorem onMark_identity (r : RecordId) (f : StatusMark → StatusMark) (s : State) : (onMark r f s).identity = s.identity := rfl
@[simp] theorem onMark_events (r : RecordId) (f : StatusMark → StatusMark) (s : State) : (onMark r f s).events = s.events := rfl
@[simp] theorem onMark_freeValues (r : RecordId) (f : StatusMark → StatusMark) (s : State) : (onMark r f s).freeValues = s.freeValues := rfl

@[simp] theorem onCounters_pending (n : RingId) (f : SelectorCounters → SelectorCounters) (s : State) : (onCounters n f s).pending = s.pending := rfl
@[simp] theorem onCounters_paths (n : RingId) (f : SelectorCounters → SelectorCounters) (s : State) : (onCounters n f s).paths = s.paths := rfl
@[simp] theorem onCounters_ranking (n : RingId) (f : SelectorCounters → SelectorCounters) (s : State) : (onCounters n f s).ranking = s.ranking := rfl
@[simp] theorem onCounters_time (n : RingId) (f : SelectorCounters → SelectorCounters) (s : State) : (onCounters n f s).time = s.time := rfl
@[simp] theorem onCounters_mem (n : RingId) (f : SelectorCounters → SelectorCounters) (s : State) : (onCounters n f s).mem = s.mem := rfl
@[simp] theorem onCounters_log (n : RingId) (f : SelectorCounters → SelectorCounters) (s : State) : (onCounters n f s).log = s.log := rfl
@[simp] theorem onCounters_outRings (n : RingId) (f : SelectorCounters → SelectorCounters) (s : State) : (onCounters n f s).outRings = s.outRings := rfl
@[simp] theorem onCounters_nextSequence (n : RingId) (f : SelectorCounters → SelectorCounters) (s : State) : (onCounters n f s).nextSequence = s.nextSequence := rfl
@[simp] theorem onCounters_streams (n : RingId) (f : SelectorCounters → SelectorCounters) (s : State) : (onCounters n f s).streams = s.streams := rfl
@[simp] theorem onCounters_filters (n : RingId) (f : SelectorCounters → SelectorCounters) (s : State) : (onCounters n f s).filters = s.filters := rfl
@[simp] theorem onCounters_inRings (n : RingId) (f : SelectorCounters → SelectorCounters) (s : State) : (onCounters n f s).inRings = s.inRings := rfl
@[simp] theorem onCounters_lines (n : RingId) (f : SelectorCounters → SelectorCounters) (s : State) : (onCounters n f s).lines = s.lines := rfl
@[simp] theorem onCounters_pulses (n : RingId) (f : SelectorCounters → SelectorCounters) (s : State) : (onCounters n f s).pulses = s.pulses := rfl
@[simp] theorem onCounters_alarm (n : RingId) (f : SelectorCounters → SelectorCounters) (s : State) : (onCounters n f s).alarm = s.alarm := rfl
@[simp] theorem onCounters_cmd (n : RingId) (f : SelectorCounters → SelectorCounters) (s : State) : (onCounters n f s).cmd = s.cmd := rfl
@[simp] theorem onCounters_status (n : RingId) (f : SelectorCounters → SelectorCounters) (s : State) : (onCounters n f s).status = s.status := rfl
@[simp] theorem onCounters_identity (n : RingId) (f : SelectorCounters → SelectorCounters) (s : State) : (onCounters n f s).identity = s.identity := rfl
@[simp] theorem onCounters_events (n : RingId) (f : SelectorCounters → SelectorCounters) (s : State) : (onCounters n f s).events = s.events := rfl
@[simp] theorem onCounters_freeValues (n : RingId) (f : SelectorCounters → SelectorCounters) (s : State) : (onCounters n f s).freeValues = s.freeValues := rfl

@[simp] theorem onWindow_pending (e : Fin 15) (f : Window → Window) (s : State) : (onWindow e f s).pending = s.pending := rfl
@[simp] theorem onWindow_paths (e : Fin 15) (f : Window → Window) (s : State) : (onWindow e f s).paths = s.paths := rfl
@[simp] theorem onWindow_ranking (e : Fin 15) (f : Window → Window) (s : State) : (onWindow e f s).ranking = s.ranking := rfl
@[simp] theorem onWindow_time (e : Fin 15) (f : Window → Window) (s : State) : (onWindow e f s).time = s.time := rfl
@[simp] theorem onWindow_log (e : Fin 15) (f : Window → Window) (s : State) : (onWindow e f s).log = s.log := rfl
@[simp] theorem onWindow_outRings (e : Fin 15) (f : Window → Window) (s : State) : (onWindow e f s).outRings = s.outRings := rfl
@[simp] theorem onWindow_nextSequence (e : Fin 15) (f : Window → Window) (s : State) : (onWindow e f s).nextSequence = s.nextSequence := rfl
@[simp] theorem onWindow_sel (e : Fin 15) (f : Window → Window) (s : State) : (onWindow e f s).sel = s.sel := rfl
@[simp] theorem onWindow_streams (e : Fin 15) (f : Window → Window) (s : State) : (onWindow e f s).streams = s.streams := rfl
@[simp] theorem onWindow_filters (e : Fin 15) (f : Window → Window) (s : State) : (onWindow e f s).filters = s.filters := rfl
@[simp] theorem onWindow_inRings (e : Fin 15) (f : Window → Window) (s : State) : (onWindow e f s).inRings = s.inRings := rfl
@[simp] theorem onWindow_lines (e : Fin 15) (f : Window → Window) (s : State) : (onWindow e f s).lines = s.lines := rfl
@[simp] theorem onWindow_pulses (e : Fin 15) (f : Window → Window) (s : State) : (onWindow e f s).pulses = s.pulses := rfl
@[simp] theorem onWindow_alarm (e : Fin 15) (f : Window → Window) (s : State) : (onWindow e f s).alarm = s.alarm := rfl
@[simp] theorem onWindow_cmd (e : Fin 15) (f : Window → Window) (s : State) : (onWindow e f s).cmd = s.cmd := rfl
@[simp] theorem onWindow_status (e : Fin 15) (f : Window → Window) (s : State) : (onWindow e f s).status = s.status := rfl
@[simp] theorem onWindow_identity (e : Fin 15) (f : Window → Window) (s : State) : (onWindow e f s).identity = s.identity := rfl
@[simp] theorem onWindow_events (e : Fin 15) (f : Window → Window) (s : State) : (onWindow e f s).events = s.events := rfl
@[simp] theorem onWindow_freeValues (e : Fin 15) (f : Window → Window) (s : State) : (onWindow e f s).freeValues = s.freeValues := rfl

@[simp] theorem raiseCause_pending (c : CauseId) (s : State) : (raiseCause c s).pending = s.pending := rfl
@[simp] theorem raiseCause_paths (c : CauseId) (s : State) : (raiseCause c s).paths = s.paths := rfl
@[simp] theorem raiseCause_ranking (c : CauseId) (s : State) : (raiseCause c s).ranking = s.ranking := rfl
@[simp] theorem raiseCause_time (c : CauseId) (s : State) : (raiseCause c s).time = s.time := rfl
@[simp] theorem raiseCause_mem (c : CauseId) (s : State) : (raiseCause c s).mem = s.mem := rfl
@[simp] theorem raiseCause_log (c : CauseId) (s : State) : (raiseCause c s).log = s.log := rfl
@[simp] theorem raiseCause_outRings (c : CauseId) (s : State) : (raiseCause c s).outRings = s.outRings := rfl
@[simp] theorem raiseCause_nextSequence (c : CauseId) (s : State) : (raiseCause c s).nextSequence = s.nextSequence := rfl
@[simp] theorem raiseCause_sel (c : CauseId) (s : State) : (raiseCause c s).sel = s.sel := rfl
@[simp] theorem raiseCause_streams (c : CauseId) (s : State) : (raiseCause c s).streams = s.streams := rfl
@[simp] theorem raiseCause_filters (c : CauseId) (s : State) : (raiseCause c s).filters = s.filters := rfl
@[simp] theorem raiseCause_inRings (c : CauseId) (s : State) : (raiseCause c s).inRings = s.inRings := rfl
@[simp] theorem raiseCause_lines (c : CauseId) (s : State) : (raiseCause c s).lines = s.lines := rfl
@[simp] theorem raiseCause_pulses (c : CauseId) (s : State) : (raiseCause c s).pulses = s.pulses := rfl
@[simp] theorem raiseCause_cmd (c : CauseId) (s : State) : (raiseCause c s).cmd = s.cmd := rfl
@[simp] theorem raiseCause_status (c : CauseId) (s : State) : (raiseCause c s).status = s.status := rfl
@[simp] theorem raiseCause_identity (c : CauseId) (s : State) : (raiseCause c s).identity = s.identity := rfl
@[simp] theorem raiseCause_events (c : CauseId) (s : State) : (raiseCause c s).events = s.events := rfl
@[simp] theorem raiseCause_freeValues (c : CauseId) (s : State) : (raiseCause c s).freeValues = s.freeValues := rfl

@[simp] theorem clearCause_pending (c : CauseId) (s : State) : (clearCause c s).pending = s.pending := rfl
@[simp] theorem clearCause_paths (c : CauseId) (s : State) : (clearCause c s).paths = s.paths := rfl
@[simp] theorem clearCause_ranking (c : CauseId) (s : State) : (clearCause c s).ranking = s.ranking := rfl
@[simp] theorem clearCause_time (c : CauseId) (s : State) : (clearCause c s).time = s.time := rfl
@[simp] theorem clearCause_mem (c : CauseId) (s : State) : (clearCause c s).mem = s.mem := rfl
@[simp] theorem clearCause_log (c : CauseId) (s : State) : (clearCause c s).log = s.log := rfl
@[simp] theorem clearCause_outRings (c : CauseId) (s : State) : (clearCause c s).outRings = s.outRings := rfl
@[simp] theorem clearCause_nextSequence (c : CauseId) (s : State) : (clearCause c s).nextSequence = s.nextSequence := rfl
@[simp] theorem clearCause_sel (c : CauseId) (s : State) : (clearCause c s).sel = s.sel := rfl
@[simp] theorem clearCause_streams (c : CauseId) (s : State) : (clearCause c s).streams = s.streams := rfl
@[simp] theorem clearCause_filters (c : CauseId) (s : State) : (clearCause c s).filters = s.filters := rfl
@[simp] theorem clearCause_inRings (c : CauseId) (s : State) : (clearCause c s).inRings = s.inRings := rfl
@[simp] theorem clearCause_lines (c : CauseId) (s : State) : (clearCause c s).lines = s.lines := rfl
@[simp] theorem clearCause_pulses (c : CauseId) (s : State) : (clearCause c s).pulses = s.pulses := rfl
@[simp] theorem clearCause_cmd (c : CauseId) (s : State) : (clearCause c s).cmd = s.cmd := rfl
@[simp] theorem clearCause_status (c : CauseId) (s : State) : (clearCause c s).status = s.status := rfl
@[simp] theorem clearCause_identity (c : CauseId) (s : State) : (clearCause c s).identity = s.identity := rfl
@[simp] theorem clearCause_events (c : CauseId) (s : State) : (clearCause c s).events = s.events := rfl
@[simp] theorem clearCause_freeValues (c : CauseId) (s : State) : (clearCause c s).freeValues = s.freeValues := rfl

@[simp] theorem markRecord_pending (r : RecordId) (s : State) : (markRecord r s).pending = s.pending := rfl
@[simp] theorem markRecord_paths (r : RecordId) (s : State) : (markRecord r s).paths = s.paths := rfl
@[simp] theorem markRecord_ranking (r : RecordId) (s : State) : (markRecord r s).ranking = s.ranking := rfl
@[simp] theorem markRecord_time (r : RecordId) (s : State) : (markRecord r s).time = s.time := rfl
@[simp] theorem markRecord_mem (r : RecordId) (s : State) : (markRecord r s).mem = s.mem := rfl
@[simp] theorem markRecord_log (r : RecordId) (s : State) : (markRecord r s).log = s.log := rfl
@[simp] theorem markRecord_outRings (r : RecordId) (s : State) : (markRecord r s).outRings = s.outRings := rfl
@[simp] theorem markRecord_nextSequence (r : RecordId) (s : State) : (markRecord r s).nextSequence = s.nextSequence := rfl
@[simp] theorem markRecord_sel (r : RecordId) (s : State) : (markRecord r s).sel = s.sel := rfl
@[simp] theorem markRecord_streams (r : RecordId) (s : State) : (markRecord r s).streams = s.streams := rfl
@[simp] theorem markRecord_filters (r : RecordId) (s : State) : (markRecord r s).filters = s.filters := rfl
@[simp] theorem markRecord_inRings (r : RecordId) (s : State) : (markRecord r s).inRings = s.inRings := rfl
@[simp] theorem markRecord_lines (r : RecordId) (s : State) : (markRecord r s).lines = s.lines := rfl
@[simp] theorem markRecord_pulses (r : RecordId) (s : State) : (markRecord r s).pulses = s.pulses := rfl
@[simp] theorem markRecord_alarm (r : RecordId) (s : State) : (markRecord r s).alarm = s.alarm := rfl
@[simp] theorem markRecord_cmd (r : RecordId) (s : State) : (markRecord r s).cmd = s.cmd := rfl
@[simp] theorem markRecord_identity (r : RecordId) (s : State) : (markRecord r s).identity = s.identity := rfl
@[simp] theorem markRecord_events (r : RecordId) (s : State) : (markRecord r s).events = s.events := rfl
@[simp] theorem markRecord_freeValues (r : RecordId) (s : State) : (markRecord r s).freeValues = s.freeValues := rfl

@[simp] theorem passAccess_pending (x : Access) (s : State) : (passAccess x s).pending = s.pending := rfl
@[simp] theorem passAccess_paths (x : Access) (s : State) : (passAccess x s).paths = s.paths := rfl
@[simp] theorem passAccess_ranking (x : Access) (s : State) : (passAccess x s).ranking = s.ranking := rfl
@[simp] theorem passAccess_time (x : Access) (s : State) : (passAccess x s).time = s.time := rfl
@[simp] theorem passAccess_log (x : Access) (s : State) : (passAccess x s).log = s.log := rfl
@[simp] theorem passAccess_outRings (x : Access) (s : State) : (passAccess x s).outRings = s.outRings := rfl
@[simp] theorem passAccess_nextSequence (x : Access) (s : State) : (passAccess x s).nextSequence = s.nextSequence := rfl
@[simp] theorem passAccess_sel (x : Access) (s : State) : (passAccess x s).sel = s.sel := rfl
@[simp] theorem passAccess_streams (x : Access) (s : State) : (passAccess x s).streams = s.streams := rfl
@[simp] theorem passAccess_filters (x : Access) (s : State) : (passAccess x s).filters = s.filters := rfl
@[simp] theorem passAccess_inRings (x : Access) (s : State) : (passAccess x s).inRings = s.inRings := rfl
@[simp] theorem passAccess_lines (x : Access) (s : State) : (passAccess x s).lines = s.lines := rfl
@[simp] theorem passAccess_pulses (x : Access) (s : State) : (passAccess x s).pulses = s.pulses := rfl
@[simp] theorem passAccess_alarm (x : Access) (s : State) : (passAccess x s).alarm = s.alarm := rfl
@[simp] theorem passAccess_cmd (x : Access) (s : State) : (passAccess x s).cmd = s.cmd := rfl
@[simp] theorem passAccess_status (x : Access) (s : State) : (passAccess x s).status = s.status := rfl
@[simp] theorem passAccess_identity (x : Access) (s : State) : (passAccess x s).identity = s.identity := rfl
@[simp] theorem passAccess_events (x : Access) (s : State) : (passAccess x s).events = s.events := rfl
@[simp] theorem passAccess_freeValues (x : Access) (s : State) : (passAccess x s).freeValues = s.freeValues := rfl

@[simp] theorem enqueue_pending (e : WriteEntry) (s : State) : (enqueue e s).pending = s.pending := rfl
@[simp] theorem enqueue_paths (e : WriteEntry) (s : State) : (enqueue e s).paths = s.paths := rfl
@[simp] theorem enqueue_ranking (e : WriteEntry) (s : State) : (enqueue e s).ranking = s.ranking := rfl
@[simp] theorem enqueue_time (e : WriteEntry) (s : State) : (enqueue e s).time = s.time := rfl
@[simp] theorem enqueue_log (e : WriteEntry) (s : State) : (enqueue e s).log = s.log := rfl
@[simp] theorem enqueue_outRings (e : WriteEntry) (s : State) : (enqueue e s).outRings = s.outRings := rfl
@[simp] theorem enqueue_nextSequence (e : WriteEntry) (s : State) : (enqueue e s).nextSequence = s.nextSequence := rfl
@[simp] theorem enqueue_sel (e : WriteEntry) (s : State) : (enqueue e s).sel = s.sel := rfl
@[simp] theorem enqueue_streams (e : WriteEntry) (s : State) : (enqueue e s).streams = s.streams := rfl
@[simp] theorem enqueue_filters (e : WriteEntry) (s : State) : (enqueue e s).filters = s.filters := rfl
@[simp] theorem enqueue_inRings (e : WriteEntry) (s : State) : (enqueue e s).inRings = s.inRings := rfl
@[simp] theorem enqueue_lines (e : WriteEntry) (s : State) : (enqueue e s).lines = s.lines := rfl
@[simp] theorem enqueue_pulses (e : WriteEntry) (s : State) : (enqueue e s).pulses = s.pulses := rfl
@[simp] theorem enqueue_alarm (e : WriteEntry) (s : State) : (enqueue e s).alarm = s.alarm := rfl
@[simp] theorem enqueue_cmd (e : WriteEntry) (s : State) : (enqueue e s).cmd = s.cmd := rfl
@[simp] theorem enqueue_status (e : WriteEntry) (s : State) : (enqueue e s).status = s.status := rfl
@[simp] theorem enqueue_identity (e : WriteEntry) (s : State) : (enqueue e s).identity = s.identity := rfl
@[simp] theorem enqueue_events (e : WriteEntry) (s : State) : (enqueue e s).events = s.events := rfl
@[simp] theorem enqueue_freeValues (e : WriteEntry) (s : State) : (enqueue e s).freeValues = s.freeValues := rfl

@[simp] theorem unqueue_pending (f : WriteEntry → Bool) (s : State) : (unqueue f s).pending = s.pending := rfl
@[simp] theorem unqueue_paths (f : WriteEntry → Bool) (s : State) : (unqueue f s).paths = s.paths := rfl
@[simp] theorem unqueue_ranking (f : WriteEntry → Bool) (s : State) : (unqueue f s).ranking = s.ranking := rfl
@[simp] theorem unqueue_time (f : WriteEntry → Bool) (s : State) : (unqueue f s).time = s.time := rfl
@[simp] theorem unqueue_log (f : WriteEntry → Bool) (s : State) : (unqueue f s).log = s.log := rfl
@[simp] theorem unqueue_outRings (f : WriteEntry → Bool) (s : State) : (unqueue f s).outRings = s.outRings := rfl
@[simp] theorem unqueue_nextSequence (f : WriteEntry → Bool) (s : State) : (unqueue f s).nextSequence = s.nextSequence := rfl
@[simp] theorem unqueue_sel (f : WriteEntry → Bool) (s : State) : (unqueue f s).sel = s.sel := rfl
@[simp] theorem unqueue_streams (f : WriteEntry → Bool) (s : State) : (unqueue f s).streams = s.streams := rfl
@[simp] theorem unqueue_filters (f : WriteEntry → Bool) (s : State) : (unqueue f s).filters = s.filters := rfl
@[simp] theorem unqueue_inRings (f : WriteEntry → Bool) (s : State) : (unqueue f s).inRings = s.inRings := rfl
@[simp] theorem unqueue_lines (f : WriteEntry → Bool) (s : State) : (unqueue f s).lines = s.lines := rfl
@[simp] theorem unqueue_pulses (f : WriteEntry → Bool) (s : State) : (unqueue f s).pulses = s.pulses := rfl
@[simp] theorem unqueue_alarm (f : WriteEntry → Bool) (s : State) : (unqueue f s).alarm = s.alarm := rfl
@[simp] theorem unqueue_cmd (f : WriteEntry → Bool) (s : State) : (unqueue f s).cmd = s.cmd := rfl
@[simp] theorem unqueue_status (f : WriteEntry → Bool) (s : State) : (unqueue f s).status = s.status := rfl
@[simp] theorem unqueue_identity (f : WriteEntry → Bool) (s : State) : (unqueue f s).identity = s.identity := rfl
@[simp] theorem unqueue_events (f : WriteEntry → Bool) (s : State) : (unqueue f s).events = s.events := rfl
@[simp] theorem unqueue_freeValues (f : WriteEntry → Bool) (s : State) : (unqueue f s).freeValues = s.freeValues := rfl

@[simp] theorem waitFor_pending (w : Wait) (s : State) : (waitFor w s).pending = s.pending := rfl
@[simp] theorem waitFor_paths (w : Wait) (s : State) : (waitFor w s).paths = s.paths := rfl
@[simp] theorem waitFor_ranking (w : Wait) (s : State) : (waitFor w s).ranking = s.ranking := rfl
@[simp] theorem waitFor_time (w : Wait) (s : State) : (waitFor w s).time = s.time := rfl
@[simp] theorem waitFor_mem (w : Wait) (s : State) : (waitFor w s).mem = s.mem := rfl
@[simp] theorem waitFor_log (w : Wait) (s : State) : (waitFor w s).log = s.log := rfl
@[simp] theorem waitFor_outRings (w : Wait) (s : State) : (waitFor w s).outRings = s.outRings := rfl
@[simp] theorem waitFor_nextSequence (w : Wait) (s : State) : (waitFor w s).nextSequence = s.nextSequence := rfl
@[simp] theorem waitFor_sel (w : Wait) (s : State) : (waitFor w s).sel = s.sel := rfl
@[simp] theorem waitFor_streams (w : Wait) (s : State) : (waitFor w s).streams = s.streams := rfl
@[simp] theorem waitFor_filters (w : Wait) (s : State) : (waitFor w s).filters = s.filters := rfl
@[simp] theorem waitFor_inRings (w : Wait) (s : State) : (waitFor w s).inRings = s.inRings := rfl
@[simp] theorem waitFor_lines (w : Wait) (s : State) : (waitFor w s).lines = s.lines := rfl
@[simp] theorem waitFor_pulses (w : Wait) (s : State) : (waitFor w s).pulses = s.pulses := rfl
@[simp] theorem waitFor_alarm (w : Wait) (s : State) : (waitFor w s).alarm = s.alarm := rfl
@[simp] theorem waitFor_status (w : Wait) (s : State) : (waitFor w s).status = s.status := rfl
@[simp] theorem waitFor_identity (w : Wait) (s : State) : (waitFor w s).identity = s.identity := rfl
@[simp] theorem waitFor_events (w : Wait) (s : State) : (waitFor w s).events = s.events := rfl
@[simp] theorem waitFor_freeValues (w : Wait) (s : State) : (waitFor w s).freeValues = s.freeValues := rfl

@[simp] theorem putRecord_pending (r : LaunchRecord) (s : State) : (putRecord r s).pending = s.pending := rfl
@[simp] theorem putRecord_paths (r : LaunchRecord) (s : State) : (putRecord r s).paths = s.paths := rfl
@[simp] theorem putRecord_ranking (r : LaunchRecord) (s : State) : (putRecord r s).ranking = s.ranking := rfl
@[simp] theorem putRecord_time (r : LaunchRecord) (s : State) : (putRecord r s).time = s.time := rfl
@[simp] theorem putRecord_mem (r : LaunchRecord) (s : State) : (putRecord r s).mem = s.mem := rfl
@[simp] theorem putRecord_log (r : LaunchRecord) (s : State) : (putRecord r s).log = s.log := rfl
@[simp] theorem putRecord_outRings (r : LaunchRecord) (s : State) : (putRecord r s).outRings = s.outRings := rfl
@[simp] theorem putRecord_nextSequence (r : LaunchRecord) (s : State) : (putRecord r s).nextSequence = s.nextSequence := rfl
@[simp] theorem putRecord_streams (r : LaunchRecord) (s : State) : (putRecord r s).streams = s.streams := rfl
@[simp] theorem putRecord_filters (r : LaunchRecord) (s : State) : (putRecord r s).filters = s.filters := rfl
@[simp] theorem putRecord_inRings (r : LaunchRecord) (s : State) : (putRecord r s).inRings = s.inRings := rfl
@[simp] theorem putRecord_lines (r : LaunchRecord) (s : State) : (putRecord r s).lines = s.lines := rfl
@[simp] theorem putRecord_pulses (r : LaunchRecord) (s : State) : (putRecord r s).pulses = s.pulses := rfl
@[simp] theorem putRecord_alarm (r : LaunchRecord) (s : State) : (putRecord r s).alarm = s.alarm := rfl
@[simp] theorem putRecord_cmd (r : LaunchRecord) (s : State) : (putRecord r s).cmd = s.cmd := rfl
@[simp] theorem putRecord_status (r : LaunchRecord) (s : State) : (putRecord r s).status = s.status := rfl
@[simp] theorem putRecord_identity (r : LaunchRecord) (s : State) : (putRecord r s).identity = s.identity := rfl
@[simp] theorem putRecord_events (r : LaunchRecord) (s : State) : (putRecord r s).events = s.events := rfl
@[simp] theorem putRecord_freeValues (r : LaunchRecord) (s : State) : (putRecord r s).freeValues = s.freeValues := rfl

@[simp] theorem runProbe_pending (p : PathId) (s : State) : (runProbe p s).pending = s.pending := rfl
@[simp] theorem runProbe_ranking (p : PathId) (s : State) : (runProbe p s).ranking = s.ranking := rfl
@[simp] theorem runProbe_time (p : PathId) (s : State) : (runProbe p s).time = s.time := rfl
@[simp] theorem runProbe_mem (p : PathId) (s : State) : (runProbe p s).mem = s.mem := rfl
@[simp] theorem runProbe_log (p : PathId) (s : State) : (runProbe p s).log = s.log := rfl
@[simp] theorem runProbe_outRings (p : PathId) (s : State) : (runProbe p s).outRings = s.outRings := rfl
@[simp] theorem runProbe_nextSequence (p : PathId) (s : State) : (runProbe p s).nextSequence = s.nextSequence := rfl
@[simp] theorem runProbe_sel (p : PathId) (s : State) : (runProbe p s).sel = s.sel := rfl
@[simp] theorem runProbe_streams (p : PathId) (s : State) : (runProbe p s).streams = s.streams := rfl
@[simp] theorem runProbe_filters (p : PathId) (s : State) : (runProbe p s).filters = s.filters := rfl
@[simp] theorem runProbe_inRings (p : PathId) (s : State) : (runProbe p s).inRings = s.inRings := rfl
@[simp] theorem runProbe_lines (p : PathId) (s : State) : (runProbe p s).lines = s.lines := rfl
@[simp] theorem runProbe_pulses (p : PathId) (s : State) : (runProbe p s).pulses = s.pulses := rfl
@[simp] theorem runProbe_alarm (p : PathId) (s : State) : (runProbe p s).alarm = s.alarm := rfl
@[simp] theorem runProbe_cmd (p : PathId) (s : State) : (runProbe p s).cmd = s.cmd := rfl
@[simp] theorem runProbe_status (p : PathId) (s : State) : (runProbe p s).status = s.status := rfl
@[simp] theorem runProbe_identity (p : PathId) (s : State) : (runProbe p s).identity = s.identity := rfl
@[simp] theorem runProbe_events (p : PathId) (s : State) : (runProbe p s).events = s.events := rfl
@[simp] theorem runProbe_freeValues (p : PathId) (s : State) : (runProbe p s).freeValues = s.freeValues := rfl

@[simp] theorem runSilence_pending (p : PathId) (s : State) : (runSilence p s).pending = s.pending := rfl
@[simp] theorem runSilence_ranking (p : PathId) (s : State) : (runSilence p s).ranking = s.ranking := rfl
@[simp] theorem runSilence_time (p : PathId) (s : State) : (runSilence p s).time = s.time := rfl
@[simp] theorem runSilence_mem (p : PathId) (s : State) : (runSilence p s).mem = s.mem := rfl
@[simp] theorem runSilence_log (p : PathId) (s : State) : (runSilence p s).log = s.log := rfl
@[simp] theorem runSilence_outRings (p : PathId) (s : State) : (runSilence p s).outRings = s.outRings := rfl
@[simp] theorem runSilence_nextSequence (p : PathId) (s : State) : (runSilence p s).nextSequence = s.nextSequence := rfl
@[simp] theorem runSilence_sel (p : PathId) (s : State) : (runSilence p s).sel = s.sel := rfl
@[simp] theorem runSilence_streams (p : PathId) (s : State) : (runSilence p s).streams = s.streams := rfl
@[simp] theorem runSilence_filters (p : PathId) (s : State) : (runSilence p s).filters = s.filters := rfl
@[simp] theorem runSilence_inRings (p : PathId) (s : State) : (runSilence p s).inRings = s.inRings := rfl
@[simp] theorem runSilence_lines (p : PathId) (s : State) : (runSilence p s).lines = s.lines := rfl
@[simp] theorem runSilence_pulses (p : PathId) (s : State) : (runSilence p s).pulses = s.pulses := rfl
@[simp] theorem runSilence_alarm (p : PathId) (s : State) : (runSilence p s).alarm = s.alarm := rfl
@[simp] theorem runSilence_cmd (p : PathId) (s : State) : (runSilence p s).cmd = s.cmd := rfl
@[simp] theorem runSilence_status (p : PathId) (s : State) : (runSilence p s).status = s.status := rfl
@[simp] theorem runSilence_identity (p : PathId) (s : State) : (runSilence p s).identity = s.identity := rfl
@[simp] theorem runSilence_events (p : PathId) (s : State) : (runSilence p s).events = s.events := rfl
@[simp] theorem runSilence_freeValues (p : PathId) (s : State) : (runSilence p s).freeValues = s.freeValues := rfl

@[simp] theorem runHold_pending (p : PathId) (s : State) : (runHold p s).pending = s.pending := rfl
@[simp] theorem runHold_ranking (p : PathId) (s : State) : (runHold p s).ranking = s.ranking := rfl
@[simp] theorem runHold_time (p : PathId) (s : State) : (runHold p s).time = s.time := rfl
@[simp] theorem runHold_mem (p : PathId) (s : State) : (runHold p s).mem = s.mem := rfl
@[simp] theorem runHold_log (p : PathId) (s : State) : (runHold p s).log = s.log := rfl
@[simp] theorem runHold_outRings (p : PathId) (s : State) : (runHold p s).outRings = s.outRings := rfl
@[simp] theorem runHold_nextSequence (p : PathId) (s : State) : (runHold p s).nextSequence = s.nextSequence := rfl
@[simp] theorem runHold_sel (p : PathId) (s : State) : (runHold p s).sel = s.sel := rfl
@[simp] theorem runHold_streams (p : PathId) (s : State) : (runHold p s).streams = s.streams := rfl
@[simp] theorem runHold_filters (p : PathId) (s : State) : (runHold p s).filters = s.filters := rfl
@[simp] theorem runHold_inRings (p : PathId) (s : State) : (runHold p s).inRings = s.inRings := rfl
@[simp] theorem runHold_lines (p : PathId) (s : State) : (runHold p s).lines = s.lines := rfl
@[simp] theorem runHold_pulses (p : PathId) (s : State) : (runHold p s).pulses = s.pulses := rfl
@[simp] theorem runHold_alarm (p : PathId) (s : State) : (runHold p s).alarm = s.alarm := rfl
@[simp] theorem runHold_cmd (p : PathId) (s : State) : (runHold p s).cmd = s.cmd := rfl
@[simp] theorem runHold_status (p : PathId) (s : State) : (runHold p s).status = s.status := rfl
@[simp] theorem runHold_identity (p : PathId) (s : State) : (runHold p s).identity = s.identity := rfl
@[simp] theorem runHold_events (p : PathId) (s : State) : (runHold p s).events = s.events := rfl
@[simp] theorem runHold_freeValues (p : PathId) (s : State) : (runHold p s).freeValues = s.freeValues := rfl

@[simp] theorem runGuard_pending (p : PathId) (s : State) : (runGuard p s).pending = s.pending := rfl
@[simp] theorem runGuard_ranking (p : PathId) (s : State) : (runGuard p s).ranking = s.ranking := rfl
@[simp] theorem runGuard_time (p : PathId) (s : State) : (runGuard p s).time = s.time := rfl
@[simp] theorem runGuard_mem (p : PathId) (s : State) : (runGuard p s).mem = s.mem := rfl
@[simp] theorem runGuard_log (p : PathId) (s : State) : (runGuard p s).log = s.log := rfl
@[simp] theorem runGuard_outRings (p : PathId) (s : State) : (runGuard p s).outRings = s.outRings := rfl
@[simp] theorem runGuard_nextSequence (p : PathId) (s : State) : (runGuard p s).nextSequence = s.nextSequence := rfl
@[simp] theorem runGuard_sel (p : PathId) (s : State) : (runGuard p s).sel = s.sel := rfl
@[simp] theorem runGuard_streams (p : PathId) (s : State) : (runGuard p s).streams = s.streams := rfl
@[simp] theorem runGuard_filters (p : PathId) (s : State) : (runGuard p s).filters = s.filters := rfl
@[simp] theorem runGuard_inRings (p : PathId) (s : State) : (runGuard p s).inRings = s.inRings := rfl
@[simp] theorem runGuard_lines (p : PathId) (s : State) : (runGuard p s).lines = s.lines := rfl
@[simp] theorem runGuard_pulses (p : PathId) (s : State) : (runGuard p s).pulses = s.pulses := rfl
@[simp] theorem runGuard_alarm (p : PathId) (s : State) : (runGuard p s).alarm = s.alarm := rfl
@[simp] theorem runGuard_cmd (p : PathId) (s : State) : (runGuard p s).cmd = s.cmd := rfl
@[simp] theorem runGuard_status (p : PathId) (s : State) : (runGuard p s).status = s.status := rfl
@[simp] theorem runGuard_identity (p : PathId) (s : State) : (runGuard p s).identity = s.identity := rfl
@[simp] theorem runGuard_events (p : PathId) (s : State) : (runGuard p s).events = s.events := rfl
@[simp] theorem runGuard_freeValues (p : PathId) (s : State) : (runGuard p s).freeValues = s.freeValues := rfl

@[simp] theorem stopProbe_pending (p : PathId) (s : State) : (stopProbe p s).pending = s.pending := rfl
@[simp] theorem stopProbe_ranking (p : PathId) (s : State) : (stopProbe p s).ranking = s.ranking := rfl
@[simp] theorem stopProbe_time (p : PathId) (s : State) : (stopProbe p s).time = s.time := rfl
@[simp] theorem stopProbe_mem (p : PathId) (s : State) : (stopProbe p s).mem = s.mem := rfl
@[simp] theorem stopProbe_log (p : PathId) (s : State) : (stopProbe p s).log = s.log := rfl
@[simp] theorem stopProbe_outRings (p : PathId) (s : State) : (stopProbe p s).outRings = s.outRings := rfl
@[simp] theorem stopProbe_nextSequence (p : PathId) (s : State) : (stopProbe p s).nextSequence = s.nextSequence := rfl
@[simp] theorem stopProbe_sel (p : PathId) (s : State) : (stopProbe p s).sel = s.sel := rfl
@[simp] theorem stopProbe_streams (p : PathId) (s : State) : (stopProbe p s).streams = s.streams := rfl
@[simp] theorem stopProbe_filters (p : PathId) (s : State) : (stopProbe p s).filters = s.filters := rfl
@[simp] theorem stopProbe_inRings (p : PathId) (s : State) : (stopProbe p s).inRings = s.inRings := rfl
@[simp] theorem stopProbe_lines (p : PathId) (s : State) : (stopProbe p s).lines = s.lines := rfl
@[simp] theorem stopProbe_pulses (p : PathId) (s : State) : (stopProbe p s).pulses = s.pulses := rfl
@[simp] theorem stopProbe_alarm (p : PathId) (s : State) : (stopProbe p s).alarm = s.alarm := rfl
@[simp] theorem stopProbe_cmd (p : PathId) (s : State) : (stopProbe p s).cmd = s.cmd := rfl
@[simp] theorem stopProbe_status (p : PathId) (s : State) : (stopProbe p s).status = s.status := rfl
@[simp] theorem stopProbe_identity (p : PathId) (s : State) : (stopProbe p s).identity = s.identity := rfl
@[simp] theorem stopProbe_events (p : PathId) (s : State) : (stopProbe p s).events = s.events := rfl
@[simp] theorem stopProbe_freeValues (p : PathId) (s : State) : (stopProbe p s).freeValues = s.freeValues := rfl

@[simp] theorem stopSilence_pending (p : PathId) (s : State) : (stopSilence p s).pending = s.pending := rfl
@[simp] theorem stopSilence_ranking (p : PathId) (s : State) : (stopSilence p s).ranking = s.ranking := rfl
@[simp] theorem stopSilence_time (p : PathId) (s : State) : (stopSilence p s).time = s.time := rfl
@[simp] theorem stopSilence_mem (p : PathId) (s : State) : (stopSilence p s).mem = s.mem := rfl
@[simp] theorem stopSilence_log (p : PathId) (s : State) : (stopSilence p s).log = s.log := rfl
@[simp] theorem stopSilence_outRings (p : PathId) (s : State) : (stopSilence p s).outRings = s.outRings := rfl
@[simp] theorem stopSilence_nextSequence (p : PathId) (s : State) : (stopSilence p s).nextSequence = s.nextSequence := rfl
@[simp] theorem stopSilence_sel (p : PathId) (s : State) : (stopSilence p s).sel = s.sel := rfl
@[simp] theorem stopSilence_streams (p : PathId) (s : State) : (stopSilence p s).streams = s.streams := rfl
@[simp] theorem stopSilence_filters (p : PathId) (s : State) : (stopSilence p s).filters = s.filters := rfl
@[simp] theorem stopSilence_inRings (p : PathId) (s : State) : (stopSilence p s).inRings = s.inRings := rfl
@[simp] theorem stopSilence_lines (p : PathId) (s : State) : (stopSilence p s).lines = s.lines := rfl
@[simp] theorem stopSilence_pulses (p : PathId) (s : State) : (stopSilence p s).pulses = s.pulses := rfl
@[simp] theorem stopSilence_alarm (p : PathId) (s : State) : (stopSilence p s).alarm = s.alarm := rfl
@[simp] theorem stopSilence_cmd (p : PathId) (s : State) : (stopSilence p s).cmd = s.cmd := rfl
@[simp] theorem stopSilence_status (p : PathId) (s : State) : (stopSilence p s).status = s.status := rfl
@[simp] theorem stopSilence_identity (p : PathId) (s : State) : (stopSilence p s).identity = s.identity := rfl
@[simp] theorem stopSilence_events (p : PathId) (s : State) : (stopSilence p s).events = s.events := rfl
@[simp] theorem stopSilence_freeValues (p : PathId) (s : State) : (stopSilence p s).freeValues = s.freeValues := rfl

@[simp] theorem insertFrame_pending (p : PathId) (f : ControlFrame) (s : State) : (insertFrame p f s).pending = s.pending := rfl
@[simp] theorem insertFrame_ranking (p : PathId) (f : ControlFrame) (s : State) : (insertFrame p f s).ranking = s.ranking := rfl
@[simp] theorem insertFrame_time (p : PathId) (f : ControlFrame) (s : State) : (insertFrame p f s).time = s.time := rfl
@[simp] theorem insertFrame_mem (p : PathId) (f : ControlFrame) (s : State) : (insertFrame p f s).mem = s.mem := rfl
@[simp] theorem insertFrame_log (p : PathId) (f : ControlFrame) (s : State) : (insertFrame p f s).log = s.log := rfl
@[simp] theorem insertFrame_outRings (p : PathId) (f : ControlFrame) (s : State) : (insertFrame p f s).outRings = s.outRings := rfl
@[simp] theorem insertFrame_nextSequence (p : PathId) (f : ControlFrame) (s : State) : (insertFrame p f s).nextSequence = s.nextSequence := rfl
@[simp] theorem insertFrame_sel (p : PathId) (f : ControlFrame) (s : State) : (insertFrame p f s).sel = s.sel := rfl
@[simp] theorem insertFrame_streams (p : PathId) (f : ControlFrame) (s : State) : (insertFrame p f s).streams = s.streams := rfl
@[simp] theorem insertFrame_filters (p : PathId) (f : ControlFrame) (s : State) : (insertFrame p f s).filters = s.filters := rfl
@[simp] theorem insertFrame_inRings (p : PathId) (f : ControlFrame) (s : State) : (insertFrame p f s).inRings = s.inRings := rfl
@[simp] theorem insertFrame_lines (p : PathId) (f : ControlFrame) (s : State) : (insertFrame p f s).lines = s.lines := rfl
@[simp] theorem insertFrame_pulses (p : PathId) (f : ControlFrame) (s : State) : (insertFrame p f s).pulses = s.pulses := rfl
@[simp] theorem insertFrame_alarm (p : PathId) (f : ControlFrame) (s : State) : (insertFrame p f s).alarm = s.alarm := rfl
@[simp] theorem insertFrame_cmd (p : PathId) (f : ControlFrame) (s : State) : (insertFrame p f s).cmd = s.cmd := rfl
@[simp] theorem insertFrame_status (p : PathId) (f : ControlFrame) (s : State) : (insertFrame p f s).status = s.status := rfl
@[simp] theorem insertFrame_identity (p : PathId) (f : ControlFrame) (s : State) : (insertFrame p f s).identity = s.identity := rfl
@[simp] theorem insertFrame_events (p : PathId) (f : ControlFrame) (s : State) : (insertFrame p f s).events = s.events := rfl
@[simp] theorem insertFrame_freeValues (p : PathId) (f : ControlFrame) (s : State) : (insertFrame p f s).freeValues = s.freeValues := rfl

@[simp] theorem emptyInsert_pending (p : PathId) (s : State) : (emptyInsert p s).pending = s.pending := rfl
@[simp] theorem emptyInsert_ranking (p : PathId) (s : State) : (emptyInsert p s).ranking = s.ranking := rfl
@[simp] theorem emptyInsert_time (p : PathId) (s : State) : (emptyInsert p s).time = s.time := rfl
@[simp] theorem emptyInsert_mem (p : PathId) (s : State) : (emptyInsert p s).mem = s.mem := rfl
@[simp] theorem emptyInsert_log (p : PathId) (s : State) : (emptyInsert p s).log = s.log := rfl
@[simp] theorem emptyInsert_outRings (p : PathId) (s : State) : (emptyInsert p s).outRings = s.outRings := rfl
@[simp] theorem emptyInsert_nextSequence (p : PathId) (s : State) : (emptyInsert p s).nextSequence = s.nextSequence := rfl
@[simp] theorem emptyInsert_sel (p : PathId) (s : State) : (emptyInsert p s).sel = s.sel := rfl
@[simp] theorem emptyInsert_streams (p : PathId) (s : State) : (emptyInsert p s).streams = s.streams := rfl
@[simp] theorem emptyInsert_filters (p : PathId) (s : State) : (emptyInsert p s).filters = s.filters := rfl
@[simp] theorem emptyInsert_inRings (p : PathId) (s : State) : (emptyInsert p s).inRings = s.inRings := rfl
@[simp] theorem emptyInsert_lines (p : PathId) (s : State) : (emptyInsert p s).lines = s.lines := rfl
@[simp] theorem emptyInsert_pulses (p : PathId) (s : State) : (emptyInsert p s).pulses = s.pulses := rfl
@[simp] theorem emptyInsert_alarm (p : PathId) (s : State) : (emptyInsert p s).alarm = s.alarm := rfl
@[simp] theorem emptyInsert_cmd (p : PathId) (s : State) : (emptyInsert p s).cmd = s.cmd := rfl
@[simp] theorem emptyInsert_status (p : PathId) (s : State) : (emptyInsert p s).status = s.status := rfl
@[simp] theorem emptyInsert_identity (p : PathId) (s : State) : (emptyInsert p s).identity = s.identity := rfl
@[simp] theorem emptyInsert_events (p : PathId) (s : State) : (emptyInsert p s).events = s.events := rfl
@[simp] theorem emptyInsert_freeValues (p : PathId) (s : State) : (emptyInsert p s).freeValues = s.freeValues := rfl

@[simp] theorem orderTune_pending (p : PathId) (k : Nat) (s : State) : (orderTune p k s).pending = s.pending := rfl
@[simp] theorem orderTune_ranking (p : PathId) (k : Nat) (s : State) : (orderTune p k s).ranking = s.ranking := rfl
@[simp] theorem orderTune_time (p : PathId) (k : Nat) (s : State) : (orderTune p k s).time = s.time := rfl
@[simp] theorem orderTune_mem (p : PathId) (k : Nat) (s : State) : (orderTune p k s).mem = s.mem := rfl
@[simp] theorem orderTune_log (p : PathId) (k : Nat) (s : State) : (orderTune p k s).log = s.log := rfl
@[simp] theorem orderTune_outRings (p : PathId) (k : Nat) (s : State) : (orderTune p k s).outRings = s.outRings := rfl
@[simp] theorem orderTune_nextSequence (p : PathId) (k : Nat) (s : State) : (orderTune p k s).nextSequence = s.nextSequence := rfl
@[simp] theorem orderTune_sel (p : PathId) (k : Nat) (s : State) : (orderTune p k s).sel = s.sel := rfl
@[simp] theorem orderTune_streams (p : PathId) (k : Nat) (s : State) : (orderTune p k s).streams = s.streams := rfl
@[simp] theorem orderTune_filters (p : PathId) (k : Nat) (s : State) : (orderTune p k s).filters = s.filters := rfl
@[simp] theorem orderTune_inRings (p : PathId) (k : Nat) (s : State) : (orderTune p k s).inRings = s.inRings := rfl
@[simp] theorem orderTune_lines (p : PathId) (k : Nat) (s : State) : (orderTune p k s).lines = s.lines := rfl
@[simp] theorem orderTune_pulses (p : PathId) (k : Nat) (s : State) : (orderTune p k s).pulses = s.pulses := rfl
@[simp] theorem orderTune_alarm (p : PathId) (k : Nat) (s : State) : (orderTune p k s).alarm = s.alarm := rfl
@[simp] theorem orderTune_cmd (p : PathId) (k : Nat) (s : State) : (orderTune p k s).cmd = s.cmd := rfl
@[simp] theorem orderTune_status (p : PathId) (k : Nat) (s : State) : (orderTune p k s).status = s.status := rfl
@[simp] theorem orderTune_identity (p : PathId) (k : Nat) (s : State) : (orderTune p k s).identity = s.identity := rfl
@[simp] theorem orderTune_events (p : PathId) (k : Nat) (s : State) : (orderTune p k s).events = s.events := rfl
@[simp] theorem orderTune_freeValues (p : PathId) (k : Nat) (s : State) : (orderTune p k s).freeValues = s.freeValues := rfl

@[simp] theorem setSequence_pending (i : StreamId) (q : BitVec 32) (s : State) : (setSequence i q s).pending = s.pending := rfl
@[simp] theorem setSequence_paths (i : StreamId) (q : BitVec 32) (s : State) : (setSequence i q s).paths = s.paths := rfl
@[simp] theorem setSequence_ranking (i : StreamId) (q : BitVec 32) (s : State) : (setSequence i q s).ranking = s.ranking := rfl
@[simp] theorem setSequence_time (i : StreamId) (q : BitVec 32) (s : State) : (setSequence i q s).time = s.time := rfl
@[simp] theorem setSequence_mem (i : StreamId) (q : BitVec 32) (s : State) : (setSequence i q s).mem = s.mem := rfl
@[simp] theorem setSequence_log (i : StreamId) (q : BitVec 32) (s : State) : (setSequence i q s).log = s.log := rfl
@[simp] theorem setSequence_outRings (i : StreamId) (q : BitVec 32) (s : State) : (setSequence i q s).outRings = s.outRings := rfl
@[simp] theorem setSequence_sel (i : StreamId) (q : BitVec 32) (s : State) : (setSequence i q s).sel = s.sel := rfl
@[simp] theorem setSequence_streams (i : StreamId) (q : BitVec 32) (s : State) : (setSequence i q s).streams = s.streams := rfl
@[simp] theorem setSequence_filters (i : StreamId) (q : BitVec 32) (s : State) : (setSequence i q s).filters = s.filters := rfl
@[simp] theorem setSequence_inRings (i : StreamId) (q : BitVec 32) (s : State) : (setSequence i q s).inRings = s.inRings := rfl
@[simp] theorem setSequence_lines (i : StreamId) (q : BitVec 32) (s : State) : (setSequence i q s).lines = s.lines := rfl
@[simp] theorem setSequence_pulses (i : StreamId) (q : BitVec 32) (s : State) : (setSequence i q s).pulses = s.pulses := rfl
@[simp] theorem setSequence_alarm (i : StreamId) (q : BitVec 32) (s : State) : (setSequence i q s).alarm = s.alarm := rfl
@[simp] theorem setSequence_cmd (i : StreamId) (q : BitVec 32) (s : State) : (setSequence i q s).cmd = s.cmd := rfl
@[simp] theorem setSequence_status (i : StreamId) (q : BitVec 32) (s : State) : (setSequence i q s).status = s.status := rfl
@[simp] theorem setSequence_identity (i : StreamId) (q : BitVec 32) (s : State) : (setSequence i q s).identity = s.identity := rfl
@[simp] theorem setSequence_events (i : StreamId) (q : BitVec 32) (s : State) : (setSequence i q s).events = s.events := rfl
@[simp] theorem setSequence_freeValues (i : StreamId) (q : BitVec 32) (s : State) : (setSequence i q s).freeValues = s.freeValues := rfl

@[simp] theorem countLost_pending (s : State) : (countLost s).pending = s.pending := rfl
@[simp] theorem countLost_paths (s : State) : (countLost s).paths = s.paths := rfl
@[simp] theorem countLost_ranking (s : State) : (countLost s).ranking = s.ranking := rfl
@[simp] theorem countLost_time (s : State) : (countLost s).time = s.time := rfl
@[simp] theorem countLost_mem (s : State) : (countLost s).mem = s.mem := rfl
@[simp] theorem countLost_outRings (s : State) : (countLost s).outRings = s.outRings := rfl
@[simp] theorem countLost_nextSequence (s : State) : (countLost s).nextSequence = s.nextSequence := rfl
@[simp] theorem countLost_sel (s : State) : (countLost s).sel = s.sel := rfl
@[simp] theorem countLost_streams (s : State) : (countLost s).streams = s.streams := rfl
@[simp] theorem countLost_filters (s : State) : (countLost s).filters = s.filters := rfl
@[simp] theorem countLost_inRings (s : State) : (countLost s).inRings = s.inRings := rfl
@[simp] theorem countLost_lines (s : State) : (countLost s).lines = s.lines := rfl
@[simp] theorem countLost_pulses (s : State) : (countLost s).pulses = s.pulses := rfl
@[simp] theorem countLost_cmd (s : State) : (countLost s).cmd = s.cmd := rfl
@[simp] theorem countLost_status (s : State) : (countLost s).status = s.status := rfl
@[simp] theorem countLost_identity (s : State) : (countLost s).identity = s.identity := rfl
@[simp] theorem countLost_events (s : State) : (countLost s).events = s.events := rfl
@[simp] theorem countLost_freeValues (s : State) : (countLost s).freeValues = s.freeValues := rfl

@[simp] theorem clearBurst_pending (s : State) : (clearBurst s).pending = s.pending := rfl
@[simp] theorem clearBurst_paths (s : State) : (clearBurst s).paths = s.paths := rfl
@[simp] theorem clearBurst_ranking (s : State) : (clearBurst s).ranking = s.ranking := rfl
@[simp] theorem clearBurst_time (s : State) : (clearBurst s).time = s.time := rfl
@[simp] theorem clearBurst_log (s : State) : (clearBurst s).log = s.log := rfl
@[simp] theorem clearBurst_outRings (s : State) : (clearBurst s).outRings = s.outRings := rfl
@[simp] theorem clearBurst_nextSequence (s : State) : (clearBurst s).nextSequence = s.nextSequence := rfl
@[simp] theorem clearBurst_sel (s : State) : (clearBurst s).sel = s.sel := rfl
@[simp] theorem clearBurst_streams (s : State) : (clearBurst s).streams = s.streams := rfl
@[simp] theorem clearBurst_filters (s : State) : (clearBurst s).filters = s.filters := rfl
@[simp] theorem clearBurst_inRings (s : State) : (clearBurst s).inRings = s.inRings := rfl
@[simp] theorem clearBurst_lines (s : State) : (clearBurst s).lines = s.lines := rfl
@[simp] theorem clearBurst_pulses (s : State) : (clearBurst s).pulses = s.pulses := rfl
@[simp] theorem clearBurst_alarm (s : State) : (clearBurst s).alarm = s.alarm := rfl
@[simp] theorem clearBurst_cmd (s : State) : (clearBurst s).cmd = s.cmd := rfl
@[simp] theorem clearBurst_status (s : State) : (clearBurst s).status = s.status := rfl
@[simp] theorem clearBurst_identity (s : State) : (clearBurst s).identity = s.identity := rfl
@[simp] theorem clearBurst_events (s : State) : (clearBurst s).events = s.events := rfl
@[simp] theorem clearBurst_freeValues (s : State) : (clearBurst s).freeValues = s.freeValues := rfl

@[simp] theorem onPath_paths_same (p : PathId) (f : Path → Path) (s : State) : (onPath p f s).paths[p.val] = f s.paths[p.val] := by
  simp [onPath]

theorem onPath_paths_other (p k : PathId) (f : Path → Path) (s : State) (h : k ≠ p) :
    (onPath p f s).paths[k] = s.paths[k] := by
  have h' : ¬ p.val = k.val := fun e => h (Fin.ext e.symm)
  simp [onPath, h']

@[simp] theorem onStream_streams_same (i : StreamId) (f : Stream → Stream) (s : State) : (onStream i f s).streams[i.val] = f s.streams[i.val] := by
  simp [onStream]

theorem onStream_streams_other (i k : StreamId) (f : Stream → Stream) (s : State) (h : k ≠ i) :
    (onStream i f s).streams[k] = s.streams[k] := by
  have h' : ¬ i.val = k.val := fun e => h (Fin.ext e.symm)
  simp [onStream, h']

@[simp] theorem onFilter_filters_same (i : Fin 8) (f : DivertFilter → DivertFilter) (s : State) : (onFilter i f s).filters[i.val] = f s.filters[i.val] := by
  simp [onFilter]

theorem onFilter_filters_other (i k : Fin 8) (f : DivertFilter → DivertFilter) (s : State) (h : k ≠ i) :
    (onFilter i f s).filters[k] = s.filters[k] := by
  have h' : ¬ i.val = k.val := fun e => h (Fin.ext e.symm)
  simp [onFilter, h']

@[simp] theorem onInRing_inRings_same (n : RingId) (f : InRing → InRing) (s : State) : (onInRing n f s).inRings[n.val] = f s.inRings[n.val] := by
  simp [onInRing]

theorem onInRing_inRings_other (n k : RingId) (f : InRing → InRing) (s : State) (h : k ≠ n) :
    (onInRing n f s).inRings[k] = s.inRings[k] := by
  have h' : ¬ n.val = k.val := fun e => h (Fin.ext e.symm)
  simp [onInRing, h']

@[simp] theorem onOutRing_outRings_same (n : RingId) (f : OutRing → OutRing) (s : State) : (onOutRing n f s).outRings[n.val] = f s.outRings[n.val] := by
  simp [onOutRing]

theorem onOutRing_outRings_other (n k : RingId) (f : OutRing → OutRing) (s : State) (h : k ≠ n) :
    (onOutRing n f s).outRings[k] = s.outRings[k] := by
  have h' : ¬ n.val = k.val := fun e => h (Fin.ext e.symm)
  simp [onOutRing, h']

@[simp] theorem onLine_lines_same (l : LineId) (f : Line → Line) (s : State) : (onLine l f s).lines[l.val] = f s.lines[l.val] := by
  simp [onLine]

theorem onLine_lines_other (l k : LineId) (f : Line → Line) (s : State) (h : k ≠ l) :
    (onLine l f s).lines[k] = s.lines[k] := by
  have h' : ¬ l.val = k.val := fun e => h (Fin.ext e.symm)
  simp [onLine, h']

@[simp] theorem onCause_alarm_causes_same (c : CauseId) (f : AlarmCause → AlarmCause) (s : State) : (onCause c f s).alarm.causes[c.val] = f s.alarm.causes[c.val] := by
  simp [onCause]

theorem onCause_alarm_causes_other (c k : CauseId) (f : AlarmCause → AlarmCause) (s : State) (h : k ≠ c) :
    (onCause c f s).alarm.causes[k] = s.alarm.causes[k] := by
  have h' : ¬ c.val = k.val := fun e => h (Fin.ext e.symm)
  simp [onCause, h']

@[simp] theorem onMark_status_records_same (r : RecordId) (f : StatusMark → StatusMark) (s : State) : (onMark r f s).status.records[r.val] = f s.status.records[r.val] := by
  simp [onMark]

theorem onMark_status_records_other (r k : RecordId) (f : StatusMark → StatusMark) (s : State) (h : k ≠ r) :
    (onMark r f s).status.records[k] = s.status.records[k] := by
  have h' : ¬ r.val = k.val := fun e => h (Fin.ext e.symm)
  simp [onMark, h']

@[simp] theorem onCounters_sel_counters_same (n : RingId) (f : SelectorCounters → SelectorCounters) (s : State) : (onCounters n f s).sel.counters[n.val] = f s.sel.counters[n.val] := by
  simp [onCounters]

theorem onCounters_sel_counters_other (n k : RingId) (f : SelectorCounters → SelectorCounters) (s : State) (h : k ≠ n) :
    (onCounters n f s).sel.counters[k] = s.sel.counters[k] := by
  have h' : ¬ n.val = k.val := fun e => h (Fin.ext e.symm)
  simp [onCounters, h']

@[simp] theorem onWindow_mem_windows_same (e : Fin 15) (f : Window → Window) (s : State) : (onWindow e f s).mem.windows[e.val] = f s.mem.windows[e.val] := by
  simp [onWindow]

theorem onWindow_mem_windows_other (e k : Fin 15) (f : Window → Window) (s : State) (h : k ≠ e) :
    (onWindow e f s).mem.windows[k] = s.mem.windows[k] := by
  have h' : ¬ e.val = k.val := fun e => h (Fin.ext e.symm)
  simp [onWindow, h']

@[simp] theorem onSup_same (p : PathId) (f : Supervisor → Supervisor) (s : State) :
    (onSup p f s).paths[p.val] = { s.paths[p.val] with sup := f s.paths[p.val].sup } := by
  simp [onSup]

theorem onSup_other (p k : PathId) (f : Supervisor → Supervisor) (s : State) (h : k ≠ p) : (onSup p f s).paths[k] = s.paths[k] := by
  simp [onSup, onPath_paths_other p k _ s h]

@[simp] theorem onPort_same (p : PathId) (f : Port → Port) (s : State) :
    (onPort p f s).paths[p.val] = { s.paths[p.val] with port := f s.paths[p.val].port } := by
  simp [onPort]

theorem onPort_other (p k : PathId) (f : Port → Port) (s : State) (h : k ≠ p) : (onPort p f s).paths[k] = s.paths[k] := by
  simp [onPort, onPath_paths_other p k _ s h]

@[simp] theorem onSetup_same (p : PathId) (f : PathSetup → PathSetup) (s : State) :
    (onSetup p f s).paths[p.val] = { s.paths[p.val] with setup := f s.paths[p.val].setup } := by
  simp [onSetup]

theorem onSetup_other (p k : PathId) (f : PathSetup → PathSetup) (s : State) (h : k ≠ p) : (onSetup p f s).paths[k] = s.paths[k] := by
  simp [onSetup, onPath_paths_other p k _ s h]

end Sys2Proof.Machine
end

