-- ==== Sys2Proof/Laws/Settle.lean ====
section
/-! SUPPORT. What the consequences of an event leave alone: each of their stages keeps the kept state, so `settle` does. -/

namespace Sys2Proof.Machine

theorem keptCauses_set (v : Vector AlarmCause 20) (c : CauseId) (a : AlarmCause) (h : keptCause c a = keptCause c v[c]) :
    keptCauses (v.set c.val a c.isLt) = keptCauses v := by
  ext i hi : 1
  by_cases e : c.val = i
  · subst e
    simpa [keptCauses] using h
  · simp [keptCauses, e]

theorem keptLines_set (v : Vector Line 8) (l : LineId) (y : Line)
    (h : { y with filtered := false, count := none } = ({ v[l] with filtered := false, count := none } : Line)) :
    keptLines (v.set l.val y l.isLt) = keptLines v := by
  ext i hi : 1
  by_cases e : l.val = i
  · subst e
    simpa [keptLines] using h
  · simp [keptLines, e]

theorem keptMarks_set (v : Vector StatusMark 36) (r : RecordId) (m : StatusMark)
    (h : { m with changed := false, again := false, since := none }
      = ({ v[r] with changed := false, again := false, since := none } : StatusMark)) :
    keptMarks (v.set r.val m r.isLt) = keptMarks v := by
  ext i hi : 1
  by_cases e : r.val = i
  · subst e
    simpa [keptMarks] using h
  · simp [keptMarks, e]

theorem keptMarks_dated (v : Vector StatusMark 36) (d : RecordId → Option Nat) :
    keptMarks (Vector.ofFn fun r : RecordId => { v[r] with since := d r }) = keptMarks v := by
  ext i hi : 1
  simp [keptMarks]

theorem keptRings_dated (v : Vector OutRing 4) (d : RingId → Option Nat) :
    keptRings (Vector.ofFn fun n : RingId => { v[n] with since := d n }) = keptRings v := by
  ext i hi : 1
  simp [keptRings]

theorem kept_raise_consequent (c : CauseId) (s : State) (h : isConsequent c = true) : kept (raiseCause c s) = kept s := by
  simp only [kept, raiseCause, onCause]
  rw [keptCauses_set]
  simp [keptCause, h]

theorem kept_refreshLine (s : State) (l : LineId) : kept (refreshLine s l) = kept s := by
  simp only [kept, refreshLine, onLine]
  rw [keptLines_set]
  simp only [followPin]
  split <;> [rfl; split <;> rfl]

theorem kept_refreshLines (s : State) : kept (refreshLines s) = kept s := by
  unfold refreshLines
  generalize List.finRange 8 = ls
  induction ls generalizing s with
  | nil => rfl
  | cons l ls ih => rw [List.foldl_cons, ih, kept_refreshLine]

theorem kept_takeInputs (s : State) : kept (takeInputs s) = kept s := rfl

theorem kept_announceRain (o s : State) : kept (announceRain o s) = kept s := by
  unfold announceRain
  split
  · rfl
  · exact kept_raise_consequent 19 s rfl

/-- A ranking and pulses are no part of the kept state. -/
theorem kept_ranking (s : State) (r : Ranking) (q : Pulses) : kept { s with ranking := r, pulses := q } = kept s := rfl

theorem kept_announceHead (h : Option PathId) (s : State) : kept (announceHead h s) = kept s := by
  rw [announceHead, kept_raise_consequent 5 _ rfl, kept_ranking]

theorem kept_announceFallback (f : Bool) (s : State) : kept (announceFallback f s) = kept s := by
  rw [announceFallback, kept_raise_consequent 6 _ rfl]
  exact kept_ranking s _ s.pulses

theorem kept_rerank (s : State) : kept (rerank s) = kept s := by
  simp only [rerank]
  split <;> split <;> (try rw [kept_announceFallback]) <;> (try rw [kept_announceHead]) <;> exact kept_ranking s _ s.pulses

theorem kept_refreshAlarm (s : State) : kept (refreshAlarm s) = kept s := rfl

theorem kept_markRecord (r : RecordId) (s : State) : kept (markRecord r s) = kept s := by
  simp only [kept, markRecord, onMark]
  rw [keptMarks_set]
  rfl

theorem kept_markRecords (rs : List RecordId) (s : State) :
    kept (rs.foldl (fun s r => markRecord r s) s) = kept s := by
  induction rs generalizing s with
  | nil => rfl
  | cons r rs ih => rw [List.foldl_cons, ih, kept_markRecord]

theorem kept_markAll (s : State) : kept (markAll s) = kept s := kept_markRecords _ s

theorem kept_markChanges (o s : State) : kept (markChanges o s) = kept s := kept_markRecords _ s

theorem kept_dateOffers (s : State) : kept (dateOffers s) = kept s := by
  simp only [kept, dateOffers]
  rw [keptMarks_dated, keptRings_dated]

/-- The stages of `settle` before the event is counted. -/
def consequences (o s : State) : State :=
  refreshLines s |> takeInputs |> announceRain o |> rerank |> refreshAlarm |> refreshLines |> markChanges o |> dateOffers

theorem settle_eq (o s : State) :
    settle o s = { consequences o s with events := (consequences o s).events + 1 } := rfl

theorem kept_consequences (o s : State) : kept (consequences o s) = kept s := by
  unfold consequences
  rw [kept_dateOffers, kept_markChanges, kept_refreshLines, kept_refreshAlarm, kept_rerank, kept_announceRain,
    kept_takeInputs, kept_refreshLines]

/-- The event number is no part of the kept state. -/
theorem kept_events (s : State) (n : Nat) : kept { s with events := n } = kept s := rfl

/-- The consequences of an event change nothing of the kept state. -/
theorem kept_settle (o s : State) : kept (settle o s) = kept s := by
  rw [settle_eq, kept_events, kept_consequences]

/-- A command whose meaning settles some state ends in that state. -/
theorem endsIn_of_settle (c : Instr) (s o u v : State) (h : exec c s = .next (settle o v)) (k : kept v = kept u) :
    EndsIn c s u := ⟨_, h, (kept_settle o v).trans k⟩

end Sys2Proof.Machine
end

