-- ==== Sys2Proof/Laws/Settled.lean ====
section
/-! SUPPORT. What the consequences of an event bring about: `settle` leaves a settled state. -/

namespace Sys2Proof.Machine

/-! ## Every line follows its pin -/

/-- The lines after `refreshLines`: each follows the pin it had before. -/
def followed (s : State) : Vector Line 8 :=
  Vector.ofFn fun l : LineId => followPin (pinLevel s s.lines[l]) s.lines[l]

theorem refreshLines_fold (s : State) (v : Vector Line 8) (ls : List LineId) (h : ls.Nodup) :
    ls.foldl refreshLine { s with lines := v }
      = { s with lines := Vector.ofFn fun l : LineId => if l ∈ ls then followPin (pinLevel s v[l]) v[l] else v[l] } := by
  induction ls generalizing v with
  | nil => simp
  | cons k ls ih =>
    rw [List.nodup_cons] at h
    have e : refreshLine { s with lines := v } k = { s with lines := v.set k.val (followPin (pinLevel s v[k]) v[k]) k.isLt } :=
      rfl
    rw [List.foldl_cons, e, ih _ h.2]
    congr 1
    ext i hi : 1
    by_cases c : k.val = i
    · subst c
      simp [h.1]
    · have c' : ¬ (⟨i, hi⟩ : Fin 8) = k := fun q => c (by rw [← q])
      simp [c, c']

theorem refreshLines_eq (s : State) : refreshLines s = { s with lines := followed s } := by
  have h := refreshLines_fold s s.lines (List.finRange 8) (List.nodup_finRange 8)
  simpa [List.mem_finRange, refreshLines, followed] using h

theorem followPin_follows (s : State) (pin : Bool) (x : Line) (h : pinLevel s (followPin pin x) = pin) :
    lineFollows s (followPin pin x) := by
  unfold lineFollows
  rw [h]
  unfold followPin
  split
  · simp_all
  · split <;> simp_all

theorem pinLevel_follow (s : State) (x : Line) (pin : Bool) : pinLevel s (followPin pin x) = pinLevel s x := by
  unfold followPin
  split <;> [rfl; split <;> rfl]

theorem followPin_twice (pin : Bool) (x : Line) : followPin pin (followPin pin x) = followPin pin x := by
  by_cases a : x.filtered = pin
  · simp [followPin, a]
  · by_cases b : x.width = 0 <;> simp [followPin, a, b]

/-- An input line's pin is what the outside puts on it. -/
theorem pinLevel_input (s : State) (x : Line) (h : x.event.isOutput = false) : pinLevel s x = x.outside := by
  simp [pinLevel, drives, h]

theorem followPin_event (pin : Bool) (x : Line) : (followPin pin x).event = x.event := by
  unfold followPin
  split <;> [rfl; split <;> rfl]

/-! ## Inputs do not change once taken -/

theorem followed_get (s : State) (l : LineId) : (followed s)[l] = followPin (pinLevel s s.lines[l]) s.lines[l] := by
  simp [followed]

theorem followed_again (s t : State) (e : LineEvent) (h : e.isOutput = false) (x : Line) :
    ((followPin (pinLevel t (followPin (pinLevel s x) x)) (followPin (pinLevel s x) x)).event == e
        && (followPin (pinLevel t (followPin (pinLevel s x) x)) (followPin (pinLevel s x) x)).isActive)
      = ((followPin (pinLevel s x) x).event == e && (followPin (pinLevel s x) x).isActive) := by
  by_cases c : x.event = e
  · have o : x.event.isOutput = false := c ▸ h
    rw [pinLevel_follow, pinLevel_input s x o, pinLevel_input t x o, followPin_twice]
  · rw [followPin_event, followPin_event, beq_false_of_ne c, Bool.false_and, Bool.false_and]

theorem inputActive_iff (s : State) (e : LineEvent) :
    inputActive s e = true ↔ ∃ l : LineId, (s.lines[l].event == e && s.lines[l].isActive) = true := by
  simp only [inputActive, List.any_eq_true, Vector.mem_toList_iff, Vector.mem_iff_getElem]
  constructor
  · rintro ⟨_, ⟨i, hi, rfl⟩, c⟩
    exact ⟨⟨i, hi⟩, c⟩
  · rintro ⟨l, c⟩
    exact ⟨_, ⟨l.val, l.isLt, rfl⟩, c⟩

/-- Lines that follow their pins already give the same inputs when they follow them again. -/
theorem inputActive_followed (s t : State) (e : LineEvent) (h : e.isOutput = false) (ht : t.lines = followed s) :
    inputActive { t with lines := followed t } e = inputActive t e := by
  rw [Bool.eq_iff_iff, inputActive_iff, inputActive_iff]
  refine exists_congr fun l => ?_
  show ((followed t)[l].event == e && (followed t)[l].isActive) = true ↔ _
  rw [followed_get, ht, followed_get, followed_again s t e h]

/-! ## The stages -/

theorem markRecord_eq (r : RecordId) (s : State) : ∃ v, markRecord r s = { s with status := v } := ⟨_, rfl⟩

theorem markRecords_eq (rs : List RecordId) (s : State) :
    ∃ v, rs.foldl (fun s r => markRecord r s) s = { s with status := v } := by
  induction rs generalizing s with
  | nil => exact ⟨s.status, rfl⟩
  | cons r rs ih =>
    obtain ⟨v, h⟩ := markRecord_eq r s
    obtain ⟨w, k⟩ := ih { s with status := v }
    exact ⟨w, by rw [List.foldl_cons, h, k]⟩

/-- What is settled does not depend on marks, dates or the event number. -/
theorem settled_dates (s : State) (v : StatusWriter) (l : FaultLog) (o : Vector OutRing 4) (n : Nat) :
    Settled { s with status := v, log := l, outRings := o, events := n } ↔ Settled s := Iff.rfl

theorem announceRain_eq (o s : State) : ∃ a, announceRain o s = { s with alarm := a } := by
  unfold announceRain
  split
  · exact ⟨s.alarm, rfl⟩
  · exact ⟨_, rfl⟩

theorem announceHead_eq (h : Option PathId) (s : State) : announceHead h s = { s with
    ranking := { s.ranking with head := h, headChanges := satInc s.ranking.headChanges, lastHeadChange := some (stampNow s) }
    alarm := (raiseCause 5 s).alarm, pulses := { s.pulses with pathSwitch := some 0 } } := rfl

theorem announceFallback_eq (f : Bool) (s : State) : announceFallback f s = { s with
    ranking := { s.ranking with
      fallback := f, fallbackEntries := if f then satInc s.ranking.fallbackEntries else s.ranking.fallbackEntries }
    alarm := (raiseCause 6 s).alarm } := rfl

/-- The recomputation changes the ranking, the alarm unit and the pulses only, and leaves the ranking that of its inputs. -/
theorem rerank_eq (s : State) : ∃ r a q, rerank s = { s with ranking := r, alarm := a, pulses := q }
    ∧ r.forced = s.ranking.forced ∧ r.list = rankList s ∧ r.head = headOf (rankList s) ∧ r.fallback = fallbackHolds s := by
  refine ⟨(rerank s).ranking, (rerank s).alarm, (rerank s).pulses, ?_⟩
  by_cases h : headOf (rankList s) = s.ranking.head <;> by_cases f : fallbackHolds s = s.ranking.fallback
  · have e : rerank s = { s with ranking := { s.ranking with list := rankList s } } := by
      simp only [rerank, h, f, beq_self_eq_true, if_true]
    rw [e]
    exact ⟨rfl, rfl, rfl, h.symm, f.symm⟩
  · have e : rerank s = announceFallback (fallbackHolds s) { s with ranking := { s.ranking with list := rankList s } } := by
      simp only [rerank, h, beq_false_of_ne f, beq_self_eq_true, if_true, Bool.false_eq_true, if_false]
    rw [e, announceFallback_eq]
    exact ⟨rfl, rfl, rfl, h.symm, rfl⟩
  · have e : rerank s = announceHead (headOf (rankList s)) { s with ranking := { s.ranking with list := rankList s } } := by
      simp only [rerank, f, beq_false_of_ne h, beq_self_eq_true, if_true, Bool.false_eq_true, if_false]
    rw [e, announceHead_eq]
    exact ⟨rfl, rfl, rfl, rfl, f.symm⟩
  · have e : rerank s = announceFallback (fallbackHolds s)
        (announceHead (headOf (rankList s)) { s with ranking := { s.ranking with list := rankList s } }) := by
      simp only [rerank, beq_false_of_ne f, beq_false_of_ne h, Bool.false_eq_true, if_false]
    rw [e, announceFallback_eq, announceHead_eq]
    exact ⟨rfl, rfl, rfl, rfl, rfl⟩

/-- A settled state, from the facts each stage brings. -/
theorem settled_of (s t : State) (ht : t.lines = followed s)
    (h1 : t.ranking.forced = inputActive t .forceFallback) (h2 : t.sel.launchHold = inputActive t .launchHold)
    (h3 : t.sel.rainInput = inputActive t .rainAlert) (h4 : t.ranking.list = rankList t)
    (h5 : t.ranking.head = headOf t.ranking.list) (h6 : t.ranking.fallback = fallbackHolds t)
    (h7 : t.alarm.alarm = alarmLevel t.alarm) (h8 : t.alarm.inService = criticalActive t.alarm) :
    Settled (refreshLines t) := by
  rw [refreshLines_eq]
  refine ⟨fun l => ?_, ?_, ?_, ?_, h4, h5, h6, h7, h8⟩
  · show lineFollows _ (followed t)[l]
    rw [followed_get]
    exact followPin_follows t _ _ (pinLevel_follow t _ _)
  · rw [inputActive_followed s t _ rfl ht]; exact h1
  · rw [inputActive_followed s t _ rfl ht]; exact h2
  · rw [inputActive_followed s t _ rfl ht]; exact h3

/-- The list depends on the paths and the forced field only. -/
theorem rankList_congr (s t : State) (h : t.paths = s.paths) (f : t.ranking.forced = s.ranking.forced) :
    rankList t = rankList s := by
  have e : rankEntry t = rankEntry s := by
    funext p
    simp only [rankEntry, selectable, effectiveLatency, inService, serializationTerm, fadeTerm, recoveryTerm, h, f]
    rfl
  simp only [rankList, e]

/-- So does fallback. -/
theorem fallbackHolds_congr (s t : State) (h : t.paths = s.paths) (f : t.ranking.forced = s.ranking.forced) :
    fallbackHolds t = fallbackHolds s := by
  simp only [fallbackHolds, selectable, inService, h, f]

/-- The consequences of an event leave a settled state, whatever the state before. -/
theorem settled_settle (o s : State) : Settled (settle o s) := by
  rw [settle_eq]
  unfold consequences
  rw [refreshLines_eq s]
  obtain ⟨a, ha⟩ := announceRain_eq o (takeInputs { s with lines := followed s })
  rw [ha]
  obtain ⟨r, b, q, hr, f1, f2, f3, f4⟩ := rerank_eq { takeInputs { s with lines := followed s } with alarm := a }
  rw [hr]
  generalize hu : (refreshAlarm { { takeInputs { s with lines := followed s } with alarm := a } with
    ranking := r, alarm := b, pulses := q } : State) = u
  have e : rankList u = rankList { takeInputs { s with lines := followed s } with alarm := a } :=
    rankList_congr _ u (by rw [← hu]; rfl) (by rw [← hu]; exact f1)
  have g : fallbackHolds u = fallbackHolds { takeInputs { s with lines := followed s } with alarm := a } :=
    fallbackHolds_congr _ u (by rw [← hu]; rfl) (by rw [← hu]; exact f1)
  have k : u.ranking = r := by rw [← hu]; rfl
  have key := settled_of s u (by rw [← hu]; rfl) (by rw [k, f1, ← hu]; rfl) (by rw [← hu]; rfl) (by rw [← hu]; rfl)
    (by rw [k, f2, e]) (by rw [k, f3, f2]) (by rw [k, f4, g]) (by rw [← hu]; rfl) (by rw [← hu]; rfl)
  generalize refreshLines u = w at key
  unfold markChanges
  obtain ⟨v, hv⟩ := markRecords_eq ((List.finRange 36).filter fun r => !(marking w r == marking o r)) w
  rw [hv]
  exact (settled_dates w _ _ _ _).mpr key

end Sys2Proof.Machine
end

