-- ==== Sys2Proof/Laws/Access.lean ====
section
/-! SUPPORT. What a write does on its way from the P-port to the record that owns its word. -/

namespace Sys2Proof.Machine

/-- A setup word's address is the base of the setup region plus its offset. -/
theorem setupAddress_toNat (s : State) (o : Nat) (h : o < 2048) : (setupAddress s o).toNat = setupBase s + o := by
  have := s.mem.straps.isLt
  simp only [setupAddress, setupBase, BitVec.toNat_ofNat, Config.strapStep]
  omega

/-- A write inside the span and the setup region is checked as a setup word (R85). -/
theorem writeCheck_setup (x : Access) (s : State) (h : inSpan s x.addr.toNat = true)
    (r : inSetupRegion s x.addr.toNat = true) : writeCheck x s = checkSetup x s := by
  simp [writeCheck, h, r]

/-- A full write of a setup word by a privilege-0 master is judged by the record the word belongs to (R84 to R86, R175). -/
theorem arriveSetup_ready (o : Nat) (m : Master) (d : Word) (s : State) (h : o < 2048) (r : SetupReady s m) :
    arriveSetup o m 0xFF d s = match takeSetupWord o d s with
      | .taken t => wordPassed s o m d t
      | .trapped => wordTrapped s o m d
      | .refused c t => consumed (writeOf m (setupAddress s o) 0xFF d) (report .fault c m (setupAddress s o).toNat t) := by
  obtain ⟨l, w, p⟩ := r
  have a := setupAddress_toNat s o h
  have span : inSpan s (setupAddress s o).toNat = true := by
    simp only [within, Bool.and_eq_true, decide_eq_true_eq] at w
    simp only [inSpan, a, Bool.and_eq_true, decide_eq_true_eq]
    have : Config.setupWords = 2048 := rfl
    omega
  have region : inSetupRegion s (setupAddress s o).toNat = true := by
    simp only [inSetupRegion, a, Config.setupWords, Bool.and_eq_true, decide_eq_true_eq]
    omega
  have check : writeCheck (writeOf m (setupAddress s o) 0xFF d) s = takeSetupWord o d s := by
    have inside : setupBase s + o - setupBase s = o := by omega
    rw [writeCheck_setup _ _ span region]
    simp only [checkSetup, mayWrite, writeOf, p, a, inside]
    simp
  rw [arriveSetup, arrive, l]
  simp only [List.isEmpty_nil, if_true]
  rw [takeAccess, show (writeOf m (setupAddress s o) 0xFF d).write = true from rfl, if_pos rfl, takeWrite, check]
  cases takeSetupWord o d s <;> rfl

/-- The same when the word is taken. -/
theorem arriveSetup_taken {o : Nat} {m : Master} {d : Word} {s t : State} (h : o < 2048) (r : SetupReady s m)
    (k : takeSetupWord o d s = .taken t) : arriveSetup o m 0xFF d s = wordPassed s o m d t := by
  rw [arriveSetup_ready o m d s h r, k]

/-- The same when the word is trapped. -/
theorem arriveSetup_trapped {o : Nat} {m : Master} {d : Word} {s : State} (h : o < 2048) (r : SetupReady s m)
    (k : takeSetupWord o d s = .trapped) : arriveSetup o m 0xFF d s = wordTrapped s o m d := by
  rw [arriveSetup_ready o m d s h r, k]

/-- The same when the word is refused. -/
theorem arriveSetup_refused {o : Nat} {m : Master} {d : Word} {s t : State} {c : Cause} (h : o < 2048) (r : SetupReady s m)
    (k : takeSetupWord o d s = .refused c t) :
    arriveSetup o m 0xFF d s
      = consumed (writeOf m (setupAddress s o) 0xFF d) (report .fault c m (setupAddress s o).toNat t) := by
  rw [arriveSetup_ready o m d s h r, k]

/-! ## Which record a word belongs to (Table 12-9) -/

theorem takeSetupWord_identity (i : Fin 2) (d : Word) (s : State) : takeSetupWord i.val d s = takeIdentity i d s := by
  fin_cases i <;> rfl

theorem takeSetupWord_span (d : Word) (s : State) : takeSetupWord 2 d s = takeSpan d s := rfl

theorem takeSetupWord_master (k : Master) (d : Word) (s : State) : takeSetupWord (8 + k.val) d s = takeMaster k d s := by
  fin_cases k <;> rfl

theorem takeSetupWord_extent (e : Fin 15) (d : Word) (s : State) :
    takeSetupWord (16 + 2 * e.val) d s = takeExtent e d s := by
  fin_cases e <;> rfl

theorem takeSetupWord_control (e : Fin 15) (d : Word) (s : State) :
    takeSetupWord (17 + 2 * e.val) d s = takeControlWord e d s := by
  fin_cases e <;> rfl

theorem takeSetupWord_selector (d : Word) (s : State) : takeSetupWord 48 d s = takeSelector d s := rfl

theorem takeSetupWord_time (i : Fin 3) (d : Word) (s : State) : takeSetupWord (49 + i.val) d s = takeTimeSetup i d s := by
  fin_cases i <;> rfl

theorem takeSetupWord_pathMode (p : PathId) (d : Word) (s : State) :
    takeSetupWord (64 + 5 * p.val) d s = takePathMode p d s := by
  fin_cases p <;> rfl

theorem takeSetupWord_timersA (p : PathId) (d : Word) (s : State) :
    takeSetupWord (65 + 5 * p.val) d s = takeTimersA p d s := by
  fin_cases p <;> rfl

theorem takeSetupWord_timersB (p : PathId) (d : Word) (s : State) :
    takeSetupWord (66 + 5 * p.val) d s = takeTimersB p d s := by
  fin_cases p <;> rfl

theorem takeSetupWord_penalties (p : PathId) (d : Word) (s : State) :
    takeSetupWord (67 + 5 * p.val) d s = takePenalties p d s := by
  fin_cases p <;> rfl

theorem takeSetupWord_statusBytes (p : PathId) (d : Word) (s : State) :
    takeSetupWord (68 + 5 * p.val) d s = takeStatusBytes p d s := by
  fin_cases p <;> rfl

theorem takeSetupWord_stream (i : StreamId) (d : Word) (s : State) :
    takeSetupWord (96 + i.val) d s = takeStreamSetup i d s := by
  fin_cases i <;> rfl

theorem takeSetupWord_filter (f : Fin 8) (d : Word) (s : State) :
    takeSetupWord (112 + f.val) d s = takeDivertFilter f d s := by
  fin_cases f <;> rfl

theorem takeSetupWord_ring (n : RingId) (d : Word) (s : State) :
    takeSetupWord (120 + n.val) d s = takeRingControl n d s := by
  fin_cases n <;> rfl

theorem takeSetupWord_log (d : Word) (s : State) : takeSetupWord 124 d s = takeLogRelease d s := rfl

theorem takeSetupWord_line (l : LineId) (d : Word) (s : State) : takeSetupWord (128 + l.val) d s = takeLine l d s := by
  fin_cases l <;> rfl

theorem takeSetupWord_alarm (i : Fin 2) (d : Word) (s : State) :
    takeSetupWord (136 + i.val) d s = takeAlarmSetup i d s := by
  fin_cases i <;> rfl

theorem takeSetupWord_command (d : Word) (s : State) : takeSetupWord 144 d s = takeCommand d s := rfl

end Sys2Proof.Machine
end

