-- ==== Sys2Proof/Laws/Heralds.lean ====
section
/-! SUPPORT. What announces a head, fallback or critical change, and that no part of an event but its consequences touches it: one
lemma per operation. The operations that judge fade conditions are in Laws/Announcements.lean. -/

namespace Sys2Proof.Machine

/- One theorem after another: many at once would each hold a stack of its own. -/
set_option Elab.async false

/-- The ranking, the two pulses, the critical flag, and how often HEAD_CHANGE and FALLBACK_CHANGE were raised. -/
abbrev Heralds := Ranking × Option Nat × Option Nat × Bool × BitVec 16 × BitVec 16

/-- The heralds of a state. -/
def heralds (s : State) : Heralds :=
  (s.ranking, s.pulses.critical, s.pulses.pathSwitch, s.alarm.inService, s.alarm.causes[(5 : CauseId)].raises,
    s.alarm.causes[(6 : CauseId)].raises)

/-- The heralds of the state a verdict leaves. -/
def heralded (s : State) : Verdict → Heralds
  | .taken t => heralds t
  | .trapped => heralds s
  | .refused _ t => heralds t

/-! ## Fields that are no heralds -/

theorem heralded_taken (s t : State) : heralded s (.taken t) = heralds t := rfl
theorem heralded_trapped (s : State) : heralded s .trapped = heralds s := rfl
theorem heralded_refused (s t : State) (c : Cause) : heralded s (.refused c t) = heralds t := rfl
theorem heralds_pending (s : State) (v : List Instr) : heralds { s with pending := v } = heralds s := rfl
theorem heralds_paths (s : State) (v : Vector Path 5) : heralds { s with paths := v } = heralds s := rfl
theorem heralds_time (s : State) (v : TimeBase) : heralds { s with time := v } = heralds s := rfl
theorem heralds_mem (s : State) (v : MemoryPath) : heralds { s with mem := v } = heralds s := rfl
theorem heralds_log (s : State) (v : FaultLog) : heralds { s with log := v } = heralds s := rfl
theorem heralds_outRings (s : State) (v : Vector OutRing 4) : heralds { s with outRings := v } = heralds s := rfl
theorem heralds_nextSequence (s : State) (v : Vector (BitVec 32) 16) : heralds { s with nextSequence := v } = heralds s := rfl
theorem heralds_sel (s : State) (v : Selector) : heralds { s with sel := v } = heralds s := rfl
theorem heralds_streams (s : State) (v : Vector Stream 16) : heralds { s with streams := v } = heralds s := rfl
theorem heralds_filters (s : State) (v : Vector DivertFilter 8) : heralds { s with filters := v } = heralds s := rfl
theorem heralds_inRings (s : State) (v : Vector InRing 4) : heralds { s with inRings := v } = heralds s := rfl
theorem heralds_lines (s : State) (v : Vector Line 8) : heralds { s with lines := v } = heralds s := rfl
theorem heralds_cmd (s : State) (v : CommandUnit) : heralds { s with cmd := v } = heralds s := rfl
theorem heralds_status (s : State) (v : StatusWriter) : heralds { s with status := v } = heralds s := rfl
theorem heralds_identity (s : State) (v : Identity) : heralds { s with identity := v } = heralds s := rfl
theorem heralds_events (s : State) (v : Nat) : heralds { s with events := v } = heralds s := rfl
theorem heralds_freeValues (s : State) (v : Nat) : heralds { s with freeValues := v } = heralds s := rfl

/-! ## Causes -/

theorem heralds_onCause (c : CauseId) (f : AlarmCause → AlarmCause) (s : State)
    (h : c = 5 ∨ c = 6 → (f s.alarm.causes[c]).raises = s.alarm.causes[c].raises) : heralds (onCause c f s) = heralds s := by
  have r : ∀ k : CauseId, k = 5 ∨ k = 6 →
      (s.alarm.causes.set c.val (f s.alarm.causes[c]) c.isLt)[k].raises = s.alarm.causes[k].raises := by
    intro k hk
    by_cases e : c = k
    · subst e; simpa using h hk
    · have : c.val ≠ k.val := fun x => e (Fin.ext x)
      simp [this]
  simp only [heralds, onCause, r 5 (.inl rfl), r 6 (.inr rfl)]
theorem heralds_raise (c : CauseId) (s : State) (h5 : c ≠ 5) (h6 : c ≠ 6) : heralds (raiseCause c s) = heralds s :=
  heralds_onCause _ _ _ (fun h => (h.elim h5 h6).elim)
theorem heralds_raise7 (s : State) : heralds (raiseCause 7 s) = heralds s := heralds_raise _ _ (by decide) (by decide)
theorem heralds_raise12 (s : State) : heralds (raiseCause 12 s) = heralds s := heralds_raise _ _ (by decide) (by decide)
theorem heralds_raise13 (s : State) : heralds (raiseCause 13 s) = heralds s := heralds_raise _ _ (by decide) (by decide)
theorem heralds_raise14 (s : State) : heralds (raiseCause 14 s) = heralds s := heralds_raise _ _ (by decide) (by decide)
theorem heralds_raise15 (s : State) : heralds (raiseCause 15 s) = heralds s := heralds_raise _ _ (by decide) (by decide)
theorem heralds_raise16 (s : State) : heralds (raiseCause 16 s) = heralds s := heralds_raise _ _ (by decide) (by decide)
theorem heralds_raise17 (s : State) : heralds (raiseCause 17 s) = heralds s := heralds_raise _ _ (by decide) (by decide)
theorem heralds_raise18 (s : State) : heralds (raiseCause 18 s) = heralds s := heralds_raise _ _ (by decide) (by decide)
theorem heralds_raise19 (s : State) : heralds (raiseCause 19 s) = heralds s := heralds_raise _ _ (by decide) (by decide)
theorem heralds_raisePath (p : PathId) (s : State) : heralds (raiseCause (pathCause p) s) = heralds s :=
  heralds_raise _ _ (by revert p; decide) (by revert p; decide)
theorem heralds_raiseOverflow (n : RingId) (s : State) : heralds (raiseCause (overflowCause n) s) = heralds s :=
  heralds_raise _ _ (by revert n; decide) (by revert n; decide)

/-! ## Repetition -/

theorem heralds_foldl {α : Type} (g : State → α → State) (h : ∀ s a, heralds (g s a) = heralds s) (l : List α) (s : State) :
    heralds (l.foldl g s) = heralds s := by
  induction l generalizing s with
  | nil => rfl
  | cons a l ih => rw [List.foldl_cons, ih, h]
theorem heralds_ppsOut (s : State) (v : Option Nat) : heralds { s with pulses := { s.pulses with ppsOut := v } } = heralds s := rfl
theorem heralded_takeIf (c : Bool) (s t : State) (h : heralds t = heralds s) : heralded s (takeIf c t) = heralds s := by
  cases c <;> [rfl; exact h]

/-! ## Named operations -/

theorem heralds_onPath (p : PathId) (f : Path → Path) (s : State) : heralds (onPath p f s) = heralds s := rfl
theorem heralds_onSup (p : PathId) (f : Supervisor → Supervisor) (s : State) : heralds (onSup p f s) = heralds s := rfl
theorem heralds_onPort (p : PathId) (f : Port → Port) (s : State) : heralds (onPort p f s) = heralds s := rfl
theorem heralds_onSetup (p : PathId) (f : PathSetup → PathSetup) (s : State) : heralds (onSetup p f s) = heralds s := rfl
theorem heralds_onStream (i : StreamId) (f : Stream → Stream) (s : State) : heralds (onStream i f s) = heralds s := rfl
theorem heralds_onFilter (i : Fin 8) (f : DivertFilter → DivertFilter) (s : State) : heralds (onFilter i f s) = heralds s := rfl
theorem heralds_onInRing (n : RingId) (f : InRing → InRing) (s : State) : heralds (onInRing n f s) = heralds s := rfl
theorem heralds_onOutRing (n : RingId) (f : OutRing → OutRing) (s : State) : heralds (onOutRing n f s) = heralds s := rfl
theorem heralds_onLine (l : LineId) (f : Line → Line) (s : State) : heralds (onLine l f s) = heralds s := rfl
theorem heralds_onMark (r : RecordId) (f : StatusMark → StatusMark) (s : State) : heralds (onMark r f s) = heralds s := rfl
theorem heralds_onCounters (n : RingId) (f : SelectorCounters → SelectorCounters) (s : State) :
    heralds (onCounters n f s) = heralds s := rfl
theorem heralds_onWindow (e : Fin 15) (f : Window → Window) (s : State) : heralds (onWindow e f s) = heralds s := rfl
theorem heralds_clearCause (c : CauseId) (s : State) : heralds (clearCause c s) = heralds s :=
  heralds_onCause _ _ _ (fun _ => rfl)
theorem heralds_markRecord (r : RecordId) (s : State) : heralds (markRecord r s) = heralds s := rfl
theorem heralds_markAll (s : State) : heralds (markAll s) = heralds s :=
  heralds_foldl _ (fun s r => heralds_markRecord r s) _ _
theorem heralds_enqueue (e : WriteEntry) (s : State) : heralds (enqueue e s) = heralds s := rfl
theorem heralds_unqueue (f : WriteEntry → Bool) (s : State) : heralds (unqueue f s) = heralds s := rfl
theorem heralds_countLost (s : State) : heralds (countLost s) = heralds s := by
  simp only [countLost, heralds_raise14, heralds_log]
theorem heralds_report (cls : ReportClass) (cause : Cause) (m : Master) (a : Nat) (s : State) :
    heralds (report cls cause m a s) = heralds s := by
  unfold report
  (repeat' split) <;> (try simp only [heralds_countLost]) <;> (repeat' split) <;> first | rfl | simp only [heralds_countLost]
theorem heralds_completeWith (quiet : Bool) (r : CommandResult) (s : State) : heralds (completeWith quiet r s) = heralds s := by
  unfold completeWith
  (repeat' split) <;> first | rfl | simp only [heralds_markRecord, heralds_raise18, heralds_cmd]
theorem heralds_complete (r : CommandResult) (s : State) : heralds (complete r s) = heralds s := by
  simp only [complete, heralds_completeWith]
theorem heralds_waitFor (w : Wait) (s : State) : heralds (waitFor w s) = heralds s := rfl
theorem heralds_putRecord (r : LaunchRecord) (s : State) : heralds (putRecord r s) = heralds s := rfl
theorem heralds_onQueue (c : LaunchClass) (f : ClassQueue → ClassQueue) (s : State) : heralds (onQueue c f s) = heralds s := by
  unfold onQueue
  (repeat' split) <;> rfl
theorem heralds_onHold (c : LaunchClass) (f : Nat → Nat) (s : State) : heralds (onHold c f s) = heralds s := by
  unfold onHold
  (repeat' split) <;> rfl
theorem heralds_joinOutcomes (n : RingId) (e : OutcomeEntry) (s : State) : heralds (joinOutcomes n e s) = heralds s := rfl
theorem heralds_requestOutcome (r : LaunchRecord) (res : OutcomeResult) (s : State) :
    heralds (requestOutcome r res s) = heralds s := by
  simp only [requestOutcome, heralds_onQueue, heralds_onHold, heralds_onCounters, heralds_joinOutcomes, heralds_sel]
theorem heralds_settleCopies (r : LaunchRecord) (s : State) : heralds (settleCopies r s) = heralds s := by
  unfold settleCopies
  (repeat' split) <;> first | rfl | simp only [heralds_requestOutcome]
theorem heralds_rejoin (r : LaunchRecord) (s : State) : heralds (rejoin r s) = heralds s := by
  simp only [rejoin, heralds_onQueue]
theorem heralds_resteerRecord (p : PathId) (r : LaunchRecord) (s : State) : heralds (resteerRecord p r s) = heralds s := by
  unfold resteerRecord
  dsimp only
  (repeat' split) <;> first | rfl | simp only [heralds_settleCopies,
    heralds_putRecord, heralds_requestOutcome, heralds_rejoin]
theorem heralds_resteerOne (p : PathId) (s : State) (x : RecordName) : heralds (resteerOne p s x) = heralds s := by
  unfold resteerOne
  (repeat' split) <;> first | rfl | simp only [heralds_resteerRecord]
theorem heralds_resteer (p : PathId) (s : State) : heralds (resteer p s) = heralds s :=
  (heralds_foldl _ (heralds_resteerOne p) _ _).trans (heralds_onPort _ _ _)
theorem heralds_insertFrame (p : PathId) (f : ControlFrame) (s : State) : heralds (insertFrame p f s) = heralds s := rfl
theorem heralds_emptyInsert (p : PathId) (s : State) : heralds (emptyInsert p s) = heralds s := rfl
theorem heralds_orderTune (p : PathId) (k : Nat) (s : State) : heralds (orderTune p k s) = heralds s := rfl
theorem heralds_runProbe (p : PathId) (s : State) : heralds (runProbe p s) = heralds s := rfl
theorem heralds_runSilence (p : PathId) (s : State) : heralds (runSilence p s) = heralds s := rfl
theorem heralds_runHold (p : PathId) (s : State) : heralds (runHold p s) = heralds s := rfl
theorem heralds_runGuard (p : PathId) (s : State) : heralds (runGuard p s) = heralds s := rfl
theorem heralds_stopProbe (p : PathId) (s : State) : heralds (stopProbe p s) = heralds s := rfl
theorem heralds_stopSilence (p : PathId) (s : State) : heralds (stopSilence p s) = heralds s := rfl

/-! ## Dates -/

theorem heralds_dateOffers (s : State) : heralds (dateOffers s) = heralds s := rfl

/-! ## Submissions (R94, R110, R114) -/

theorem heralds_submitRecord (r : RecordId) (tick : Nat) (s : State) : heralds (submitRecord r tick s) = heralds s := by
  unfold submitRecord
  (repeat' split) <;> rfl
theorem heralds_doStatusSubmit (s : State) : heralds (doStatusSubmit s) = heralds s := by
  unfold doStatusSubmit
  (repeat' split) <;> first | rfl | simp only [heralds_submitRecord]
theorem heralds_submitOutcome (n : RingId) (e : OutcomeEntry) (w : Fin 15) (s : State) :
    heralds (submitOutcome n e w s) = heralds s := rfl
theorem heralds_doOutcomeSubmit (s : State) : heralds (doOutcomeSubmit s) = heralds s := by
  unfold doOutcomeSubmit
  (repeat' split) <;> rfl
theorem heralds_doFaultEntrySubmit (s : State) : heralds (doFaultEntrySubmit s) = heralds s := by
  unfold doFaultEntrySubmit
  (repeat' split) <;> rfl
theorem heralds_givePlace (n : RingId) (s : State) : heralds (givePlace n s) = heralds s := by
  unfold givePlace
  split
  · unfold nextSubmission
    split
    · simp only [Option.getD_some, heralds_doFaultEntrySubmit, heralds_dateOffers]
    · split
      · simp only [Option.getD_some, heralds_doOutcomeSubmit, heralds_dateOffers]
      · split
        · simp only [Option.getD_some, heralds_doStatusSubmit, heralds_dateOffers]
        · rfl
  · rfl
theorem heralds_resubmit (n : RingId) (s : State) : heralds (resubmit n s) = heralds s :=
  heralds_foldl _ (fun s _ => heralds_givePlace n s) _ _

/-! ## The launch selector -/

theorem heralds_joinTransmit (x : RecordName) (s : State) (p : PathId) : heralds (joinTransmit x s p) = heralds s := rfl
theorem heralds_placeCopies (r : LaunchRecord) (ps : List PathId) (spill single rain : Bool) (s : State) :
    heralds (placeCopies r ps spill single rain s) = heralds s := by
  unfold placeCopies
  rw [heralds_foldl _ (fun s a => heralds_joinTransmit _ s a)]
  simp only [heralds_onCounters, heralds_putRecord, heralds_onQueue]
theorem heralds_doSelection (s : State) : heralds (doSelection s) = heralds s := by
  unfold doSelection
  (repeat' split) <;> first | rfl | simp only [heralds_placeCopies, heralds_requestOutcome]
theorem heralds_ageOne (s : State) (x : RecordName) : heralds (ageOne s x) = heralds s := by
  unfold ageOne
  (repeat' split) <;> first | rfl | simp only [heralds_requestOutcome]
theorem heralds_ageRecords (s : State) : heralds (ageRecords s) = heralds s :=
  heralds_foldl _ (fun s a => heralds_ageOne s a) _ _
theorem heralds_answerCopy (p : PathId) (ok : Bool) (x : RecordName) (s : State) :
    heralds (answerCopy p ok x s) = heralds s := by
  unfold answerCopy
  (repeat' split) <;> first | rfl | simp only [heralds_settleCopies, heralds_putRecord]
theorem heralds_flushRecords (n : RingId) (s : State) : heralds (flushRecords n s) = heralds s :=
  heralds_foldl _ (fun s r => heralds_requestOutcome r .flushed s) _ _

/-! ## The merge -/

theorem heralds_dropRecord (n : RingId) (why : DropReason) (s : State) : heralds (dropRecord n why s) = heralds s := by
  simp only [dropRecord, heralds_raiseOverflow, heralds_onInRing]
theorem heralds_dropRecords (n : RingId) (why : DropReason) (count : Nat) (s : State) :
    heralds (dropRecords n why count s) = heralds s :=
  heralds_foldl _ (fun s _ => heralds_dropRecord n why s) _ _
theorem heralds_handRecord (rec : Delivery) (s : State) (n : RingId) : heralds (handRecord rec s n) = heralds s := by
  unfold handRecord
  (repeat' split) <;> (try dsimp only) <;> (repeat' split) <;> first | rfl | simp only [heralds_dropRecord]
theorem heralds_deliver (rec : Delivery) (s : State) : heralds (deliver rec s) = heralds s := by
  unfold deliver
  (repeat' split) <;> (try simp only [heralds_handRecord]) <;> (repeat' split) <;> first | rfl | simp only [heralds_handRecord,
    heralds_onFilter]
theorem heralds_creditRace (q : PathId) (sample : Nat) (s : State) : heralds (creditRace q sample s) = heralds s := rfl
theorem heralds_acceptArrival (i : StreamId) (p : PathId) (q : BitVec 32) (st : Stamp) (rec : Delivery) (s : State) :
    heralds (acceptArrival i p q st rec s) = heralds s := by
  simp only [acceptArrival, heralds_onStream, heralds_deliver]
theorem heralds_arrival (i : StreamId) (p : PathId) (q : BitVec 32) (st : Stamp) (payload : List Byte) (s : State) :
    heralds (arrival i p q st payload s) = heralds s := by
  unfold arrival
  dsimp only
  (repeat' split) <;> first | rfl | simp only [heralds_acceptArrival,
    heralds_onStream, heralds_raise12, heralds_deliver]
theorem heralds_mergeFrame (p : PathId) (h : FrameHeader) (payload : List Byte) (st : Stamp) (s : State) :
    heralds (mergeFrame p h payload st s) = heralds s := by
  unfold mergeFrame
  dsimp only
  (repeat' split) <;> first | rfl | simp only [heralds_arrival]
theorem heralds_expireGap (i : StreamId) (s : State) (g : Gap) : heralds (expireGap i s g) = heralds s := by
  unfold expireGap
  dsimp only
  (repeat' split) <;> first | rfl | simp only [heralds_raise12, heralds_onStream,
    heralds_deliver]
theorem heralds_expireStream (s : State) (i : StreamId) : heralds (expireStream s i) = heralds s :=
  (heralds_foldl _ (fun s g => heralds_expireGap i s g) _ _).trans (heralds_onStream _ _ _)
theorem heralds_passDeadlines (s : State) : heralds (passDeadlines s) = heralds s :=
  (heralds_foldl _ (fun s i => heralds_expireStream s i) _ _).trans (heralds_ageRecords s)

/-! ## The time base -/

theorem heralds_moveTime (v : Time) (s : State) : heralds (moveTime v s) = heralds s := by
  unfold moveTime
  dsimp only
  rw [heralds_passDeadlines]
  split
  · exact (heralds_ppsOut _ _).trans (heralds_time _ _)
  · exact heralds_time _ _
theorem heralds_markTime (s : State) : heralds (markTime s) = heralds s := rfl
theorem heralds_startSlew (amount : Int) (s : State) : heralds (startSlew amount s) = heralds s := by
  unfold startSlew
  dsimp only
  (repeat' split) <;> rfl
theorem heralds_advanceTime (n : Nat) (s : State) : heralds (advanceTime n s) = heralds s := by
  unfold advanceTime
  split
  · rfl
  · dsimp only
    rw [heralds_moveTime]
    split
    · exact (heralds_markTime _).trans (heralds_time _ _)
    · exact heralds_time _ _
theorem heralds_clearInbound (s : State) : heralds (clearInbound s) = heralds s := rfl
theorem heralds_setDiscipline (q : Quality) (s : State) : heralds (setDiscipline q s) = heralds s := by
  unfold setDiscipline
  (repeat' split) <;> first | rfl | simp only [heralds_raise7, heralds_clearInbound, heralds_time]
theorem heralds_setLockRun (n : Nat) (s : State) : heralds (setLockRun n s) = heralds s := rfl
theorem heralds_acquireBeyond (offset : Int) (s : State) : heralds (acquireBeyond offset s) = heralds s := by
  unfold acquireBeyond
  dsimp only
  split
  · rw [heralds_moveTime, heralds_markTime, heralds_startSlew, heralds_time, heralds_setLockRun]
  · rw [heralds_startSlew, heralds_setLockRun]
theorem heralds_acquireWithin (offset : Int) (s : State) : heralds (acquireWithin offset s) = heralds s := by
  unfold acquireWithin
  dsimp only
  (repeat' split) <;> first | rfl | simp only [heralds_startSlew, heralds_setLockRun,
    heralds_setDiscipline]
theorem heralds_pulseByState (offset : Int) (s : State) : heralds (pulseByState offset s) = heralds s := by
  unfold pulseByState
  (repeat' split) <;> (try dsimp only) <;> (repeat' split) <;> first | rfl | simp only [heralds_setDiscipline,
    heralds_setLockRun, heralds_startSlew, heralds_acquireBeyond, heralds_acquireWithin, heralds_time]
theorem heralds_takePulse (width : Nat) (s : State) : heralds (takePulse width s) = heralds s := by
  unfold takePulse
  (repeat' split) <;> first | rfl | simp only [heralds_pulseByState, heralds_markTime, heralds_time]
theorem heralds_watchdogFires (s : State) : heralds (watchdogFires s) = heralds s := by
  unfold watchdogFires
  (repeat' split) <;> first | rfl | simp only [heralds_setDiscipline, heralds_setLockRun, heralds_time]
theorem heralds_limitReached (s : State) : heralds (limitReached s) = heralds s := by
  unfold limitReached
  (repeat' split) <;> first | rfl | simp only [heralds_setDiscipline]
theorem heralds_doPulseWatchdog (s : State) : heralds (doPulseWatchdog s) = heralds s := by
  unfold doPulseWatchdog
  (repeat' split) <;> first | rfl | simp only [heralds_watchdogFires, heralds_time]
theorem heralds_doHoldoverLimit (s : State) : heralds (doHoldoverLimit s) = heralds s := by
  unfold doHoldoverLimit
  (repeat' split) <;> first | rfl | simp only [heralds_limitReached, heralds_time]
theorem heralds_doSlewEnd (s : State) : heralds (doSlewEnd s) = heralds s := by
  unfold doSlewEnd
  (repeat' split) <;> first | rfl | simp only [heralds_advanceTime]
theorem heralds_doPpsOut (s : State) : heralds (doPpsOut s) = heralds s := by
  unfold doPpsOut
  dsimp only
  split
  · rw [heralds_moveTime, heralds_time]
  · rfl
theorem heralds_passTime (d : Time) (s : State) : heralds (passTime d s) = heralds s := by
  unfold passTime
  split
  · exact heralds_passDeadlines s
  · split
    · rw [heralds_moveTime, heralds_time]
    · rfl
theorem heralds_doGapExpiry (i : StreamId) (s : State) : heralds (doGapExpiry i s) = heralds s := by
  unfold doGapExpiry
  (repeat' split) <;> first | rfl | simp only [heralds_passTime]
theorem heralds_doAgeing (s : State) : heralds (doAgeing s) = heralds s := by
  unfold doAgeing
  (repeat' split) <;> first | rfl | simp only [heralds_passTime]

/-! ## The contract -/

theorem heralds_setPathState (p : PathId) (x : PathState) (s : State) : heralds (setPathState p x s) = heralds s := by
  unfold setPathState
  (repeat' split) <;> first | rfl | simp only [heralds_raisePath, heralds_onSup]
theorem heralds_enterService (p : PathId) (s : State) : heralds (enterService p s) = heralds s := by
  unfold enterService
  (repeat' split) <;> first | rfl | simp only [heralds_setPathState, heralds_runSilence]
theorem heralds_enterDown (p : PathId) (s : State) : heralds (enterDown p s) = heralds s := by
  simp only [enterDown, heralds_setPathState, heralds_runProbe, heralds_stopSilence, heralds_onSup]
theorem heralds_leaveContract (p : PathId) (s : State) : heralds (leaveContract p s) = heralds s := rfl
theorem heralds_enterHeld (p : PathId) (s : State) : heralds (enterHeld p s) = heralds s := by
  simp only [enterHeld, heralds_setPathState, heralds_resteer, heralds_leaveContract, heralds_runHold, heralds_onSup]
theorem heralds_enterDisabled (p : PathId) (s : State) : heralds (enterDisabled p s) = heralds s := by
  simp only [enterDisabled, heralds_setPathState, heralds_resteer, heralds_leaveContract]
theorem heralds_enterTraining (p : PathId) (s : State) : heralds (enterTraining p s) = heralds s := by
  simp only [enterTraining, heralds_setPathState, heralds_runSilence, heralds_onSup]
theorem heralds_aimAt (p : PathId) (k : Nat) (s : State) : heralds (aimAt p k s) = heralds s := rfl
theorem heralds_enterRetune (p : PathId) (target : Option Nat) (s : State) : heralds (enterRetune p target s) = heralds s := by
  unfold enterRetune
  (repeat' split) <;> first | rfl | simp only [heralds_setPathState, heralds_resteer, heralds_emptyInsert, heralds_onSup,
    heralds_orderTune]
theorem heralds_sendOffer (p : PathId) (s : State) : heralds (sendOffer p s) = heralds s := rfl
theorem heralds_sendNewGrant (p : PathId) (answered : Byte) (k : Nat) (s : State) :
    heralds (sendNewGrant p answered k s) = heralds s := rfl
theorem heralds_repeatGrant (p : PathId) (s : State) : heralds (repeatGrant p s) = heralds s := rfl
theorem heralds_takeMismatch (p : PathId) (s : State) : heralds (takeMismatch p s) = heralds s := by
  unfold takeMismatch
  (repeat' split) <;> (try dsimp only) <;> (repeat' split) <;> first | rfl | simp only [heralds_raise16, heralds_onSup,
    heralds_enterHeld]
theorem heralds_answerOffer (p : PathId) (was : Supervisor) (number : Byte) (mask : ProfileMask) (g : Nat) (s : State) :
    heralds (answerOffer p was number mask g s) = heralds s := by
  unfold answerOffer
  (repeat' split) <;> rfl
theorem heralds_decideProfile (p : PathId) (g : Nat) (s : State) : heralds (decideProfile p g s) = heralds s := rfl
theorem heralds_leadTakesOffer (p : PathId) (was : Supervisor) (number : Byte) (mask : ProfileMask) (s : State) :
    heralds (leadTakesOffer p was number mask s) = heralds s := by
  unfold leadTakesOffer
  dsimp only
  (repeat' split) <;> first | rfl | simp only [heralds_answerOffer,
    heralds_takeMismatch, heralds_decideProfile, heralds_enterTraining, heralds_enterRetune, heralds_onSup]
theorem heralds_takeOffer (p : PathId) (number : Byte) (mask : ProfileMask) (contract : Nat) (s : State) :
    heralds (takeOffer p number mask contract s) = heralds s := by
  unfold takeOffer
  (repeat' split) <;> first | rfl | simp only [heralds_onSup, heralds_leadTakesOffer]
theorem heralds_discardGrant (p : PathId) (s : State) : heralds (discardGrant p s) = heralds s := rfl
theorem heralds_followGrant (p : PathId) (k : Nat) (s : State) : heralds (followGrant p k s) = heralds s := by
  unfold followGrant
  dsimp only
  (repeat' split) <;> first | rfl | simp only [heralds_aimAt, heralds_enterTraining,
    heralds_enterRetune]
theorem heralds_applyGrant (p : PathId) (number answered : Byte) (k : Nat) (mismatch : Bool) (s : State) :
    heralds (applyGrant p number answered k mismatch s) = heralds s := by
  unfold applyGrant
  (repeat' split) <;> (try simp only [heralds_onSup, heralds_takeMismatch]) <;> (repeat' split) <;> first | rfl | simp only
    [heralds_onSup, heralds_followGrant]
theorem heralds_takeGrant (p : PathId) (number answered : Byte) (k : Nat) (mismatch : Bool) (s : State) :
    heralds (takeGrant p number answered k mismatch s) = heralds s := by
  unfold takeGrant
  (repeat' split) <;> (try simp only [heralds_discardGrant]) <;> (repeat' split) <;> first | rfl | simp only
    [heralds_applyGrant]
theorem heralds_leadResends (p : PathId) (s : State) : heralds (leadResends p s) = heralds s := by
  unfold leadResends
  dsimp only
  (repeat' split) <;> first | rfl | simp only [heralds_sendNewGrant,
    heralds_takeMismatch]
theorem heralds_resend (p : PathId) (s : State) : heralds (resend p s) = heralds s := by
  unfold resend
  (repeat' split) <;> (try dsimp only) <;> (repeat' split) <;> first | rfl | simp only [heralds_leadResends, heralds_orderTune]
theorem heralds_stepDown (p : PathId) (s : State) : heralds (stepDown p s) = heralds s := by
  unfold stepDown
  split
  · rw [heralds_sendOffer, heralds_enterRetune]
  · dsimp only
    split
    · rw [heralds_takeMismatch, heralds_sendNewGrant, heralds_enterRetune]
    · rw [heralds_sendNewGrant, heralds_onSup, heralds_enterRetune]

/-! ## The supervisor -/

theorem heralds_storeReport (p : PathId) (margin : Byte) (profile : Nat) (unit : UnitState) (s : State) :
    heralds (storeReport p margin profile unit s) = heralds s := rfl
theorem heralds_confirm (p : PathId) (s : State) : heralds (confirm p s) = heralds s := rfl
theorem heralds_confirmRetune (p : PathId) (s : State) : heralds (confirmRetune p s) = heralds s := by
  unfold confirmRetune
  simp only [heralds_enterService]
  (repeat' split) <;> rfl
theorem heralds_countSupport (p : PathId) (s : State) : heralds (countSupport p s) = heralds s := rfl
theorem heralds_requestStepUp (p : PathId) (s : State) : heralds (requestStepUp p s) = heralds s := rfl
theorem heralds_actOnGroundReport (p : PathId) (s : State) : heralds (actOnGroundReport p s) = heralds s := by
  unfold actOnGroundReport
  dsimp only
  (repeat' split) <;> first | rfl | simp only [heralds_enterHeld]
theorem heralds_sendProbe (p : PathId) (s : State) : heralds (sendProbe p s) = heralds s := rfl
theorem heralds_takeSample (p : PathId) (sample : Nat × LatencyKind) (s : State) :
    heralds (takeSample p sample s) = heralds s := rfl
theorem heralds_takeInbound (p : PathId) (h : FrameHeader) (arrived : Stamp) (s : State) :
    heralds (takeInbound p h arrived s) = heralds s := by
  unfold takeInbound
  (repeat' split) <;> rfl
theorem heralds_takeQuery (p : PathId) (number : Byte) (s : State) : heralds (takeQuery p number s) = heralds s := rfl
theorem heralds_takeAnswer (p : PathId) (number : Byte) (status : BitVec 32) (s : State) :
    heralds (takeAnswer p number status s) = heralds s := by
  unfold takeAnswer
  dsimp only
  (repeat' split) <;> rfl
theorem heralds_clearClash (p : PathId) (header : Role) (s : State) : heralds (clearClash p header s) = heralds s := by
  unfold clearClash
  (repeat' split) <;> rfl
theorem heralds_probeUnderflow (p : PathId) (s : State) : heralds (probeUnderflow p s) = heralds s := by
  unfold probeUnderflow
  (repeat' split) <;> (try dsimp only) <;> (repeat' split) <;> first | rfl | simp only [heralds_resend]
theorem heralds_silenceEnds (p : PathId) (s : State) : heralds (silenceEnds p s) = heralds s := by
  unfold silenceEnds
  (repeat' split) <;> first | rfl | simp only [heralds_enterHeld]
theorem heralds_holdMatches (p : PathId) (s : State) : heralds (holdMatches p s) = heralds s := by
  unfold holdMatches
  (repeat' split) <;> first | rfl | simp only [heralds_enterDown]
theorem heralds_holdEnds (p : PathId) (s : State) : heralds (holdEnds p s) = heralds s := by
  unfold holdEnds
  (repeat' split) <;> first | rfl | simp only [heralds_onSup, heralds_enterDown]
theorem heralds_reloadProbe (p : PathId) (s : State) : heralds (reloadProbe p s) = heralds s := by
  unfold reloadProbe
  (repeat' split) <;> rfl
theorem heralds_doProbeChannelUnderflow (p : PathId) (s : State) : heralds (doProbeChannelUnderflow p s) = heralds s := by
  unfold doProbeChannelUnderflow
  (repeat' split) <;> first | rfl | simp only [heralds_probeUnderflow, heralds_onPath]
theorem heralds_doSilenceUnderflow (p : PathId) (s : State) : heralds (doSilenceUnderflow p s) = heralds s := by
  unfold doSilenceUnderflow
  (repeat' split) <;> first | rfl | simp only [heralds_silenceEnds, heralds_stopSilence, heralds_onPath]
theorem heralds_reachCompare (p : PathId) (s : State) : heralds (reachCompare p s) = heralds s := by
  unfold reachCompare
  dsimp only
  (repeat' split) <;> rfl
theorem heralds_doHoldCompareMatch (p : PathId) (s : State) : heralds (doHoldCompareMatch p s) = heralds s := by
  unfold doHoldCompareMatch
  dsimp only
  (repeat' split) <;> first | rfl | simp only [heralds_holdMatches, heralds_onPath]
theorem heralds_doHoldUnderflow (p : PathId) (s : State) : heralds (doHoldUnderflow p s) = heralds s := by
  unfold doHoldUnderflow
  (repeat' split) <;> first | rfl | simp only [heralds_holdEnds, heralds_onPath]
theorem heralds_doGuardUnderflow (p : PathId) (s : State) : heralds (doGuardUnderflow p s) = heralds s := by
  unfold doGuardUnderflow
  (repeat' split) <;> rfl

/-! ## The ports -/

theorem heralds_answersDone (p : PathId) (s : State) : heralds (answersDone p s) = heralds s := by
  unfold answersDone
  (repeat' split) <;> first | rfl | simp only [heralds_complete]
theorem heralds_finishOldest (p : PathId) (ok : Bool) (count : Port → Port) (s : State) :
    heralds (finishOldest p ok count s) = heralds s := by
  unfold finishOldest
  (repeat' split) <;> first | rfl | simp only [heralds_onPort, heralds_answerCopy, heralds_answersDone]
theorem heralds_lateAnswer (p : PathId) (s : State) : heralds (lateAnswer p s) = heralds s := rfl
theorem heralds_doAccept (p : PathId) (s : State) : heralds (doAccept p s) = heralds s := by
  unfold doAccept
  (repeat' split) <;> first | rfl | simp only [heralds_finishOldest]
theorem heralds_doReject (p : PathId) (s : State) : heralds (doReject p s) = heralds s := by
  unfold doReject
  (repeat' split) <;> first | rfl | simp only [heralds_finishOldest]
theorem heralds_doNoAnswer (p : PathId) (s : State) : heralds (doNoAnswer p s) = heralds s := by
  simp only [doNoAnswer, heralds_finishOldest]
theorem heralds_discardMessage (p : PathId) (s : State) : heralds (discardMessage p s) = heralds s := rfl
theorem heralds_handOver (p : PathId) (frame : List Byte) (e : AwaitEntry) (s : State) :
    heralds (handOver p frame e s) = heralds s := rfl
theorem heralds_sendCopy (p : PathId) (r : LaunchRecord) (s : State) : heralds (sendCopy p r s) = heralds s := rfl
theorem heralds_doSendEnd (p : PathId) (s : State) : heralds (doSendEnd p s) = heralds s := by
  unfold doSendEnd
  (repeat' split) <;> rfl
theorem heralds_doTuneStart (p : PathId) (s : State) : heralds (doTuneStart p s) = heralds s := by
  unfold doTuneStart
  (repeat' split) <;> rfl
theorem heralds_doTuneEnd (p : PathId) (s : State) : heralds (doTuneEnd p s) = heralds s := by
  unfold doTuneEnd
  (repeat' split) <;> rfl

/-! ## Capture -/

theorem heralds_onSlot (n : RingId) (k : Nat) (f : Slot → Slot) (s : State) : heralds (onSlot n k f s) = heralds s := rfl
theorem heralds_stage (n : RingId) (k : Nat) (w : Fin 7) (be : ByteEnables) (d : Word) (s : State) :
    heralds (stage n k w be d s) = heralds s := rfl
theorem heralds_joinClass (r : LaunchRecord) (s : State) : heralds (joinClass r s) = heralds s := by
  simp only [joinClass, heralds_onQueue, heralds_sel]
theorem heralds_setSequence (i : StreamId) (q : BitVec 32) (s : State) : heralds (setSequence i q s) = heralds s := rfl
theorem heralds_capture (n : RingId) (k : Nat) (x : Slot) (h : SlotHeader) (c : LaunchClass) (s : State) :
    heralds (capture n k x h c s) = heralds s := by
  simp only [capture, heralds_setSequence, heralds_onHold, heralds_onSlot, heralds_onOutRing, heralds_joinClass]
theorem heralds_enterRefusal (n : RingId) (k : Nat) (x : Slot) (h : SlotHeader) (res : OutcomeResult) (s : State) :
    heralds (enterRefusal n k x h res s) = heralds s := rfl
theorem heralded_refuseHeader (n : RingId) (c : Cause) (s : State) : heralded s (refuseHeader n c s) = heralds s := rfl
theorem heralds_decideHeader (n : RingId) (k : Nat) (x : Slot) (h : SlotHeader) (s : State) :
    heralds (decideHeader n k x h s) = heralds s := by
  unfold decideHeader
  (repeat' split) <;> first | rfl | simp only [heralds_capture]
theorem heralded_takeHeader (n : RingId) (k : Nat) (be : ByteEnables) (d : Word) (s : State) :
    heralded s (takeHeader n k be d s) = heralds s := by
  unfold takeHeader
  (repeat' split) <;> first | rfl | simp only [heralds_decideHeader, heralded_taken]
theorem heralded_takeOutbound (n : RingId) (base : Nat) (a : Nat) (be : ByteEnables) (d : Word) (s : State) :
    heralded s (takeOutbound n base a be d s) = heralds s := by
  unfold takeOutbound
  dsimp only
  (repeat' split) <;> first | rfl | simp only [heralded_takeHeader]

/-! ## Setup words -/

theorem heralded_takeIdentity (i : Fin 2) (d : Word) (s : State) : heralded s (takeIdentity i d s) = heralds s := rfl
theorem heralded_takeSelector (d : Word) (s : State) : heralded s (takeSelector d s) = heralds s :=
  heralded_takeIf _ _ _ rfl
theorem heralded_takeTimeControl (d : Word) (s : State) : heralded s (takeTimeControl d s) = heralds s :=
  heralded_takeIf _ _ _ ((heralds_limitReached _).trans (heralds_time _ _))
theorem heralded_takeSetValue (d : Word) (s : State) : heralded s (takeSetValue d s) = heralds s :=
  heralded_takeIf _ _ _ rfl
theorem heralded_takeAdjust (d : Word) (s : State) : heralded s (takeAdjust d s) = heralds s := rfl
theorem heralded_takeTimeSetup (i : Fin 3) (d : Word) (s : State) : heralded s (takeTimeSetup i d s) = heralds s := by
  unfold takeTimeSetup
  (repeat' split) <;> first | rfl | simp only [heralded_takeTimeControl, heralded_takeSetValue]
theorem heralded_takePathMode (p : PathId) (d : Word) (s : State) : heralded s (takePathMode p d s) = heralds s :=
  heralded_takeIf _ _ _ (heralds_onPath _ _ _)
theorem heralded_takeTimersA (p : PathId) (d : Word) (s : State) : heralded s (takeTimersA p d s) = heralds s := by
  unfold takeTimersA
  (repeat' split) <;> rfl
theorem heralded_takeTimersB (p : PathId) (d : Word) (s : State) : heralded s (takeTimersB p d s) = heralds s :=
  heralded_takeIf _ _ _ (heralds_onSetup _ _ _)
theorem heralded_takePenalties (p : PathId) (d : Word) (s : State) : heralded s (takePenalties p d s) = heralds s := rfl
theorem heralded_takeStatusBytes (p : PathId) (d : Word) (s : State) : heralded s (takeStatusBytes p d s) = heralds s := rfl
theorem heralded_takePathSetup (p : PathId) (i : Nat) (d : Word) (s : State) :
    heralded s (takePathSetup p i d s) = heralds s := by
  unfold takePathSetup
  (repeat' split) <;> first | rfl | simp only [heralded_takePathMode, heralded_takeTimersA, heralded_takeTimersB]
theorem heralded_takeStreamSetup (i : StreamId) (d : Word) (s : State) : heralded s (takeStreamSetup i d s) = heralds s :=
  heralded_takeIf _ _ _ (heralds_onStream _ _ _)
theorem heralded_takeDivertFilter (f : Fin 8) (d : Word) (s : State) : heralded s (takeDivertFilter f d s) = heralds s := by
  unfold takeDivertFilter
  (repeat' split) <;> rfl
theorem heralded_takeRingControl (n : RingId) (d : Word) (s : State) : heralded s (takeRingControl n d s) = heralds s :=
  heralded_takeIf _ _ _ (heralds_onInRing _ _ _)
theorem heralded_takeLogRelease (d : Word) (s : State) : heralded s (takeLogRelease d s) = heralds s :=
  heralded_takeIf _ _ _ rfl
theorem heralded_takeLine (l : LineId) (d : Word) (s : State) : heralded s (takeLine l d s) = heralds s := by
  unfold takeLine
  (repeat' split) <;> rfl
theorem heralded_takeCauseWord (d : Word) (s : State) : heralded s (takeCauseWord d s) = heralds s := by
  simp only [takeCauseWord, heralded_taken, heralds, Fin.getElem_fin, Vector.getElem_ofFn]
theorem heralded_takeAlarmControl (d : Word) (s : State) : heralded s (takeAlarmControl d s) = heralds s :=
  heralded_takeIf _ _ _ rfl
theorem heralded_takeAlarmSetup (i : Fin 2) (d : Word) (s : State) : heralded s (takeAlarmSetup i d s) = heralds s := by
  unfold takeAlarmSetup
  split <;> [exact heralded_takeCauseWord d s; exact heralded_takeAlarmControl d s]

/-! ## Commands -/

theorem heralds_enablePath (p : PathId) (s : State) : heralds (enablePath p s) = heralds s := by
  unfold enablePath
  (repeat' split) <;> first | rfl | simp only [heralds_complete, heralds_enterDown]
theorem heralds_disablePath (p : PathId) (s : State) : heralds (disablePath p s) = heralds s := by
  unfold disablePath
  (repeat' split) <;> first | rfl | simp only [heralds_answersDone, heralds_waitFor, heralds_enterDisabled]
theorem heralds_resetPath (p : PathId) (s : State) : heralds (resetPath p s) = heralds s := by
  unfold resetPath
  (repeat' split) <;> first | rfl | simp only [heralds_complete, heralds_onPath]
theorem heralds_queryPath (p : PathId) (s : State) : heralds (queryPath p s) = heralds s := by
  unfold queryPath
  (repeat' split) <;> first | rfl | simp only [heralds_onSup, heralds_complete, heralds_insertFrame]
theorem heralds_startRing (n : RingId) (s : State) : heralds (startRing n s) = heralds s := by
  unfold startRing
  (repeat' split) <;> first | rfl | simp only [heralds_complete, heralds_onInRing]
theorem heralds_dropQueued (n : RingId) (s : State) : heralds (dropQueued n s) = heralds s := by
  simp only [dropQueued, heralds_dropRecords, heralds_unqueue]
theorem heralds_stopActive (n : RingId) (s : State) : heralds (stopActive n s) = heralds s := by
  unfold stopActive
  dsimp only
  (repeat' split) <;> first | rfl | simp only [heralds_onInRing, heralds_dropQueued,
    heralds_waitFor, heralds_complete]
theorem heralds_stopRing (n : RingId) (s : State) : heralds (stopRing n s) = heralds s := by
  unfold stopRing
  (repeat' split) <;> first | rfl | simp only [heralds_stopActive, heralds_complete, heralds_onInRing]
theorem heralds_resetRing (n : RingId) (s : State) : heralds (resetRing n s) = heralds s := by
  unfold resetRing
  (repeat' split) <;> first | rfl | simp only [heralds_complete, heralds_clearCause, heralds_onInRing]
theorem heralds_endHalt (n : RingId) (s : State) : heralds (endHalt n s) = heralds s := by
  unfold endHalt
  split
  · rw [heralds_resubmit, heralds_onOutRing]
  · rfl
theorem heralds_flushRing (n : RingId) (s : State) : heralds (flushRing n s) = heralds s := by
  unfold flushRing
  dsimp only
  (repeat' split) <;> first | rfl | simp only [heralds_flushRecords, heralds_endHalt,
    heralds_complete, heralds_waitFor]
theorem heralds_setOutSequence (d : Word) (i : StreamId) (s : State) : heralds (setOutSequence d i s) = heralds s := by
  simp only [setOutSequence, heralds_complete, heralds_setSequence]
theorem heralds_resetStream (i : StreamId) (s : State) : heralds (resetStream i s) = heralds s := by
  simp only [resetStream, heralds_complete, heralds_onStream]
theorem heralds_timeSet (s : State) : heralds (timeSet s) = heralds s := by
  unfold timeSet
  split
  · exact heralds_complete _ _
  · dsimp only
    rw [heralds_complete, heralds_moveTime]
    split
    · rw [heralds_markTime, heralds_startSlew, heralds_time]
    · rw [heralds_startSlew, heralds_time]
theorem heralds_timeAdjust (s : State) : heralds (timeAdjust s) = heralds s := by
  simp only [timeAdjust, heralds_complete, heralds_startSlew, heralds_time]
theorem heralds_setRain (b : Bool) (s : State) : heralds (setRain b s) = heralds s := by
  simp only [setRain, heralds_complete, heralds_sel]
theorem heralds_clearNamed (set : Nat) (s : State) : heralds (clearNamed set s) = heralds s := by
  simp only [clearNamed, heralds, Fin.getElem_fin, Vector.getElem_ofFn]
theorem heralds_ackAlarms (d : Word) (s : State) : heralds (ackAlarms d s) = heralds s := by
  unfold ackAlarms
  dsimp only
  (repeat' split) <;> first | rfl | simp only [heralds_completeWith,
    heralds_clearNamed]
theorem heralds_cleanLog (s : State) : heralds (cleanLog s) = heralds s := rfl
theorem heralds_resetLog (s : State) : heralds (resetLog s) = heralds s := by
  unfold resetLog
  (repeat' split) <;> first | rfl | simp only [heralds_complete, heralds_cleanLog]
theorem heralds_restartWriter (s : State) : heralds (restartWriter s) = heralds s :=
  (heralds_markAll _).trans (heralds_status _ _)
theorem heralds_forgetSubmissions (s : State) : heralds (forgetSubmissions s) = heralds s := rfl
theorem heralds_takeSnapshot (s : State) : heralds (takeSnapshot s) = heralds s := by
  unfold takeSnapshot
  split
  · exact heralds_complete _ _
  · rw [heralds_waitFor, heralds_forgetSubmissions, heralds_restartWriter]
theorem heralds_withIndex (n : Nat) (d : Word) (act : Fin n → State → State) (s : State) (h : ∀ i s, heralds (act i s) =
    heralds s) :
    heralds (withIndex n d act s) = heralds s := by
  unfold withIndex
  split <;> [exact h _ _; exact heralds_complete _ _]
theorem heralds_runCommand (d : Word) (s : State) : heralds (runCommand d s) = heralds s := by
  unfold runCommand
  split <;> first
    | exact heralds_timeSet s | exact heralds_timeAdjust s | exact heralds_setRain _ s | exact heralds_ackAlarms d s
    | exact heralds_resetLog s | exact heralds_takeSnapshot s | exact heralds_complete _ s
    | exact heralds_withIndex _ _ _ _ heralds_enablePath | exact heralds_withIndex _ _ _ _ heralds_disablePath
    | exact heralds_withIndex _ _ _ _ heralds_resetPath | exact heralds_withIndex _ _ _ _ heralds_startRing
    | exact heralds_withIndex _ _ _ _ heralds_stopRing | exact heralds_withIndex _ _ _ _ heralds_resetRing
    | exact heralds_withIndex _ _ _ _ heralds_flushRing | exact heralds_withIndex _ _ _ _ (heralds_setOutSequence d)
    | exact heralds_withIndex _ _ _ _ heralds_resetStream | exact heralds_withIndex _ _ _ _ heralds_queryPath
theorem heralded_takeCommand (d : Word) (s : State) : heralded s (takeCommand d s) = heralds s := by
  unfold takeCommand
  (repeat' split) <;> first | rfl | simp only [heralds_runCommand, heralded_taken, heralds_cmd]

/-! ## Windows -/

theorem heralded_takeSpan (d : Word) (s : State) : heralded s (takeSpan d s) = heralds s :=
  heralded_takeIf _ _ _ rfl
theorem heralded_takeMaster (k : Master) (d : Word) (s : State) : heralded s (takeMaster k d s) = heralds s :=
  heralded_takeIf _ _ _ rfl
theorem heralded_takeExtent (e : Fin 15) (d : Word) (s : State) : heralded s (takeExtent e d s) = heralds s := by
  unfold takeExtent
  dsimp only
  split
  · split <;> rfl
  · exact heralded_takeIf _ _ _ (heralds_onWindow _ _ _)
theorem heralds_windowOpened (w : Window) (s : State) : heralds (windowOpened w s) = heralds s := by
  unfold windowOpened
  split <;> simp only [heralds_restartWriter, heralds_onOutRing, heralds_onInRing]
theorem heralds_snapshotLoses (r : CommandResult) (s : State) : heralds (snapshotLoses r s) = heralds s := by
  unfold snapshotLoses
  (repeat' split) <;> first | rfl | simp only [heralds_complete]
theorem heralds_windowClosed (w : Window) (s : State) : heralds (windowClosed w s) = heralds s := by
  unfold windowClosed
  (repeat' split) <;> first | rfl | simp only [heralds_snapshotLoses]
theorem heralded_takeControlWord (e : Fin 15) (d : Word) (s : State) : heralded s (takeControlWord e d s) = heralds s := by
  unfold takeControlWord
  split
  · rfl
  · dsimp only
    split
    · split
      · split
        · exact heralds_onWindow _ _ _
        · rfl
      · exact heralded_takeIf _ _ _ ((heralds_windowOpened _ _).trans (heralds_onWindow _ _ _))
    · split
      · split
        · rfl
        · exact (heralds_windowClosed _ _).trans (heralds_onWindow _ _ _)
      · exact heralds_onWindow _ _ _

/-! ## The P-port -/

theorem heralded_takeUpperWord (o : Nat) (d : Word) (s : State) : heralded s (takeUpperWord o d s) = heralds s := by
  unfold takeUpperWord
  (repeat' split) <;> first | rfl | simp only [heralded_takeRingControl, heralded_takeLine, heralded_takeAlarmSetup,
    heralded_takeLogRelease, heralded_takeCommand]
theorem heralded_takeMiddleWord (o : Nat) (d : Word) (s : State) : heralded s (takeMiddleWord o d s) = heralds s := by
  unfold takeMiddleWord
  (repeat' split) <;> first | rfl | simp only [heralded_takePathSetup, heralded_takeStreamSetup, heralded_takeDivertFilter]
theorem heralded_takeWindowWord (i : Fin 30) (d : Word) (s : State) : heralded s (takeWindowWord i d s) = heralds s := by
  unfold takeWindowWord
  (repeat' split) <;> first | rfl | simp only [heralded_takeExtent, heralded_takeControlWord]
theorem heralded_takeLowerWord (o : Nat) (d : Word) (s : State) : heralded s (takeLowerWord o d s) = heralds s := by
  unfold takeLowerWord
  (repeat' split) <;> first | rfl | simp only [heralded_takeMaster, heralded_takeWindowWord, heralded_takeTimeSetup,
    heralded_takeSpan, heralded_takeSelector]
theorem heralded_takeSetupWord (o : Nat) (d : Word) (s : State) : heralded s (takeSetupWord o d s) = heralds s := by
  unfold takeSetupWord
  (repeat' split) <;> first | rfl | simp only [heralded_takeLowerWord, heralded_takeMiddleWord, heralded_takeUpperWord]
theorem heralded_checkSetup (x : Access) (s : State) : heralded s (checkSetup x s) = heralds s := by
  unfold checkSetup
  (repeat' split) <;> first | rfl | simp only [heralded_takeSetupWord]
theorem heralded_checkWindow (w : Window) (x : Access) (s : State) : heralded s (checkWindow w x s) = heralds s := by
  unfold checkWindow
  (repeat' split) <;> first | rfl | simp only [heralded_takeOutbound]
theorem heralded_writeCheck (x : Access) (s : State) : heralded s (writeCheck x s) = heralds s := by
  unfold writeCheck
  dsimp only
  (repeat' split) <;> first | rfl | simp only [heralded_checkSetup,
    heralded_checkWindow]
theorem heralds_passAccess (x : Access) (s : State) : heralds (passAccess x s) = heralds s := rfl
theorem heralds_completeAccess (x : Access) (s : State) : heralds (completeAccess x s) = heralds s := rfl
theorem heralds_takeWrite (x : Access) (s : State) : heralds (takeWrite x s) = heralds s := by
  have h := heralded_writeCheck x s
  unfold takeWrite
  split <;> rename_i e <;> rw [e] at h
  · exact (heralds_passAccess _ _).trans h
  · exact (heralds_passAccess _ _).trans (heralds_report _ _ _ _ _)
  · exact (heralds_completeAccess _ _).trans ((heralds_report _ _ _ _ _).trans h)
theorem heralds_waitAtPort (x : Access) (s : State) : heralds (waitAtPort x s) = heralds s := rfl
theorem heralds_takeRead (x : Access) (s : State) : heralds (takeRead x s) = heralds s := by
  unfold takeRead
  (repeat' split) <;> rfl
theorem heralds_takeAccess (x : Access) (s : State) : heralds (takeAccess x s) = heralds s := by
  unfold takeAccess
  (repeat' split) <;> first | rfl | simp only [heralds_takeWrite, heralds_takeRead]
theorem heralds_arrive (x : Access) (s : State) : heralds (arrive x s) = heralds s := by
  unfold arrive
  (repeat' split) <;> first | rfl | simp only [heralds_takeAccess]
theorem heralds_arriveSetup (o : Nat) (m : Master) (be : ByteEnables) (d : Word) (s : State) :
    heralds (arriveSetup o m be d s) = heralds s := by
  simp only [arriveSetup, heralds_arrive]
theorem heralds_arriveCommand (code : Byte) (m : Master) (be : ByteEnables) (num : Byte) (arg : BitVec 48) (s : State) :
    heralds (arriveCommand code m be num arg s) = heralds s := by
  simp only [arriveCommand, heralds_arriveSetup]

/-! ## The M-port -/

theorem heralds_doPassingAccessIssue (s : State) : heralds (doPassingAccessIssue s) = heralds s := by
  unfold doPassingAccessIssue
  (repeat' split) <;> rfl
theorem heralds_doBurstStart (s : State) : heralds (doBurstStart s) = heralds s := by
  unfold doBurstStart
  (repeat' split) <;> rfl
theorem heralds_clearBurst (s : State) : heralds (clearBurst s) = heralds s := rfl
theorem heralds_stopDone (n : RingId) (r : CommandResult) (s : State) : heralds (stopDone n r s) = heralds s := by
  unfold stopDone
  (repeat' split) <;> first | rfl | simp only [heralds_complete]
theorem heralds_deliveryWritten (n : RingId) (s : State) : heralds (deliveryWritten n s) = heralds s := by
  simp only [deliveryWritten, heralds_onInRing, heralds_stopDone]
theorem heralds_flushProgress (n : RingId) (e : OutcomeEntry) (s : State) : heralds (flushProgress n e s) = heralds s := by
  unfold flushProgress
  (repeat' split) <;> (try dsimp only) <;> (repeat' split) <;> first | rfl | simp only [heralds_complete]
theorem heralds_outcomeWritten (n : RingId) (e : OutcomeEntry) (s : State) : heralds (outcomeWritten n e s) = heralds s := by
  unfold outcomeWritten
  simp only [heralds_flushProgress]
  (repeat' split) <;> rfl
theorem heralds_snapshotProgress (r : RecordId) (s : State) : heralds (snapshotProgress r s) = heralds s := by
  unfold snapshotProgress
  (repeat' split) <;> (try simp only [heralds_waitFor]) <;> (repeat' split) <;> first | rfl | simp only [heralds_complete]
theorem heralds_statusWritten (r : RecordId) (s : State) : heralds (statusWritten r s) = heralds s := by
  simp only [statusWritten, heralds_onMark, heralds_snapshotProgress]
theorem heralds_logResetProgress (s : State) : heralds (logResetProgress s) = heralds s := by
  unfold logResetProgress
  (repeat' split) <;> (try dsimp only) <;> (repeat' split) <;> first | rfl | simp only [heralds_cleanLog, heralds_complete]
theorem heralds_faultWritten (s : State) : heralds (faultWritten s) = heralds s := by
  simp only [faultWritten, heralds_raise13, heralds_logResetProgress, heralds_log]
theorem heralds_burstWritten (e : WriteEntry) (s : State) : heralds (burstWritten e s) = heralds s := by
  unfold burstWritten
  (repeat' split) <;> first | rfl | simp only [heralds_deliveryWritten, heralds_outcomeWritten, heralds_statusWritten,
    heralds_faultWritten]
theorem heralds_doBurstEnd (s : State) : heralds (doBurstEnd s) = heralds s := by
  unfold doBurstEnd
  (repeat' split) <;> first | rfl | simp only [heralds_burstWritten, heralds_clearBurst]
theorem heralds_recordAbort (c : Cause) (a : Nat) (s : State) : heralds (recordAbort c a s) = heralds s := by
  simp only [recordAbort, heralds_raise15, heralds_log]
theorem heralds_abort (c : Cause) (a : Nat) (s : State) : heralds (abort c a s) = heralds s := by
  simp only [abort, heralds_report, heralds_recordAbort]
theorem heralds_depositFailed (n : RingId) (s : State) : heralds (depositFailed n s) = heralds s := by
  simp only [depositFailed, heralds_onInRing, heralds_dropRecord, heralds_dropQueued, heralds_stopDone]
theorem heralds_flushHalts (n : RingId) (s : State) : heralds (flushHalts n s) = heralds s := by
  unfold flushHalts
  (repeat' split) <;> first | rfl | simp only [heralds_complete]
theorem heralds_outcomeFailed (n : RingId) (e : OutcomeEntry) (s : State) : heralds (outcomeFailed n e s) = heralds s := by
  simp only [outcomeFailed, heralds_unqueue, heralds_onOutRing, heralds_flushHalts]
theorem heralds_statusFailed (r : RecordId) (s : State) : heralds (statusFailed r s) = heralds s := by
  simp only [statusFailed, heralds_unqueue, heralds_onMark, heralds_snapshotLoses, heralds_status]
theorem heralds_faultFailed (a : Nat) (s : State) : heralds (faultFailed a s) = heralds s := by
  unfold faultFailed
  dsimp only
  rw [heralds_logResetProgress, heralds_foldl _ (fun s _ => heralds_countLost s), heralds_unqueue, heralds_recordAbort]
  rfl
theorem heralds_burstFailed (e : WriteEntry) (a : Nat) (s : State) : heralds (burstFailed e a s) = heralds s := by
  unfold burstFailed
  (repeat' split) <;> first | rfl | simp only [heralds_abort, heralds_depositFailed, heralds_outcomeFailed,
    heralds_statusFailed, heralds_faultFailed]
theorem heralds_doBurstError (k : Fin 64) (s : State) : heralds (doBurstError k s) = heralds s := by
  unfold doBurstError
  (repeat' split) <;> first | rfl | simp only [heralds_burstFailed, heralds_clearBurst]

/-! ## Pins and filters -/

theorem heralds_pulseOnEdge (l : LineId) (before : Bool) (s : State) : heralds (pulseOnEdge l before s) = heralds s := by
  unfold pulseOnEdge
  dsimp only
  (repeat' split) <;> first | rfl | simp only [heralds_takePulse]
theorem heralds_doPinChange (l : LineId) (high : Bool) (s : State) : heralds (doPinChange l high s) = heralds s := by
  unfold doPinChange
  simp only [heralds_pulseOnEdge]
  rfl
theorem heralds_doFilterExpiry (l : LineId) (s : State) : heralds (doFilterExpiry l s) = heralds s := by
  unfold doFilterExpiry
  dsimp only
  (repeat' split) <;> first | rfl | simp only [heralds_pulseOnEdge, heralds_onLine]
theorem heralds_lowerHold (p : PathId) (s : State) : heralds (lowerHold p s) = heralds s := rfl

end Sys2Proof.Machine
end

