-- ==== Sys2Proof/Laws/Rows.lean ====
section
/-! SUPPORT. From what a setup word or a command does to what its row answers. -/

namespace Sys2Proof.Machine

/-- Passing an access concerns the memory path only. -/
theorem kept_passAccess (x : Access) (s : State) : kept (passAccess x s) = passAccess x (kept s) := rfl

theorem kept_wordPassed {s t u : State} (o : Nat) (m : Master) (d : Word) (h : kept t = kept u) :
    kept (wordPassed s o m d t) = kept (wordPassed s o m d u) := by
  rw [wordPassed, wordPassed, kept_passAccess, kept_passAccess, h]

/-- A setup row whose word is taken. -/
theorem endsIn_taken {c : Instr} {s t u : State} {o : Nat} {m : Master} {d : Word}
    (row : exec c s = .next (settle s (arriveSetup o m 0xFF d s))) (h : o < 2048) (r : SetupReady s m)
    (k : takeSetupWord o d s = .taken t) (e : kept t = kept u) : EndsIn c s (wordPassed s o m d u) := by
  refine endsIn_of_settle c s s _ _ row ?_
  rw [arriveSetup_taken h r k]
  exact kept_wordPassed o m d e

/-- A setup row whose word is trapped. -/
theorem endsIn_trapped {c : Instr} {s : State} {o : Nat} {m : Master} {d : Word}
    (row : exec c s = .next (settle s (arriveSetup o m 0xFF d s))) (h : o < 2048) (r : SetupReady s m)
    (k : takeSetupWord o d s = .trapped) : EndsIn c s (wordTrapped s o m d) := by
  refine endsIn_of_settle c s s _ _ row ?_
  rw [arriveSetup_trapped h r k]

/-- A setup row whose word is refused with nothing else done. -/
theorem endsIn_refused {c : Instr} {s : State} {o : Nat} {m : Master} {d : Word} {x : Cause}
    (row : exec c s = .next (settle s (arriveSetup o m 0xFF d s))) (h : o < 2048) (r : SetupReady s m)
    (k : takeSetupWord o d s = .refused x s) : EndsIn c s (wordRefused s o m 0xFF d x) := by
  refine endsIn_of_settle c s s _ _ row ?_
  rw [arriveSetup_refused h r k]
  rfl

/-! ## The command word -/

theorem commandWord_code (code num : Byte) (arg : BitVec 48) : bits (commandWord code num arg) 0 8 = code := by
  apply BitVec.eq_of_getLsbD_eq
  intro i hi
  simp only [commandWord, bits, BitVec.getLsbD_extractLsb', BitVec.getLsbD_append]
  simp [hi]

theorem commandWord_number (code num : Byte) (arg : BitVec 48) : bits (commandWord code num arg) 8 8 = num := by
  apply BitVec.eq_of_getLsbD_eq
  intro i hi
  simp only [commandWord, bits, BitVec.getLsbD_extractLsb', BitVec.getLsbD_append]
  simp [hi]

/-- An argument's bits stand 16 places higher in the word. -/
theorem commandWord_argument (code num : Byte) (arg : BitVec 48) (lo n : Nat) :
    (commandWord code num arg).extractLsb' (16 + lo) n = arg.extractLsb' lo n := by
  apply BitVec.eq_of_getLsbD_eq
  intro i hi
  simp only [commandWord, BitVec.getLsbD_extractLsb', BitVec.getLsbD_append]
  have h1 : ¬ 16 + lo + i < 8 := by omega
  have h2 : ¬ 16 + lo + i - 8 < 8 := by omega
  have h3 : 16 + lo + i - 8 - 8 = lo + i := by omega
  simp [h1, h2, h3, hi]

theorem commandWord_index (code num : Byte) (arg : BitVec 48) :
    commandIndex (commandWord code num arg) = argIndex arg := by
  have := commandWord_argument code num arg 0 8
  simp only [Nat.add_zero] at this
  simp only [commandIndex, field, bits, argIndex, this]

/-- A command row: the word is taken, the command state becomes BUSY and the command acts (R176). -/
theorem endsIn_command {c : Instr} {s u : State} {m : Master} {code num : Byte} {arg : BitVec 48}
    (row : exec c s = .next (settle s (arriveCommand code m 0xFF num arg s))) (r : CommandReady s m)
    (e : kept (runCommand (commandWord code num arg) (busyWith code num .nothing s)) = kept u) :
    EndsIn c s (commandPassed s code m num arg u) := by
  refine endsIn_taken (o := 144) row (by decide) r.1 ?_ e
  rw [takeSetupWord_command, takeCommand, r.2, commandWord_code, commandWord_number]
  rfl

/-! ## The release of what waits at the P-port -/

/-- A row that ends in `drainLine` of a state like `u` with the same line releases the line. -/
theorem endsAndReleases_of_drain {s u v : State} {c : Instr} (row : exec c s = .next (drainLine v)) (line : v.mem.line = s.mem.line)
    (h : kept v = kept u) : EndsAndReleases c s u := by
  have e : ∀ x : State, kept { x with mem := { x.mem with line := [] } }
      = { kept x with mem := { (kept x).mem with line := [] } } := fun _ => rfl
  exact ⟨{ v with mem := { v.mem with line := [] } }, by rw [e, e, h], by rw [row, drainLine, line]⟩

theorem settle_mem (o s : State) : (settle o s).mem = s.mem := by
  simpa [kept] using congrArg (fun x : State => x.mem) (kept_settle o s)

/-- With no burst in progress, reads are passed to memory in order. -/
theorem released_reads (l : List Access) (v : State) (reads : ∀ x ∈ l, x.write = false) (free : v.mem.burst = none)
    (line : v.mem.line = []) :
    (l.foldl (fun w x => settle w (arrive x w)) v).mem = { v.mem with passing := v.mem.passing ++ l } := by
  induction l generalizing v with
  | nil => simp
  | cons x l ih =>
    have hx := reads x (List.mem_cons_self ..)
    have a : arrive x v = passAccess x v := by
      rw [arrive, line]
      simp [takeAccess, hx, takeRead, isHeld, free]
    rw [List.foldl_cons, ih]
    · rw [settle_mem, a]
      simp [passAccess]
    · exact fun y hy => reads y (List.mem_cons_of_mem _ hy)
    · rw [settle_mem, a]
      exact free
    · rw [settle_mem, a]
      exact line

end Sys2Proof.Machine
end

