-- ==== Sys2Proof/Laws/Moves.lean ====
section
/-! SUPPORT. What a request of an outcome, a re-steer and a change of a path's state leave alone, and the moves of a path
field by field (Safety.lean). -/

namespace Sys2Proof.Machine

/- One theorem after another: many at once would each hold a stack of its own. -/
set_option Elab.async false

/-! ## Requests and re-steers touch neither the paths nor the command state -/

/-- All that a request of an outcome does (R108, R109, R111, R131). -/
theorem requestOutcome_eq (r : LaunchRecord) (res : OutcomeResult) (s : State) : requestOutcome r res s = { s with
    outRings := s.outRings.set r.name.ring.val { s.outRings[r.name.ring] with
      outcomes := s.outRings[r.name.ring].outcomes ++ [{ outcomeEntry s r res with request := s.sel.requestOrder }] } r.name.ring.isLt
    sel := { s.sel with
      held := s.sel.held.filter fun x => !(x.name == r.name)
      urgent := if r.cls = .urgent then s.sel.urgent.without r.name else s.sel.urgent
      normal := if r.cls = .normal then s.sel.normal.without r.name else s.sel.normal
      holdUrgent := if r.cls = .urgent then s.sel.holdUrgent - 1 else s.sel.holdUrgent
      holdNormal := if r.cls = .normal then s.sel.holdNormal - 1 else s.sel.holdNormal
      counters := s.sel.counters.set r.name.ring.val (s.sel.counters[r.name.ring].count res) r.name.ring.isLt
      requestOrder := s.sel.requestOrder + 1 } } := by
  obtain ⟨_, _, _, cls, _⟩ := r
  cases cls <;> rfl

theorem requestOutcome_cmd (r : LaunchRecord) (res : OutcomeResult) (c : CommandUnit) (s : State) :
    requestOutcome r res { s with cmd := c } = { requestOutcome r res s with cmd := c } := by
  obtain ⟨_, _, _, cls, _⟩ := r
  cases cls <;> rfl

theorem requestOutcome_paths (r : LaunchRecord) (res : OutcomeResult) (s : State) :
    (requestOutcome r res s).paths = s.paths := by
  obtain ⟨_, _, _, cls, _⟩ := r
  cases cls <;> rfl

theorem settleCopies_cmd (r : LaunchRecord) (c : CommandUnit) (s : State) :
    settleCopies r { s with cmd := c } = { settleCopies r s with cmd := c } := by
  simp only [settleCopies]
  split
  · exact requestOutcome_cmd _ _ _ _
  · rfl

theorem settleCopies_paths (r : LaunchRecord) (s : State) : (settleCopies r s).paths = s.paths := by
  rw [settleCopies]
  split
  · exact requestOutcome_paths _ _ _
  · rfl

theorem requestOutcome_keepsCmd (r : LaunchRecord) (res : OutcomeResult) (s : State) :
    (requestOutcome r res s).cmd = s.cmd := by
  obtain ⟨_, _, _, cls, _⟩ := r
  cases cls <;> rfl

theorem settleCopies_keepsCmd (r : LaunchRecord) (s : State) : (settleCopies r s).cmd = s.cmd := by
  rw [settleCopies]
  split
  · exact requestOutcome_keepsCmd _ _ _
  · rfl

theorem answerCopy_keepsCmd (p : PathId) (ok : Bool) (x : RecordName) (s : State) :
    (answerCopy p ok x s).cmd = s.cmd := by
  rw [answerCopy]
  split
  · rfl
  · exact settleCopies_keepsCmd _ _

theorem answerCopy_paths (p : PathId) (ok : Bool) (x : RecordName) (s : State) :
    (answerCopy p ok x s).paths = s.paths := by
  rw [answerCopy]
  split
  · rfl
  · exact settleCopies_paths _ _

theorem rejoin_cmd (r : LaunchRecord) (c : CommandUnit) (s : State) :
    rejoin r { s with cmd := c } = { rejoin r s with cmd := c } := by
  obtain ⟨_, _, _, cls, _⟩ := r
  cases cls <;> rfl

theorem rejoin_paths (r : LaunchRecord) (s : State) : (rejoin r s).paths = s.paths := by
  obtain ⟨_, _, _, cls, _⟩ := r
  cases cls <;> rfl

theorem resteerRecord_cmd (p : PathId) (r : LaunchRecord) (c : CommandUnit) (s : State) :
    resteerRecord p r { s with cmd := c } = { resteerRecord p r s with cmd := c } := by
  simp only [resteerRecord]
  split
  · exact settleCopies_cmd _ _ (putRecord _ s)
  · split
    · exact requestOutcome_cmd _ _ _ (putRecord _ s)
    · exact rejoin_cmd _ _ (putRecord _ s)

theorem resteerRecord_paths (p : PathId) (r : LaunchRecord) (s : State) : (resteerRecord p r s).paths = s.paths := by
  simp only [resteerRecord]
  split
  · exact settleCopies_paths _ (putRecord _ s)
  · split
    · exact requestOutcome_paths _ _ (putRecord _ s)
    · exact rejoin_paths _ (putRecord _ s)

theorem resteerOne_cmd (p : PathId) (x : RecordName) (c : CommandUnit) (s : State) :
    resteerOne p { s with cmd := c } x = { resteerOne p s x with cmd := c } := by
  simp only [resteerOne, show recordNamed { s with cmd := c } x = recordNamed s x from rfl]
  split
  · exact resteerRecord_cmd _ _ _ _
  · rfl

theorem resteerOne_paths (p : PathId) (x : RecordName) (s : State) : (resteerOne p s x).paths = s.paths := by
  rw [resteerOne]
  split
  · exact resteerRecord_paths _ _ _
  · rfl

theorem resteerFold_cmd (p : PathId) (c : CommandUnit) (l : List RecordName) (s : State) :
    l.foldl (resteerOne p) { s with cmd := c } = { l.foldl (resteerOne p) s with cmd := c } := by
  induction l generalizing s with
  | nil => rfl
  | cons x l ih => rw [List.foldl_cons, List.foldl_cons, resteerOne_cmd, ih]

theorem resteerFold_paths (p : PathId) (l : List RecordName) (s : State) :
    (l.foldl (resteerOne p) s).paths = s.paths := by
  induction l generalizing s with
  | nil => rfl
  | cons x l ih => rw [List.foldl_cons, ih, resteerOne_paths]

theorem resteer_cmd (p : PathId) (c : CommandUnit) (s : State) : resteer p { s with cmd := c } = { resteer p s with cmd := c } := by
  rw [resteer]
  exact resteerFold_cmd p c _ (onPort p (fun q => { q with transmit := [] }) s)

/-- A re-steer empties the transmit queue and touches nothing else of any path (R132). -/
theorem resteer_paths (p : PathId) (s : State) :
    (resteer p s).paths = (onPort p (fun q => { q with transmit := [] }) s).paths := by
  rw [resteer, resteerFold_paths]

/-! ## Moves of a path -/

theorem enterDisabled_eq (p : PathId) (s : State) (h : s.paths[p].sup.state ≠ .disabled) :
    enterDisabled p s = leftService p .disabled s := by
  rw [enterDisabled, setPathState, if_neg (by simpa using h)]
  simp [leftService, leaveContract, emptyInsert, stopProbe, stopSilence, onSup, onPort, onPath, Channel.stop]

theorem onPath_onPath (p : PathId) (f g : Path → Path) (s : State) :
    onPath p f (onPath p g s) = onPath p (fun x => f (g x)) s := by
  simp [onPath]

/-- The hold counter preset and running, and the path recently failed, after its contract is given up (R12). -/
theorem hold_after_leaving (p : PathId) (s : State) :
    onSup p (fun u => { u with recentlyFailed := true }) (runHold p (leaveContract p s)) =
    onPath p (fun y => { y with
      sup := { y.sup with recentlyFailed := true }
      holdLow := match y.setup.holdMode with
        | .wide => ⟨y.setup.wideReload.extractLsb' 0 8, true, y.setup.wideReload.extractLsb' 0 8, some y.setup.wideCompare,
            y.setup.holdTap⟩
        | .narrow => ⟨y.setup.narrowReload, true, y.setup.narrowReload, some (y.setup.narrowCompare.zeroExtend 16),
            y.setup.holdTap⟩
      holdHigh := match y.setup.holdMode with
        | .wide => ⟨y.setup.wideReload.extractLsb' 8 8, y.holdHigh.run, y.setup.wideReload.extractLsb' 8 8, none,
            y.setup.holdTap⟩
        | .narrow => y.holdHigh }) (leaveContract p s) := by
  rw [onSup, runHold, onPath_onPath]
  congr 1
  funext x
  simp only [presetHold]
  cases x.setup.holdMode <;> rfl

theorem leaveContract_eq (p : PathId) (s : State) :
    leaveContract p s = onPath p (fun y => { y with
      sup := { y.sup with
        contract := 0, target := none, pending := false, stepRun := 0, probeList := [], lastOffered := none }
      port := { y.port with insert := [], pendingTune := none }
      probe := { y.probe with run := false }, silence := { y.silence with run := false } }) s := by
  rw [leaveContract, emptyInsert, stopProbe, stopSilence, onPort, onSup, onPort]
  simp only [onPath_onPath, Channel.stop]

theorem enterHeld_eq (p : PathId) (s : State) (h : s.paths[p].sup.state ≠ .held) : enterHeld p s = heldFrom p s := by
  rw [enterHeld, setPathState, if_neg (by simpa using h)]
  rw [hold_after_leaving, leaveContract_eq]
  rfl

theorem enterDown_eq (p : PathId) (s : State) (h : s.paths[p].sup.state ≠ .down) : enterDown p s = downFrom p s := by
  rw [enterDown, setPathState, if_neg (by simpa using h)]
  simp [downFrom, runProbe, stopSilence, onSup, onPath, raiseCause, onCause, presetProbe, Channel.preset, Channel.start,
    Channel.stop]

theorem leftService_cmd (p : PathId) (x : PathState) (c : CommandUnit) (s : State) :
    leftService p x { s with cmd := c } = { leftService p x s with cmd := c } := by
  have h := resteer_cmd p c (raiseCause (pathCause p) (onSup p (fun u => { u with state := x }) s))
  rw [leftService]
  change onPath p _
    (resteer p { raiseCause (pathCause p) (onSup p (fun u => { u with state := x }) s) with cmd := c }) = _
  rw [h]
  rfl

/-- Leaving service keeps the awaiting-answer list (R4). -/
theorem leftService_awaiting (p : PathId) (x : PathState) (s : State) :
    (leftService p x s).paths[p].port.awaiting = s.paths[p].port.awaiting := by
  rw [leftService]
  simp [onPath, resteer_paths, onPort, onSup, raiseCause, onCause]

/-! ## The fade test and the contract exchange (Safety.lean) -/

/-- The ranking is formed again, and at most its record is marked besides. -/
theorem rerankSince_eq (old s : State) : rerankSince old s = rerank s ∨ rerankSince old s = markRecord 5 (rerank s) := by
  unfold rerankSince
  dsimp only
  split <;> [exact .inl rfl; exact .inr rfl]

theorem fadeHolds_iff (x : Path) : fadeHolds x = true ↔ Fading x := by
  simp [fadeHolds, Fading, inFadingBand, or_assoc]

theorem isAir_iff (p : PathId) : isAir p = true ↔ p ≠ 4 := by
  revert p; decide

theorem evaluateFade_eq (p : PathId) (s : State) : evaluateFade p s = fadeJudged p s := by
  have a := isAir_iff p
  have f := fadeHolds_iff s.paths[p]
  by_cases q : p ≠ 4 ∧ (s.paths[p].sup.state = .up ∨ s.paths[p].sup.state = .fading)
  · rw [evaluateFade, fadeJudged, if_pos q, if_pos (by simpa [a, PathState.inService] using q), rerankSince, setPathState,
      fadeState]
    by_cases h : Fading s.paths[p]
    · simp only [f.mpr h, if_pos h, if_true, beq_iff_eq]
    · simp only [show fadeHolds s.paths[p] = false by simpa using mt f.mp h, if_neg h, Bool.false_eq_true, if_false, beq_iff_eq]
  · rw [evaluateFade, fadeJudged, if_neg q, if_neg (by simpa [a, PathState.inService] using q)]

theorem enterTraining_eq (p : PathId) (s : State) (h : s.paths[p].sup.state ≠ .training) :
    enterTraining p s = trainingFrom p s := by
  rw [enterTraining, setPathState, if_neg (by simpa using h)]
  simp [trainingFrom, runSilence, onSup, onPath, raiseCause, onCause, presetSilence, Channel.preset, Channel.start]

theorem enterRetune_eq (p : PathId) (k : Option Nat) (s : State) (h : s.paths[p].sup.state ≠ .retune) :
    enterRetune p k s = retuneFrom p k s := by
  have e : setPathState p .retune s = raiseCause (pathCause p) (onSup p (fun u => { u with state := .retune }) s) :=
    if_neg (by simpa using h)
  cases k <;> simp only [enterRetune, retuneFrom, e, emptyInsert, orderTune, onSup, onPort, onPath_onPath] <;> rfl

theorem aimAt_eq (p : PathId) (k : Nat) (s : State) : aimAt p k s = aimed p k s := by
  rw [aimAt, orderTune, onPort, onSup, onPath_onPath]; rfl

theorem decideProfile_eq (p : PathId) (k : Nat) (s : State) : decideProfile p k s = decided p k s := aimAt_eq p k _

theorem onSup_self (p : PathId) (f : Supervisor → Supervisor) (s : State) : (onSup p f s).paths[p].sup = f s.paths[p].sup := by
  simp [onSup, onPath]

theorem onSup_congr (p : PathId) (f g : Supervisor → Supervisor) (s : State) (h : f s.paths[p].sup = g s.paths[p].sup) :
    onSup p f s = onSup p g s := by
  rw [onSup, onPath, h]; rfl

theorem sendOffer_eq (p : PathId) (s : State) : sendOffer p s = offered p s := by
  have key : ∀ u : Supervisor, (offerIsNew u = true ↔ ¬ u.lastOffered = some ⟨u.ownMask, u.contract⟩) := by
    intro u
    unfold offerIsNew
    cases h : u.lastOffered with
    | none => simp
    | some o =>
      obtain ⟨m, c⟩ := o
      simp only [Bool.or_eq_true, Bool.not_eq_true', beq_eq_false_iff_ne, Option.some.injEq, Offered.mk.injEq]
      tauto
  by_cases h : s.paths[p].sup.lastOffered = some ⟨s.paths[p].sup.ownMask, s.paths[p].sup.contract⟩
  · have n : offerIsNew s.paths[p].sup = false := by simpa using mt (key _).mp (not_not.mpr h)
    rw [sendOffer, offered]
    simp only [onSup_self, n, h, decide_true, if_true]
    refine congrArg _ (onSup_congr p _ _ s ?_)
    generalize s.paths[p].sup = u at *
    obtain ⟨⟩ := u
    simp_all
  · have n : offerIsNew s.paths[p].sup = true := (key _).mpr h
    rw [sendOffer, offered]
    simp only [onSup_self, n, h, decide_false, if_true]
    refine congrArg _ (onSup_congr p _ _ s ?_)
    simp only [n, if_true]
    rfl

theorem sendNewGrant_eq (p : PathId) (a : Byte) (k : Nat) (s : State) : sendNewGrant p a k s = granted p a k s := by
  simp only [sendNewGrant, granted, onSup_self, nextNumber, mismatchAfter, beq_eq_decide]
  rfl

theorem repeatGrant_eq (p : PathId) (s : State) : repeatGrant p s = grantedAgain p s := by
  simp only [repeatGrant, grantedAgain, onSup_self, mismatchAfter]

theorem takeMismatch_eq (p : PathId) (s : State) : takeMismatch p s = mismatched p s := by
  have a : ∀ t : State, (onSup p (fun u => { u with mismatch := true, pending := false }) t).paths[p].sup.state = t.paths[p].sup.state := by
    intro t; rw [onSup_self]
  have b : (if s.paths[p].sup.mismatch then s else raiseCause 16 s).paths = s.paths := by split <;> rfl
  have c : ∀ x : PathState, x.hears = true ↔ x = .training ∨ x = .up ∨ x = .fading ∨ x = .retune := by intro x; cases x <;> simp [PathState.hears]
  have d : ∀ x : PathState, x.hears = true → x ≠ .held := by intro x; cases x <;> simp [PathState.hears]
  simp only [takeMismatch, mismatched, a, b, c]
  split
  · rw [enterHeld_eq]
    rw [a, b]
    exact d _ ((c _).mpr ‹_›)
  · rfl

theorem answerOffer_eq (p : PathId) (u : Supervisor) (number : Byte) (mask : ProfileMask) (g : Nat) (s : State) :
    answerOffer p u number mask g s = answered p u number mask g s := by
  simp only [answerOffer, answered, repeatGrant_eq, sendNewGrant_eq, Bool.and_eq_true, beq_iff_eq, and_assoc]

theorem runSilence_eq (p : PathId) (s : State) : runSilence p s = silenceRestarted p s := rfl

theorem enterService_eq (p : PathId) (s : State) (h : s.paths[p].sup.state = .training ∨ s.paths[p].sup.state = .retune
    ∨ s.paths[p].sup.state = .down) : enterService p s = serviceFrom p s := by
  have u : s.paths[p].sup.state ≠ .up ∧ s.paths[p].sup.state ≠ .fading := by rcases h with h | h | h <;> rw [h] <;> decide
  rw [enterService, serviceFrom, fadeState]
  by_cases q : p = 4
  · rw [if_neg (by simp [isAir_iff, q]), if_pos q, setPathState, if_neg (by simpa using u.1), runSilence_eq]
  · rw [if_pos ((isAir_iff p).mpr q), if_neg q, setPathState]
    have f := fadeHolds_iff s.paths[p]
    by_cases g : Fading s.paths[p]
    · simp only [f.mpr g, if_pos g, if_true, beq_iff_eq]
    · simp only [show fadeHolds s.paths[p] = false by simpa using mt f.mp g, if_neg g, Bool.false_eq_true, if_false, beq_iff_eq]

theorem loseOldest_eq (p : PathId) (s : State) : loseOldest p s = probeJudged p false s := by
  rw [loseOldest, enterOutcome, evaluateFade_eq, onSup, onSup, onPath_onPath]
  rfl

theorem matched_eq (p : PathId) (s : State) :
    enterOutcome p true (onSup p (fun u => { u with probeList := u.probeList.drop 1 }) s) = probeJudged p true s := by
  rw [enterOutcome, evaluateFade_eq, onSup, onSup, onPath_onPath]
  rfl

theorem enterMark_eq (p : PathId) (good : Bool) (s : State) : enterMark p good s = frameMarked p good s := evaluateFade_eq p _

theorem sendProbe_eq (p : PathId) (s : State) : sendProbe p s = probed p s := by
  rw [sendProbe, onSup_self]
  rfl

theorem highest_iff (m : ProfileMask) (h : Nat) : HighestOf m h ↔ h = highest m := by
  have low : ∀ (m : ProfileMask) (h : Fin 7), HighestOf m h ↔ h.val = highest m := by
    unfold HighestOf
    decide +kernel
  have top : ∀ m : ProfileMask, highest m < 7 := by decide +kernel
  by_cases k : h < 7
  · exact low m ⟨h, k⟩
  · have g : m.getLsbD (h - 1) = false := BitVec.getLsbD_of_ge _ _ (by omega)
    constructor
    · rintro (⟨rfl, -⟩ | ⟨-, q, -⟩)
      · omega
      · rw [g] at q
        cases q
    · intro q
      have := top m
      omega

/-! ## Completion (R177) -/

/-- Completing the command in progress leaves what `finished` says. -/
theorem kept_complete {s : State} {b : Busy} (r : CommandResult) (h : s.cmd.busy = some b) :
    kept (complete r s) = kept (finished b.code b.number r s) := by
  rw [complete, completeWith, h]
  simp only []
  rw [kept_markRecord]
  rfl

/-- The same without CMD_DONE. -/
theorem kept_completeQuietly {s : State} {b : Busy} (r : CommandResult) (h : s.cmd.busy = some b) :
    kept (completeWith true r s) = kept (finishedQuietly b.code b.number r s) := by
  rw [completeWith, h]
  simp only []
  rw [kept_markRecord]
  rfl

/-! ## The command a word names (R176) -/

theorem commandWord_field (code num : Byte) (arg : BitVec 48) : field (commandWord code num arg) 0 8 = code.toNat := by
  rw [field, commandWord_code]

theorem withIndex_inRange {n : Nat} {arg : BitVec 48} (code num : Byte) (i : Fin n) (act : Fin n → State → State)
    (s : State) (h : argIndex arg = i.val) : withIndex n (commandWord code num arg) act s = act i s := by
  rw [withIndex, commandWord_index, h, asIndex, dif_pos i.isLt]

theorem withIndex_outOfRange {n : Nat} {arg : BitVec 48} (code num : Byte) (act : Fin n → State → State) (s : State)
    (h : n ≤ argIndex arg) : withIndex n (commandWord code num arg) act s = complete .range s := by
  rw [withIndex, commandWord_index, asIndex, dif_neg (by omega)]

end Sys2Proof.Machine
end

