-- ==== Sys2Proof/Laws/Announcements.lean ====
section
/-! SUPPORT. How the operations that judge fade conditions announce head and fallback changes (R24, R50, R53, R55), and how often
one event judges them; every other operation leaves the heralds alone (Laws/Heralds.lean). -/

namespace Sys2Proof.Machine

/- One theorem after another: many at once would each hold a stack of its own. -/
set_option Elab.async false

/-! ## What is announced -/

/-- Equal heralds: nothing is announced. -/
theorem unannounced_of_heralds {a b : State} (h : heralds b = heralds a) : Unannounced a b := by
  simp only [heralds, Prod.mk.injEq] at h
  exact ⟨h.1, h.2.2.1, h.2.2.2.2.1, h.2.2.2.2.2⟩

/-- What is announced depends on the heralds before. -/
theorem announced_congr {a b v : State} (h : heralds a = heralds b) (k : Announced a v) : Announced b v := by
  simp only [heralds, Prod.mk.injEq] at h
  obtain ⟨h1, -, h3, -, h5, h6⟩ := h
  replace h5 : a.alarm.causes[5].raises = b.alarm.causes[5].raises := h5
  replace h6 : a.alarm.causes[6].raises = b.alarm.causes[6].raises := h6
  simp only [Announced] at k ⊢
  simpa only [h1, h3, h5, h6] using k

/-- A recomputation announces what it changes, and only that. -/
theorem announced_rerank (s : State) : Announced s (rerank s) := by
  unfold rerank
  dsimp only
  by_cases h : headOf (rankList s) = s.ranking.head <;> by_cases f : fallbackHolds s = s.ranking.fallback <;>
    simp [h, f, Announced, announceHead, announceFallback, raiseCause, onCause, stampNow]

/-- The critical flag and its pulse are no recomputation's. -/
theorem critical_rerank (s : State) :
    (rerank s).pulses.critical = s.pulses.critical ∧ (rerank s).alarm.inService = s.alarm.inService := by
  constructor <;> unfold rerank <;> dsimp only <;> split <;> split <;> rfl

theorem heralds_fadeState (p : PathId) (s : State) : heralds (fadeState p s) = heralds s := by
  unfold fadeState
  repeat' split
  all_goals first
    | rfl
    | exact heralds_raisePath p _

/-- A judgement announces what its recomputation changes, and only that. -/
theorem announced_fadeJudged (p : PathId) (s : State) : Announced s (fadeJudged p s) := by
  have k := announced_congr (heralds_fadeState p s) (announced_rerank (fadeState p s))
  unfold fadeJudged
  dsimp only
  split
  · split <;> [exact k; exact k]
  · exact ⟨fun h => absurd rfl h, fun _ => ⟨rfl, rfl, rfl, rfl⟩, fun h => absurd rfl h, fun _ => ⟨rfl, rfl⟩⟩

theorem critical_fadeJudged (p : PathId) (s : State) :
    (fadeJudged p s).pulses.critical = s.pulses.critical ∧ (fadeJudged p s).alarm.inService = s.alarm.inService := by
  have k := heralds_fadeState p s
  simp only [heralds, Prod.mk.injEq] at k
  have c := critical_rerank (fadeState p s)
  rw [k.2.1, k.2.2.2.1] at c
  unfold fadeJudged
  dsimp only
  split
  · split <;> [exact c; exact c]
  · exact ⟨rfl, rfl⟩

/-! ## Nothing moves the ranking -/

/-- What the ranking takes from a path. -/
abbrev terms (x : Path) : PathState × Nat × BitVec 32 × Bool × BitVec 32 × BitVec 32 :=
  (x.sup.state, x.sup.contract, x.sup.estimate, x.sup.recentlyFailed, x.setup.fadePenalty, x.setup.recoveryPenalty)

/-- Equal heralds and equal terms: nothing moves the ranking. -/
theorem steady_of {a b : State} (h : heralds b = heralds a) (k : ∀ q : PathId, terms b.paths[q] = terms a.paths[q]) : Steady a b := by
  have u := unannounced_of_heralds h
  refine ⟨u, fun q => ?_⟩
  have e := k q
  simp only [terms, Prod.mk.injEq] at e
  obtain ⟨e1, e2, e3, e4, e5, e6⟩ := e
  have i : inService b q = inService a q := by simp only [inService, e1]
  refine ⟨by simp only [selectable, i, u.1], ?_⟩
  simp only [effectiveLatency, i, serializationTerm, fadeTerm, recoveryTerm, e1, e2, e3, e4, e5, e6]

theorem steady_refl (a : State) : Steady a a := ⟨⟨rfl, rfl, rfl, rfl⟩, fun _ => ⟨rfl, rfl⟩⟩

theorem steady_trans {a b c : State} (h : Steady a b) (k : Steady b c) : Steady a c :=
  ⟨⟨k.1.1.trans h.1.1, k.1.2.1.trans h.1.2.1, k.1.2.2.1.trans h.1.2.2.1, k.1.2.2.2.trans h.1.2.2.2⟩,
    fun q => ⟨(k.2 q).1.trans (h.2 q).1, (k.2 q).2.trans (h.2 q).2⟩⟩

/-- From `a` to `b` nothing moves the ranking, and the critical flag and its pulse stand. -/
structure Still (a b : State) : Prop where
  critical : b.pulses.critical = a.pulses.critical
  flag : b.alarm.inService = a.alarm.inService
  steady : Steady a b

theorem Still.refl (a : State) : Still a a := ⟨rfl, rfl, steady_refl a⟩

theorem Still.trans {a b c : State} (h : Still a b) (k : Still b c) : Still a c :=
  ⟨k.critical.trans h.critical, k.flag.trans h.flag, steady_trans h.steady k.steady⟩

/-- A change of one path that keeps its terms. -/
theorem still_onPath (p : PathId) (f : Path → Path) (s : State) (h : terms (f s.paths[p]) = terms s.paths[p]) :
    Still s (onPath p f s) := by
  refine ⟨rfl, rfl, steady_of rfl fun q => ?_⟩
  by_cases e : p = q
  · subst e; simpa [onPath] using h
  · have : p.val ≠ q.val := fun x => e (Fin.ext x)
    simp [onPath, this]

theorem still_onPort (p : PathId) (f : Port → Port) (s : State) : Still s (onPort p f s) := still_onPath p _ s rfl

theorem still_onSup (p : PathId) (f : Supervisor → Supervisor) (s : State)
    (h : terms { s.paths[p] with sup := f s.paths[p].sup } = terms s.paths[p]) : Still s (onSup p f s) := still_onPath p _ s h

theorem still_insertFrame (p : PathId) (f : ControlFrame) (s : State) : Still s (insertFrame p f s) := still_onPort p _ s

/-! ## How often an event judges -/

/-- From `a` to `b` the fade conditions of path `p` are judged at most `n` times, and the critical flag and its pulse stand. -/
structure Judges (p : PathId) (n : Nat) (a b : State) : Prop where
  critical : b.pulses.critical = a.pulses.critical
  flag : b.alarm.inService = a.alarm.inService
  judged : JudgedUpTo p n a b

theorem judged_steady {p : PathId} {n : Nat} {a b : State} (h : Steady a b) : JudgedUpTo p n a b := by
  cases n <;> [exact h; exact .inl h]

theorem steady_judged {p : PathId} {n : Nat} {a b c : State} (h : Steady a b) (k : JudgedUpTo p n b c) : JudgedUpTo p n a c := by
  cases n with
  | zero => exact steady_trans h k
  | succ n =>
    rcases k with k | ⟨d, k, j⟩
    · exact .inl (steady_trans h k)
    · exact .inr ⟨d, steady_trans h k, j⟩

theorem judged_mono {p : PathId} {m n : Nat} {a b : State} (l : m ≤ n) (h : JudgedUpTo p m a b) : JudgedUpTo p n a b := by
  induction m generalizing n a with
  | zero => exact judged_steady h
  | succ m ih =>
    obtain ⟨n, rfl⟩ : ∃ k, n = k + 1 := ⟨n - 1, by omega⟩
    rcases h with h | ⟨c, h, j⟩
    · exact .inl h
    · exact .inr ⟨c, h, ih (by omega) j⟩

theorem judged_trans {p : PathId} {m n : Nat} {a b c : State} (h : JudgedUpTo p m a b) (k : JudgedUpTo p n b c) :
    JudgedUpTo p (m + n) a c := by
  induction m generalizing a with
  | zero => rw [Nat.zero_add]; exact steady_judged h k
  | succ m ih =>
    rcases h with h | ⟨d, h, j⟩
    · exact judged_mono (by omega) (steady_judged h k)
    · rw [Nat.succ_add]
      exact .inr ⟨d, h, ih j⟩

theorem Judges.trans {p : PathId} {m n : Nat} {a b c : State} (h : Judges p m a b) (k : Judges p n b c) : Judges p (m + n) a c :=
  ⟨k.critical.trans h.critical, k.flag.trans h.flag, judged_trans h.judged k.judged⟩

theorem Still.judges {p : PathId} {n : Nat} {a b : State} (h : Still a b) : Judges p n a b :=
  ⟨h.critical, h.flag, judged_steady h.steady⟩

theorem Judges.mono {p : PathId} {m n : Nat} {a b : State} (l : m ≤ n) (h : Judges p m a b) : Judges p n a b :=
  ⟨h.critical, h.flag, judged_mono l h.judged⟩

theorem Judges.foldl {p : PathId} {α : Type} (g : State → α → State) (h : ∀ s a, Judges p 1 s (g s a)) (l : List α) (s : State) :
    Judges p l.length s (l.foldl g s) := by
  induction l generalizing s with
  | nil => exact (Still.refl s).judges
  | cons a l ih =>
    rw [List.length_cons, Nat.add_comm]
    exact (h s a).trans (ih _)

theorem judges_evaluateFade (p : PathId) (s : State) : Judges p 1 s (evaluateFade p s) := by
  rw [evaluateFade_eq]
  exact ⟨(critical_fadeJudged p s).1, (critical_fadeJudged p s).2, .inr ⟨s, steady_refl s, steady_refl _⟩⟩

/-- From `a` to `b` the fade conditions of path `p` are judged at most `n` times, and nothing is announced after that. -/
def Announces (p : PathId) (n : Nat) (a b : State) : Prop := ∃ v, Judges p n a v ∧ heralds b = heralds v

theorem Judges.announces {p : PathId} {n : Nat} {a b : State} (h : Judges p n a b) : Announces p n a b := ⟨b, h, rfl⟩

theorem Announces.of_eq {p : PathId} {n : Nat} {a b : State} (h : heralds b = heralds a) : Announces p n a b :=
  ⟨a, (Still.refl a).judges, h⟩

theorem Judges.then {p : PathId} {m n : Nat} {a b c : State} (h : Judges p m a b) (k : Announces p n b c) :
    Announces p (m + n) a c := by
  obtain ⟨v, j, e⟩ := k
  exact ⟨v, h.trans j, e⟩

theorem Still.then {p : PathId} {n : Nat} {a b c : State} (h : Still a b) (k : Announces p n b c) : Announces p n a c := by
  obtain ⟨v, j, e⟩ := k
  exact ⟨v, ⟨j.critical.trans h.critical, j.flag.trans h.flag, steady_judged h.steady j.judged⟩, e⟩

theorem Announces.mono {p : PathId} {m n : Nat} {a b : State} (l : m ≤ n) (h : Announces p m a b) : Announces p n a b := by
  obtain ⟨v, j, e⟩ := h
  exact ⟨v, j.mono l, e⟩

theorem Announces.after {p : PathId} {n : Nat} {a b c : State} (h : Announces p n a b) (e : heralds c = heralds b) :
    Announces p n a c := by
  obtain ⟨v, j, k⟩ := h
  exact ⟨v, j, e.trans k⟩

/-- The critical flag and its pulse stand. -/
theorem Announces.critical {p : PathId} {n : Nat} {a b : State} (h : Announces p n a b) :
    b.pulses.critical = a.pulses.critical ∧ b.alarm.inService = a.alarm.inService := by
  obtain ⟨v, j, e⟩ := h
  simp only [heralds, Prod.mk.injEq] at e
  exact ⟨e.2.1.trans j.critical, e.2.2.2.1.trans j.flag⟩

/-! ## Probes -/

theorem judges_enterOutcome (p : PathId) (answered : Bool) (s : State) : Judges p 1 s (enterOutcome p answered s) := by
  have h : Judges p (0 + 1) s (enterOutcome p answered s) :=
    (Still.judges (n := 0) (still_onSup p _ s rfl)).trans (judges_evaluateFade p _)
  exact h

theorem judges_loseOldest (p : PathId) (s : State) : Judges p 1 s (loseOldest p s) := by
  have h : Judges p (0 + 1) s (loseOldest p s) :=
    (Still.judges (n := 0) (still_onSup p _ s rfl)).trans (judges_enterOutcome p false _)
  exact h

theorem announces_startProbe (p : PathId) (number : Byte) (sent : Stamp) (s : State) :
    Announces p 1 s (startProbe p number sent s) := by
  unfold startProbe
  dsimp only
  split
  · exact .of_eq (heralds_onSup _ _ _)
  · exact (judges_loseOldest p s).announces.after (heralds_onSup _ _ _)

theorem announces_matchProbe (p : PathId) (e : ProbeEntry) (far : Stamp) (echoSent arrived : Time) (older : Nat) (s : State) :
    Announces p (older + 1) s (matchProbe p e far echoSent arrived older s) := by
  have l := Judges.foldl (p := p) (fun s (_ : Nat) => loseOldest p s) (fun s _ => judges_loseOldest p s) (List.range older) s
  rw [List.length_range] at l
  have h : Announces p (older + 1) s (takeSample p (latencySample e.sent far echoSent arrived) (enterOutcome p true (onSup p (fun u =>
      { u with probeList := u.probeList.drop 1 }) ((List.range older).foldl (fun s _ => loseOldest p s) s)))) :=
    (l.then ((still_onSup p _ _ rfl).then (judges_enterOutcome p true _).announces)).after (heralds_takeSample _ _ _)
  unfold matchProbe
  dsimp only
  split
  · exact h.after (heralds_enterService _ _)
  · exact h

theorem announces_takeEcho (p : PathId) (number : Byte) (probeSent : Time) (far : Stamp) (nsGood : Bool)
    (echoSent arrived : Time) (s : State) :
    Announces p s.paths[p].sup.probeList.length s (takeEcho p number probeSent far nsGood echoSent arrived s) := by
  unfold takeEcho
  dsimp only
  split
  · split
    · rename_i e h _
      refine (announces_matchProbe _ _ _ _ _ _ _).mono ?_
      have a := List.takeWhile_append_dropWhile
        (p := fun e : ProbeEntry => !(e.number == number && e.sent.time == probeSent)) (l := s.paths[p].sup.probeList)
      have b : (s.paths[p].sup.probeList.dropWhile
          (fun e : ProbeEntry => !(e.number == number && e.sent.time == probeSent))) ≠ [] := by
        rw [Ne, List.dropWhile_eq_nil_iff]
        intro c
        have d := c e (List.mem_of_find?_eq_some h)
        have g := List.find?_some h
        simp only [g] at d
        cases d
      have c := List.length_pos_of_ne_nil b
      have d := congrArg List.length a
      rw [List.length_append] at d
      omega
    · exact .of_eq rfl
  · exact .of_eq rfl

/-! ## Frames -/

theorem heralds_roleCheck (p : PathId) (header : Role) (grant : Bool) (k : State → State) (s : State)
    (h : heralds (k s) = heralds s) : heralds (roleCheck p header grant k s) = heralds s := by
  unfold roleCheck
  dsimp only
  split
  · split
    · exact heralds_onSup _ _ _
    · exact (heralds_onSup _ _ _).trans (heralds_raise17 s)
  · split
    · exact heralds_onSup _ _ _
    · exact h

theorem still_clearClash (p : PathId) (header : Role) (s : State) : Still s (clearClash p header s) := by
  unfold clearClash
  split <;> [exact .refl s; exact still_onSup p _ s rfl]

theorem clearClash_probeList (p : PathId) (header : Role) (s : State) :
    (clearClash p header s).paths[p].sup.probeList = s.paths[p].sup.probeList := by
  unfold clearClash
  split <;> [rfl; rw [onSup_self]]

theorem announces_handleControl (p : PathId) (h : FrameHeader) (bs : List Byte) (arrived : Stamp) (s : State) :
    Announces p s.paths[p].sup.probeList.length s (handleControl p h bs arrived s) := by
  unfold handleControl
  split
  · exact .of_eq rfl
  · exact .of_eq ((heralds_insertFrame _ _ _).trans (heralds_clearClash _ _ _))
  · rw [← clearClash_probeList p h.role s]
    exact (still_clearClash p h.role s).then (announces_takeEcho _ _ _ _ _ _ _ _)
  · split
    · exact .of_eq (heralds_roleCheck _ _ _ _ _ (heralds_takeOffer _ _ _ _ _))
    · exact .of_eq rfl
  · split
    · exact .of_eq (heralds_roleCheck _ _ _ _ _ (heralds_takeGrant _ _ _ _ _ _))
    · exact .of_eq rfl
  · exact .of_eq ((heralds_takeQuery _ _ _).trans (heralds_clearClash _ _ _))
  · exact .of_eq ((heralds_takeAnswer _ _ _ _).trans (heralds_clearClash _ _ _))

theorem announces_takeControl (p : PathId) (h : FrameHeader) (bs : List Byte) (arrived : Stamp) (s : State) :
    Announces p s.paths[p].sup.probeList.length s (takeControl p h bs arrived s) := by
  unfold takeControl
  split
  · exact announces_handleControl p h bs arrived s
  · exact .of_eq rfl

theorem announces_sortFrame (p : PathId) (h : FrameHeader) (bs : List Byte) (arrived : Stamp) (s : State) :
    Announces p s.paths[p].sup.probeList.length s (sortFrame p h bs arrived s) := by
  unfold sortFrame
  split
  · exact .of_eq ((heralds_mergeFrame _ _ _ _ _).trans (heralds_takeInbound _ _ _ _))
  · exact announces_takeControl p h bs arrived s

theorem judges_enterMark (p : PathId) (good : Bool) (s : State) : Judges p 1 s (enterMark p good s) := by
  have h : Judges p (0 + 1) s (enterMark p good s) :=
    (Still.judges (n := 0) (still_onPort p _ s)).trans (judges_evaluateFade p _)
  exact h

/-- A judgement keeps the probe list. -/
theorem fadeJudged_probeList (p : PathId) (s : State) :
    (fadeJudged p s).paths[p].sup.probeList = s.paths[p].sup.probeList := by
  have r : ∀ t : State, (rerank t).paths = t.paths := by
    intro t; unfold rerank; dsimp only; split <;> split <;> rfl
  have m : ∀ t : State, (markRecord 5 t).paths = t.paths := fun _ => rfl
  have e : ∀ (c : CauseId) (f : Supervisor → Supervisor), (raiseCause c (onSup p f s)).paths = (onSup p f s).paths :=
    fun _ _ => rfl
  have f : (fadeState p s).paths[p].sup.probeList = s.paths[p].sup.probeList := by
    unfold fadeState
    repeat' split
    all_goals first
      | rfl
      | simp only [e, onSup_self]
  have g : (fadeJudged p s).paths = (fadeState p s).paths ∨ (fadeJudged p s).paths = s.paths := by
    unfold fadeJudged
    dsimp only
    split
    · left; split <;> simp only [m, r]
    · right; rfl
  rcases g with g | g <;> simp only [g]
  exact f

theorem enterMark_probeList (p : PathId) (good : Bool) (s : State) :
    (enterMark p good s).paths[p].sup.probeList = s.paths[p].sup.probeList := by
  rw [enterMark_eq, frameMarked, fadeJudged_probeList]
  simp [onPort, onPath]

theorem announces_goodFrame (p : PathId) (h : FrameHeader) (bs : List Byte) (arrived : Stamp) (s : State) :
    Announces p (1 + s.paths[p].sup.probeList.length) s (goodFrame p h bs arrived s) := by
  have l := enterMark_probeList p true s
  unfold goodFrame
  dsimp only
  refine (judges_enterMark p true s).then ?_
  split
  · have k := announces_sortFrame p h bs arrived (runSilence p (enterMark p true s))
    have e : (runSilence p (enterMark p true s)).paths[p].sup.probeList = s.paths[p].sup.probeList := by
      rw [← l]; simp [runSilence, onPath, presetSilence]
    rw [e] at k
    exact Still.then (still_onPath p _ _ rfl) k
  · have k := announces_sortFrame p h bs arrived (enterMark p true s)
    rw [l] at k
    exact k

theorem announces_receiveFrame (p : PathId) (condition : Byte) (bytes : List Byte) (s : State) :
    Announces p (1 + s.paths[p].sup.probeList.length) s (receiveFrame p condition bytes s) := by
  have l : ∀ f : Port → Port, (onPort p f s).paths[p].sup.probeList = s.paths[p].sup.probeList := by
    intro f; simp [onPort, onPath]
  unfold receiveFrame
  dsimp only
  split
  · have k := announces_goodFrame p ‹_› ‹_› (stampNow s) (onPort p (fun q => { q with received := satInc q.received }) s)
    rw [l] at k
    exact (still_onPort p _ s).then k
  · exact (Still.then (still_onPort p _ s) (judges_enterMark p false _).announces).mono (by omega)

theorem announces_doCarry (p : PathId) (condition : Byte) (bytes : List Byte) (s : State) :
    Announces p (1 + s.paths[p].sup.probeList.length) s (doCarry p condition bytes s) := by
  unfold doCarry
  split
  · exact .of_eq (heralds_discardMessage p s)
  · split
    · exact .of_eq rfl
    · exact announces_receiveFrame p condition bytes s

/-! ## Reports -/

theorem still_storeReport (p : PathId) (margin : Byte) (profile : Nat) (unit : UnitState) (s : State) :
    Still s (storeReport p margin profile unit s) := still_onSup p _ s rfl

theorem still_countSupport (p : PathId) (s : State) : Still s (countSupport p s) := by
  unfold countSupport
  refine still_onSup p _ s ?_
  dsimp only
  split <;> rfl

theorem still_requestStepUp (p : PathId) (s : State) : Still s (requestStepUp p s) := by
  have h : Still s (sendOffer p s) := by
    refine Still.trans (still_onSup p _ s ?_) (still_insertFrame p _ _)
    split <;> rfl
  exact h.trans (still_onSup p _ _ rfl)

theorem announces_reportInService (p : PathId) (s : State) : Announces p 1 s (reportInService p s) := by
  unfold reportInService
  dsimp only
  refine Still.then (still_countSupport p s) ?_
  split
  · exact .of_eq (heralds_enterRetune _ _ _)
  · split
    · exact Still.then (still_requestStepUp p _) (judges_evaluateFade p _).announces
    · exact (judges_evaluateFade p _).announces

theorem announces_actOnReport (p : PathId) (s : State) : Announces p 1 s (actOnReport p s) := by
  unfold actOnReport
  dsimp only
  repeat' split
  all_goals first
    | exact .of_eq rfl
    | exact .of_eq (heralds_enterHeld p s)
    | exact .of_eq (heralds_confirm p s)
    | exact .of_eq (heralds_confirmRetune p s)
    | exact .of_eq (heralds_stepDown p s)
    | exact announces_reportInService p s

theorem announces_takeReport (p : PathId) (margin : Byte) (profile : Nat) (unit : UnitState) (s : State) :
    Announces p 1 s (takeReport p margin profile unit s) := by
  unfold takeReport
  dsimp only
  refine Still.then (still_storeReport p margin profile unit s) ?_
  split
  · exact announces_actOnReport p _
  · exact .of_eq (heralds_actOnGroundReport p _)

theorem announces_doReport (p : PathId) (margin profile unit : Byte) (s : State) :
    Announces p 1 s (doReport p margin profile unit s) := by
  unfold doReport
  split
  · exact announces_takeReport _ _ _ _ _
  · exact .of_eq (heralds_discardMessage p s)

theorem announces_doUnknownUnitMessage (p : PathId) (b0 b1 b2 b3 : Byte) (s : State) :
    Announces p (1 + s.paths[p].sup.probeList.length) s (doUnknownUnitMessage p b0 b1 b2 b3 s) := by
  unfold doUnknownUnitMessage
  repeat' split
  · exact .of_eq (heralds_discardMessage p s)
  · exact .of_eq (heralds_doAccept p s)
  · exact .of_eq (heralds_doReject p s)
  · exact (announces_doReport _ _ _ _ _).mono (by omega)
  · exact announces_doCarry _ _ _ _

/-! ## Messages to the unit -/

theorem announces_sendControl (p : PathId) (f : ControlFrame) (s : State) : Announces p 1 s (sendControl p f s) := by
  unfold sendControl
  dsimp only
  split
  · exact Still.then ((still_onPort p _ s).trans (still_onPort p _ _)) (announces_startProbe _ _ _ _)
  · exact .of_eq ((heralds_handOver _ _ _ _).trans (heralds_onPort _ _ _))

theorem announces_doSendStart (p : PathId) (s : State) : Announces p 1 s (doSendStart p s) := by
  unfold doSendStart
  split
  · exact announces_sendControl _ _ _
  · exact .of_eq (heralds_sendCopy _ _ _)
  · exact .of_eq rfl
  · exact .of_eq rfl

end Sys2Proof.Machine
end

