-- ==== Sys2Proof/Laws/Arrivals.lean ====
section
/-! SUPPORT. Divert filters and arrivals (R137, R144, R145). -/

namespace Sys2Proof

open Machine

/-- Two streams agree in every bit of a mask. -/
theorem agree_stream (a v m : BitVec 4) : (a ^^^ v) &&& m = 0
    ↔ ∀ k : Fin 4, m.getLsbD k.val = true → a.getLsbD k.val = v.getLsbD k.val := by
  constructor
  · intro h k hk
    have := congrArg (fun x => x.getLsbD k.val) h
    simp only [BitVec.getLsbD_and, BitVec.getLsbD_xor, hk, Bool.and_true] at this
    simpa using this
  · intro h
    apply BitVec.eq_of_getLsbD_eq
    intro i hi
    by_cases c : m.getLsbD i = true
    · have := h ⟨i, hi⟩ c; simp_all
    · simp [c]

/-- Two types agree in every bit of a mask. -/
theorem agree_type (a v m : BitVec 8) : (a ^^^ v) &&& m = 0
    ↔ ∀ k : Fin 8, m.getLsbD k.val = true → a.getLsbD k.val = v.getLsbD k.val := by
  constructor
  · intro h k hk
    have := congrArg (fun x => x.getLsbD k.val) h
    simp only [BitVec.getLsbD_and, BitVec.getLsbD_xor, hk, Bool.and_true] at this
    simpa using this
  · intro h
    apply BitVec.eq_of_getLsbD_eq
    intro i hi
    by_cases c : m.getLsbD i = true
    · have := h ⟨i, hi⟩ c; simp_all
    · simp [c]

/-- The first match of a list. -/
theorem find_of_split {α} (l : List α) (p : α → Bool) (a b : List α) (x : α) (h : l = a ++ x :: b)
    (hx : p x = true) (ha : ∀ y ∈ a, p y = false) :
    l.find? p = some x := by
  subst h; rw [List.find?_append, List.find?_eq_none.mpr (by simpa using ha)]; simp [hx]

/-- The numbers below one of them come before it. -/
theorem finRange_split (n : Nat) (f : Fin n) : ∃ a b, List.finRange n = a ++ f :: b ∧ ∀ y ∈ a, y < f := by
  obtain ⟨a, b, h⟩ := List.append_of_mem (List.mem_finRange f)
  refine ⟨a, b, h, ?_⟩
  have := List.pairwise_lt_finRange n
  rw [h, List.pairwise_append] at this
  intro y hy
  exact this.2.2 y hy f (by simp)

/-- A match of a filter, bit by bit (R145). -/
theorem matches_iff (f : DivertFilter) (rec : Delivery) : f.matches rec = true ↔ f.enabled = true
      ∧ (∀ k : Fin 4, f.streamMask.getLsbD k.val = true → rec.stream.val.testBit k.val = f.streamValue.getLsbD k.val)
      ∧ ∀ k : Fin 8, f.typeMask.getLsbD k.val = true →
        (rec.payload.headD 0).getLsbD k.val = f.typeValue.getLsbD k.val := by
  rw [DivertFilter.matches]
  simp only [Bool.and_eq_true, beq_iff_eq, and_assoc]
  rw [Delivery.type, agree_stream, agree_type]
  have : ∀ k : Fin 4, (BitVec.ofNat 4 rec.stream.val).getLsbD k.val = rec.stream.val.testBit k.val := by
    intro k; simp
  simp only [this]

/-- Joining the recent list (R140). -/
theorem joinRecent_eq (l : List Recent) (e : Recent) : joinRecent l e = pushed 32 l e := by
  rw [joinRecent, pushed]; split <;> rfl

/-- A move by one eighth stays within 32 bits (R141). -/
theorem bits32_eighth (o : BitVec 32) (v : Nat) (hv : v ≤ 4294967295) :
    ((bits32 (eighth o.toNat v)).toNat : Int) = o.toNat + ((v : Int) - o.toNat).tdiv 8 := by
  have ho := o.isLt
  have t1 : ((v : Int) - o.toNat).tdiv 8
      = if (o.toNat : Int) ≤ v then ((v : Int) - o.toNat) / 8 else -((o.toNat - (v:Int)) / 8) := by
    split
    · rw [Int.tdiv_eq_ediv_of_nonneg (by omega)]
    · rw [show (v : Int) - o.toNat = -(o.toNat - (v : Int)) by omega, Int.neg_tdiv, Int.tdiv_eq_ediv_of_nonneg (by omega)]
  rw [bits32, BitVec.toNat_ofInt, eighth, t1]
  split <;> omega

/-- The cases of Table 8-3 at or below the highest sequence. -/
theorem arrivalCase_old (x : Machine.Stream) (q : BitVec 32) (t : x.tracking = true) (h1 : -4096 ≤ (q - x.highest).toInt)
    (h2 : (q - x.highest).toInt ≤ 0) :
    arrivalCase x q = if x.gaps.any (fun g => g.sequence == q) then .lateFill
      else match x.recent.find? fun e => e.sequence == q with
        | some e => .duplicate e
        | none => .tooLate := by
  rw [arrivalCase]
  rw [if_neg (by simp [t]), if_neg (by omega), if_neg (by omega), if_neg (by omega)]
  all_goals rfl

end Sys2Proof
end

