-- ==== Sys2Proof/Laws/Deadlines.lean ====
section
/-! SUPPORT. Deadlines: moves of the time value, ageing and gap expiry (R62, R125, R142). -/

namespace Sys2Proof.Machine

/-- A record whose deadline is not passed does not age. -/
theorem ageOne_ahead (s : State) (x : RecordName)
    (h : ∀ r us, recordNamed s x = some r → r.ageLimit = some us → s.time.value ≤ r.capture.time + us * 1000) :
    ageOne s x = s := by
  unfold ageOne
  cases e : recordNamed s x with
  | none => rfl
  | some r =>
    have : r.isPast s.time.value = false := by
      unfold LaunchRecord.isPast LaunchRecord.deadline
      cases a : r.ageLimit with
      | none => rfl
      | some us => simpa using h r us e a
    simp [this]

/-- Without a passed deadline no record ages. -/
theorem ageRecords_ahead (s : State)
    (h : ∀ x ∈ s.sel.urgent.names ++ s.sel.normal.names, ∀ r us, recordNamed s x = some r → r.ageLimit = some us →
      s.time.value ≤ r.capture.time + us * 1000) :
    ageRecords s = s := by
  unfold ageRecords
  generalize s.sel.urgent.names ++ s.sel.normal.names = l at *
  induction l with
  | nil => rfl
  | cons x l ih =>
    rw [List.foldl_cons, ageOne_ahead s x (h x (by simp))]
    exact ih fun y hy => h y (by simp [hy])

/-- Without a passed expiry stamp no gap entry of the stream expires. -/
theorem expireStream_ahead (s : State) (i : StreamId) (h : ∀ g ∈ s.streams[i].gaps, s.time.value ≤ g.expiry.time) :
    expireStream s i = s := by
  unfold expireStream
  have a : s.streams[i].gaps.filter (·.isPast s.time.value) = [] := by
    simpa [Gap.isPast] using h
  have b : s.streams[i].gaps.filter (fun g => !g.isPast s.time.value) = s.streams[i].gaps := by
    simpa [Gap.isPast] using h
  simp only [a, List.foldl_nil, onStream, b]
  show { s with streams := s.streams.set i.val s.streams[i.val] i.isLt } = s
  rw [Vector.set_getElem_self]

/-- The deposit of a record touches neither the trackers nor the time base. -/
theorem handRecord_keeps (rec : Delivery) (s : State) (n : RingId) :
    (handRecord rec s n).streams = s.streams ∧ (handRecord rec s n).time = s.time := by
  unfold handRecord
  simp only []
  split
  · split <;> [exact ⟨rfl, rfl⟩; split <;> exact ⟨rfl, rfl⟩]
  · exact ⟨rfl, rfl⟩

/-- Nor do the divert filters. -/
theorem deliver_keeps (rec : Delivery) (s : State) :
    (deliver rec s).streams = s.streams ∧ (deliver rec s).time = s.time := by
  unfold deliver
  simp only []
  split
  · exact handRecord_keeps _ _ _
  · split
    · refine ⟨(handRecord_keeps _ _ _).1.trans rfl, (handRecord_keeps _ _ _).2.trans rfl⟩
    · split
      · refine ⟨(handRecord_keeps _ _ _).1.trans rfl, (handRecord_keeps _ _ _).2.trans rfl⟩
      · refine ⟨(handRecord_keeps _ _ _).1.trans ((handRecord_keeps _ _ _).1.trans rfl),
          (handRecord_keeps _ _ _).2.trans ((handRecord_keeps _ _ _).2.trans rfl)⟩
    · exact ⟨rfl, rfl⟩

/-- The expiry of one entry, already removed, leaves the gap lists, the marker settings and the time base. -/
theorem expireGap_keeps (i : StreamId) (g : Gap) (s : State) :
    (expireGap i s g).time = s.time ∧ (∀ j : StreamId, (expireGap i s g).streams[j].gaps = s.streams[j].gaps
      ∧ (expireGap i s g).streams[j].markers = s.streams[j].markers) := by
  unfold expireGap
  simp only []
  generalize hf : (fun x : Machine.Stream => { x with lost := satInc x.lost }) = f
  have fg : ∀ x, (f x).gaps = x.gaps ∧ (f x).markers = x.markers := by intro x; rw [← hf]; exact ⟨rfl, rfl⟩
  have base : ∀ j : StreamId, (raiseCause 12 (onStream i f s)).streams[j].gaps = s.streams[j].gaps
      ∧ (raiseCause 12 (onStream i f s)).streams[j].markers = s.streams[j].markers := by
    intro j
    show (onStream i f s).streams[j].gaps = _ ∧ (onStream i f s).streams[j].markers = _
    by_cases e : j = i
    · subst e
      have : (onStream j f s).streams[j] = f s.streams[j] := onStream_streams_same j f s
      rw [this]; exact fg _
    · rw [onStream_streams_other i j f s e]; exact ⟨rfl, rfl⟩
  have ht : (raiseCause 12 (onStream i f s)).time = s.time := rfl
  generalize raiseCause 12 (onStream i f s) = t at *
  split
  · refine ⟨(deliver_keeps _ _).2.trans ht, fun j => ?_⟩
    have := (deliver_keeps (lossMarker i g.sequence (stampNow t)) t).1
    constructor
    · rw [← (base j).1]; simp only [this]
    · rw [← (base j).2]; simp only [this]
  · exact ⟨ht, base⟩

/-- So does the expiry of several. -/
theorem expireGaps_keep (i : StreamId) (l : List Gap) (s : State) :
    (l.foldl (expireGap i) s).time = s.time
    ∧ (∀ j : StreamId, (l.foldl (expireGap i) s).streams[j].gaps = s.streams[j].gaps
      ∧ (l.foldl (expireGap i) s).streams[j].markers = s.streams[j].markers) := by
  induction l generalizing s with
  | nil => exact ⟨rfl, fun j => ⟨rfl, rfl⟩⟩
  | cons g l ih =>
    rw [List.foldl_cons]
    have a := expireGap_keeps i g s
    have b := ih (expireGap i s g)
    exact ⟨b.1.trans a.1, fun j => ⟨(b.2 j).1.trans (a.2 j).1, (b.2 j).2.trans (a.2 j).2⟩⟩

/-- The expiry of a stream removes the passed entries of that stream alone. -/
theorem expireStream_does (i : StreamId) (s : State) :
    (expireStream s i).time = s.time ∧ (∀ j, j ≠ i → (expireStream s i).streams[j].gaps = s.streams[j].gaps)
    ∧ (expireStream s i).streams[i].gaps = s.streams[i].gaps.filter (fun g => !g.isPast s.time.value) := by
  unfold expireStream
  simp only []
  have b := expireGaps_keep i (s.streams[i].gaps.filter (·.isPast s.time.value))
    (onStream i (fun x => { x with gaps := x.gaps.filter fun g => !g.isPast s.time.value }) s)
  refine ⟨b.1, fun j h => (b.2 j).1.trans ?_, (b.2 i).1.trans ?_⟩
  · rw [onStream_streams_other i j _ s h]
  · simp [onStream]

/-- Where only one stream has passed entries, only it expires. -/
theorem expireStreams_one (i : StreamId) (l : List StreamId) (s : State) (hn : l.Nodup)
    (h : ∀ j, j ≠ i → ∀ g ∈ s.streams[j].gaps, s.time.value ≤ g.expiry.time) :
    l.foldl expireStream s = if i ∈ l then expireStream s i else s := by
  induction l generalizing s with
  | nil => rfl
  | cons j l ih =>
    rw [List.foldl_cons]
    have hn' := List.nodup_cons.mp hn
    by_cases e : j = i
    · subst e
      have f := expireStream_does j s
      rw [ih _ hn'.2 (fun k hk g hg => by rw [f.1]; rw [f.2.1 k hk] at hg; exact h k hk g hg)]
      simp [hn'.1]
    · rw [expireStream_ahead s j (h j e), ih s hn'.2 h]
      simp [Ne.symm e]

/-- Where only one stream has passed entries and no record ages, passing the deadlines is the expiry of that stream. -/
theorem passDeadlines_one (i : StreamId) (s : State) (hq : ageRecords s = s)
    (h : ∀ j, j ≠ i → ∀ g ∈ s.streams[j].gaps, s.time.value ≤ g.expiry.time) :
    passDeadlines s = expireStream s i := by
  rw [passDeadlines, hq, expireStreams_one i _ s (List.nodup_finRange _) h]
  simp

/-- The earliest of some times is their least. -/
theorem earliest_of_least (l : List Time) (d : Time) (h : d ∈ l) (k : ∀ x ∈ l, d ≤ x) : earliest l = some d := by
  rw [earliest]
  cases e : l.min? with
  | none => rw [List.min?_eq_none_iff] at e; subst e; simp at h
  | some a =>
    have := List.min?_eq_some_iff.mp e
    have h1 := this.2 d h
    have h2 := k a this.1
    congr 1; exact Nat.le_antisymm h1 h2

/-- A move of the time value is the value, PPS_OUT at a new second, and the deadlines it passes. -/
theorem moveTime_eq (v : Time) (s : State) : moveTime v s = passDeadlines { s with
      time := { s.time with value := v }
      pulses := if s.time.value / 1000000000 < v / 1000000000 then { s.pulses with ppsOut := some 0 } else s.pulses } := by
  generalize hb : (1000000000 : Nat) = b
  have hc : Config.second = b := hb
  unfold moveTime
  simp only [hc]
  clear hb hc
  split <;> rfl

/-- A row that names a deadline brings it about and takes what has been passed. -/
theorem passTime_eq (s u : State) (d now : Time) (hn : now = (if d < s.time.value then s.time.value else d + 1))
    (hm : now ≤ Config.maxTime)
    (hu : u = (if d < s.time.value then s else { s with
      time := { s.time with value := now, fraction := 0 }
      pulses := if s.time.value / 1000000000 < now / 1000000000 then { s.pulses with ppsOut := some 0 } else s.pulses })) :
    passTime d s = passDeadlines u := by
  unfold passTime
  by_cases c : d < s.time.value
  · simp only [c, if_true] at *
    rw [hu]
  · simp only [c, if_false] at *
    have : d < Config.maxTime := by rw [hn] at hm; exact hm
    rw [if_pos this, hu, ← hn, moveTime_eq]

/-! ## All that a move of the time value does -/

/-- A request of an outcome keeps the time base. -/
theorem requestOutcome_time (r : LaunchRecord) (x : OutcomeResult) (s : State) : (requestOutcome r x s).time = s.time := by
  rw [requestOutcome_eq]

/-- One record ages when its deadline has been passed. -/
theorem ageOne_eq (s : State) (x : RecordName) : ageOne s x = (match recordNamed s x with
      | some r =>
        match r.ageLimit with
        | some us => if r.capture.time + us * 1000 < s.time.value then requestOutcome r .stale s else s
        | none => s
      | none => s) := by
  unfold ageOne
  cases recordNamed s x with
  | none => rfl
  | some r =>
    obtain ⟨_, _, _, _, _, _, _, _, c, a, _⟩ := r
    cases a <;> simp [LaunchRecord.isPast, LaunchRecord.deadline]

/-- Records age one after the other. -/
theorem ageOnes_eq (v : Time) (l : List RecordName) (s : State) (h : s.time.value = v) :
    l.foldl ageOne s = l.foldl (fun w x => match recordNamed w x with
      | some r =>
        match r.ageLimit with
        | some us => if r.capture.time + us * 1000 < v then requestOutcome r .stale w else w
        | none => w
      | none => w) s ∧ (l.foldl ageOne s).time = s.time := by
  induction l generalizing s with
  | nil => exact ⟨rfl, rfl⟩
  | cons x l ih =>
    have e := ageOne_eq s x
    have k : (ageOne s x).time = s.time := by
      rw [e]; repeat' split
      all_goals first | rfl | exact requestOutcome_time _ _ _
    rw [List.foldl_cons, List.foldl_cons]
    have := ih (ageOne s x) (by rw [k, h])
    refine ⟨?_, this.2.trans k⟩
    rw [this.1, e, h]

/-- Gap entries of a stream expire one after the other, each with its loss marker where markers are on. -/
theorem expireGaps_eq (v : Time) (q : Quality) (i : StreamId) (l : List Gap) (s : State) (h : s.time.value = v)
    (hq : s.time.state = q) :
    l.foldl (expireGap i) s = l.foldl (fun y g =>
        let lost := raiseCause 12 (onStream i (fun x => { x with lost := satInc x.lost }) y)
        if y.streams[i].markers then deliver ⟨i, none, g.sequence, ⟨v, q⟩, [],
            ⟨false, false, false, true, false, decide (q ≠ .locked)⟩⟩ lost
        else lost) s := by
  induction l generalizing s with
  | nil => rfl
  | cons g l ih =>
    have k := (expireGap_keeps i g s).1
    rw [List.foldl_cons, List.foldl_cons, ih _ (by rw [k, h]) (by rw [k, hq])]
    congr 1
    unfold expireGap
    dsimp only
    have m : (raiseCause 12 (onStream i (fun x => { x with lost := satInc x.lost }) s)).streams[i].markers
        = s.streams[i].markers := by
      have e : ∀ f, (raiseCause 12 (onStream i f s)).streams = (onStream i f s).streams := fun _ => rfl
      simp only [e]
      have w := congrArg Machine.Stream.markers (onStream_streams_same i (fun x => { x with lost := satInc x.lost }) s)
      exact w
    simp only [m]
    split
    · congr 1
      have : stampNow (raiseCause 12 (onStream i (fun x => { x with lost := satInc x.lost }) s)) = ⟨v, q⟩ := by
        rw [← h, ← hq]; rfl
      rw [this, lossMarker, plainFlags]
      cases q <;> rfl
    · rfl

/-- Streams expire one after the other. -/
theorem expireStreams_eq (v : Time) (q : Quality) (l : List StreamId) (s : State) (h : s.time.value = v) (hq : s.time.state = q) :
    l.foldl expireStream s = l.foldl (fun (w : State) (i : StreamId) =>
      (w.streams[i].gaps.filter (fun g => decide (g.expiry.time < v))).foldl (fun y g =>
        let lost := raiseCause 12 (onStream i (fun x => { x with lost := satInc x.lost }) y)
        if y.streams[i].markers then deliver ⟨i, none, g.sequence, ⟨v, q⟩, [],
            ⟨false, false, false, true, false, decide (q ≠ .locked)⟩⟩ lost
        else lost)
      (onStream i (fun x => { x with gaps := x.gaps.filter (fun g => decide (v ≤ g.expiry.time)) }) w)) s := by
  induction l generalizing s with
  | nil => rfl
  | cons i l ih =>
    have k := (expireStream_does i s).1
    rw [List.foldl_cons, List.foldl_cons, ih _ (by rw [k, h]) (by rw [k, hq])]
    congr 1
    unfold expireStream
    dsimp only
    have f : (fun g : Gap => !g.isPast s.time.value) = (fun g => decide (v ≤ g.expiry.time)) := by
      funext g; rw [h, Gap.isPast, ← decide_not]; simp
    have f2 : (fun g : Gap => g.isPast s.time.value) = (fun g => decide (g.expiry.time < v)) := by
      funext g; rw [h, Gap.isPast]
    rw [f, f2]
    exact expireGaps_eq v q i _ _ h hq

/-- All that a move of the time value does (R62, R76, R125, R142; entry 10). -/
theorem moveTime_spelled (v : Time) (s t u : State) (ht : t = { s with
      time := { s.time with value := v }
      pulses := if s.time.value / 1000000000 < v / 1000000000 then { s.pulses with ppsOut := some 0 } else s.pulses })
    (hu : u = (s.sel.urgent.front ++ s.sel.urgent.back ++ (s.sel.normal.front ++ s.sel.normal.back)).foldl (fun w x =>
      match recordNamed w x with
      | some r =>
        match r.ageLimit with
        | some us => if r.capture.time + us * 1000 < v then requestOutcome r .stale w else w
        | none => w
      | none => w) t) :
    moveTime v s = (List.finRange 16).foldl (fun (w : State) (i : StreamId) =>
      (w.streams[i].gaps.filter (fun g => decide (g.expiry.time < v))).foldl (fun y g =>
        let lost := raiseCause 12 (onStream i (fun x => { x with lost := satInc x.lost }) y)
        if y.streams[i].markers then deliver ⟨i, none, g.sequence, ⟨v, s.time.state⟩, [],
            ⟨false, false, false, true, false, decide (s.time.state ≠ .locked)⟩⟩ lost
        else lost)
      (onStream i (fun x => { x with gaps := x.gaps.filter (fun g => decide (v ≤ g.expiry.time)) }) w)) u := by
  rw [moveTime_eq, ← ht, passDeadlines]
  have tv : t.time.value = v := by rw [ht]
  have ts : t.time.state = s.time.state := by rw [ht]
  have a := ageOnes_eq v (t.sel.urgent.names ++ t.sel.normal.names) t tv
  have e : t.sel = s.sel := by rw [ht]
  have g : ageRecords t = u := by
    unfold ageRecords; rw [a.1, hu, e]; rfl
  have gt : u.time = t.time := by rw [← g]; exact a.2
  rw [g]
  exact expireStreams_eq v s.time.state _ u (by rw [gt, tv]) (by rw [gt, ts])

/-- The pulses, the status writer's own state and the burst in progress. -/
def pulsesAndMarks (s : State) : Pulses × StatusWriter × Option WriteEntry := (s.pulses, s.status, s.mem.burst)

/-- What a move of the time value makes fall due touches no pulse (R76), no mark of a status record and no burst. -/
theorem passDeadlines_pulsesAndMarks (s : State) : pulsesAndMarks (passDeadlines s) = pulsesAndMarks s := by
  have fold : ∀ {α : Type} (g : State → α → State), (∀ w a, pulsesAndMarks (g w a) = pulsesAndMarks w) →
      ∀ (l : List α) (w : State), pulsesAndMarks (l.foldl g w) = pulsesAndMarks w := by
    intro α g h l
    induction l with
    | nil => intro w; rfl
    | cons a l ih => intro w; rw [List.foldl_cons, ih, h]
  have hand : ∀ (rec : Delivery) (w : State) (n : RingId), pulsesAndMarks (handRecord rec w n) = pulsesAndMarks w := by
    intro rec w n
    unfold handRecord
    dsimp only
    repeat' split
    all_goals rfl
  have del : ∀ (rec : Delivery) (w : State), pulsesAndMarks (deliver rec w) = pulsesAndMarks w := by
    intro rec w
    unfold deliver
    dsimp only
    repeat' split
    all_goals first
      | exact hand _ _ _
      | exact (hand _ _ _).trans (hand _ _ _)
      | exact (hand _ _ _).trans rfl
      | exact (hand _ _ _).trans ((hand _ _ _).trans rfl)
      | rfl
  have gap : ∀ (i : StreamId) (w : State) (g : Gap), pulsesAndMarks (expireGap i w g) = pulsesAndMarks w := by
    intro i w g
    unfold expireGap
    dsimp only
    split <;> [exact (del _ _).trans rfl; rfl]
  have stream : ∀ (w : State) (i : StreamId), pulsesAndMarks (expireStream w i) = pulsesAndMarks w := by
    intro w i
    unfold expireStream
    exact (fold _ (gap i) _ _).trans rfl
  have age : ∀ (w : State) (x : RecordName), pulsesAndMarks (ageOne w x) = pulsesAndMarks w := by
    intro w x
    rw [ageOne_eq]
    repeat' split
    all_goals first
      | rfl
      | (rw [requestOutcome_eq]; rfl)
  rw [passDeadlines, fold _ stream, ageRecords, fold _ age]

/-- What a move of the time value makes fall due touches no pulse (R76). -/
theorem passDeadlines_pulses (s : State) : (passDeadlines s).pulses = s.pulses := by
  have h := passDeadlines_pulsesAndMarks s
  simp only [pulsesAndMarks, Prod.mk.injEq] at h
  exact h.1

/-- A move of the time value marks no status record (R71), and leaves the burst in progress. -/
theorem moveTime_status (v : Time) (s : State) : (moveTime v s).status = s.status ∧ (moveTime v s).mem.burst = s.mem.burst := by
  rw [moveTime_eq]
  have h := fun t => passDeadlines_pulsesAndMarks t
  simp only [pulsesAndMarks, Prod.mk.injEq] at h
  exact ⟨(h _).2.1, (h _).2.2⟩

/-- A move of the time value produces PPS_OUT when the seconds increase, and touches no other pulse (R76). -/
theorem moveTime_pulses (v : Time) (s : State) :
    (moveTime v s).pulses = if s.time.value / 1000000000 < v / 1000000000 then { s.pulses with ppsOut := some 0 } else s.pulses := by
  rw [moveTime_eq, passDeadlines_pulses]

/-- The time value after its move. -/
theorem moveTime_time (v : Time) (s : State) : (moveTime v s).time = { s.time with value := v } := by
  have g : ∀ (l : List RecordName) (w : State), (l.foldl ageOne w).time = w.time := fun l w => (ageOnes_eq _ l w rfl).2
  have h : ∀ (l : List StreamId) (w : State), (l.foldl expireStream w).time = w.time := by
    intro l
    induction l with
    | nil => intro w; rfl
    | cons i l ih => intro w; rw [List.foldl_cons, ih, (expireStream_does i w).1]
  rw [moveTime_eq, passDeadlines, h, ageRecords, g]

end Sys2Proof.Machine
end

