-- ==== Sys2Proof/Laws/Marks.lean ====
section
/-! SUPPORT. The marks of the status records (R178): what every event brings with it takes none away, and which record a pulse
marks. -/

namespace Sys2Proof.Machine

/-- The mark of a record, and the mark of a change during its own burst, where they stood still stand. -/
def KeepsMarks (s t : State) : Prop :=
  ∀ r : RecordId, (s.status.records[r].changed = true → t.status.records[r].changed = true)
    ∧ (s.status.records[r].again = true → t.status.records[r].again = true)

theorem KeepsMarks.refl (s : State) : KeepsMarks s s := fun _ => ⟨id, id⟩

theorem KeepsMarks.trans {s t u : State} (h : KeepsMarks s t) (k : KeepsMarks t u) : KeepsMarks s u :=
  fun r => ⟨(k r).1 ∘ (h r).1, (k r).2 ∘ (h r).2⟩

/-- An operation that leaves the status writer's state keeps every mark. -/
theorem KeepsMarks.of_status {s t : State} (h : t.status = s.status) : KeepsMarks s t := fun r => by rw [h]; exact ⟨id, id⟩

theorem markRecord_get (r q : RecordId) (s : State) : (markRecord r s).status.records[q] =
    if r = q then { s.status.records[r] with
      changed := true, again := s.status.records[r].again || burstWrites r s } else s.status.records[q] := by
  change (s.status.records.set r.val _ r.isLt)[q.val] = _
  rw [Vector.getElem_set]
  by_cases h : r = q
  · simp [h]
  · rw [if_neg fun k => h (Fin.ext k), if_neg h]
    rfl

/-- Marking a record takes no mark away. -/
theorem keepsMarks_markRecord (r : RecordId) (s : State) : KeepsMarks s (markRecord r s) := by
  intro q
  rw [markRecord_get]
  split
  · rename_i h
    subst h
    exact ⟨fun _ => rfl, fun k => by rw [k]; rfl⟩
  · exact ⟨id, id⟩

theorem keepsMarks_markRecords (l : List RecordId) (s : State) : KeepsMarks s (l.foldl (fun s r => markRecord r s) s) := by
  induction l generalizing s with
  | nil => exact .refl s
  | cons r l ih => exact (keepsMarks_markRecord r s).trans (ih _)

theorem keepsMarks_dateOffers (s : State) : KeepsMarks s (dateOffers s) := by
  intro r
  simp [dateOffers]

/-- What every event brings with it takes no mark away. -/
theorem keepsMarks_settle (o s : State) : KeepsMarks s (settle o s) := by
  have lines : ∀ u : State, KeepsMarks u (refreshLines u) := fun u => .of_status (by rw [refreshLines_eq])
  have rain : ∀ u : State, KeepsMarks u (announceRain o u) := fun u => by
    obtain ⟨a, h⟩ := announceRain_eq o u
    exact .of_status (by rw [h])
  have rank : ∀ u : State, KeepsMarks u (rerank u) := fun u => by
    obtain ⟨r, a, q, h, -⟩ := rerank_eq u
    exact .of_status (by rw [h])
  have outputs : ∀ u : State, KeepsMarks u (refreshAlarm u) := fun u => .of_status rfl
  have inputs : ∀ u : State, KeepsMarks u (takeInputs u) := fun u => .of_status rfl
  have changes : ∀ u : State, KeepsMarks u (markChanges o u) := fun u => keepsMarks_markRecords _ u
  have count : ∀ u : State, KeepsMarks u { u with events := u.events + 1 } := fun u => .of_status rfl
  rw [settle_eq]
  refine KeepsMarks.trans ?_ (count _)
  unfold consequences
  refine KeepsMarks.trans ?_ (keepsMarks_dateOffers _)
  refine KeepsMarks.trans ?_ (changes _)
  refine KeepsMarks.trans ?_ (lines _)
  refine KeepsMarks.trans ?_ (outputs _)
  refine KeepsMarks.trans ?_ (rank _)
  refine KeepsMarks.trans ?_ (rain _)
  exact (lines s).trans (inputs _)

/-- From `s` to `t` the burst in progress stands, and in `t` the time status record is marked; during its own burst the change is kept
apart (R71, R178). -/
def TimeMarked (s t : State) : Prop := t.mem.burst = s.mem.burst ∧ t.status.records[(6 : RecordId)].changed = true
  ∧ ∀ b, s.mem.burst = some b → b.source = .status 6 → t.status.records[(6 : RecordId)].again = true

/-- What takes no mark away and leaves the burst keeps the time status record marked. -/
theorem TimeMarked.keep {s t u : State} (h : TimeMarked s t) (k : KeepsMarks t u) (b : u.mem.burst = t.mem.burst) :
    TimeMarked s u := ⟨b.trans h.1, (k 6).1 h.2.1, fun x hx hs => (k 6).2 (h.2.2 x hx hs)⟩

theorem markTime_marks (s t : State) (h : t.mem.burst = s.mem.burst) : TimeMarked s (markTime t) := by
  rw [TimeMarked, markTime, markRecord_get]
  refine ⟨h, rfl, fun b hb e => ?_⟩
  have k : burstWrites 6 t = true := by simp [burstWrites, h.trans hb, e]
  simp [k]

theorem keepsMarks_startSlew (amount : Int) (s : State) :
    KeepsMarks s (startSlew amount s) ∧ (startSlew amount s).mem = s.mem := by
  unfold startSlew
  dsimp only
  split
  · exact ⟨KeepsMarks.trans (.of_status rfl) (keepsMarks_markRecord 6 _), rfl⟩
  · exact ⟨.of_status rfl, rfl⟩

theorem setDiscipline_keeps (q : Quality) (s : State) :
    (setDiscipline q s).status = s.status ∧ (setDiscipline q s).mem = s.mem := by
  unfold setDiscipline
  dsimp only
  (repeat' split) <;> exact ⟨rfl, rfl⟩

section
variable {s t : State} (h : TimeMarked s t)
include h

theorem TimeMarked.startSlew (offset : Int) : TimeMarked s (startSlew offset t) :=
  h.keep (keepsMarks_startSlew _ _).1 (by rw [(keepsMarks_startSlew _ _).2])

theorem TimeMarked.setDiscipline (q : Quality) : TimeMarked s (setDiscipline q t) :=
  h.keep (.of_status (setDiscipline_keeps _ _).1) (by rw [(setDiscipline_keeps _ _).2])

theorem TimeMarked.setLockRun (n : Nat) : TimeMarked s (setLockRun n t) := h.keep (.of_status rfl) rfl

theorem TimeMarked.moveTime (v : Time) : TimeMarked s (moveTime v t) :=
  h.keep (.of_status (moveTime_status v t).1) (moveTime_status v t).2

/-- A step marks the time status record by itself (R71). -/
theorem TimeMarked.acquireBeyond (offset : Int) : TimeMarked s (acquireBeyond offset t) := by
  unfold Machine.acquireBeyond
  dsimp only
  split
  · exact (markTime_marks s _ (by rw [(keepsMarks_startSlew _ _).2]; exact h.1)).moveTime _
  · exact (h.setLockRun 0).startSlew _

theorem TimeMarked.acquireWithin (offset : Int) : TimeMarked s (acquireWithin offset t) := by
  unfold Machine.acquireWithin
  dsimp only
  split
  · exact ((h.setLockRun _).startSlew _).setDiscipline _
  · exact (h.setLockRun _).startSlew _

theorem TimeMarked.pulseByState (offset : Int) : TimeMarked s (pulseByState offset t) := by
  unfold Machine.pulseByState
  dsimp only
  split
  case h_1 | h_2 =>
    have k : ∀ b : TimeBase, TimeMarked s (Machine.setDiscipline .acquire (Machine.setLockRun 0 { t with time := b })) :=
      fun b => ((h.keep (u := { t with time := b }) (.of_status rfl) rfl).setLockRun 0).setDiscipline _
    split
    · exact (k _).startSlew _
    · exact (k _).acquireBeyond _
  case h_3 =>
    split
    · exact h.acquireWithin _
    · exact h.acquireBeyond _
  case h_4 =>
    split
    · exact h.startSlew _
    · exact (h.setDiscipline _).acquireBeyond _

end

/-- Every pulse, accepted or rejected, marks the time status record (R71) and leaves the burst in progress. -/
theorem takePulse_marks (width : Nat) (s : State) : TimeMarked s (takePulse width s) := by
  unfold takePulse
  split
  · dsimp only
    generalize hu : (markTime _ : State) = u
    have m : TimeMarked s u := hu ▸ markTime_marks s _ rfl
    exact m.pulseByState _
  · exact markTime_marks s _ rfl

end Sys2Proof.Machine
end

