-- ==== Sys2Proof/Laws/Offers.lean ====
section
/-! SUPPORT. The offers for a place of the report part in the words of Safety.lean, and the place's record
(R94, R110, R178). -/

namespace Sys2Proof

/- One theorem after another: many at once would each hold a stack of its own. -/
set_option Elab.async false

open Machine

/-! ## The first by a key, of equal ones the lower -/

variable {n : Nat}

/-- The better of a choice so far and a next candidate: the lower key, of two equal ones the choice so far. -/
def pickFirst (key : Fin n → Option Nat) (best : Option (Fin n)) (x : Fin n) : Option (Fin n) :=
  match key x, best with
  | none, b => b
  | some _, none => some x
  | some t, some b => if t < (key b).getD 0 then some x else some b

/-- A choice is the first of a list by the key, and absent only when no candidate has a key. -/
def IsFirst (key : Fin n → Option Nat) (l : List (Fin n)) (b : Option (Fin n)) : Prop :=
  match b with
  | none => ∀ j ∈ l, key j = none
  | some r => r ∈ l ∧ ∃ a, key r = some a ∧ ∀ j ∈ l, ∀ x, key j = some x → a < x ∨ (a = x ∧ r ≤ j)

/-- A list in rising order gives its first. -/
theorem isFirst_foldl (key : Fin n → Option Nat) (l : List (Fin n)) (h : l.Pairwise (· < ·)) :
    IsFirst key l (l.foldl (pickFirst key) none) := by
  induction l using List.reverseRecOn with
  | nil => simp [IsFirst]
  | append_singleton l x ih =>
    rw [List.pairwise_append] at h
    have hx : ∀ j ∈ l, j < x := fun j hj => h.2.2 j hj x (by simp)
    have ih := ih h.1
    rw [List.foldl_append, List.foldl_cons, List.foldl_nil]
    generalize l.foldl (pickFirst key) none = b at ih
    unfold pickFirst
    cases k : key x with
    | none =>
      cases b with
      | none => simp only [IsFirst] at ih ⊢; intro j hj; simp at hj; rcases hj with hj | rfl <;> [exact ih j hj; exact k]
      | some r =>
        obtain ⟨hr, a, ha, q⟩ := ih
        refine ⟨by simp [hr], a, ha, fun j hj y hy => ?_⟩
        simp at hj; rcases hj with hj | rfl
        · exact q j hj y hy
        · rw [k] at hy; cases hy
    | some t =>
      cases b with
      | none =>
        simp only [IsFirst] at ih
        refine ⟨by simp, t, k, fun j hj y hy => ?_⟩
        simp at hj; rcases hj with hj | rfl
        · rw [ih j hj] at hy; cases hy
        · rw [k] at hy; cases hy; exact .inr ⟨rfl, le_rfl⟩
      | some r =>
        obtain ⟨hr, a, ha, q⟩ := ih
        simp only [ha, Option.getD_some]
        split
        · rename_i lt
          refine ⟨by simp, t, k, fun j hj y hy => ?_⟩
          simp at hj; rcases hj with hj | rfl
          · rcases q j hj y hy with z | ⟨z, _⟩ <;> left <;> omega
          · rw [k] at hy; cases hy; exact .inr ⟨rfl, le_rfl⟩
        · rename_i lt
          refine ⟨by simp [hr], a, ha, fun j hj y hy => ?_⟩
          simp at hj; rcases hj with hj | rfl
          · exact q j hj y hy
          · rw [k] at hy; cases hy
            rcases Nat.lt_or_ge a t with z | z
            · exact .inl z
            · exact .inr ⟨by omega, le_of_lt (hx r hr)⟩

theorem finRange_sorted : (List.finRange n).Pairwise (· < ·) := List.pairwise_lt_finRange n

/-! ## The candidates of the sources (R110, R178) -/

/-- The key by which R110 chooses among rings: the request of a ready front outcome. -/
def ringKey (t : State) (n : RingId) : Option Nat :=
  if outcomeReady t n then some ((t.outRings[n].outcomes.head?.map (·.request)).getD 0) else none

theorem statusCandidate_eq (t : State) : statusCandidate t =
    if writerReady t then (List.finRange 36).foldl (pickFirst fun r => t.status.records[r].since) none else none := by
  unfold statusCandidate
  have : earlierRecord t = pickFirst (fun r => t.status.records[r].since) := by
    funext b x
    unfold earlierRecord pickFirst
    dsimp only
    generalize t.status.records[x].since = o
    cases o <;> cases b <;> rfl
  rw [this]

theorem outcomeCandidate_eq (t : State) : outcomeCandidate t = (List.finRange 4).foldl (pickFirst (ringKey t)) none := by
  unfold outcomeCandidate
  have e : ∀ (l : List RingId) (b : Option RingId), (∀ x, b = some x → outcomeReady t x = true) →
      l.foldl (earlierRing t) b = l.foldl (pickFirst (ringKey t)) b := by
    intro l
    induction l with
    | nil => intros; rfl
    | cons x l ih =>
      intro b hb
      rw [List.foldl_cons, List.foldl_cons]
      have s : earlierRing t b x = pickFirst (ringKey t) b x := by
        unfold earlierRing pickFirst
        simp only [ringKey]
        by_cases h : outcomeReady t x = true
        · simp only [h, if_true]
          cases b with
          | none => rfl
          | some y => simp only [hb y rfl, if_true, Option.getD_some]
        · simp only [h]; cases b <;> rfl
      rw [s, ih]
      intro y hy
      rw [← s] at hy
      unfold earlierRing at hy
      split at hy
      · cases b with
        | none => simp at hy; subst hy; assumption
        | some z =>
          simp only [] at hy
          split at hy <;> (simp at hy; subst hy)
          · assumption
          · exact hb _ rfl
      · exact hb _ hy
  exact e _ _ (by simp)

theorem outcomeReady_iff (t : State) (n : RingId) (q : Nat) :
    OutcomeReady t n q ↔ outcomeReady t n = true ∧ q = (t.outRings[n].outcomes.head?.map (·.request)).getD 0 := by
  unfold OutcomeReady outcomeReady
  cases h : t.outRings[n].outcomes with
  | nil => simp
  | cons o r =>
    simp [Option.isSome_iff_ne_none]
    constructor
    · rintro ⟨a, b, rfl⟩; exact ⟨⟨a, b⟩, rfl⟩
    · rintro ⟨⟨a, b⟩, rfl⟩; exact ⟨a, b, rfl⟩

/-! ## The offers (R94) -/

/-- The fault log's offer, as computed. -/
theorem faultOffer_iff (t : State) (k : Nat) : FaultOffer t k ↔ (offerSince t).1 = some k := by
  unfold FaultOffer offerSince
  cases h : faultWaiting t with
  | none =>
    simp only []
    unfold faultWaiting at h
    simp at h
    simp; intro f hf hs; have := h f hf; simp_all
  | some f =>
    unfold faultWaiting at h
    have := List.find?_some h
    have m := List.mem_of_find?_eq_some h
    simp at this
    simp; constructor
    · rintro ⟨_, rfl⟩; rfl
    · rintro rfl; exact ⟨⟨f, m, this⟩, rfl⟩

/-- The outcome rings' offer, as computed. -/
theorem outcomeOffer_iff (t : State) (n : RingId) (k : Nat) :
    OutcomeOffer t n k ↔ outcomeCandidate t = some n ∧ k = t.outRings[n].since.getD 0 := by
  have i := isFirst_foldl (ringKey t) _ (finRange_sorted (n := 4))
  rw [← outcomeCandidate_eq] at i
  unfold OutcomeOffer
  refine and_congr ?_ Iff.rfl
  simp only [outcomeReady_iff]
  constructor
  · rintro ⟨q, ⟨h, hq⟩, m⟩
    cases c : outcomeCandidate t with
    | none =>
      rw [c] at i; have := i n (by simp); simp [ringKey, h] at this
    | some r =>
      rw [c] at i
      obtain ⟨_, a, ha, l⟩ := i
      have rr : outcomeReady t r = true := by by_contra z; simp [ringKey, z] at ha
      simp [ringKey, rr] at ha
      have l1 := l n (by simp) q (by simp [ringKey, h, hq])
      have l2 := m r a ⟨rr, ha.symm⟩
      congr 1
      apply Fin.ext
      rcases l1 with l1 | ⟨l1, l3⟩ <;> rcases l2 with l2 | ⟨l2, l4⟩
      · omega
      · omega
      · omega
      · exact le_antisymm l3 l4
  · intro c
    rw [c] at i
    obtain ⟨_, a, ha, l⟩ := i
    have rr : outcomeReady t n = true := by by_contra z; simp [ringKey, z] at ha
    simp [ringKey, rr] at ha
    refine ⟨a, ⟨rr, ha.symm⟩, ?_⟩
    rintro m x ⟨h, rfl⟩
    exact l m (by simp) _ (by simp [ringKey, h])

/-- The status writer's offer, as computed. -/
theorem statusOffer_iff (t : State) (r : RecordId) (k : Nat) : StatusOffer t r k ↔
    statusCandidate t = some r ∧ k = max (t.status.records[r].since.getD 0) (t.status.since.getD 0) := by
  have i := isFirst_foldl (fun r : RecordId => t.status.records[r].since) _ (finRange_sorted (n := 36))
  rw [statusCandidate_eq]
  unfold StatusOffer writerReady
  by_cases w : t.status.running = true ∧ windowOf t .status 0 ≠ none
  · simp only [w.1, w.2, true_and, Bool.true_and, Option.isSome_iff_ne_none.2 w.2, if_true, ne_eq, not_false_eq_true]
    generalize (List.finRange 36).foldl _ none = c at i
    constructor
    · rintro ⟨a, ha, m, rfl⟩
      rw [ha]
      cases c with
      | none =>
              have q : t.status.records[r].since = none := i r (by simp)
              rw [ha] at q; cases q
      | some y =>
        obtain ⟨_, b, hb, l⟩ := i
        have l1 := l r (by simp) a ha
        have l2 := m y b hb
        refine ⟨?_, rfl⟩
        congr 1
        apply Fin.ext
        rcases l1 with l1 | ⟨l1, l3⟩ <;> rcases l2 with l2 | ⟨l2, l4⟩
        · omega
        · omega
        · omega
        · exact le_antisymm l3 l4
    · rintro ⟨rfl, rfl⟩
      obtain ⟨_, b, hb, l⟩ := i
      simp only [] at hb
      rw [hb]
      exact ⟨b, rfl, fun j x hx => l j (by simp) x hx, rfl⟩
  · have : (t.status.running && (windowOf t .status 0).isSome) = false := by
      by_contra z; simp at z; exact w z
    rw [if_neg (by simp [this])]
    constructor
    · rintro ⟨a, b, _⟩; exact absurd ⟨a, b⟩ w
    · rintro ⟨a, _⟩; cases a

theorem offerSince_outcome (t : State) (j) : (offerSince t).2.1 = some j ↔ ∃ m, OutcomeOffer t m j := by
  unfold offerSince
  cases h : outcomeCandidate t with
  | none => simp [outcomeOffer_iff, h]
  | some n => simp [outcomeOffer_iff, h, eq_comm]

theorem offerSince_status (t : State) (j) : (offerSince t).2.2 = some j ↔ ∃ m, StatusOffer t m j := by
  unfold offerSince
  cases h : statusCandidate t with
  | none => simp [statusOffer_iff, h]
  | some n => simp [statusOffer_iff, h, eq_comm]

/-! ## Who gets the place (R94) -/

theorem noLater_iff (k : Nat) (o : Option Nat) : noLater k o = true ↔ ∀ j, o = some j → k ≤ j := by
  cases o <;> simp [noLater]

theorem sooner_iff (k : Nat) (o : Option Nat) : sooner k o = true ↔ ∀ j, o = some j → k < j := by
  cases o <;> simp [sooner]

/-- The place goes to the fault entry (R94). -/
theorem faultWins_iff (t : State) : faultWins t = true ↔ reportFree t = true
    ∧ ∃ k, FaultOffer t k ∧ (∀ m j, OutcomeOffer t m j → k ≤ j) ∧ (∀ m j, StatusOffer t m j → k ≤ j) := by
  unfold faultWins
  rcases h : offerSince t with ⟨_ | f, o, r⟩
  · simp [faultOffer_iff, h]
  · have a := offerSince_outcome t; have b := offerSince_status t
    rw [h] at a b
    simp only [faultOffer_iff, h, Bool.and_eq_true, noLater_iff]
    simp at a b
    simp [a, b, and_assoc]
    intro _
    exact ⟨fun ⟨x, y⟩ => ⟨fun _ _ => x _ _, fun _ _ => y _ _⟩,
      fun ⟨x, y⟩ => ⟨fun _ _ => x _ _, fun _ _ => y _ _⟩⟩

/-- The place goes to the outcome (R94, R110). -/
theorem outcomeWins_iff (t : State) : outcomeWins t = true ↔ reportFree t = true
    ∧ ∃ m k, OutcomeOffer t m k ∧ (∀ j, FaultOffer t j → k < j) ∧ (∀ m j, StatusOffer t m j → k ≤ j) := by
  unfold outcomeWins
  rcases h : offerSince t with ⟨f, _ | o, r⟩
  · have a := offerSince_outcome t; rw [h] at a; simp at a; simp [a]
  · have a := offerSince_outcome t; have b := offerSince_status t
    rw [h] at a b
    simp only [faultOffer_iff, h, Bool.and_eq_true, noLater_iff, sooner_iff]
    simp at a b
    simp [b, and_assoc]
    intro _
    constructor
    · rintro ⟨x, y⟩; obtain ⟨m, hm⟩ := (a o).1 rfl; exact ⟨m, o, hm, x, fun _ _ => y _ _⟩
    · rintro ⟨m, k, hm, x, y⟩; obtain rfl := (a k).2 ⟨m, hm⟩; exact ⟨x, fun _ _ => y _ _⟩

/-- The place goes to the status or completion record (R94, R178). -/
theorem statusWins_iff (t : State) : statusWins t = true ↔ reportFree t = true
    ∧ ∃ m k, StatusOffer t m k ∧ (∀ j, FaultOffer t j → k < j) ∧ (∀ m j, OutcomeOffer t m j → k < j) := by
  unfold statusWins
  rcases h : offerSince t with ⟨f, o, _ | r⟩
  · have a := offerSince_status t; rw [h] at a; simp at a; simp [a]
  · have a := offerSince_outcome t; have b := offerSince_status t
    rw [h] at a b
    simp only [faultOffer_iff, h, Bool.and_eq_true, sooner_iff]
    simp at a b
    simp [a, and_assoc]
    intro _
    constructor
    · rintro ⟨x, y⟩; obtain ⟨m, hm⟩ := (b r).1 rfl; exact ⟨m, r, hm, x, fun _ _ => y _ _⟩
    · rintro ⟨m, k, hm, x, y⟩; obtain rfl := (b k).2 ⟨m, hm⟩; exact ⟨x, fun _ _ => y _ _⟩

/-- The record to which R94 gives the next free place, one case for each source. -/
theorem nextSubmission_some {t u : State} (h : nextSubmission t = some u) :
    (faultWins t = true ∧ u = doFaultEntrySubmit t) ∨ (outcomeWins t = true ∧ u = doOutcomeSubmit t)
    ∨ (statusWins t = true ∧ u = doStatusSubmit t) := by
  unfold nextSubmission at h
  split at h
  · exact .inl ⟨‹_›, (Option.some.inj h).symm⟩
  · split at h
    · exact .inr (.inl ⟨‹_›, (Option.some.inj h).symm⟩)
    · split at h
      · exact .inr (.inr ⟨‹_›, (Option.some.inj h).symm⟩)
      · cases h

/-- No place is free, or nothing is offered. -/
theorem nextSubmission_none (t : State) :
    nextSubmission t = none ↔ faultWins t = false ∧ outcomeWins t = false ∧ statusWins t = false := by
  unfold nextSubmission
  cases faultWins t <;> cases outcomeWins t <;> cases statusWins t <;> simp

end Sys2Proof
end

