-- ==== Sys2Proof/Laws/Selection.lean ====
section
/-! SUPPORT. What a selection would do, in the words of Safety.lean (R117 to R124). -/

namespace Sys2Proof

/- One theorem after another: many at once would each hold a stack of its own. -/
set_option Elab.async false

open Machine

/-- Room, as a test. -/
theorem hasRoom_eq (s : State) (p : PathId) : hasRoom s p = decide (Room s p) := rfl

/-- Listed, as a test. -/
theorem listedSelectable_iff (s : State) (p : PathId) : listedSelectable s p = true ↔ Listed s p := by
  simp [listedSelectable, Listed]

/-- The air candidates. -/
theorem airCandidates_eq (s : State) : airCandidates s = airList s := by
  rw [airCandidates, airList]; congr 1; apply List.filter_congr; intro e _
  congr 1
  rw [Bool.eq_iff_iff, isAir_iff]; simp

/-- The candidates of a FASTEST record. -/
theorem candidates_fast (s : State) : candidates s false = fastList s := by
  rw [candidates, fastList, airCandidates_eq]
  by_cases h : airList s = [] <;> by_cases l : Listed s 4 <;> simp [h, l, listedSelectable_iff]

/-- The candidates of a DUAL record. -/
theorem candidates_dual (s : State) : candidates s true = dualList s := by
  rw [candidates, dualList, airCandidates_eq]
  have : ((airList s).isEmpty || (true && (airList s).length == 1)) = decide ((airList s).length ≤ 1) := by
    rcases airList s with _ | ⟨a, _ | ⟨b, l⟩⟩ <;> simp
  simp only [this]
  by_cases h : (airList s).length ≤ 1 <;> by_cases l : Listed s 4 <;> simp [h, l, listedSelectable_iff]

/-- The rain alert (R122). -/
theorem rainAlert_iff (s : State) : rainAlert s = true ↔ s.sel.rainFlag = true ∨ s.sel.rainInput = true := by simp [rainAlert]

/-- A record placed as DUAL waits exactly when it finds no room. -/
theorem chooseDual_wait (s : State) (b : Bool) : chooseDual s b = .wait ↔ DualWaits s := by
  rw [chooseDual, candidates_dual, DualWaits]
  rcases dualList s with _ | ⟨a, _ | ⟨c, l⟩⟩
  · simp
  · simp [hasRoom_eq]
  · simp only []
    have rr : (hasRoom s) = (fun p => decide (Room s p)) := rfl
    rw [rr]
    rcases h : (a :: c :: l).filter (fun p => decide (Room s p)) with _ | ⟨x, _ | ⟨y, m⟩⟩ <;> simp_all

/-- Room, as a test. -/
theorem hasRoom_iff (s : State) (p : PathId) : hasRoom s p = true ↔ Room s p := by simp [hasRoom]

/-- No room, as a test. -/
theorem hasRoom_false (s : State) (p : PathId) : hasRoom s p = false ↔ ¬ Room s p := by simp [hasRoom]

/-- A selection leaves a record exactly when it must wait. -/
theorem choose_wait (s : State) (r : LaunchRecord) : choose s r = .wait ↔ MustWait s r := by
  rw [choose, MustWait]
  cases r.mode
  · simp only [rainAlert_iff]
    split
    · exact chooseDual_wait s true
    · rw [chooseFastest, candidates_fast]
      rcases fastList s with _ | ⟨h, rest⟩
      · simp
      · simp only []
        simp only [← hasRoom_iff]
        cases k : hasRoom s h
        · cases sp : s.sel.spill
          · simp [k]
          · cases f : rest.find? (hasRoom s) with
            | none =>
              have := List.find?_eq_none.mp f
              simp [k]; intro a ha; simpa using this a ha
            | some a =>
              have h1 := List.find?_some f
              have h2 := List.mem_of_find?_eq_some f
              simp [k]; exact ⟨a, h2, h1⟩
        · simp [k]
  · exact chooseDual_wait s false
  · cases r.pinned with
    | none => simp
    | some p =>
      simp only [choosePinned, ← hasRoom_iff, ← listedSelectable_iff]
      cases l : listedSelectable s p <;> cases m : hasRoom s p <;> simp
  · simp only [chooseGround, ← hasRoom_iff, ← listedSelectable_iff]
    cases l : listedSelectable s 4 <;> cases m : hasRoom s 4 <;> simp

/-- A class offers nothing exactly when its front record must wait or is none. -/
theorem frontChoice_none (s : State) (c : LaunchClass) : frontChoice s c = none ↔ ∀ r, ¬ Fronts s c r ∨ MustWait s r := by
  rw [frontChoice]
  have n : (classQueue s c).names = queueNames s c := by cases c <;> rfl
  cases h : (classQueue s c).names with
  | nil => 
    simp; intro r; left; rintro ⟨x, m, e, _⟩; rw [← n, h] at e; cases e
  | cons x m =>
    simp only []
    cases k : recordNamed s x with
    | none => 
      simp; intro r; left; rintro ⟨y, m2, e, z⟩; rw [← n, h] at e; cases e; rw [k] at z; cases z
    | some r =>
      simp only []
      constructor
      · intro w q
        by_cases f : Fronts s c q
        · right
          obtain ⟨y, m2, e, z⟩ := f
          rw [← n, h] at e; cases e; rw [k] at z; cases z
          rw [← choose_wait]
          cases g : choose s r <;> simp_all
        · exact .inl f
      · intro w
        have := w r
        rw [(choose_wait s r).mpr]
        rcases this with f | f
        · exact absurd ⟨x, m, by rw [← n, h], k⟩ f
        · exact f

/-- A front record that may go is what its class offers. -/
theorem frontChoice_some (s : State) (r : LaunchRecord) (h : Fronts s r.cls r) (w : ¬ MustWait s r) :
    frontChoice s r.cls = some (r, choose s r) := by
  obtain ⟨x, m, e, k⟩ := h
  have n : (classQueue s r.cls).names = x :: m := by rw [← e]; cases r.cls <;> rfl
  rw [frontChoice, n]; simp only [k]
  have := mt (choose_wait s r).mp w
  cases g : choose s r <;> simp_all

/-- The selection takes the front record that may go, URGENT first (R118). -/
theorem nextSelection_front (s : State) (r : LaunchRecord) (hl : s.sel.launchHold = false) (hf : Fronts s r.cls r)
    (hu : r.cls = .normal → ∀ y, Fronts s .urgent y → MustWait s y) (w : ¬ MustWait s r) :
    nextSelection s = some (r, choose s r) := by
  have f := frontChoice_some s r hf w
  rw [nextSelection, hl]
  cases c : r.cls with
  | urgent => rw [c] at f; simp [f]
  | normal =>
    have : frontChoice s .urgent = none := (frontChoice_none s .urgent).mpr (fun y => by
      by_cases k : Fronts s .urgent y
      · exact .inr (hu c y k)
      · exact .inl k)
    rw [c] at f; simp [this, f]

/-- Placing copies, field by field. -/
theorem placeCopies_kept (r : LaunchRecord) (ps : List PathId) (a b c : Bool) (s : State) :
    kept (placeCopies r ps a b c s) = kept (placed r ps a b c s) := by
  rw [placeCopies, placed]; rfl

end Sys2Proof
end

