-- ==== Sys2Proof/Laws/OwnEvents.lean ====
section
/-! SUPPORT. Which events of the block's own are possible, in the words of Safety.lean (R94, R96, R118, R127, R156, R178). -/

namespace Sys2Proof

/- One theorem after another: many at once would each hold a stack of its own. -/
set_option Elab.async false

open Machine

/-- A selection would place a front record exactly when one need not wait (R118). -/
theorem nextSelection_iff (s : State) : (nextSelection s).isSome = true ↔ Due s .selection := by
  unfold nextSelection Due
  cases h : s.sel.launchHold
  · simp only [Bool.false_eq_true, if_false, true_and]
    have u := frontChoice_none s .urgent
    have n := frontChoice_none s .normal
    constructor
    · intro k
      by_contra c
      push Not at c
      rw [u.mpr (fun r => by by_cases f : Fronts s .urgent r <;> [exact .inr (c _ r f); exact .inl f]),
        n.mpr (fun r => by by_cases f : Fronts s .normal r <;> [exact .inr (c _ r f); exact .inl f])] at k
      cases k
    · rintro ⟨c, r, f, w⟩
      cases hu : frontChoice s .urgent with
      | some k => rfl
      | none =>
        cases hn : frontChoice s .normal with
        | some k => rfl
        | none =>
          rw [u] at hu; rw [n] at hn
          cases c
          · rcases hu r with a | a <;> contradiction
          · rcases hn r with a | a <;> contradiction
  · simp

/-- A TUNE would start exactly when one is pending and the link is FREE (R156). -/
theorem tuneDue_iff (s : State) (p : PathId) : (tuneDue s.paths[p].port).isSome = true ↔ Due s (.tuneStart p) := by
  unfold tuneDue Due
  by_cases h : s.paths[p].port.link = .free
  · simp [-Fin.getElem_fin, h, Option.isSome_iff_ne_none]
  · simp [-Fin.getElem_fin, h]

/-- A SEND would start exactly when the port may start one and there is a frame to send (R127, R128, R129, R156). -/
theorem dueSend_iff (s : State) (p : PathId) : (dueSend s p).isSome = true ↔ Due s (.sendStart p) := by
  have m : mayStart s.paths[p].port = true ↔ MayStart s p := by
    simp [mayStart, MayStart, and_assoc]
  unfold Due
  have tf : s.paths[p].sup.state.takesFrames = true ↔ s.paths[p].sup.state ≠ .held ∧ s.paths[p].sup.state ≠ .disabled := by
    cases s.paths[p].sup.state <;> simp [PathState.takesFrames]
  have is : s.paths[p].sup.state.inService = true ↔ Transmits s p := by
    simp [PathState.inService, Transmits]
  have ts : Transmits s p → s.paths[p].sup.state ≠ .held ∧ s.paths[p].sup.state ≠ .disabled := by
    rintro (h | h) <;> rw [h] <;> decide
  by_cases hm : MayStart s p
  · have goal : (dueSend s p).isSome = true ↔ ((∃ f, InsertChosen s p f) ∨ ∃ x, CopyChosen s p x ∧ recordNamed s x ≠ none) := by
      unfold dueSend
      rw [if_pos (m.mpr hm)]
      unfold chooseFrame
      by_cases t : s.paths[p].sup.state.takesFrames = true
      · rw [t]
        simp only [Bool.not_true, Bool.false_eq_true, if_false]
        have t' := tf.mp t
        unfold InsertChosen CopyChosen
        simp only [t'.1, t'.2, ne_eq, not_false_eq_true, true_and]
        unfold frontInsert frontCopy frontPassedFour
        by_cases i : s.paths[p].sup.state.inService = true
        · have i' := is.mp i
          simp only [i, i', if_true, not_true, or_false, true_and]
          cases s.paths[p].port.insert with
          | nil =>
            cases s.paths[p].port.transmit with
            | nil => cases s.paths[p].setup.priority <;> simp
            | cons x l => cases s.paths[p].setup.priority <;> simp [Option.isSome_iff_ne_none]
          | cons f l =>
            cases s.paths[p].port.transmit with
            | nil => cases s.paths[p].setup.priority <;> simp
            | cons x l =>
              cases s.paths[p].setup.priority <;> simp
              by_cases c : f.passed = 4 <;> simp [c, Option.isSome_iff_ne_none]
        · have i' : ¬ Transmits s p := fun c => i (is.mpr c)
          simp only [i, i', Bool.false_eq_true, if_false, not_false_eq_true, or_true, and_true, false_and, exists_false, or_false]
          cases s.paths[p].port.insert with
          | nil => cases s.paths[p].setup.priority <;> simp
          | cons f l => cases s.paths[p].setup.priority <;> simp
      · have t' : ¬ (s.paths[p].sup.state ≠ .held ∧ s.paths[p].sup.state ≠ .disabled) := fun c => t (tf.mpr c)
        have t2 : s.paths[p].sup.state.takesFrames = false := by simpa using t
        rw [t2]
        simp only [Bool.not_false, if_true]
        constructor
        · intro h; cases h
        · rintro (⟨f, a, b, _⟩ | ⟨x, ⟨a, _⟩, _⟩)
          · exact absurd ⟨a, b⟩ t'
          · exact absurd (ts a) t'
    rw [goal]
    exact (and_iff_right hm).symm
  · have : mayStart s.paths[p].port = false := by simpa using fun c => hm (m.mp c)
    unfold dueSend
    rw [this]
    simp [hm]

/-- A place of the report part is free when fewer than 8 submissions are there (R94). -/
theorem reportFree_iff (s : State) : reportFree s = true ↔ PlaceFree s := by
  unfold reportFree reportCount; simp

theorem passingNext_iff (s : State) : passingNext s = true ↔ Due s .passingAccessIssue := by
  unfold passingNext Due
  simp [and_assoc]

theorem burstNext_iff (s : State) : burstNext s = true ↔ Due s .burstStart := by
  unfold burstNext Due
  simp [and_assoc]

theorem faultWins_due (s : State) : faultWins s = true ↔ Due s .faultEntrySubmit := by
  rw [faultWins_iff, reportFree_iff]
  rfl

theorem outcomeWins_due (s : State) : outcomeWins s = true ↔ Due s .outcomeSubmit := by
  rw [outcomeWins_iff, reportFree_iff]
  rfl

theorem statusWins_due (s : State) : statusWins s = true ↔ Due s .statusSubmit := by
  rw [statusWins_iff, reportFree_iff]
  rfl

/-- The first path of a search is the lowest that answers, and absent when none does. -/
theorem find_first (f : PathId → Bool) : (∀ p, (List.finRange 5).find? f = some p ↔ f p = true ∧ ∀ q, q < p → f q = false)
   ∧ ((List.finRange 5).find? f = none ↔ ∀ p, f p = false) := by
  revert f
  have : ∀ a b c d e : Bool, let f : PathId → Bool := fun p => [a, b, c, d, e].getD p.val false
    (∀ p, (List.finRange 5).find? f = some p ↔ f p = true ∧ ∀ q, q < p → f q = false)
   ∧ ((List.finRange 5).find? f = none ↔ ∀ p, f p = false) := by decide
  intro f
  have e : f = fun p => [f 0, f 1, f 2, f 3, f 4].getD p.val false := by
    funext p; revert f; intro f; fin_cases p <;> rfl
  rw [e]
  exact this _ _ _ _ _

end Sys2Proof
end

