-- ==== Sys2Proof/Laws/PerInstr.lean ====
section
/-! SUPPORT. Per command, as syntax: which words belong to its own row of the table, and where in the setup region its word
lies (Table 12-9). -/

namespace Sys2Proof.Laws.RowWord

/- One theorem after another: many at once would each hold a stack of its own. -/
set_option Elab.async false

/-- What makes a command's word one of its own row, where a row shares its place with another. -/
def OwnWord : Instr → Prop
  | .windowEnable _ _ _ d => d.getLsbD 31 = true
  | .windowDisable _ _ _ d => d.getLsbD 31 = false
  | .inboundRelease _ _ _ d => d.getLsbD 16 = false
  | .ringStartField _ _ _ d => d.getLsbD 16 = true
  | .unknownCommand _ _ code _ _ => code.toNat = 0 ∨ 17 < code.toNat
  | .report _ _ profile unit => profile.toNat ≤ 6 ∧ unit.toNat ≤ 2
  | .unknownUnitMessage _ b0 b1 b2 b3 => takenUnitMessage b0 b1 b2 b3 = false
  | .carry _ _ bytes => 16 ≤ bytes.length ∧ bytes.length ≤ 68
  | _ => True

/-- The offset in the setup region of the word a row writes (Table 12-9). -/
def wordOffset : Instr → Option Nat
  | .identityWord _ _ i _ => some i.val
  | .guardedSpanWord .. => some 2
  | .masterWord _ _ k _ => some (8 + k.val)
  | .windowExtentWord _ _ e _ => some (16 + 2 * e.val)
  | .windowEnable _ _ e _ => some (17 + 2 * e.val)
  | .windowDisable _ _ e _ => some (17 + 2 * e.val)
  | .selectorWord .. => some 48
  | .timeSetupWord _ _ i _ => some (49 + i.val)
  | .pathModeWord _ _ p _ => some (64 + 5 * p.val)
  | .timerSetupWord _ _ p i _ => some (65 + 5 * p.val + i.val)
  | .penaltyWord _ _ p _ => some (67 + 5 * p.val)
  | .statusBytesWord _ _ p _ => some (68 + 5 * p.val)
  | .streamSetupWord _ _ i _ => some (96 + i.val)
  | .divertFilterWord _ _ f _ => some (112 + f.val)
  | .inboundRelease _ _ n _ => some (120 + n.val)
  | .ringStartField _ _ n _ => some (120 + n.val)
  | .faultLogRelease .. => some 124
  | .lineWord _ _ l _ => some (128 + l.val)
  | .alarmSetupWord _ _ i _ => some (136 + i.val)
  | .pathEnable .. => some 144
  | .pathDisable .. => some 144
  | .pathReset .. => some 144
  | .ringStart .. => some 144
  | .ringStop .. => some 144
  | .ringReset .. => some 144
  | .outFlush .. => some 144
  | .outSeqSet .. => some 144
  | .streamReset .. => some 144
  | .timeSet .. => some 144
  | .timeAdjust .. => some 144
  | .rainSet .. => some 144
  | .rainClear .. => some 144
  | .queryPath .. => some 144
  | .alarmAck .. => some 144
  | .logReset .. => some 144
  | .snapshot .. => some 144
  | .unknownCommand .. => some 144
  | _ => none

/-- A command is well formed exactly when its word is its own row's, and a setup word lies at an assigned offset. -/
def Statement (i : Instr) : Prop := (i.wellFormed = true ↔ OwnWord i) ∧ ∀ o, wordOffset i = some o → o ≤ 144

theorem reset (straps : BitVec 4) : Statement (.reset straps) :=
  ⟨iff_of_true rfl trivial, by intro o h; cases h⟩
theorem pPortWrite (m : Master) (a : Addr) (be : ByteEnables) (d : Word) : Statement (.pPortWrite m a be d) :=
  ⟨iff_of_true rfl trivial, by intro o h; cases h⟩
theorem pPortRead (m : Master) (a : Addr) : Statement (.pPortRead m a) :=
  ⟨iff_of_true rfl trivial, by intro o h; cases h⟩
theorem identityWord (m : Master) (be : ByteEnables) (i : Fin 2) (d : Word) : Statement (.identityWord m be i d) :=
  ⟨iff_of_true rfl trivial, by intro o h; simp only [wordOffset, Option.some.injEq] at h; omega⟩
theorem guardedSpanWord (m : Master) (be : ByteEnables) (d : Word) : Statement (.guardedSpanWord m be d) :=
  ⟨iff_of_true rfl trivial, by intro o h; simp only [wordOffset, Option.some.injEq] at h; omega⟩
theorem masterWord (m : Master) (be : ByteEnables) (k : Master) (d : Word) : Statement (.masterWord m be k d) :=
  ⟨iff_of_true rfl trivial, by intro o h; simp only [wordOffset, Option.some.injEq] at h; omega⟩
theorem windowExtentWord (m : Master) (be : ByteEnables) (e : Fin 15) (d : Word) :
    Statement (.windowExtentWord m be e d) :=
  ⟨iff_of_true rfl trivial, by intro o h; simp only [wordOffset, Option.some.injEq] at h; omega⟩
theorem windowEnable (m : Master) (be : ByteEnables) (e : Fin 15) (d : Word) : Statement (.windowEnable m be e d) :=
  ⟨Iff.rfl, by intro o h; simp only [wordOffset, Option.some.injEq] at h; omega⟩
theorem windowDisable (m : Master) (be : ByteEnables) (e : Fin 15) (d : Word) : Statement (.windowDisable m be e d) :=
  ⟨by simp [Instr.wellFormed, OwnWord], by intro o h; simp only [wordOffset, Option.some.injEq] at h; omega⟩
theorem selectorWord (m : Master) (be : ByteEnables) (d : Word) : Statement (.selectorWord m be d) :=
  ⟨iff_of_true rfl trivial, by intro o h; simp only [wordOffset, Option.some.injEq] at h; omega⟩
theorem timeSetupWord (m : Master) (be : ByteEnables) (i : Fin 3) (d : Word) : Statement (.timeSetupWord m be i d) :=
  ⟨iff_of_true rfl trivial, by intro o h; simp only [wordOffset, Option.some.injEq] at h; omega⟩
theorem pathModeWord (m : Master) (be : ByteEnables) (p : PathId) (d : Word) : Statement (.pathModeWord m be p d) :=
  ⟨iff_of_true rfl trivial, by intro o h; simp only [wordOffset, Option.some.injEq] at h; omega⟩
theorem timerSetupWord (m : Master) (be : ByteEnables) (p : PathId) (i : Fin 2) (d : Word) :
    Statement (.timerSetupWord m be p i d) :=
  ⟨iff_of_true rfl trivial, by intro o h; simp only [wordOffset, Option.some.injEq] at h; omega⟩
theorem penaltyWord (m : Master) (be : ByteEnables) (p : PathId) (d : Word) : Statement (.penaltyWord m be p d) :=
  ⟨iff_of_true rfl trivial, by intro o h; simp only [wordOffset, Option.some.injEq] at h; omega⟩
theorem statusBytesWord (m : Master) (be : ByteEnables) (p : PathId) (d : Word) :
    Statement (.statusBytesWord m be p d) :=
  ⟨iff_of_true rfl trivial, by intro o h; simp only [wordOffset, Option.some.injEq] at h; omega⟩
theorem streamSetupWord (m : Master) (be : ByteEnables) (st : StreamId) (d : Word) :
    Statement (.streamSetupWord m be st d) :=
  ⟨iff_of_true rfl trivial, by intro o h; simp only [wordOffset, Option.some.injEq] at h; omega⟩
theorem divertFilterWord (m : Master) (be : ByteEnables) (f : Fin 8) (d : Word) :
    Statement (.divertFilterWord m be f d) :=
  ⟨iff_of_true rfl trivial, by intro o h; simp only [wordOffset, Option.some.injEq] at h; omega⟩
theorem inboundRelease (m : Master) (be : ByteEnables) (n : RingId) (d : Word) : Statement (.inboundRelease m be n d) :=
  ⟨by simp [Instr.wellFormed, OwnWord], by intro o h; simp only [wordOffset, Option.some.injEq] at h; omega⟩
theorem ringStartField (m : Master) (be : ByteEnables) (n : RingId) (d : Word) : Statement (.ringStartField m be n d) :=
  ⟨Iff.rfl, by intro o h; simp only [wordOffset, Option.some.injEq] at h; omega⟩
theorem faultLogRelease (m : Master) (be : ByteEnables) (d : Word) : Statement (.faultLogRelease m be d) :=
  ⟨iff_of_true rfl trivial, by intro o h; simp only [wordOffset, Option.some.injEq] at h; omega⟩
theorem lineWord (m : Master) (be : ByteEnables) (l : LineId) (d : Word) : Statement (.lineWord m be l d) :=
  ⟨iff_of_true rfl trivial, by intro o h; simp only [wordOffset, Option.some.injEq] at h; omega⟩
theorem alarmSetupWord (m : Master) (be : ByteEnables) (i : Fin 2) (d : Word) : Statement (.alarmSetupWord m be i d) :=
  ⟨iff_of_true rfl trivial, by intro o h; simp only [wordOffset, Option.some.injEq] at h; omega⟩
theorem headerWrite (m : Master) (a : Addr) (be : ByteEnables) (d : Word) : Statement (.headerWrite m a be d) :=
  ⟨iff_of_true rfl trivial, by intro o h; cases h⟩
theorem stagingWrite (m : Master) (a : Addr) (be : ByteEnables) (d : Word) : Statement (.stagingWrite m a be d) :=
  ⟨iff_of_true rfl trivial, by intro o h; cases h⟩
theorem pathEnable (m : Master) (be : ByteEnables) (num : Byte) (arg : BitVec 48) :
    Statement (.pathEnable m be num arg) :=
  ⟨iff_of_true rfl trivial, by intro o h; simp only [wordOffset, Option.some.injEq] at h; omega⟩
theorem pathDisable (m : Master) (be : ByteEnables) (num : Byte) (arg : BitVec 48) :
    Statement (.pathDisable m be num arg) :=
  ⟨iff_of_true rfl trivial, by intro o h; simp only [wordOffset, Option.some.injEq] at h; omega⟩
theorem pathReset (m : Master) (be : ByteEnables) (num : Byte) (arg : BitVec 48) :
    Statement (.pathReset m be num arg) :=
  ⟨iff_of_true rfl trivial, by intro o h; simp only [wordOffset, Option.some.injEq] at h; omega⟩
theorem ringStart (m : Master) (be : ByteEnables) (num : Byte) (arg : BitVec 48) :
    Statement (.ringStart m be num arg) :=
  ⟨iff_of_true rfl trivial, by intro o h; simp only [wordOffset, Option.some.injEq] at h; omega⟩
theorem ringStop (m : Master) (be : ByteEnables) (num : Byte) (arg : BitVec 48) : Statement (.ringStop m be num arg) :=
  ⟨iff_of_true rfl trivial, by intro o h; simp only [wordOffset, Option.some.injEq] at h; omega⟩
theorem ringReset (m : Master) (be : ByteEnables) (num : Byte) (arg : BitVec 48) :
    Statement (.ringReset m be num arg) :=
  ⟨iff_of_true rfl trivial, by intro o h; simp only [wordOffset, Option.some.injEq] at h; omega⟩
theorem outFlush (m : Master) (be : ByteEnables) (num : Byte) (arg : BitVec 48) : Statement (.outFlush m be num arg) :=
  ⟨iff_of_true rfl trivial, by intro o h; simp only [wordOffset, Option.some.injEq] at h; omega⟩
theorem outSeqSet (m : Master) (be : ByteEnables) (num : Byte) (arg : BitVec 48) :
    Statement (.outSeqSet m be num arg) :=
  ⟨iff_of_true rfl trivial, by intro o h; simp only [wordOffset, Option.some.injEq] at h; omega⟩
theorem streamReset (m : Master) (be : ByteEnables) (num : Byte) (arg : BitVec 48) :
    Statement (.streamReset m be num arg) :=
  ⟨iff_of_true rfl trivial, by intro o h; simp only [wordOffset, Option.some.injEq] at h; omega⟩
theorem timeSet (m : Master) (be : ByteEnables) (num : Byte) (arg : BitVec 48) : Statement (.timeSet m be num arg) :=
  ⟨iff_of_true rfl trivial, by intro o h; simp only [wordOffset, Option.some.injEq] at h; omega⟩
theorem timeAdjust (m : Master) (be : ByteEnables) (num : Byte) (arg : BitVec 48) :
    Statement (.timeAdjust m be num arg) :=
  ⟨iff_of_true rfl trivial, by intro o h; simp only [wordOffset, Option.some.injEq] at h; omega⟩
theorem rainSet (m : Master) (be : ByteEnables) (num : Byte) (arg : BitVec 48) : Statement (.rainSet m be num arg) :=
  ⟨iff_of_true rfl trivial, by intro o h; simp only [wordOffset, Option.some.injEq] at h; omega⟩
theorem rainClear (m : Master) (be : ByteEnables) (num : Byte) (arg : BitVec 48) :
    Statement (.rainClear m be num arg) :=
  ⟨iff_of_true rfl trivial, by intro o h; simp only [wordOffset, Option.some.injEq] at h; omega⟩
theorem queryPath (m : Master) (be : ByteEnables) (num : Byte) (arg : BitVec 48) :
    Statement (.queryPath m be num arg) :=
  ⟨iff_of_true rfl trivial, by intro o h; simp only [wordOffset, Option.some.injEq] at h; omega⟩
theorem alarmAck (m : Master) (be : ByteEnables) (num : Byte) (arg : BitVec 48) : Statement (.alarmAck m be num arg) :=
  ⟨iff_of_true rfl trivial, by intro o h; simp only [wordOffset, Option.some.injEq] at h; omega⟩
theorem logReset (m : Master) (be : ByteEnables) (num : Byte) (arg : BitVec 48) : Statement (.logReset m be num arg) :=
  ⟨iff_of_true rfl trivial, by intro o h; simp only [wordOffset, Option.some.injEq] at h; omega⟩
theorem snapshot (m : Master) (be : ByteEnables) (num : Byte) (arg : BitVec 48) : Statement (.snapshot m be num arg) :=
  ⟨iff_of_true rfl trivial, by intro o h; simp only [wordOffset, Option.some.injEq] at h; omega⟩
theorem unknownCommand (m : Master) (be : ByteEnables) (code num : Byte) (arg : BitVec 48) :
    Statement (.unknownCommand m be code num arg) :=
  ⟨by simp [Instr.wellFormed, OwnWord, knownCommandCode], by intro o h; simp only [wordOffset, Option.some.injEq] at h; omega⟩
theorem accept (p : PathId) : Statement (.accept p) :=
  ⟨iff_of_true rfl trivial, by intro o h; cases h⟩
theorem reject (p : PathId) : Statement (.reject p) :=
  ⟨iff_of_true rfl trivial, by intro o h; cases h⟩
theorem report (p : PathId) (margin profile unit : Byte) : Statement (.report p margin profile unit) :=
  ⟨by simp [Instr.wellFormed, OwnWord, reportInRange], by intro o h; cases h⟩
theorem unknownUnitMessage (p : PathId) (b0 b1 b2 b3 : Byte) : Statement (.unknownUnitMessage p b0 b1 b2 b3) :=
  ⟨by simp [Instr.wellFormed, OwnWord], by intro o h; cases h⟩
theorem carry (p : PathId) (condition : Byte) (bytes : List Byte) : Statement (.carry p condition bytes) :=
  ⟨by simp [Instr.wellFormed, OwnWord, carryInRange], by intro o h; cases h⟩
theorem gapExpiry (st : StreamId) : Statement (.gapExpiry st) :=
  ⟨iff_of_true rfl trivial, by intro o h; cases h⟩
theorem ageing : Statement (.ageing) :=
  ⟨iff_of_true rfl trivial, by intro o h; cases h⟩
theorem selection : Statement (.selection) :=
  ⟨iff_of_true rfl trivial, by intro o h; cases h⟩
theorem sendStart (p : PathId) : Statement (.sendStart p) :=
  ⟨iff_of_true rfl trivial, by intro o h; cases h⟩
theorem sendEnd (p : PathId) : Statement (.sendEnd p) :=
  ⟨iff_of_true rfl trivial, by intro o h; cases h⟩
theorem tuneStart (p : PathId) : Statement (.tuneStart p) :=
  ⟨iff_of_true rfl trivial, by intro o h; cases h⟩
theorem tuneEnd (p : PathId) : Statement (.tuneEnd p) :=
  ⟨iff_of_true rfl trivial, by intro o h; cases h⟩
theorem noAnswer (p : PathId) : Statement (.noAnswer p) :=
  ⟨iff_of_true rfl trivial, by intro o h; cases h⟩
theorem probeChannelUnderflow (p : PathId) : Statement (.probeChannelUnderflow p) :=
  ⟨iff_of_true rfl trivial, by intro o h; cases h⟩
theorem silenceUnderflow (p : PathId) : Statement (.silenceUnderflow p) :=
  ⟨iff_of_true rfl trivial, by intro o h; cases h⟩
theorem holdCompareMatch (p : PathId) : Statement (.holdCompareMatch p) :=
  ⟨iff_of_true rfl trivial, by intro o h; cases h⟩
theorem holdUnderflow (p : PathId) : Statement (.holdUnderflow p) :=
  ⟨iff_of_true rfl trivial, by intro o h; cases h⟩
theorem guardUnderflow (p : PathId) : Statement (.guardUnderflow p) :=
  ⟨iff_of_true rfl trivial, by intro o h; cases h⟩
theorem pinChange (l : LineId) (high : Bool) : Statement (.pinChange l high) :=
  ⟨iff_of_true rfl trivial, by intro o h; cases h⟩
theorem filterExpiry (l : LineId) : Statement (.filterExpiry l) :=
  ⟨iff_of_true rfl trivial, by intro o h; cases h⟩
theorem pulseWatchdog : Statement (.pulseWatchdog) :=
  ⟨iff_of_true rfl trivial, by intro o h; cases h⟩
theorem holdoverLimit : Statement (.holdoverLimit) :=
  ⟨iff_of_true rfl trivial, by intro o h; cases h⟩
theorem slewEnd : Statement (.slewEnd) :=
  ⟨iff_of_true rfl trivial, by intro o h; cases h⟩
theorem ppsOut : Statement (.ppsOut) :=
  ⟨iff_of_true rfl trivial, by intro o h; cases h⟩
theorem pulseEnd (e : PulseEvent) : Statement (.pulseEnd e) :=
  ⟨iff_of_true rfl trivial, by intro o h; cases h⟩
theorem statusSubmit : Statement (.statusSubmit) :=
  ⟨iff_of_true rfl trivial, by intro o h; cases h⟩
theorem outcomeSubmit : Statement (.outcomeSubmit) :=
  ⟨iff_of_true rfl trivial, by intro o h; cases h⟩
theorem faultEntrySubmit : Statement (.faultEntrySubmit) :=
  ⟨iff_of_true rfl trivial, by intro o h; cases h⟩
theorem passingAccessIssue : Statement (.passingAccessIssue) :=
  ⟨iff_of_true rfl trivial, by intro o h; cases h⟩
theorem burstStart : Statement (.burstStart) :=
  ⟨iff_of_true rfl trivial, by intro o h; cases h⟩
theorem burstEnd : Statement (.burstEnd) :=
  ⟨iff_of_true rfl trivial, by intro o h; cases h⟩
theorem burstError (k : Fin 64) : Statement (.burstError k) :=
  ⟨iff_of_true rfl trivial, by intro o h; cases h⟩

end Sys2Proof.Laws.RowWord
end

