-- ==== Sys2Proof/Laws/Quiet.lean ====
section
/-! SUPPORT. Which stage of `settle` writes which part, and that a settled state whose inputs an event leaves alone announces
nothing. -/

namespace Sys2Proof.Machine

/- One theorem after another: many at once would each hold a stack of its own. -/
set_option Elab.async false

/-- The state whose ranking is recomputed: lines followed, inputs taken, a change of the rain alert announced. -/
def beforeRanking (o s : State) : State := announceRain o (takeInputs (refreshLines s))

theorem markChanges_eq (o s : State) : ∃ v, markChanges o s = { s with status := v } := markRecords_eq _ s

theorem dateOffers_eq (s : State) : ∃ v a r, dateOffers s = { s with status := v, log := a, outRings := r } :=
  ⟨_, _, _, rfl⟩

/-- The stages after the ranking write lines, ALARM and the critical flag, the CRITICAL pulse, marks and dates only. -/
theorem settle_parts (o s : State) : ∃ v a r n, settle o s = { refreshAlarm (rerank (beforeRanking o s)) with
    lines := followed (refreshAlarm (rerank (beforeRanking o s))), status := v, log := a, outRings := r
    events := n } := by
  have c : consequences o s = dateOffers (markChanges o (refreshLines (refreshAlarm (rerank (beforeRanking o s))))) := rfl
  rw [settle_eq, c, refreshLines_eq]
  obtain ⟨v, h⟩ := markChanges_eq o { refreshAlarm (rerank (beforeRanking o s)) with
    lines := followed (refreshAlarm (rerank (beforeRanking o s))) }
  rw [h]
  obtain ⟨w, a, r, k⟩ := dateOffers_eq { refreshAlarm (rerank (beforeRanking o s)) with
    lines := followed (refreshAlarm (rerank (beforeRanking o s))), status := v }
  rw [k]
  exact ⟨_, _, _, _, rfl⟩

theorem settle_ranking (o s : State) : (settle o s).ranking = (rerank (beforeRanking o s)).ranking := by
  obtain ⟨v, a, r, n, h⟩ := settle_parts o s
  rw [h]
  rfl

theorem settle_causes (o s : State) : (settle o s).alarm.causes = (rerank (beforeRanking o s)).alarm.causes := by
  obtain ⟨v, a, r, n, h⟩ := settle_parts o s
  rw [h]
  rfl

theorem settle_pulses (o s : State) : (settle o s).pulses = (refreshAlarm (rerank (beforeRanking o s))).pulses := by
  obtain ⟨v, a, r, n, h⟩ := settle_parts o s
  rw [h]

/-! ## The filter of a line (R174) -/

theorem settle_lines (o s : State) :
    ∃ t : State, t.lines = followed s ∧ (settle o s).lines = followed t := by
  obtain ⟨v, a, r, n, h⟩ := settle_parts o s
  refine ⟨refreshAlarm (rerank (beforeRanking o s)), ?_, by rw [h]⟩
  obtain ⟨r, a, q, k, -⟩ := rerank_eq (beforeRanking o s)
  obtain ⟨b, e⟩ := announceRain_eq o (takeInputs (refreshLines s))
  rw [k, beforeRanking, e, refreshLines_eq]
  rfl

/-- Between events the filter of a line that drives nothing has followed the level the outside puts at the pin, once. -/
theorem settle_line_input (o s : State) (l : LineId) (h : s.lines[l].event.isOutput = false) :
    (settle o s).lines[l] = followPin s.lines[l].outside s.lines[l] := by
  obtain ⟨t, ht, k⟩ := settle_lines o s
  have e : ∀ (pin : Bool) (x : Line), (followPin pin x).outside = x.outside := by
    intro pin x
    unfold followPin
    split <;> [rfl; split <;> rfl]
  rw [k, followed_get, ht, followed_get, pinLevel_input s _ h, pinLevel_input t _ (by rw [followPin_event]; exact h), e,
    followPin_twice]

/-- Following a pin starts a count, ends it, or leaves it. -/
theorem followPin_count (pin : Bool) (x : Line) :
    (followPin pin x).count = none ∨ (followPin pin x).count = some (x.count.getD 0) := by
  unfold followPin
  split
  · exact .inl rfl
  · split
    · exact .inl rfl
    · exact .inr rfl

/-- A count that has not begun, or starts again, has not advanced when the event is over. -/
theorem settle_line_restarted (o s : State) (l : LineId) (h : s.lines[l].count.getD 0 = 0) :
    (settle o s).lines[l].count = none ∨ (settle o s).lines[l].count = some 0 := by
  obtain ⟨t, ht, k⟩ := settle_lines o s
  have a : ((followed s)[l]).count.getD 0 = 0 := by
    rw [followed_get]
    rcases followPin_count (pinLevel s s.lines[l]) s.lines[l] with c | c <;> rw [c]
    · rfl
    · exact h
  rw [k, followed_get, ht]
  rw [← a]
  exact followPin_count _ _

/-! ## An event that leaves the inputs alone -/

/-- A line that follows its pin keeps its filtered level. -/
theorem followPin_keeps (s : State) (x : Line) (h : lineFollows s x) : (followPin (pinLevel s x) x).filtered = x.filtered := by
  unfold followPin
  rcases h with h | h
  · simp [h]
  · by_cases c : x.filtered = pinLevel s x
    · simp [c]
    · simp [c, h.2]

/-- Lines as they were give the inputs that a settled state has. -/
theorem inputActive_same (s u : State) (e : LineEvent) (he : e.isOutput = false) (h : ∀ l : LineId, lineFollows s s.lines[l])
    (hl : u.lines = s.lines) : inputActive { u with lines := followed u } e = inputActive s e := by
  rw [Bool.eq_iff_iff, inputActive_iff, inputActive_iff]
  refine exists_congr fun l => ?_
  show ((followed u)[l].event == e && (followed u)[l].isActive) = true ↔ _
  rw [followed_get, hl, followPin_event]
  by_cases c : s.lines[l].event = e
  · have o : s.lines[l].event.isOutput = false := c ▸ he
    have k := followPin_keeps s s.lines[l] (h l)
    rw [pinLevel_input s _ o] at k
    rw [pinLevel_input u _ o, Line.isActive, k]
    have a : (followPin s.lines[l].outside s.lines[l]).activeLow = s.lines[l].activeLow := by
      unfold followPin
      split <;> [rfl; split <;> rfl]
    rw [a]
    rfl
  · rw [beq_false_of_ne c, Bool.false_and, Bool.false_and]

/-- The inputs taken again are those of the settled state. -/
theorem inputs_same (s u : State) (h : Settled s) (hl : u.lines = s.lines) :
    (takeInputs (refreshLines u)).ranking.forced = s.ranking.forced
    ∧ (takeInputs (refreshLines u)).sel.rainInput = s.sel.rainInput := by
  rw [refreshLines_eq]
  obtain ⟨f, h1, -, h3, -⟩ := h
  exact ⟨(inputActive_same s u _ rfl f hl).trans h1.symm, (inputActive_same s u _ rfl f hl).trans h3.symm⟩

/-- The ranking recomputed from the inputs of a settled state is the one it has, and nothing is announced. -/
theorem rerank_same (s t : State) (h : Settled s) (hp : t.paths = s.paths) (hr : t.ranking = s.ranking) :
    rerank t = t := by
  obtain ⟨-, -, -, -, a, b, c, -⟩ := h
  have e1 : rankList t = t.ranking.list := by rw [rankList_congr s t hp (by rw [hr]), hr, a]
  have e2 : fallbackHolds t = t.ranking.fallback := by rw [fallbackHolds_congr s t hp (by rw [hr]), hr, c]
  have e3 : headOf t.ranking.list = t.ranking.head := by rw [hr, b]
  simp only [rerank, e1, e2, e3, beq_self_eq_true, if_true]

/-- An event that touches neither lines, paths nor ranking: the rain alert is announced if it changed, and nothing else. -/
theorem rerank_beforeRanking (s u : State) (h : Settled s) (hl : u.lines = s.lines) (hp : u.paths = s.paths)
    (hr : u.ranking = s.ranking) : rerank (beforeRanking s u) = beforeRanking s u := by
  obtain ⟨b, k⟩ := announceRain_eq s (takeInputs (refreshLines u))
  have f := (inputs_same s u h hl).1
  rw [refreshLines_eq] at f
  refine rerank_same s _ h ?_ ?_
  · rw [beforeRanking, k, refreshLines_eq]
    exact hp
  · rw [beforeRanking, k, refreshLines_eq]
    show { u.ranking with forced := (takeInputs { u with lines := followed u }).ranking.forced } = s.ranking
    rw [f, hr]

/-- Such an event announces a change of the rain alert, when its own flag has changed it, and raises no other cause. -/
theorem settle_causes_same (s u : State) (h : Settled s) (hl : u.lines = s.lines) (hp : u.paths = s.paths)
    (hr : u.ranking = s.ranking) :
    (settle s u).alarm.causes = if (u.sel.rainFlag || s.sel.rainInput) == (s.sel.rainFlag || s.sel.rainInput)
      then u.alarm.causes else (raiseCause 19 u).alarm.causes := by
  rw [settle_causes, rerank_beforeRanking s u h hl hp hr, beforeRanking, announceRain]
  have f := (inputs_same s u h hl).2
  have g : rainAlert (takeInputs (refreshLines u)) = (u.sel.rainFlag || s.sel.rainInput) := by
    rw [rainAlert, f, refreshLines_eq]
    rfl
  rw [g, refreshLines_eq]
  change (if (_ == (s.sel.rainFlag || s.sel.rainInput)) = true then _ else _ : State).alarm.causes = _
  split <;> rfl

/-- The consequences of an event start no PPS_OUT pulse and end none. -/
theorem settle_ppsOut (o u : State) : (settle o u).pulses.ppsOut = u.pulses.ppsOut := by
  have r : ∀ s, (rerank s).pulses.ppsOut = s.pulses.ppsOut := by
    intro s
    unfold rerank
    dsimp only
    split <;> split <;> rfl
  have a : ∀ s, (refreshAlarm s).pulses.ppsOut = s.pulses.ppsOut := by
    intro s
    unfold refreshAlarm
    dsimp only
    split <;> rfl
  have b : (beforeRanking o u).pulses.ppsOut = u.pulses.ppsOut := by
    unfold beforeRanking
    rw [refreshLines_eq]
    unfold announceRain
    split <;> rfl
  rw [settle_pulses, a, r, b]

/-- Such an event starts no PATH_SWITCH pulse; it starts a CRITICAL pulse when a level-3 cause becomes active. -/
theorem settle_pulses_same (s u : State) (h : Settled s) (hl : u.lines = s.lines) (hp : u.paths = s.paths)
    (hr : u.ranking = s.ranking) (hc : u.alarm = s.alarm) (hf : u.sel.rainFlag = s.sel.rainFlag) :
    (settle s u).pulses = u.pulses := by
  rw [settle_pulses, rerank_beforeRanking s u h hl hp hr, beforeRanking, announceRain]
  have f := (inputs_same s u h hl).2
  have g : rainAlert (takeInputs (refreshLines u)) = rainAlert s := by
    rw [rainAlert, f, refreshLines_eq]
    show (u.sel.rainFlag || s.sel.rainInput) = _
    rw [hf]
    rfl
  rw [g, refreshLines_eq]
  simp only [beq_self_eq_true, if_true]
  obtain ⟨-, -, -, -, -, -, -, -, k⟩ := h
  have k' : criticalActive u.alarm = u.alarm.inService := by rw [hc, k]
  show (if criticalActive u.alarm && !u.alarm.inService then _ else u.pulses : Pulses) = u.pulses
  rw [k']
  simp

end Sys2Proof.Machine
end

