-- ==== Sys2Proof/Laws/Ranks.lean ====
section
/-! SUPPORT. The order of the ranking list (R51). -/

namespace Sys2Proof.Machine

/- One theorem after another: many at once would each hold a stack of its own. -/
set_option Elab.async false

/-- Before another in the first group of the ranking list (R51). -/
abbrev Ahead (a b : RankEntry) : Prop :=
  a.latency.getD 0 < b.latency.getD 0 ∨ (a.latency.getD 0 = b.latency.getD 0 ∧ a.path < b.path)

theorem mem_placeByLatency (l : List RankEntry) (e x : RankEntry) : x ∈ placeByLatency l e ↔ x ∈ l ∨ x = e := by
  simp only [placeByLatency]
  conv_rhs => rw [← List.takeWhile_append_dropWhile (p := fun y : RankEntry => decide (y.latency.getD 0 ≤ e.latency.getD 0)) (l := l)]
  simp only [List.mem_append, List.mem_singleton]
  tauto

theorem placeByLatency_ordered (l : List RankEntry) (e : RankEntry) (h : l.Pairwise Ahead) (hp : ∀ x ∈ l, x.path < e.path) :
    (placeByLatency l e).Pairwise Ahead := by
  induction l with
  | nil => simp [placeByLatency]
  | cons a l ih =>
    rw [List.pairwise_cons] at h
    by_cases c : a.latency.getD 0 ≤ e.latency.getD 0
    · have k : placeByLatency (a :: l) e = a :: placeByLatency l e := by
        simp [placeByLatency, c]
      rw [k, List.pairwise_cons]
      refine ⟨fun x hx => ?_, ih h.2 fun x hx => hp x (List.mem_cons_of_mem _ hx)⟩
      rcases (mem_placeByLatency l e x).mp hx with hx | rfl
      · exact h.1 x hx
      · rcases Nat.lt_or_eq_of_le c with c | c
        · exact Or.inl c
        · exact Or.inr ⟨c, hp a (List.mem_cons_self ..)⟩
    · have k : placeByLatency (a :: l) e = e :: a :: l := by
        simp [placeByLatency, c]
      rw [k, List.pairwise_cons]
      refine ⟨fun x hx => ?_, List.pairwise_cons.mpr h⟩
      rcases List.mem_cons.mp hx with rfl | hx
      · left; omega
      · left
        rcases h.1 x hx with g | g <;> omega

theorem placed_ordered (es l : List RankEntry) (h : l.Pairwise Ahead) (he : es.Pairwise (fun a b => a.path < b.path))
    (hp : ∀ x ∈ l, ∀ e ∈ es, x.path < e.path) :
    (es.foldl placeByLatency l).Pairwise Ahead ∧ ∀ x, x ∈ es.foldl placeByLatency l ↔ x ∈ l ∨ x ∈ es := by
  induction es generalizing l with
  | nil => simp [h]
  | cons e es ih =>
    rw [List.pairwise_cons] at he
    obtain ⟨a, b⟩ := ih (placeByLatency l e)
      (placeByLatency_ordered l e h fun x hx => hp x hx e (List.mem_cons_self ..)) he.2 (fun x hx y hy => by
        rcases (mem_placeByLatency l e x).mp hx with hx | rfl
        · exact hp x hx y (List.mem_cons_of_mem _ hy)
        · exact he.1 y hy)
    refine ⟨a, fun x => ?_⟩
    rw [List.foldl_cons, b x, mem_placeByLatency, List.mem_cons, or_assoc]

/-- The three groups of the ranking list (R51). -/
theorem rankList_groups (s : State) : ∃ air : List RankEntry,
    rankList s = air ++ (if selectable s 4 = true then [rankEntry s 4] else [])
      ++ ((List.finRange 5).filter (fun p => !selectable s p)).map (rankEntry s)
    ∧ (∀ e, e ∈ air ↔ ∃ p : PathId, p ≠ 4 ∧ selectable s p = true ∧ e = rankEntry s p) ∧ air.Pairwise Ahead := by
  let es := ((List.finRange 5).map (rankEntry s)).filter fun e => e.selectable && isAir e.path
  have he : es.Pairwise (fun a b => a.path < b.path) := by
    refine List.Pairwise.filter _ (List.pairwise_map.mpr ?_)
    show (List.finRange 5).Pairwise (fun a b => a < b)
    decide
  obtain ⟨a, b⟩ := placed_ordered es [] List.Pairwise.nil he (by simp)
  refine ⟨_, ?_, fun e => ?_, a⟩
  · rw [rankList]
    congr 1
    · congr 1
      rw [List.filter_map]
      have : (List.finRange 5).filter ((fun e : RankEntry => e.selectable && !isAir e.path) ∘ rankEntry s)
          = if selectable s 4 = true then [4] else [] := by
        show (([0, 1, 2, 3, 4] : List (Fin 5))).filter _ = _
        cases h : selectable s 4 <;> simp [List.filter, rankEntry, isAir, h]
      rw [this]
      split <;> rfl
    · rw [List.filter_map]
      rfl
  · rw [b e]
    simp only [es, List.not_mem_nil, false_or, List.mem_filter, List.mem_map, List.mem_finRange, true_and, Bool.and_eq_true]
    constructor
    · rintro ⟨⟨p, rfl⟩, h1, h2⟩
      exact ⟨p, by rintro rfl; revert h2; show isAir 4 = true → False; decide, h1, rfl⟩
    · rintro ⟨p, h1, h2, rfl⟩
      refine ⟨⟨p, rfl⟩, h2, ?_⟩
      exact (by decide : ∀ p : PathId, p ≠ 4 → isAir p = true) p h1

end Sys2Proof.Machine
end

