-- ==== Sys2Proof/Laws/Records.lean ====
section
/-! SUPPORT. Where the bits of a packed word, of a byte string and of a status record come from (R184, R186). -/

namespace Sys2Proof.Machine

/- One theorem after another: many at once would each hold a stack of its own. -/
set_option Elab.async false

/-! ## Words packed from parts -/

/-- A bit of parts joined one over the other is a bit of one of them, counted from its place. -/
theorem orAll_testBit (parts : List (Nat × Nat)) (a k : Nat) :
    (parts.foldl (fun acc p => acc ||| (p.2 <<< p.1)) a).testBit k
      = (a.testBit k || parts.any (fun p => decide (p.1 ≤ k) && p.2.testBit (k - p.1))) := by
  induction parts generalizing a with
  | nil => simp
  | cons p parts ih =>
    rw [List.foldl_cons, ih, Nat.testBit_or, Nat.testBit_shiftLeft, List.any_cons, Bool.or_assoc]

/-- A part of a word, with the parts below it that end before it and the parts above it that begin after it, is found at its place. -/
theorem packWord_part (before after : List (Nat × Nat)) (lo v n : Nat) (hn : lo + n ≤ 64)
    (hb : ∀ p ∈ before, ∃ w, p.2 < 2 ^ w ∧ p.1 + w ≤ lo) (ha : ∀ p ∈ after, lo + n ≤ p.1) :
    (packWord (before ++ (lo, v) :: after)).extractLsb' lo n = BitVec.ofNat n v := by
  apply BitVec.eq_of_getLsbD_eq
  intro i hi
  have b : before.any (fun p => decide (p.1 ≤ lo + i) && p.2.testBit (lo + i - p.1)) = false := by
    rw [List.any_eq_false]
    intro p hp
    obtain ⟨w, h1, h2⟩ := hb p hp
    have : p.2.testBit (lo + i - p.1) = false :=
      Nat.testBit_lt_two_pow (Nat.lt_of_lt_of_le h1 (Nat.pow_le_pow_right (by omega) (by omega)))
    simp [this]
  have a : after.any (fun p => decide (p.1 ≤ lo + i) && p.2.testBit (lo + i - p.1)) = false := by
    rw [List.any_eq_false]
    intro p hp
    have := ha p hp
    simp; omega
  rw [BitVec.getLsbD_extractLsb', packWord, BitVec.getLsbD_ofNat, BitVec.getLsbD_ofNat, orAll_testBit]
  rw [List.any_append, List.any_cons, b, a]
  simp [hi]
  omega

/-- Parts that fit their widths and stand one above the other are each found at their place. -/
theorem packWord_fields (parts : List (Nat × Nat × Nat)) (fit : ∀ x ∈ parts, x.2.2 < 2 ^ x.2.1)
    (apart : parts.Pairwise (fun a b => a.1 + a.2.1 ≤ b.1)) (x : Nat × Nat × Nat) (hx : x ∈ parts) (top : x.1 + x.2.1 ≤ 64) :
    (packWord (parts.map fun y => (y.1, y.2.2))).extractLsb' x.1 x.2.1 = BitVec.ofNat x.2.1 x.2.2 := by
  obtain ⟨before, after, rfl⟩ := List.append_of_mem hx
  rw [List.map_append, List.map_cons]
  rw [List.pairwise_append, List.pairwise_cons] at apart
  refine packWord_part _ _ _ _ _ top ?_ ?_
  · intro p hp
    obtain ⟨y, hy, rfl⟩ := List.mem_map.mp hp
    exact ⟨y.2.1, fit y (by simp [hy]), apart.2.2 y hy x (by simp)⟩
  · intro p hp
    obtain ⟨y, hy, rfl⟩ := List.mem_map.mp hp
    exact apart.2.1.1 y hy

/-- Bits that no part reaches are 0. -/
theorem packWord_unassigned (parts : List (Nat × Nat × Nat)) (fit : ∀ x ∈ parts, x.2.2 < 2 ^ x.2.1) (lo n : Nat)
    (apart : ∀ x ∈ parts, x.1 + x.2.1 ≤ lo ∨ lo + n ≤ x.1) :
    (packWord (parts.map fun y => (y.1, y.2.2))).extractLsb' lo n = 0 := by
  apply BitVec.eq_of_getLsbD_eq
  intro i hi
  rw [BitVec.getLsbD_extractLsb', packWord, BitVec.getLsbD_ofNat, orAll_testBit]
  have : (parts.map fun y => (y.1, y.2.2)).any (fun p => decide (p.1 ≤ lo + i) && p.2.testBit (lo + i - p.1)) = false := by
    rw [List.any_eq_false]
    intro p hp
    obtain ⟨y, hy, rfl⟩ := List.mem_map.mp hp
    rcases apart y hy with h | h
    · have := Nat.testBit_lt_two_pow (Nat.lt_of_lt_of_le (fit y hy)
        (Nat.pow_le_pow_right (by omega) (show y.2.1 ≤ lo + i - y.1 by omega)))
      simp [this]
    · simp; omega
  rw [this]
  simp

theorem bit_lt (b : Bool) : bit b < 2 ^ 1 := by cases b <;> decide

/-- A field that shows a value which fits it reads as that value. -/
theorem field_toNat {w : Word} {lo n v : Nat} (h : v < 2 ^ n) (e : w.extractLsb' lo n = BitVec.ofNat n v) :
    (w.extractLsb' lo n).toNat = v := by
  rw [e, BitVec.toNat_ofNat, Nat.mod_eq_of_lt h]

/-- A field of one bit that shows a truth value is that bit. -/
theorem field_getLsbD {w : Word} {k : Nat} {b : Bool} (h : w.extractLsb' k 1 = BitVec.ofNat 1 (bit b)) : w.getLsbD k = b := by
  have := congrArg (fun x : BitVec 1 => x.getLsbD 0) h
  simp only [BitVec.getLsbD_extractLsb', BitVec.getLsbD_ofNat] at this
  cases b <;> simpa [bit] using this

/-! ## Bytes, least significant first (R184) -/

/-- A bit of the number that bytes spell is a bit of the byte it falls in. -/
theorem leValue_testBit (bs : List Byte) (k : Nat) : (leValue bs).testBit k = (bs.getD (k / 8) 0).getLsbD (k % 8) := by
  induction bs generalizing k with
  | nil => simp [leValue]
  | cons b bs ih =>
    have hb := b.isLt
    rw [leValue, Nat.add_comm, show (256 : Nat) = 2 ^ 8 from rfl, Nat.testBit_two_pow_mul_add _ hb]
    by_cases h : k < 8
    · simp only [h, if_true, Nat.div_eq_of_lt h, Nat.mod_eq_of_lt h]; rfl
    · simp only [h, if_false]
      rw [ih]
      have e1 : (k - 8) % 8 = k % 8 := by omega
      have e2 : k / 8 = (k - 8) / 8 + 1 := by omega
      rw [e1, e2, List.getD_cons_succ]

/-- The four bytes of a number are those of its low 32 bits. -/
theorem leBytes_four (v : Nat) : leBytes 4 v = [(BitVec.ofNat 32 v).extractLsb' 0 8, (BitVec.ofNat 32 v).extractLsb' 8 8,
    (BitVec.ofNat 32 v).extractLsb' 16 8, (BitVec.ofNat 32 v).extractLsb' 24 8] := by
  have byte : ∀ i : Nat, i < 4 → BitVec.ofNat 8 (v >>> (8 * i)) = (BitVec.ofNat 32 v).extractLsb' (8 * i) 8 := by
    intro i hi
    apply BitVec.eq_of_getLsbD_eq
    intro k hk
    rw [BitVec.getLsbD_extractLsb', BitVec.getLsbD_ofNat, BitVec.getLsbD_ofNat, Nat.testBit_shiftRight]
    have : 8 * i + k < 32 := by omega
    simp [hk, this]
  show [BitVec.ofNat 8 (v >>> (8 * 0)), BitVec.ofNat 8 (v >>> (8 * 1)), BitVec.ofNat 8 (v >>> (8 * 2)),
    BitVec.ofNat 8 (v >>> (8 * 3))] = _
  rw [byte 0 (by decide), byte 1 (by decide), byte 2 (by decide), byte 3 (by decide)]

/-! ## Status records (R186) -/

/-- The next free bit after fields one after another. -/
def nextFree (fs : List Shown) : Nat := (fs.foldl placeField (0, 0)).1

theorem nextFree_nil : nextFree [] = 0 := rfl

theorem nextFree_snoc (fs : List Shown) (f : Shown) : nextFree (fs ++ [f]) = alignUp (nextFree fs) f.width + f.width := by
  simp only [nextFree, List.foldl_append, List.foldl_cons, List.foldl_nil, placeField]

theorem packFields_nil : packFields [] = 0 := rfl

theorem packFields_snoc (fs : List Shown) (f : Shown) :
    packFields (fs ++ [f]) = packFields fs ||| f.value <<< alignUp (nextFree fs) f.width := by
  simp only [packFields, nextFree, List.foldl_append, List.foldl_cons, List.foldl_nil, placeField]

/-- A bit of the record is set when it is a set bit of a field, counted from the first multiple of the field's width that is free after
the fields before it. -/
theorem packFields_testBit (fs : List Shown) (k : Nat) : (packFields fs).testBit k = true ↔ ∃ before f rest,
    fs = before ++ f :: rest ∧ alignUp (nextFree before) f.width ≤ k
    ∧ f.value.testBit (k - alignUp (nextFree before) f.width) = true := by
  induction fs using List.reverseRecOn with
  | nil => simp [packFields_nil]
  | append_singleton l g ih =>
    rw [packFields_snoc, Nat.testBit_or, Bool.or_eq_true, ih, Nat.testBit_shiftLeft, Bool.and_eq_true, decide_eq_true_iff]
    constructor
    · rintro (⟨before, f, rest, e, c⟩ | c)
      · exact ⟨before, f, rest ++ [g], by rw [e, List.append_assoc, List.cons_append], c⟩
      · exact ⟨l, g, [], rfl, c⟩
    · rintro ⟨before, f, rest, e, c⟩
      rcases List.eq_nil_or_concat rest with rfl | ⟨rest, x, rfl⟩
      · obtain ⟨rfl, h⟩ := List.append_inj' e rfl
        obtain rfl : g = f := by simpa using h
        exact .inr c
      · rw [List.concat_eq_append, ← List.cons_append, ← List.append_assoc] at e
        exact .inl ⟨before, f, rest, (List.append_inj' e rfl).1, c⟩

end Sys2Proof.Machine
end

