-- ==== Sys2Proof/Laws/Waiting.lean ====
section
/-! SUPPORT. What becomes of a burst leaves the accesses that wait at the P-port where they are, so that a row that ends in
`drainLine` leaves the state it drains (R84, R97). -/

namespace Sys2Proof.Machine

/- One theorem after another: many at once would each hold a stack of its own. -/
set_option Elab.async false

theorem completeWith_mem (quiet : Bool) (r : CommandResult) (s : State) : (completeWith quiet r s).mem = s.mem := by
  unfold completeWith; split <;> [rfl; (dsimp only; split <;> rfl)]

theorem complete_mem (r : CommandResult) (s : State) : (complete r s).mem = s.mem := completeWith_mem _ _ _

theorem report_mem (cls : ReportClass) (c : Cause) (m : Master) (a : Nat) (s : State) : (report cls c m a s).mem = s.mem := by
  unfold report; split <;> [rfl; (dsimp only; split <;> rfl)]

theorem foldl_mem {α : Type} (g : State → α → State) (h : ∀ s a, (g s a).mem = s.mem) (l : List α) (s : State) :
    (l.foldl g s).mem = s.mem := by
  induction l generalizing s with
  | nil => rfl
  | cons a l ih => rw [List.foldl_cons, ih, h]

theorem snapshotProgress_mem (r : RecordId) (s : State) : (snapshotProgress r s).mem = s.mem := by
  unfold snapshotProgress; split
  · split
    · rfl
    · dsimp only; split <;> [exact complete_mem _ _; rfl]
  all_goals rfl

theorem snapshotLoses_mem (r : CommandResult) (s : State) : (snapshotLoses r s).mem = s.mem := by
  unfold snapshotLoses; split <;> first | exact complete_mem _ _ | rfl

theorem flushProgress_mem (n : RingId) (e : OutcomeEntry) (s : State) : (flushProgress n e s).mem = s.mem := by
  unfold flushProgress; split
  · split
    · dsimp only; split <;> [exact complete_mem _ _; rfl]
    · rfl
  all_goals rfl

theorem flushHalts_mem (n : RingId) (s : State) : (flushHalts n s).mem = s.mem := by
  unfold flushHalts; split
  · split <;> [exact complete_mem _ _; rfl]
  all_goals rfl

theorem stopDone_mem (n : RingId) (r : CommandResult) (s : State) : (stopDone n r s).mem = s.mem := by
  unfold stopDone; split <;> [exact complete_mem _ _; rfl]

theorem logResetProgress_mem (s : State) : (logResetProgress s).mem = s.mem := by
  unfold logResetProgress; split
  · dsimp only; split <;> [exact complete_mem _ _; rfl]
  · rfl

/-- The end of a burst leaves the waiting accesses where they are. -/
theorem doBurstEnd_line (s : State) : (doBurstEnd s).mem.line = s.mem.line := by
  unfold doBurstEnd
  split
  · rename_i e h
    have : (burstWritten e (clearBurst s)).mem = (clearBurst s).mem := by
      unfold burstWritten
      split
      · exact stopDone_mem _ _ _
      · unfold outcomeWritten; dsimp only; rw [flushProgress_mem]; split <;> rfl
      · exact snapshotProgress_mem _ _
      · exact logResetProgress_mem _
    rw [this]; rfl
  · rfl


theorem dropRecords_mem (n : RingId) (w : DropReason) (c : Nat) (s : State) : (dropRecords n w c s).mem = s.mem := by
  unfold dropRecords
  exact foldl_mem (fun s _ => dropRecord n w s) (fun s _ => rfl) _ _

theorem unqueue_line (f : WriteEntry → Bool) (s : State) : (unqueue f s).mem.line = s.mem.line := rfl

theorem dropQueued_line (n : RingId) (s : State) : (dropQueued n s).mem.line = s.mem.line := by
  unfold dropQueued; rw [dropRecords_mem, unqueue_line]

theorem abort_mem (c : Cause) (a : Nat) (s : State) : (abort c a s).mem = s.mem := by
  unfold abort; rw [show ∀ s, (recordAbort c a s).mem = s.mem from fun _ => rfl, report_mem]

theorem dropRecord_mem (n : RingId) (f : DropReason) (s : State) : (dropRecord n f s).mem = s.mem := rfl

theorem clearBurst_line (s : State) : (clearBurst s).mem.line = s.mem.line := rfl

theorem depositFailed_line (n : RingId) (s : State) : (depositFailed n s).mem.line = s.mem.line := by
  unfold depositFailed; rw [stopDone_mem, onInRing_mem, dropQueued_line, dropRecord_mem, onInRing_mem]

theorem outcomeFailed_line (n : RingId) (e : OutcomeEntry) (s : State) : (outcomeFailed n e s).mem.line = s.mem.line := by
  unfold outcomeFailed; rw [flushHalts_mem, onOutRing_mem, unqueue_line]

theorem statusFailed_line (n : RecordId) (s : State) : (statusFailed n s).mem.line = s.mem.line := by
  unfold statusFailed; rw [snapshotLoses_mem, onMark_mem]; exact unqueue_line _ _

theorem faultFailed_line (a : Nat) (s : State) : (faultFailed a s).mem.line = s.mem.line := by
  unfold faultFailed; dsimp only; rw [logResetProgress_mem, foldl_mem _ (fun s _ => countLost_mem s), unqueue_line]; rfl

theorem burstFailed_line (e : WriteEntry) (a : Nat) (s : State) : (burstFailed e a s).mem.line = s.mem.line := by
  unfold burstFailed
  split
  · rw [depositFailed_line, abort_mem]
  · rw [outcomeFailed_line, abort_mem]
  · rw [statusFailed_line, abort_mem]
  · rw [faultFailed_line]

/-- So does an error in it. -/
theorem doBurstError_line (k : Fin 64) (s : State) : (doBurstError k s).mem.line = s.mem.line := by
  unfold doBurstError
  split
  · split
    · rw [burstFailed_line, clearBurst_line]
    · rfl
  · rfl

/-- A row that ends in `drainLine` leaves, by its own event, the state it drains. -/
theorem leaves_of_drain {c : Instr} {s v : State} (row : exec c s = .next (drainLine v)) (line : v.mem.line = s.mem.line)
    (h : c = .burstEnd ∨ ∃ k, c = .burstError k) : Leaves c s v := by
  have g : exec c s = .next (s.mem.line.foldl (fun w x => settle w (arrive x w))
      { v with mem := { v.mem with line := [] } }) := by
    rw [row, drainLine, line]
  rcases h with rfl | ⟨k, rfl⟩ <;> exact ⟨line, g⟩

end Sys2Proof.Machine
end

