-- ==== Sys2Proof/Tests/Slice0.lean ====
section
/-! SUPPORT. Tests: ill-formed commands, figures the manual prints, and states that meet the hypotheses of the statements. -/

namespace Sys2Proof.Tests

/- The kernel evaluates these theorems one after another: many at once would wait side by side, each with a stack of its own. -/
set_option Elab.async false

open Sys2Proof.Machine

/-! ## Small states -/

/-- The state after reset. -/
def s0 : State := State.reset

/-- What a command leaves. -/
def after (c : Instr) (s : State) : State :=
  match exec c s with
  | .next t => t
  | _ => s

/-- A window opened over a span of 64 Ki words. -/
def opened (e : Fin 15) (w : Window) (s : State) : State :=
  windowOpened w (onWindow e (fun _ => w) { s with mem := { s.mem with spanLength := 65536 } })

/-- Path `p` in a state. -/
def inState (p : PathId) (x : PathState) (s : State) : State := onSup p (fun u => { u with state := x }) s

/-- An OUTBOUND(1) window of 16 slots at 4096. -/
def outbound : State := opened 0 ⟨4096, 128, .outbound, 1, 0, 0, true⟩ s0

/-- The same with its OUTCOME(1) window at 8192. -/
def outcome : State := opened 1 ⟨8192, 64, .outcome, 1, 0, 0, true⟩ outbound

/-- An INBOUND(2) window of 16 slots at 4096, its ring ACTIVE. -/
def inbound : State := onInRing 2 (fun r => { r with state := .active }) (opened 0 ⟨4096, 128, .inbound, 2, 0, 0, true⟩ s0)

/-- A STATUS window at 4096. -/
def status : State := opened 0 ⟨4096, 1140, .status, 0, 0, 0, true⟩ s0

/-- A FAULT_LOG window of two entries at 4096. -/
def faultLog : State := opened 0 ⟨4096, 4, .faultLog, 0, 0, 0, true⟩ s0

/-- A launch record of ring 1, slot 3. -/
def record (c : LaunchClass) (m : LaunchMode) (copies : List Copy) : LaunchRecord :=
  ⟨⟨1, 3⟩, 2, 9, c, m, if m = .pinned then some 1 else none, [1, 2], 7, ⟨5, .free⟩, some 1, copies, false, false, false,
    none, 0⟩

/-- A state that holds it in the URGENT queue. -/
def held (m : LaunchMode) (s : State) : State :=
  { s with sel := { s.sel with held := [record .urgent m []], urgent := ⟨[], [⟨1, 3⟩]⟩, holdUrgent := 1 } }

/-- Its outcome. -/
def entry (refusal : Bool) : OutcomeEntry :=
  ⟨3, .launched, 1, 2, 9, false, false, false, ⟨5, .free⟩, none, 7, refusal, 0, 0⟩

/-- A burst in progress. -/
def bursting (x : Source) (s : State) : State :=
  { s with mem := { s.mem with burst := some ⟨x, 0, [(4096, 1), (4097, 2)]⟩ } }

/-- A good DATA frame of path 0. -/
def dataFrame (sequence : Nat) : List Byte :=
  frameBytes true ⟨.data, 0, .lead, .free, 5, 3, BitVec.ofNat 32 sequence, 7⟩ [1, 2, 3]

/-! ## Ill-formed commands: a word of another row -/

theorem test_windowEnable_needs_enable : (Instr.windowEnable 0 0xFF 0 0).wellFormed = false := by decide
theorem test_windowDisable_needs_no_enable : (Instr.windowDisable 0 0xFF 0 0x80000000).wellFormed = false := by decide
theorem test_inboundRelease_needs_no_start : (Instr.inboundRelease 0 0xFF 0 0x10000).wellFormed = false := by decide
theorem test_ringStartField_needs_start : (Instr.ringStartField 0 0xFF 0 0).wellFormed = false := by decide
theorem test_unknownCommand_needs_no_name : (Instr.unknownCommand 0 0xFF 17 0 0).wellFormed = false := by decide
theorem test_report_needs_range : (Instr.report 0 9 7 0).wellFormed = false ∧ (Instr.report 0 9 6 3).wellFormed = false := by
  decide
theorem test_unknownUnitMessage_needs_no_name : (Instr.unknownUnitMessage 0 5 0 0 0).wellFormed = false := by decide
theorem test_carry_needs_range : (Instr.carry 0 0 (List.replicate 15 0)).wellFormed = false
    ∧ (Instr.carry 0 0 (List.replicate 69 0)).wellFormed = false := by decide

/-! ## Figures the manual prints -/

/-- R162: the check value of the ASCII digits 1 to 9. -/
theorem test_frame_check : crc32 [0x31, 0x32, 0x33, 0x34, 0x35, 0x36, 0x37, 0x38, 0x39] = 0xCBF43926 := by decide +kernel

/-- Section 12.5: the codes that name a line event, a window kind, a tap, a divert action and a frame kind. -/
theorem test_codes :
    (List.range 32).filter (fun k => (LineEvent.ofCode k).isSome) = [0, 1, 2, 3, 4, 5, 6, 7, 8, 9, 10, 11, 12, 16, 17, 18, 19]
    ∧ (List.range 8).filter (fun k => (WindowKind.ofCode k).isSome) = [0, 1, 2, 3, 4, 5]
    ∧ (List.range 8).filter (fun k => (Tap.ofCode k).isSome) = [0, 1, 2, 3]
    ∧ (List.range 4).filter (fun k => (DivertAction.ofCode k).isSome) = [0, 1, 2]
    ∧ (List.range 16).filter (fun k => (FrameKind.ofCode k).isSome) = [0, 1, 2, 3, 4, 5, 6] := by decide

/-- Section 1.13: probes 45, 46, 47 and 48. -/
theorem test_estimates : eighth 3700000 3708000 = 3701000 ∧ eighth 3701000 3699000 = 3700750
    ∧ latencySample ⟨1000000, .holdover⟩ ⟨8000000, .locked⟩ 8032000 8452000 = (3710000, .halfRtt)
    ∧ eighth 3710000 3709993 = 3710000 := by decide

/-- Section 2.13 before row 1. -/
def rainCell : State :=
  onPath 2 (fun x => { x with
    sup := { x.sup with
      state := .up, contract := 5, margin := 58, ownMask := 63, farMask := some 63, lastOfferSent := 7
      lastOffered := some ⟨63, 5⟩, lastGrant := 20, unitProfile := 5, unitState := .ready }
    setup := { x.setup with holdMode := .narrow } }) s0

/-- Rows 1 and 2: the FADING band, then a step-down with OFFER 8 of mask 1..4. -/
theorem test_step_down :
    (after (.report 2 44 5 0) rainCell).paths[2].sup.state = .fading
    ∧ (after (.report 2 38 5 0) rainCell).paths[2].sup.state = .retune
    ∧ (after (.report 2 38 5 0) rainCell).paths[2].sup.pending = true
    ∧ (after (.report 2 38 5 0) rainCell).paths[2].port.insert = [⟨.offer 8 15 5, 0⟩] := by decide +kernel

/-- Row 10: GRANT 23 answering 9 is applied. -/
theorem test_grant_applied :
    (applyGrant 2 23 9 3 false (inState 2 .retune (onSup 2 (fun u => { u with ownMask := 7, pending := true }) rainCell))).paths[2].sup.target
      = some 3 := by decide +kernel

/-- Section 3.10: the five paths at the start. -/
def fivePaths : State :=
  let at0 (p : PathId) (x : PathState) (k e : Nat) (s : State) : State := onPath p (fun y => { y with
    sup := { y.sup with state := x, contract := k, estimate := BitVec.ofNat 32 e, estimateCount := 1 }
    setup := { y.setup with fadePenalty := 20000, recoveryPenalty := 50000 } }) s
  at0 0 .up 6 3672400 (at0 1 .up 5 3701000 (at0 2 .fading 5 3688000 (at0 3 .up 6 3745000 (at0 4 .up 0 5150000 s0))))

theorem test_ranking : (rankList fivePaths).map (fun e => (e.path, e.latency)) =
    [(0, some 3673760), (1, some 3702813), (2, some 3709813), (3, some 3746360), (4, some 5150544)]
    ∧ (rankList { fivePaths with ranking := { fivePaths.ranking with forced := true } }).map (·.path) = [4, 0, 1, 2, 3] := by
  decide +kernel

/-- Section 4.9, pulses 1 and 2: a step forward, then a slew back with the trim moved. -/
theorem test_pulses :
    (takePulse 2 { s0 with time := { s0.time with value := 1735689641587695750 } }).time.value = 1735689642000002000
    ∧ (takePulse 2 { s0 with time := { s0.time with value := 1735689641587695750 } }).time.lastOffset = some (-412306250)
    ∧ (takePulse 2 { s0 with time := { s0.time with value := 1735689643000003600, state := .acquire } }).time.trim = -200
    ∧ (takePulse 2 { s0 with time := { s0.time with value := 1735689643000003600, state := .acquire } }).time.slew
      = some ⟨false, 1600000000000⟩ := by decide +kernel

/-- R71: a step marks the time status record, also where the two counts hold at their maximum and the last offset is the same; so
does a rejected pulse. -/
theorem test_pulses_mark :
    (takePulse 0 { s0 with time := { s0.time with
      value := 1999998999, state := .acquire, trimHold := false, lastOffset := some (-1001), steps := 0xFFFFFFFF
      pulsesAccepted := 0xFFFFFFFF } }).status.records[(6 : RecordId)].changed = true
    ∧ (takePulse 0 { s0 with time := { s0.time with pulseAge := some 899, pulsesRejected := 0xFFFFFFFF } }).status.records[(6 : RecordId)].changed
      = true := by decide +kernel

/-- Section 5.9, entry F1: its place and its two words. -/
theorem test_fault_entry :
    (report .fault .access 3 0x2001A40 (onWindow 6 (fun _ => ⟨0x2080000, 128, .faultLog, 0, 0, 0, true⟩) { s0 with
      time := { s0.time with value := 1735689700250000000 }
      log := { s0.log with entryCount := 37, releaseCount := 37 } })).log.outstanding
    = [⟨0x208004A, packWord [(10, 1), (15, 3), (18, 250000000), (48, 34276)], 0x2001A40, false⟩] := by decide +kernel

/-- Section 6.9: position 30 of 16 slots is index 14 in lap 1. -/
theorem test_outcome_position :
    (submitOutcome 1 (entry true) 1 (onOutRing 1 (fun r => { r with assigned := 30 }) outcome)).mem.queue.map (·.words)
      = [outcomeWords (8192 + 4 * 14) 1 (entry true)] := by decide +kernel

/-- Section 7.12, event 5: only P2 of the air paths is selectable, so P4 joins. -/
theorem test_dual_candidates :
    choose { s0 with ranking := { s0.ranking with list :=
      [⟨2, true, some 9⟩, ⟨4, true, some 9⟩, ⟨0, false, none⟩, ⟨1, false, none⟩, ⟨3, false, none⟩] } } (record .urgent .dual [])
      = .place [2, 4] false false false := by decide +kernel

/-- Section 8.9, row 2: two gap entries with expiry 50 us later; row 4: a race credited to P0. -/
theorem test_merge :
    skipEntries { s0.streams[5] with highest := 8000, gapWindow := 50 } 2 ⟨3000, .locked⟩
      = [⟨8001, ⟨3000, .locked⟩, ⟨53000, .locked⟩⟩, ⟨8002, ⟨3000, .locked⟩, ⟨53000, .locked⟩⟩]
    ∧ (creditRace 0 15600 (onPath 0 (fun x => { x with wins := 1200, leadMargin := some 15000 }) s0)).paths[0].leadMargin
      = some 15075 := by decide +kernel

/-! ## States that meet the hypotheses of the statements, clause by clause -/

theorem ready : SetupReady s0 0 := by unfold SetupReady; decide +kernel
theorem command : CommandReady s0 0 := ⟨ready, rfl⟩

/-- A state that differs from `s0` where no word or command is checked is ready too. -/
theorem command_of {s : State} (h : s.mem = s0.mem) (k : s.cmd.busy = none) : CommandReady s 0 := by
  refine ⟨?_, k⟩
  unfold SetupReady setupBase
  rw [h]
  exact ready

theorem witness_EveryStepKeepsASettledState : Settled s0 ∧ ∃ t, step s0 = .next t := by
  refine ⟨by unfold Settled lineFollows; decide +kernel, _, rfl⟩

theorem witness_HeadAndFallbackChangesAreAnnounced :
    (settle s0 (inState 0 .up s0)).ranking.head ≠ (inState 0 .up s0).ranking.head
    ∧ (settle s0 s0).ranking.head = s0.ranking.head
    ∧ (settle s0 (inState 0 .up s0)).ranking.fallback ≠ (inState 0 .up s0).ranking.fallback
    ∧ (settle s0 s0).ranking.fallback = s0.ranking.fallback := by decide +kernel

/-- Every air path and P4 selectable: the list has a first entry, and it is selectable. -/
theorem witness_HeadAndFallbackChangesAreAnnounced_list :
    (settle s0 fivePaths).ranking.list.map (fun e => (e.path, e.selectable)) = [(0, true), (1, true), (2, true), (3, true), (4, true)] := by
  decide +kernel

/-- Path 0 UP and settled, its silence channel about to end. -/
def headed : State := settle s0 (onPath 0 (fun x => { x with silence := { x.silence with run := true } }) (inState 0 .up s0))

/-- A command that is not RESET and judges no fade conditions. -/
theorem witness_HeadAndFallbackChangesAreAnnounced_commands :
    (∀ straps, Instr.silenceUnderflow 0 ≠ .reset straps) ∧ (∀ p x l, Instr.silenceUnderflow 0 ≠ .carry p x l)
    ∧ (∀ p x y z, Instr.silenceUnderflow 0 ≠ .report p x y z) ∧ (∀ p w x y z, Instr.silenceUnderflow 0 ≠ .unknownUnitMessage p w x y z)
    ∧ (∀ p, Instr.silenceUnderflow 0 ≠ .sendStart p) := by
  simp

/-- The head goes with the silence of its path; the pulse is withdrawn by its own command. -/
theorem test_head_changes :
    headed.ranking.head = some 0 ∧ headed.ranking.headChanges = 1 ∧ headed.pulses.pathSwitch = some 0
    ∧ (after (.pulseEnd .pathSwitch) headed).pulses.pathSwitch = none
    ∧ (after (.silenceUnderflow 0) headed).ranking.head = none ∧ (after (.silenceUnderflow 0) headed).ranking.headChanges = 2
    ∧ (after (.silenceUnderflow 0) headed).alarm.causes[5].raises = 2
    ∧ (after (.silenceUnderflow 0) headed).ranking.fallbackEntries = 1 := by decide +kernel

/-- CMD_DONE pending, enabled, at level 3. -/
def critical : State := onCause 18 (fun _ => ⟨true, true, 3, 1⟩) s0

theorem witness_AlarmOutputsFollowTheCauses :
    ((settle s0 critical).alarm.inService = true ∧ critical.alarm.inService = false)
    ∧ (settle s0 s0).alarm.inService = false ∧ (settle s0 (after .ageing critical)).alarm.inService = true
    ∧ (after .ageing critical).alarm.inService = true := by decide +kernel

/-- CMD_DONE, enabled at level 3, becomes pending at a command; the withdrawal of the pulse is its own command. -/
theorem witness_AlarmOutputsFollowTheCauses_commands : (∀ straps, Instr.pulseEnd .critical ≠ .reset straps)
    ∧ (after (.rainSet 0 0xFF 1 0) (onCause 18 (fun _ => ⟨false, true, 3, 0⟩) s0)).alarm.inService = true
    ∧ (after (.rainSet 0 0xFF 1 0) (onCause 18 (fun _ => ⟨false, true, 3, 0⟩) s0)).pulses.critical = some 0
    ∧ (after (.pulseEnd .critical) (after .ageing critical)).pulses.critical = none :=
  ⟨by simp, by decide +kernel, by decide +kernel, by decide +kernel⟩

/-- A command changes the record of path 0 while that record is in its burst; nothing is shut out but RESET. -/
theorem witness_ChangedRecordsAreMarked_commands : (∀ straps, Instr.pathEnable 0 0xFF 1 0 ≠ .reset straps)
    ∧ marking (after (.pathEnable 0 0xFF 1 0) (bursting (.status 0) s0)) 0 ≠ marking (bursting (.status 0) s0) 0
    ∧ (∃ e, (after (.pathEnable 0 0xFF 1 0) (bursting (.status 0) s0)).mem.burst = some e ∧ e.source = .status 0)
    ∧ (after (.pathEnable 0 0xFF 1 0) (bursting (.status 0) s0)).status.records[0].again = true :=
  ⟨by simp, by decide +kernel, ⟨⟨.status 0, 0, [(4096, 1), (4097, 2)]⟩, by decide +kernel⟩, by decide +kernel⟩

theorem witness_ChangedRecordsAreMarked : marking (settle s0 (inState 0 .down s0)) 0 ≠ marking s0 0 := by decide +kernel

/-- The first multiple of a width, and the bits behind the fields so far, are such functions. -/
theorem witness_ChangedRecordsAreMarked_layout : (∀ n w, alignUp n w = (n + (w - 1)) / w * w) ∧ nextFree [] = 0
    ∧ ∀ l f, nextFree (l ++ [f]) = alignUp (nextFree l) f.width + f.width := ⟨fun _ _ => rfl, nextFree_nil, nextFree_snoc⟩

/-- The masters-effective record at reset, and fields of 8, 32 and 16 bits one after another: 8 to 31 and 64 to 79 are used. -/
theorem test_record_words :
    recordWords s0 4096 32 = [(5168, 0x0020000000000000), (5169, 0x0303030303030300), (5170, 0), (5171, 0), (5172, 0), (5173, 0),
      (5174, 0), (5175, 0)]
    ∧ packFields [f8 1, f32 2, f16 3] = 1 + 2 * 2 ^ 32 + 3 * 2 ^ 64 := by decide +kernel

theorem witness_SelectabilityAndEffectiveLatency : inService s0 0 = false ∧ inService (inState 0 .fading s0) 0 = true
    ∧ inService (inState 4 .up s0) 4 = true := by decide

theorem witness_SampleUpdatesTheLatencyEstimate : 4294967295 ≤ 4294967295 ∧ s0.paths[0].sup.estimateCount = 0
    ∧ LatencyKind.oneWay ≠ s0.paths[0].sup.estimateKind
    ∧ fivePaths.paths[0].sup.estimateCount ≠ 0 ∧ LatencyKind.halfRtt = fivePaths.paths[0].sup.estimateKind := by decide +kernel

theorem witness_LinkFramesReadBackAsSent :
    (∃ h : FrameHeader, h.path = (4 : PathId).val ∧ h.stream < 16 ∧ h.length = (List.replicate 48 (7 : Byte)).length
      ∧ h.length ≤ 48 ∧ (∀ n, h.kind.fixedLength = some n → h.length = n)
      ∧ h.sent ≤ 4294967295 * 1000000000 + 999999999)
    ∧ (∃ h : FrameHeader, h.path = (0 : PathId).val ∧ h.stream < 16 ∧ h.length = ([1, 2, 3, 4] : List Byte).length
      ∧ h.length ≤ 48 ∧ (∀ n, h.kind.fixedLength = some n → h.length = n)
      ∧ h.sent ≤ 4294967295 * 1000000000 + 999999999) :=
  ⟨⟨⟨.data, 4, .lead, .locked, 15, 48, 0, 4294967295999999999⟩, rfl, by decide, rfl, by decide, by simp [FrameKind.fixedLength],
      by decide⟩,
    ⟨⟨.query, 0, .follow, .free, 0, 4, 1, 0⟩, rfl, by decide, rfl, by decide, by simp [FrameKind.fixedLength], by decide⟩⟩

/-- A QUERY frame of path 2 without a frame check, with the bytes of its header given. -/
def queryBytes (b0 length nanoseconds : Nat) : List Byte :=
  [BitVec.ofNat 8 b0, 0, BitVec.ofNat 8 length, 0] ++ leBytes 4 9 ++ leBytes 4 1 ++ leBytes 4 nanoseconds ++ [9, 0, 0, 0]

/-- R161: the good frame, then one for each condition: ERRORED, the kind, the path, the length of its kind, 49 bytes, the nanoseconds,
the byte count, the frame check. -/
theorem witness_LinkFramesReadBackAsSent_bad :
    judgeFrame 2 false false (queryBytes 37 4 999999999) = some (⟨.query, 2, .lead, .free, 0, 4, 9, 1999999999⟩, [9, 0, 0, 0])
    ∧ judgeFrame 2 false true (queryBytes 37 4 999999999) = none ∧ judgeFrame 2 false false (queryBytes 39 4 0) = none
    ∧ judgeFrame 1 false false (queryBytes 37 4 0) = none ∧ judgeFrame 2 false false (queryBytes 38 4 0) = none
    ∧ judgeFrame 2 false false (queryBytes 32 49 0 ++ List.replicate 45 0) = none
    ∧ judgeFrame 2 false false (queryBytes 37 4 1000000000) = none
    ∧ judgeFrame 2 false false (queryBytes 37 4 0 ++ [0, 0, 0, 0]) = none
    ∧ judgeFrame 2 true false (queryBytes 37 4 0 ++ [0, 0, 0, 0]) = none
    ∧ (byteAt (queryBytes 37 4 0) 0 % 16 = 5 ∧ byteAt (queryBytes 37 4 0) 0 / 16 % 8 = 2 ∧ byteAt (queryBytes 37 4 0) 2 = 4) := by
  decide +kernel

theorem witness_IdentitySelectorAndAlarmWords : SetupReady s0 0 ∧ field 0x100 8 8 ≠ 0 ∧ field 1 8 8 = 0 ∧ field 3 0 2 ≠ 0
    ∧ field 4 0 2 = 0 := ⟨ready, by decide⟩

theorem witness_SpanMasterAndExtentWords :
    SetupReady s0 0
    ∧ (field 0x1000000000000000 0 28 ≤ setupBase s0
      ∧ setupBase s0 + 2048 ≤ field 0x1000000000000000 0 28 + field 0x1000000000000000 32 29
      ∧ field 0x1000000000000000 0 28 + field 0x1000000000000000 32 29 ≤ 268435456
      ∧ ∀ e : Fin 15, s0.mem.windows[e].enabled = true → field 0x1000000000000000 0 28 ≤ s0.mem.windows[e].base
        ∧ s0.mem.windows[e].base + s0.mem.windows[e].length
          ≤ field 0x1000000000000000 0 28 + field 0x1000000000000000 32 29)
    ∧ ¬ setupBase s0 + 2048 ≤ field 0x7FF00000000 0 28 + field 0x7FF00000000 32 29
    ∧ (4 : Word).extractLsb' 0 2 = 0 ∧ (∃ j : Master, j ≠ 1 ∧ s0.mem.masters[j] = 0)
    ∧ ¬ ((1 : Word).extractLsb' 0 2 = 0 ∨ ∃ j : Master, j ≠ 0 ∧ s0.mem.masters[j] = 0)
    ∧ (s0.mem.windows[(3 : Fin 15)].enabled = false ∧ field 0x1000000000000000 0 28 + field 0x1000000000000000 32 29 ≤ 268435456)
    ∧ 268435456 < field 0x1000000000000001 0 28 + field 0x1000000000000001 32 29 := by
  refine ⟨ready, by decide +kernel⟩

/-- A window in force, as the word of its extent. -/
theorem witness_SpanMasterAndExtentWords_enabled : SetupReady status 0 ∧ status.mem.windows[(0 : Fin 15)].enabled = true
    ∧ field 0x47400001000 0 28 = status.mem.windows[(0 : Fin 15)].base
    ∧ field 0x47400001000 32 29 = status.mem.windows[(0 : Fin 15)].length
    ∧ field 0x47500001000 32 29 ≠ status.mem.windows[(0 : Fin 15)].length := by
  unfold SetupReady
  decide +kernel

/-- Entry 3 with an extent that fits an INBOUND ring of 16 slots, disabled. -/
def extent : State := onWindow 3 (fun w => { w with base := 8192, length := 128 }) inbound

theorem witness_WindowEnableWord : SetupReady extent 0
    ∧ (0x80000006 : Word).getLsbD 31 = true ∧ 6 ≤ field 0x80000006 0 3
    ∧ (0x80000000 : Word).getLsbD 31 = true ∧ field 0x80000004 0 3 = WindowKind.inbound.code
    ∧ extent.mem.windows[(3 : Fin 15)].enabled = false
    ∧ mayEnable extent ⟨8192, 128, .inbound, 2, 0, 0, true⟩ = false
    ∧ mayEnable extent ⟨8192, 128, .inbound, 3, 0, 0, true⟩ = true
    ∧ extent.mem.windows[(0 : Fin 15)].enabled = true ∧ extent.mem.windows[(0 : Fin 15)].kind = .inbound
    ∧ extent.mem.windows[(0 : Fin 15)].number = 2 ∧ WindowKind.inbound.isRing = true
    ∧ extent.mem.windows[(0 : Fin 15)].number ≠ 1 ∧ extent.mem.windows[(0 : Fin 15)].kind ≠ .plain := by
  unfold SetupReady
  decide +kernel

/-- A STATUS window that may be enabled. -/
theorem witness_WindowEnableWord_status : field 0x80000001 0 3 = WindowKind.status.code
    ∧ mayEnable (onWindow 3 (fun w => { w with base := 8192, length := 1140 }) inbound) ⟨8192, 1140, .status, 0, 0, 0, true⟩ = true := by
  decide +kernel

theorem witness_WindowDisableWord : SetupReady inbound 0 ∧ (6 : Word).getLsbD 31 = false ∧ 6 ≤ field 6 0 3
    ∧ field 0x24 0 3 = WindowKind.inbound.code ∧ inbound.mem.windows[(1 : Fin 15)].enabled = false
    ∧ inbound.mem.windows[(0 : Fin 15)].enabled = true
    ∧ windowInUse inbound inbound.mem.windows[(0 : Fin 15)] = true
    ∧ windowInUse status status.mem.windows[(0 : Fin 15)] = false ∧ status.cmd.busy = none := by
  unfold SetupReady
  decide +kernel

/-- A window not in use while another command waits, and a STATUS window while a SNAPSHOT waits. -/
theorem witness_WindowDisableWord_waits :
    SetupReady (busyWith 17 1 (.records [34] none) status) 0 ∧ SetupReady (busyWith 5 1 (.ringBurst 2) outbound) 0
    ∧ field 1 0 3 = WindowKind.status.code ∧ field 2 0 3 = WindowKind.outbound.code
    ∧ (busyWith 17 1 (.records [34] none) status).mem.windows[(0 : Fin 15)].kind = .status
    ∧ windowInUse (busyWith 17 1 (.records [34] none) status) status.mem.windows[(0 : Fin 15)] = false
    ∧ (busyWith 17 1 (.records [34] none) status).cmd.busy = some ⟨17, 1, .records [34] none⟩
    ∧ outbound.mem.windows[(0 : Fin 15)].kind ≠ .status
    ∧ windowInUse (busyWith 5 1 (.ringBurst 2) outbound) outbound.mem.windows[(0 : Fin 15)] = false := by
  unfold SetupReady
  decide +kernel

/-- In HOLDOVER for one second. -/
def holdover : State := { s0 with time := { s0.time with state := .holdover, holdoverElapsed := 1 } }

theorem witness_TimeSetupWords : SetupReady holdover 0 ∧ 10 ≤ field 0x10000000A 0 32 ∧ field 0x10000000A 0 32 ≤ 100000
    ∧ 1 ≤ field 0x10000000A 32 16
    ∧ (holdover.time.state = .holdover ∧ field 0x10000000A 32 16 ≤ holdover.time.holdoverElapsed)
    ∧ ¬ (s0.time.state = .holdover) ∧ field 0x1000186A0 0 32 = 100000 ∧ field 9 0 32 < 10
    ∧ 100000 < field 0x1000186A1 0 32 ∧ field 10 32 16 = 0 ∧ field 999999999 0 30 ≤ 999999999
    ∧ 1000000000 ≤ field 1000000000 0 30 := by
  unfold SetupReady
  decide +kernel

/-- Path 1 in NARROW mode. -/
def narrow : State := onSetup 1 (fun x => { x with holdMode := .narrow }) s0

theorem witness_PathModeWord : SetupReady s0 0 ∧ SetupReady narrow 0
    ∧ (Role.lead ≠ s0.paths[1].setup.role ∧ (inState 1 .up s0).paths[1].sup.state ≠ .disabled)
    ∧ HoldMode.wide = s0.paths[1].setup.holdMode
    ∧ s0.paths[1].sup.state = .disabled ∧ s0.paths[1].holdLow.run = false
    ∧ narrow.paths[1].setup.holdMode = .narrow ∧ narrow.paths[1].sup.state = .disabled
    ∧ narrow.paths[1].holdLow.run = false ∧ narrow.paths[1].holdHigh.run = false := by
  unfold SetupReady
  decide +kernel

theorem witness_TimerPenaltyAndStatusBytesWords : SetupReady s0 0
    ∧ Tap.ofCode (field 0x0305020001FF 8 8) = some .us10 ∧ Tap.ofCode (field 0x0305020001FF 24 8) = some .us100
    ∧ Tap.ofCode (field 0x0305020001FF 40 8) = some .ms1 ∧ 3 < field 0x400 8 8
    ∧ field 0x00FF00FF00000000 32 16 ≤ 255 ∧ field 0x00FF00FF00000000 48 16 ≤ 255 ∧ 255 < field 0x0100000000000000 48 16 :=
  ⟨ready, by decide⟩

/-- Line 3 an input with a filter of 2 us whose count is in progress. -/
def counting : State := onLine 3 (fun x => { x with event := .rainAlert, width := 2, count := some 1, outside := true }) s0

theorem witness_StreamFilterAndLineWords : SetupReady s0 0 ∧ field 0x10000 16 16 ≠ 0 ∧ field 0xF 16 16 = 0
    ∧ field 4 1 2 = DivertAction.discard.code ∧ field 6 1 2 = 3
    ∧ LineEvent.ofCode (field 13 0 5) = none ∧ LineEvent.ofCode (field 20 0 5) = none
    ∧ LineEvent.ofCode (field 12 0 5) = some .launchHeld ∧ LineEvent.ofCode (field 16 0 5) = some .ppsIn :=
  ⟨ready, by decide⟩

/-- A count in progress on line 3, under a width of 2 us: words with the same width (code 1), another (code 2) and none (code 0), with
RAIN_ALERT (19) and with the output PATH_UP_0 (7); and a line that has followed its pin. -/
theorem witness_StreamFilterAndLineWords_count : SetupReady counting 0
    ∧ LineEvent.ofCode (field 0x413 0 5) = some .rainAlert ∧ LineEvent.isOutput .rainAlert = false
    ∧ LineEvent.ofCode (field 0x807 0 5) = some (.pathUp 0) ∧ field 0x413 10 2 = 1 ∧ field 0x813 10 2 = 2 ∧ field 0x13 10 2 = 0
    ∧ counting.lines[(3 : LineId)].width = 2 ∧ counting.lines[(3 : LineId)].count = some 1
    ∧ counting.lines[(3 : LineId)].filtered ≠ counting.lines[(3 : LineId)].outside
    ∧ s0.lines[(3 : LineId)].filtered = s0.lines[(3 : LineId)].outside :=
  ⟨ready, by decide +kernel⟩

/-- R174: the same width leaves the count, another restarts it. -/
theorem test_new_width_restarts : (after (.lineWord 0 0xFF 3 0x413) counting).lines[(3 : LineId)].count = some 1
    ∧ (after (.lineWord 0 0xFF 3 0x813) counting).lines[(3 : LineId)].count = some 0 := by decide +kernel

theorem witness_RingControlAndLogReleaseWords : SetupReady s0 0
    ∧ ((0 : Word).extractLsb' 0 16 - inbound.inRings[2].release).toNat
      ≤ (inbound.inRings[2].deposit - inbound.inRings[2].release).toNat
    ∧ (inbound.inRings[2].deposit - inbound.inRings[2].release).toNat
      < ((1 : Word).extractLsb' 0 16 - inbound.inRings[2].release).toNat
    ∧ (0x10000 : Word).getLsbD 16 = true ∧ (0 : Word).getLsbD 16 = false
    ∧ ((onInRing 2 (fun r => { r with state := .stopped }) inbound).inRings[2].state = .stopped
      ∧ inbound.inRings[2].slotCount ≠ none)
    ∧ inbound.inRings[2].state = .active ∧ SetupReady inbound 0
    ∧ ((0 : Word).extractLsb' 0 16 - s0.log.releaseCount).toNat ≤ (s0.log.entryCount - s0.log.releaseCount).toNat
    ∧ (s0.log.entryCount - s0.log.releaseCount).toNat < ((1 : Word).extractLsb' 0 16 - s0.log.releaseCount).toNat := by
  unfold SetupReady
  decide +kernel

theorem witness_SetupWritesRefusedOrTrapped : s0.mem.line = [] ∧ s0.mem.spanBase ≤ setupBase s0
    ∧ setupBase s0 + 2048 ≤ s0.mem.spanBase + s0.mem.spanLength ∧ s0.mem.masters[(7 : Master)] ≠ 0
    ∧ s0.mem.masters[(0 : Master)] = 0 ∧ (0x7F : ByteEnables) ≠ 0xFF
    ∧ (busyWith 16 1 .logEntries s0).cmd.busy ≠ none ∧ (3 : Nat) < 2048 ∧ (145 : Nat) ≤ 2047 := by decide +kernel

theorem witness_WindowWritesAreChecked : s0.mem.line = [] ∧ inSpan s0 2048 = false
    ∧ inSpan inbound 4095 = true ∧ inSetupRegion inbound 4095 = false ∧ windowAt inbound 4095 = none
    ∧ windowAt inbound 4223 = some 0
    ∧ ((0 : BitVec 2).toNat < inbound.mem.masters[(3 : Master)].toNat ∧ (0 : BitVec 8).getLsbD 3 = false)
    ∧ inbound.mem.masters[(0 : Master)].toNat ≤ (0 : BitVec 2).toNat
    ∧ inbound.mem.windows[(0 : Fin 15)].kind.isOwned = true
    ∧ ((8 : BitVec 8).getLsbD 3 = true ∧ inbound.mem.masters[(3 : Master)] ≠ 0)
    ∧ WindowKind.plain.isOwned = false := by decide +kernel

theorem witness_ReadsPassOrWaitForTheBurst : s0.mem.line = [] ∧ s0.mem.burst = none
    ∧ (∃ b, (bursting (.delivery 2) s0).mem.burst = some b ∧ ∃ w ∈ b.words, w.1 = (4097 : Addr).toNat)
    ∧ ({ s0 with mem := { s0.mem with line := [readOf 0 4097] } } : State).mem.line ≠ [] := by
  refine ⟨rfl, rfl, ⟨_, rfl, (4097, 2), by decide, rfl⟩, by decide⟩

theorem witness_FaultReportsBecomeEntriesOrAreLost : windowOf s0 .faultLog 0 = none
    ∧ ({ s0 with log := { s0.log with state := .failed } } : State).log.state = .failed
    ∧ 4 ≤ (List.replicate 4 (⟨0, 0, 0, false⟩ : FaultEntry)).length
    ∧ (∃ e, windowOf faultLog .faultLog 0 = some e
      ∧ ((2 : BitVec 16) - 0).toNat = faultLog.mem.windows[e].length / 2)
    ∧ faultLog.log.state = .ready ∧ faultLog.log.resetting = false ∧ windowOf faultLog .faultLog 0 = some 0
    ∧ faultLog.log.outstanding.length < 4
    ∧ (faultLog.log.entryCount - faultLog.log.releaseCount).toNat ≠ faultLog.mem.windows[(0 : Fin 15)].length / 2 := by
  decide +kernel

/-! ### Outbound slots -/

/-- A header word of a NORMAL, FASTEST record of 20 bytes. -/
def header : Word := 0x10001401

/-- Ring 1 HALTED. -/
def halted : State := onOutRing 1 (fun r => { r with state := .halted }) outbound

/-- Slot 3 of ring 1 CAPTURED. -/
def captured : State := onSlot 1 3 (fun x => { x with captured := true }) outbound

/-- A write by master 0 to word 24 or 25 of the window, slot 3. -/
theorem outbound_ready (s : State) (h : s.mem = outbound.mem) (o : Nat) (a : Addr) (ha : a.toNat = 4096 + o) (ho : o < 128) :
    OutboundReady s 0 a 1 o := by
  have w : s.mem.windows[(0 : Fin 15)] = ⟨4096, 128, .outbound, 1, 0, 0, true⟩ := by rw [h]; rfl
  have f : windowAt s a.toNat = some 0 := by
    rw [windowAt, List.finRange_succ, List.find?_cons_of_pos]
    rw [w]
    simp only [Window.contains, ha, Bool.and_eq_true, decide_eq_true_eq]
    exact ⟨trivial, by omega, by omega⟩
  refine ⟨by rw [h]; rfl, ?_, ?_, 0, f, by rw [w], by rw [w], ?_, by rw [w]; exact ha⟩
  · have b : s.mem.spanBase = 0 ∧ s.mem.spanLength = 65536 := by rw [h]; exact ⟨rfl, rfl⟩
    simp only [inSpan, b, Bool.and_eq_true, decide_eq_true_eq]
    omega
  · have b : setupBase s = 0 := by rw [setupBase, h]; rfl
    simp only [inSetupRegion, b, Config.setupWords, Bool.and_eq_false_iff, decide_eq_false_iff_not]
    omega
  · rw [w, mayWrite, h]
    decide

theorem witness_HeaderWritesRefused : OutboundReady halted 0 4120 1 (8 * 3) ∧ halted.outRings[(1 : RingId)].state = .halted
    ∧ OutboundReady captured 0 4120 1 (8 * 3) ∧ captured.outRings[(1 : RingId)].state = .capturing ∧ (0x7F : ByteEnables) ≠ 0xFF
    ∧ (0 : Word).getLsbD 0 = false ∧ header.getLsbD 0 = true
    ∧ (∃ x, slotAt captured 1 3 = some x ∧ x.captured = true) ∧ OutboundReady outbound 0 4096 1 (8 * 0) :=
  ⟨outbound_ready _ rfl _ _ rfl (by decide), by decide +kernel, outbound_ready _ rfl _ _ rfl (by decide), by decide +kernel,
    by decide, by decide, by decide, ⟨_, rfl, rfl⟩, outbound_ready _ rfl _ _ rfl (by decide)⟩

/-- The class NORMAL full. -/
def full : State := { outbound with sel := { outbound.sel with holdNormal := 16 } }

theorem witness_HeaderWritesCaptureOrDrawARefusal : OutboundReady outbound 0 4120 1 (8 * 3)
    ∧ outbound.outRings[(1 : RingId)].state = .capturing ∧ header.getLsbD 0 = true
    ∧ (∃ x, slotAt outbound 1 3 = some x ∧ x.captured = false ∧ x.refusal = none)
    ∧ (0 : StreamId).val = field header 16 4 ∧ LaunchMode.fastest = LaunchMode.ofCode (field header 20 2)
    ∧ (1 ≤ field header 8 8 ∧ field header 8 8 ≤ 48 ∧ field header 28 2 = 1 ∧ outbound.sel.holdNormal < 16)
    ∧ field 0x1 8 8 = 0 ∧ field 0x3101 8 8 = 49 ∧ field 0x5200101 24 3 = 5 ∧ 1 < field 0x20000101 28 2
    ∧ OutboundReady full 0 4120 1 (8 * 3) ∧ 16 ≤ full.sel.holdNormal :=
  ⟨outbound_ready _ rfl _ _ rfl (by decide), by decide +kernel, by decide, ⟨_, rfl, rfl, rfl⟩, by decide, by decide,
    by decide +kernel, by decide, by decide, by decide, by decide, outbound_ready _ rfl _ _ rfl (by decide), by decide⟩

theorem witness_StagingWritesReplaceEnabledBytes : OutboundReady halted 0 4127 1 (8 * 3 + ((6 : Fin 7).val + 1))
    ∧ OutboundReady outbound 0 4097 1 (8 * 0 + ((0 : Fin 7).val + 1)) :=
  ⟨outbound_ready _ rfl _ _ rfl (by decide), outbound_ready _ rfl _ _ rfl (by decide)⟩

/-! ### Commands -/

theorem witness_CommandsOutOfRangeOrUnknown : CommandReady s0 0 ∧ 4 < argIndex 5 ∧ 3 < argIndex 4 ∧ 15 < argIndex 16
    ∧ ((0 : Byte).toNat = 0 ∧ 17 < (18 : Byte).toNat) := ⟨command, by decide⟩

theorem witness_PathEnableMovesToDown : 4 < argIndex 5 ∧ CommandReady s0 0 ∧ argIndex 4 = (4 : PathId).val ∧ s0.paths[4].sup.state = .disabled
    ∧ CommandReady (inState 0 .up s0) 0 ∧ argIndex 0 = (0 : PathId).val ∧ (inState 0 .up s0).paths[0].sup.state ≠ .disabled :=
  ⟨by decide, command, by decide, by decide +kernel, command_of rfl rfl, by decide, by decide +kernel⟩

/-- Path 1 in service with an answer outstanding. -/
def awaiting : State := onPort 1 (fun q => { q with awaiting := [⟨.data, some ⟨1, 3⟩, 0, 0⟩] }) (inState 1 .up s0)

theorem witness_PathDisableLeavesServiceAndWaits : CommandReady awaiting 0 ∧ argIndex 1 = (1 : PathId).val
    ∧ awaiting.paths[(1 : PathId)].port.awaiting ≠ [] ∧ CommandReady (inState 1 .up s0) 0
    ∧ (inState 1 .up s0).paths[(1 : PathId)].port.awaiting = [] ∧ s0.paths[(1 : PathId)].sup.state = .disabled :=
  ⟨command_of rfl rfl, by decide, by decide +kernel, command_of rfl rfl, by decide +kernel, by decide +kernel⟩

/-- A DUAL record with copies, in no queue. -/
def carrying (copies : List Copy) : State := { s0 with sel := { s0.sel with held := [record .urgent .dual copies] } }

/-- Its copy on path 1 in one state and its copy on path 2 in another. -/
def twoCopies (a b : CopyState) : List Copy := [⟨1, a, none⟩, ⟨2, b, none⟩]

theorem witness_PathDisableLeavesServiceAndWaits_resteer :
    recordNamed (carrying (twoCopies .queued .sent)) ⟨1, 3⟩ = some (record .urgent .dual (twoCopies .queued .sent))
    ∧ (∃ c ∈ (twoCopies .queued .sent).filter (fun c => decide (c.path ≠ 1)), c.state = .sent)
    ∧ recordNamed (carrying (twoCopies .queued .accepted)) ⟨1, 3⟩ = some (record .urgent .dual (twoCopies .queued .accepted))
    ∧ (∃ c ∈ (twoCopies .queued .accepted).filter (fun c => decide (c.path ≠ 1)), c.state = .accepted)
    ∧ (∀ c ∈ (twoCopies .queued .accepted).filter (fun c => decide (c.path ≠ 1)), c.state = .accepted ∨ c.state = .failed)
    ∧ recordNamed (carrying (twoCopies .queued .failed)) ⟨1, 3⟩ = some (record .urgent .dual (twoCopies .queued .failed))
    ∧ (∀ c ∈ (twoCopies .queued .failed).filter (fun c => decide (c.path ≠ 1)), c.state = .failed)
    ∧ (record .urgent .dual []).ageLimit = some 1 ∧ (record .urgent .dual []).capture.time + 1 * 1000 = 1005
    ∧ (∃ earlier : RecordName → Bool, ∀ n, earlier n = true ↔ ∃ z,
      recordNamed (carrying (twoCopies .queued .failed)) n = some z ∧ z.order < (record .urgent .dual []).order) :=
  ⟨by decide +kernel, by decide, by decide +kernel, by decide, by decide, by decide +kernel, by decide, rfl, rfl,
    fun _ => false, fun _ => by simp [record]⟩

theorem witness_PathResetForgetsHistory : 4 < argIndex 5 ∧ CommandReady s0 0 ∧ argIndex 0 = (0 : PathId).val
    ∧ s0.paths[(0 : PathId)].sup.state = .disabled ∧ CommandReady (inState 0 .down s0) 0
    ∧ (inState 0 .down s0).paths[(0 : PathId)].sup.state ≠ .disabled :=
  ⟨by decide, command, by decide, by decide +kernel, command_of rfl rfl, by decide +kernel⟩

/-- Ring 2 with two records queued, none in its burst; and with one in its burst. -/
def queued : State := enqueue ⟨.delivery 2, 0, [(4096, 1)]⟩ (enqueue ⟨.delivery 2, 0, [(4096, 1)]⟩ inbound)

theorem witness_InboundRingCommands :
    CommandReady (onInRing 2 (fun r => { r with state := .stopped }) inbound) 0 ∧ argIndex 2 = (2 : RingId).val
    ∧ (onInRing 2 (fun r => { r with state := .stopped }) inbound).inRings[(2 : RingId)].state = .stopped
    ∧ inbound.inRings[(2 : RingId)].slotCount ≠ none
    ∧ CommandReady s0 0 ∧ s0.inRings[(3 : RingId)].slotCount = none ∧ s0.inRings[(3 : RingId)].state ≠ .active
    ∧ CommandReady queued 0 ∧ queued.inRings[(2 : RingId)].state = .active
    ∧ (queued.mem.queue.filter (fun e => e.source == .delivery 2)).length = 2 ∧ queued.mem.burst = none
    ∧ CommandReady (bursting (.delivery 2) queued) 0
    ∧ (∃ b, (bursting (.delivery 2) queued).mem.burst = some b ∧ b.source = .delivery 2) := by
  refine ⟨?_, by decide, by decide +kernel, by decide +kernel, command, by decide +kernel, by decide +kernel, ?_,
    by decide +kernel, by decide +kernel, rfl, ?_, _, rfl, rfl⟩ <;>
  · unfold CommandReady SetupReady
    decide +kernel

/-- Ring 1 HALTED with three outcomes, of which two find a place. -/
def haltedOutcomes : State :=
  { onOutRing 1 (fun r => { r with state := .halted, outcomes := [entry false, entry true, entry true] }) outcome with
    mem := { outcome.mem with queue := List.replicate 14 ⟨.fault, 0, []⟩ } }

theorem witness_OutboundCommands : CommandReady outbound 0 ∧ argIndex 1 = (1 : RingId).val ∧ flushable outbound 1 = []
    ∧ CommandReady (held .fastest outbound) 0 ∧ flushable (held .fastest outbound) 1 ≠ [] ∧ argIndex 15 = (15 : StreamId).val
    ∧ outbound.outRings[(1 : RingId)].state = .capturing ∧ CommandReady halted 0 ∧ halted.outRings[(1 : RingId)].state = .halted
    ∧ windowOf halted .outcome 1 = none ∧ CommandReady haltedOutcomes 0
    ∧ haltedOutcomes.outRings[(1 : RingId)].state = .halted ∧ windowOf haltedOutcomes .outcome 1 ≠ none := by
  unfold CommandReady SetupReady
  decide +kernel

/-- The halt over, and nothing but ring 1's outcomes offered: two places for three outcomes. -/
def resumed : State := onOutRing 1 (fun r => { r with state := .capturing }) haltedOutcomes

theorem witness_OutboundCommands_alone : resumed.outRings[(1 : RingId)].state = .capturing ∧ windowOf resumed .outcome 1 = some 1
    ∧ (∀ f ∈ resumed.log.outstanding, f.submitted = true) ∧ windowOf resumed .status 0 = none
    ∧ (∀ m : RingId, m ≠ 1 → resumed.outRings[m].outcomes = [])
    ∧ 2 = min resumed.outRings[(1 : RingId)].outcomes.length (16 - (resumed.mem.queue.filter (fun x => !x.isDeposit)).length) := by
  decide +kernel

/-- The same with no place free. -/
def crammed : State := { resumed with mem := { resumed.mem with queue := List.replicate 16 ⟨.fault, 0, []⟩ } }

/-- A ring without outcomes is not ready; one with outcomes finds no place, or places. -/
theorem witness_OutboundCommands_ready : (¬ ∃ q, OutcomeReady outcome 1 q) ∧ (∃ q, OutcomeReady resumed 1 q)
    ∧ 16 ≤ (crammed.mem.queue.filter (fun x => !x.isDeposit)).length
    ∧ (resumed.mem.queue.filter (fun x => !x.isDeposit)).length < 16 := by
  have h : outcome.outRings[(1 : RingId)].outcomes = [] := by decide +kernel
  refine ⟨?_, ⟨0, by decide +kernel, by decide +kernel, entry false, [entry true, entry true], by decide +kernel, rfl⟩,
    by decide +kernel, by decide +kernel⟩
  rintro ⟨q, _, _, o, rest, e, _⟩
  rw [h] at e
  cases e

/-- Ring 1's outcome dated from event 5. -/
def late (s : State) : State := { onOutRing 1 (fun r => { r with since := some 5 }) s with events := 5 }

/-- A fault entry dated before it. -/
def faultFirst : State := late (Machine.report .fault .access 3 9 (opened 2 ⟨12288, 4, .faultLog, 0, 0, 0, true⟩ resumed))
  |> fun s => { s with log := { s.log with since := some 2 } }

/-- Status records that became eligible before it. -/
def statusFirst : State := late (opened 2 ⟨16384, 1140, .status, 0, 0, 0, true⟩ resumed)
  |> fun s => { s with status := { s.status with
    since := some 2, records := s.status.records.map fun k => { k with since := some 2 } } }

/-- A fault entry dated first, the ring's own outcome alone, a status record dated first. -/
theorem witness_OutboundCommands_offers :
    (FaultOffer (dateOffers faultFirst) 2 ∧ (∀ m j, OutcomeOffer (dateOffers faultFirst) m j → 2 ≤ j)
      ∧ (∀ r j, StatusOffer (dateOffers faultFirst) r j → 2 ≤ j))
    ∧ (OutcomeOffer (dateOffers resumed) 1 0 ∧ (∀ j, ¬ FaultOffer (dateOffers resumed) j)
      ∧ (∀ r j, ¬ StatusOffer (dateOffers resumed) r j))
    ∧ (StatusOffer (dateOffers statusFirst) 0 2 ∧ (∀ j, ¬ FaultOffer (dateOffers statusFirst) j)
      ∧ (∀ m j, OutcomeOffer (dateOffers statusFirst) m j → 2 < j)) := by
  simp only [faultOffer_iff, outcomeOffer_iff, statusOffer_iff]
  have a : outcomeCandidate (dateOffers faultFirst) = some 1 ∧ (dateOffers faultFirst).outRings[(1 : RingId)].since.getD 0 = 5
      ∧ statusCandidate (dateOffers faultFirst) = none := by decide +kernel
  have b : (offerSince (dateOffers resumed)).1 = none ∧ statusCandidate (dateOffers resumed) = none := by decide +kernel
  have c : outcomeCandidate (dateOffers statusFirst) = some 1 ∧ (dateOffers statusFirst).outRings[(1 : RingId)].since.getD 0 = 5
      ∧ (offerSince (dateOffers statusFirst)).1 = none := by decide +kernel
  refine ⟨⟨by decide +kernel, ?_, ?_⟩, ⟨by decide +kernel, ?_, ?_⟩, ⟨by decide +kernel, ?_, ?_⟩⟩
  · rintro m j ⟨h, k⟩
    rw [a.1] at h
    cases h
    rw [a.2.1] at k
    omega
  · rintro r j ⟨h, _⟩
    rw [a.2.2] at h
    cases h
  · intro j h
    rw [b.1] at h
    cases h
  · rintro r j ⟨h, _⟩
    rw [b.2] at h
    cases h
  · intro j h
    rw [c.2.2] at h
    cases h
  · rintro m j ⟨h, k⟩
    rw [c.1] at h
    cases h
    rw [c.2.1] at k
    omega

/-- OUT_FLUSH with two places free: the fault entry formed earlier takes the first, the oldest outcome the second (R94, R114). So
does another ring's outcome that was requested earlier (R110). -/
theorem test_flush_gives_places_in_order :
    ((resubmit 1 faultFirst).mem.queue.map (·.source)).drop 14 = [.fault, .outcome 1 (entry false)]
    ∧ ((resubmit 1 (onOutRing 0 (fun r => { r with outcomes := [entry true] })
        (opened 3 ⟨20480, 64, .outcome, 0, 0, 0, true⟩ resumed))).mem.queue.map (·.source)).drop 14
      = [.outcome 0 (entry true), .outcome 1 (entry false)]
    ∧ (resubmit 1 resumed).outRings[(1 : RingId)].outcomes = [entry true]
    ∧ (after (.outFlush 0 0xFF 1 1) haltedOutcomes).mem.queue = (resubmit 1 resumed).mem.queue := by decide +kernel

theorem witness_StreamResetClearsTheTracker : CommandReady s0 0 ∧ argIndex 15 = (15 : StreamId).val ∧ 15 < argIndex 16 :=
  ⟨command, by decide⟩

theorem witness_TimeSetAndRainCommands : CommandReady { s0 with time := { s0.time with value := 1 } } 0
    ∧ ({ s0 with time := { s0.time with value := 1 } } : State).time.setValue < 1 ∧ CommandReady s0 0
    ∧ s0.time.value ≤ s0.time.setValue ∧ Settled s0 ∧ s0.sel.rainInput = false :=
  ⟨command_of rfl rfl, by decide, command, by decide, witness_EveryStepKeepsASettledState.1, rfl⟩

/-- A set value one second ahead. -/
def setAhead : State := { s0 with time := { s0.time with setValue := 1000000000 } }

/-- A TIME_SET that passes a second produces PPS_OUT, and its completion carries the new value (entry 40); one below it does not. -/
theorem witness_TimeSetAndRainCommands_pps : CommandReady setAhead 0 ∧ setAhead.time.value ≤ setAhead.time.setValue
    ∧ setAhead.time.value / 1000000000 < setAhead.time.setValue / 1000000000
    ∧ (after (.timeSet 0 0xFF 1 0) setAhead).pulses.ppsOut = some 0
    ∧ (after (.timeSet 0 0xFF 1 0) setAhead).cmd.last = some ⟨1, 10, .done, ⟨1000000000, .free⟩⟩
    ∧ (after (.timeSet 0 0xFF 1 0) { s0 with time := { s0.time with setValue := 999999999 } }).pulses.ppsOut = none := by
  refine ⟨command_of rfl rfl, by decide, by decide, ?_⟩
  decide +kernel

/-- Line 3 carries RAIN_ALERT, alone, at width 0, in a settled state. -/
def rainLine : State := onLine 3 (fun x => { x with event := .rainAlert }) s0

theorem witness_TimeSetAndRainCommands_input : Settled rainLine ∧ CommandReady rainLine 0
    ∧ rainLine.lines[(3 : LineId)].event = .rainAlert ∧ rainLine.lines[(3 : LineId)].width = 0
    ∧ (∀ k : LineId, k ≠ 3 → rainLine.lines[k].event ≠ .rainAlert)
    ∧ (rainLine.sel.rainFlag || rainLine.sel.rainInput) ≠ true
    ∧ (true ≠ rainLine.lines[(3 : LineId)].activeLow) := by
  refine ⟨by unfold Settled lineFollows; decide +kernel, command_of rfl rfl, ?_⟩
  decide +kernel

theorem witness_TimeAdjustStartsASlew : CommandReady s0 0 := command

theorem witness_QueryPathPlacesAQuery : CommandReady s0 0 ∧ 4 < argIndex 5 ∧ argIndex 4 = (4 : PathId).val
    ∧ CommandReady (inState 4 .up s0) 0 ∧ (inState 4 .up s0).paths[(4 : PathId)].sup.state = .up
    ∧ (s0.paths[(4 : PathId)].sup.state ≠ .up ∧ s0.paths[(4 : PathId)].sup.state ≠ .fading) :=
  ⟨command, by decide, by decide, command_of rfl rfl, by decide +kernel, by decide +kernel⟩

theorem witness_AlarmLogAndSnapshotCommands : CommandReady s0 0 ∧ ((0 : BitVec 48).extractLsb' 0 32).toNat < 1048576
    ∧ Nat.testBit 0 18 = false ∧ ((0xFFFFF : BitVec 48).extractLsb' 0 32).toNat < 1048576 ∧ Nat.testBit 0xFFFFF 18 = true
    ∧ Settled s0 ∧ 1048576 ≤ ((0x100000 : BitVec 48).extractLsb' 0 32).toNat ∧ Nat.testBit 0x100000 18 = false
    ∧ 1048576 ≤ ((0x140000 : BitVec 48).extractLsb' 0 32).toNat ∧ Nat.testBit 0x140000 18 = true
    ∧ s0.log.outstanding = [] ∧ CommandReady { s0 with log := { s0.log with outstanding := [⟨0, 0, 0, false⟩] } } 0
    ∧ windowOf s0 .status 0 = none ∧ CommandReady status 0 ∧ windowOf status .status 0 ≠ none
    ∧ status.mem.burst = none ∧ CommandReady (bursting (.status 34) status) 0
    ∧ windowOf (bursting (.status 34) status) .status 0 ≠ none
    ∧ ∃ b, (bursting (.status 34) status).mem.burst = some b ∧ b.source = .status 34 := by
  refine ⟨command, by decide, by decide, by decide, by decide, witness_EveryStepKeepsASettledState.1, by decide, by decide,
    by decide, by decide, rfl, command_of rfl rfl, by decide +kernel, ?_, by decide +kernel, rfl, ?_, by decide +kernel,
    _, rfl, rfl⟩ <;>
  · unfold CommandReady SetupReady
    decide +kernel

/-! ### Units -/

theorem witness_AnswersFinishTheOldestEntry : s0.paths[(1 : PathId)].port.awaiting = []
    ∧ awaiting.paths[(1 : PathId)].port.awaiting = [⟨.data, some ⟨1, 3⟩, 0, 0⟩]
    ∧ (⟨.data, some ⟨1, 3⟩, 0, 0⟩ : AwaitEntry).copy = some ⟨1, 3⟩ ∧ (⟨.query, none, 0, 0⟩ : AwaitEntry).copy = none
    ∧ (∃ b, (busyWith 2 0 (.answers 1) awaiting).cmd.busy = some b ∧ b.waits = .answers 1) := by
  refine ⟨by decide +kernel, by decide +kernel, rfl, rfl, _, rfl, rfl⟩

/-- The copies after an answer on path 1. -/
def answeredCopies (ok : Bool) (l : List Copy) : List Copy :=
  l.map (fun c => if c.path = 1 ∧ c.state = .sent then { c with state := if ok then .accepted else .failed } else c)

theorem witness_AnswersFinishTheOldestEntry_copies :
    recordNamed (carrying (twoCopies .sent .queued)) ⟨1, 3⟩ = some (record .urgent .dual (twoCopies .sent .queued))
    ∧ (∃ c ∈ answeredCopies true (twoCopies .sent .queued), c.state = .queued)
    ∧ (∀ c ∈ answeredCopies true (twoCopies .sent .failed), c.state = .accepted ∨ c.state = .failed)
    ∧ (∃ c ∈ answeredCopies true (twoCopies .sent .failed), c.state = .accepted)
    ∧ answeredCopies false (twoCopies .sent .failed) ≠ []
    ∧ (∀ c ∈ answeredCopies false (twoCopies .sent .failed), c.state = .failed) := by decide +kernel

/-- An entry at 999 ticks and one at 1,000. -/
theorem witness_AnswersFinishTheOldestEntry_ticks :
    awaiting.paths[(1 : PathId)].port.awaiting ≠ []
    ∧ (onPort 1 (fun q => { q with awaiting := [⟨.query, none, 0, 999⟩] }) s0).paths[(1 : PathId)].port.awaiting
      = [⟨.query, none, 0, 999⟩]
    ∧ (onPort 1 (fun q => { q with awaiting := [⟨.query, none, 0, 1000⟩] }) s0).paths[(1 : PathId)].port.awaiting
      = ⟨.query, none, 0, 1000⟩ :: [] ∧ s0.paths[(1 : PathId)].port.awaiting = [] := by decide +kernel

/-- Path 0 with a contract and a target, its step-up run at 7. -/
def contracted (x : PathState) (r : Role) (k : Nat) (target : Option Nat) : State :=
  onSetup 0 (fun u => { u with role := r }) (onSup 0 (fun u => { u with
    state := x, contract := k, target := target, stepRun := 7, farMask := some 63, ownMask := 15 }) s0)

theorem witness_ReportsAreStoredAndActedOn : 6 < (7 : Byte).toNat ∧ 2 < (3 : Byte).toNat ∧ (6 : Byte).toNat ≤ 6
    ∧ s0.paths[(0 : PathId)].sup.state = .disabled ∧ (0 : PathId) ≠ 4 ∧ (inState 0 .up s0).paths[(0 : PathId)].sup.state = .up
    ∧ (7 : Byte) < 8 ∧ (inState 4 .up s0).paths[(4 : PathId)].sup.state = .up ∧ 8 ≤ (8 : Byte).toNat
    ∧ (contracted .training .lead 0 (some 6)).paths[(0 : PathId)].sup.state = .training
    ∧ (contracted .training .lead 0 (some 6)).paths[(0 : PathId)].sup.target = some (6 : Byte).toNat
    ∧ (contracted .training .lead 0 (some 6)).paths[(0 : PathId)].sup.target ≠ some (5 : Byte).toNat
    ∧ (contracted .retune .follow 5 (some 5)).paths[(0 : PathId)].sup.state = .retune
    ∧ (contracted .retune .follow 5 (some 5)).paths[(0 : PathId)].setup.holdMode = .wide
    ∧ (onSetup 0 (fun x => { x with holdMode := .narrow }) (contracted .retune .follow 5 (some 4))).paths[(0 : PathId)].setup.holdMode
      = .narrow ∧ (4 : Byte).toNat < 5 := by decide +kernel

/-- At contract profile 5: a step-down at margin 41, the band from 42 on, a step-up supported from 60 on. -/
theorem witness_ReportsAreStoredAndActedOn_service :
    (contracted .up .follow 5 none).paths[(0 : PathId)].setup.role = .follow
    ∧ (contracted .fading .lead 5 none).paths[(0 : PathId)].setup.role = .lead
    ∧ (contracted .fading .lead 5 none).paths[(0 : PathId)].sup.contract = 5
    ∧ (41 : Byte).toNat < Config.holdThreshold 5 ∧ ¬ (42 : Byte).toNat < Config.holdThreshold 5
    ∧ Config.holdThreshold 6 + 8 = 60 ∧ (contracted .up .lead 5 none).paths[(0 : PathId)].sup.stepRun = 7
    ∧ ¬ ((contracted .up .lead 5 none).paths[(0 : PathId)].setup.holdMode = .narrow)
    ∧ (contracted .up .lead 5 none).paths[(0 : PathId)].sup.farMask = some 63 := by decide +kernel

theorem witness_HighestOf : HighestOf 15 4 ∧ HighestOf 0 0 ∧ HighestOf 63 6 ∧ HighestOf 1 1 := by
  refine ⟨.inr (by decide), .inl (by decide), .inr (by decide), .inr (by decide)⟩

/-- Stream 5 TRACKING at 99, path 0 in DOWN. -/
def tracking : State :=
  onStream 5 (fun x => { x with enabled := true, tracking := true, highest := 99 }) (inState 0 .down s0)

/-- A good control frame of path 0. -/
def controlFrame (f : ControlFrame) : List Byte :=
  frameBytes true ⟨f.kind, 0, .lead, .free, 0, f.payload.length, f.number.zeroExtend 32, 7⟩ f.payload

theorem witness_FramesFromTheUnit : takenUnitMessage 0 0 0 0 = false ∧ takenUnitMessage 3 15 0 0 = false
    ∧ (List.replicate 15 (0 : Byte)).length < 16 ∧ 68 < (List.replicate 69 (0 : Byte)).length
    ∧ 16 ≤ (dataFrame 100).length ∧ (dataFrame 100).length ≤ 68 ∧ s0.paths[(0 : PathId)].sup.state = .disabled
    ∧ tracking.paths[(0 : PathId)].sup.state = .down
    ∧ judgeFrame 0 tracking.paths[(0 : PathId)].setup.check (decide ((1 : Byte) ≠ 0)) (dataFrame 100) = none
    ∧ judgeFrame 0 tracking.paths[(0 : PathId)].setup.check (decide ((0 : Byte) ≠ 0)) (dataFrame 100)
      = some (⟨.data, 0, .lead, .free, 5, 3, 100, 7⟩, [1, 2, 3])
    ∧ judgeFrame 0 true (decide ((0 : Byte) ≠ 0)) (controlFrame (.query 9)) = some (⟨.query, 0, .lead, .free, 0, 4, 9, 7⟩, [9, 0, 0, 0])
    ∧ (inState 0 .held s0).paths[(0 : PathId)].sup.state = .held := by decide +kernel

/-- The inbound estimate: absent and present, samples at and above 32 bits. -/
theorem witness_FramesFromTheUnit_inbound : tracking.paths[(0 : PathId)].sup.inbound = none
    ∧ (onSup 0 (fun u => { u with inbound := some 5 }) tracking).paths[(0 : PathId)].sup.inbound = some 5
    ∧ Quality.free ≠ .locked ∧ (4294967302 - 7 ≤ 4294967295 ∧ ¬ (4294967303 - 7 ≤ 4294967295) ∧ (6 : Nat) < 7) := by
  decide +kernel

/-- Path 0 with two probes out. -/
def probing (x : PathState) : State :=
  onSup 0 (fun u => { u with state := x, contract := 5, probeList := [⟨7, ⟨5, .free⟩⟩, ⟨8, ⟨9, .locked⟩⟩] }) s0

/-- The payload of an ECHO of PROBE 8. -/
def echoed : List Byte := ControlFrame.payload (.echo 8 ⟨9, .locked⟩ ⟨20, .locked⟩)

theorem witness_FramesFromTheUnit_echo : (probing .training).paths[(0 : PathId)].sup.probeList
      = [(⟨7, ⟨5, .free⟩⟩ : ProbeEntry)] ++ ⟨8, ⟨9, .locked⟩⟩ :: []
    ∧ echoed.getD 0 0 = 8 ∧ bytesAt echoed 4 4 * 1000000000 + bytesAt echoed 8 4 = 9 ∧ bytesAt echoed 8 4 ≤ 999999999
    ∧ bytesAt echoed 16 4 ≤ 999999999 ∧ 999999999 < bytesAt (List.replicate 20 (255 : Byte)) 8 4
    ∧ (∀ e ∈ s0.paths[(0 : PathId)].sup.probeList, e.number ≠ 8)
    ∧ ((probing .training).paths[(0 : PathId)].sup.contract ≠ 0 ∧ (probing .training).paths[(0 : PathId)].sup.target = none) := by
  decide +kernel

/-- Path 0 in UP with two probes out, one lost outcome about to fall out of its history, and nothing marked in the ranking record. -/
def nearFading : State :=
  onMark 5 (fun m => { m with changed := false }) (settle s0 (onPath 0 (fun y => { y with
    sup := { y.sup with
      state := .up, contract := 5, margin := 200, probeList := [⟨7, ⟨5, .free⟩⟩, ⟨8, ⟨9, .locked⟩⟩]
      probeHistory := [true, false, true, true, true, true, true, true], estimate := 11, estimateKind := .oneWay, estimateCount := 1 }
    setup := { y.setup with fadePenalty := 20000 } }) s0))

/-- R53, R54: one ECHO takes path 0 to FADING (the probe before it is lost) and back to UP. The ranking record shows what it showed
before, and is marked. -/
theorem test_fade_and_back_marks_the_ranking :
    nearFading.status.records[(5 : RecordId)].changed = false
    ∧ fadeHolds (loseOldest 0 nearFading).paths[(0 : PathId)] = true
    ∧ (after (.carry 0 0 (controlFrame (.echo 8 ⟨9, .locked⟩ ⟨20, .locked⟩))) nearFading).paths[(0 : PathId)].sup.state = .up
    ∧ marking (after (.carry 0 0 (controlFrame (.echo 8 ⟨9, .locked⟩ ⟨20, .locked⟩))) nearFading) 5 = marking nearFading 5
    ∧ (after (.carry 0 0 (controlFrame (.echo 8 ⟨9, .locked⟩ ⟨20, .locked⟩))) nearFading).status.records[(5 : RecordId)].changed = true := by
  decide +kernel

/-- The four commands that may judge fade conditions, with how often: a frame with an empty probe list and with two probes out. -/
theorem witness_HeadAndFallbackChangesAreAnnounced_judged :
    (∃ x y z, Instr.report 0 44 5 0 = .report 0 x y z) ∧ (∃ x l, Instr.carry 0 1 (dataFrame 100) = .carry 0 x l)
    ∧ (∃ w x y z, Instr.unknownUnitMessage 0 0 0 0 0 = .unknownUnitMessage 0 w x y z)
    ∧ 1 = 1 + s0.paths[(0 : PathId)].sup.probeList.length
    ∧ 3 = 1 + nearFading.paths[(0 : PathId)].sup.probeList.length :=
  ⟨⟨44, 5, 0, rfl⟩, ⟨1, dataFrame 100, rfl⟩, ⟨0, 0, 0, 0, rfl⟩, by decide +kernel, by decide +kernel⟩

/-- OFFERs at a LEAD and at a FOLLOW, GRANTs at a FOLLOW, the role clash. -/
theorem witness_FramesFromTheUnit_contracts :
    (contracted .down .lead 0 none).paths[(0 : PathId)].setup.role = .lead
    ∧ (contracted .down .lead 0 none).paths[(0 : PathId)].sup.roleClash = false ∧ Role.follow ≠ .lead
    ∧ ((15 : ProfileMask) &&& ((ControlFrame.payload (.offer 1 3 0)).getD 1 0).extractLsb' 0 6) = 3
    ∧ ((15 : ProfileMask) &&& ((ControlFrame.payload (.offer 1 32 0)).getD 1 0).extractLsb' 0 6) = 0
    ∧ (onSup 0 (fun u => { u with roleClash := true }) s0).paths[(0 : PathId)].sup.roleClash = true
    ∧ byteAt (ControlFrame.payload (.grant 1 0 6 false)) 2 = 6 ∧ 6 < byteAt [1, 0, 7, 0] 2
    ∧ (contracted .up .follow 5 none).paths[(0 : PathId)].sup.pending = false
    ∧ (contracted .up .follow 5 none).paths[(0 : PathId)].sup.ownMask.getLsbD (4 - 1) = true
    ∧ (contracted .up .follow 5 none).paths[(0 : PathId)].sup.ownMask.getLsbD (5 - 1) = false
    ∧ ((ControlFrame.payload (.grant 1 0 0 true)).getD 3 0).getLsbD 0 = true
    ∧ (sendOffer 0 (contracted .up .follow 5 none)).paths[(0 : PathId)].sup.lastOffered ≠ none
    ∧ (sendOffer 0 (contracted .up .follow 5 none)).paths[(0 : PathId)].sup.lastOfferSent = 1 := by decide +kernel

/-- A delivery record of stream 0. -/
def delivery : Delivery := ⟨0, some 0, 1, ⟨5, .free⟩, [1], ⟨false, false, false, false, false, true⟩⟩

/-- Stream 0 mapped to ring 2. -/
def mapped : State := onStream 0 (fun x => { x with ring := 2 }) inbound

theorem witness_DeliveredRecordsAreQueuedOrDropped : s0.inRings[(0 : RingId)].state ≠ .active
    ∧ mapped.inRings[(2 : RingId)].state = .active ∧ mapped.inRings[(2 : RingId)].slotCount = some 16
    ∧ windowOf mapped .inbound 2 = some 0
    ∧ (mapped.inRings[(2 : RingId)].assigned - mapped.inRings[(2 : RingId)].release).toNat ≠ 16 ∧ depositCount mapped < 16
    ∧ (((16 : BitVec 16) - 0).toNat = 16
      ∧ 16 ≤ depositCount { mapped with mem := { mapped.mem with queue := List.replicate 16 ⟨.delivery 1, 0, []⟩ } }) := by
  decide +kernel

/-- The inbound slot of a longest record, at the last lap a byte holds. -/
theorem witness_DeliveredRecordsAreQueuedOrDropped_slot : (255 : Nat) < 256
    ∧ ({ delivery with payload := List.replicate 48 7 } : Delivery).payload.length ≤ 48 ∧ delivery.payload.length ≤ 48
    ∧ deliveryWords 4096 255 delivery = [(4097, stampWord ⟨5, .free⟩), (4098, 1), (4099, 0), (4100, 0), (4101, 0), (4102, 0), (4103, 0),
      (4096, 0x00000001200001FF)] := by decide +kernel

/-- Filter 7 with an action, on stream 0 and type 1. -/
def filtering (a : DivertAction) (target : RingId) : State := onFilter 7 (fun _ => ⟨true, 0, 15, 1, 255, a, target, 0⟩) mapped

theorem witness_DeliveredRecordsAreQueuedOrDropped_filters :
    mapped.streams[delivery.stream].ring = 2 ∧ (∀ f : Fin 8, mapped.filters[f].enabled = false)
    ∧ (filtering .copy 3).filters[(7 : Fin 8)].enabled = true
    ∧ (∀ k : Fin 4, (filtering .copy 3).filters[(7 : Fin 8)].streamMask.getLsbD k.val = true →
      delivery.stream.val.testBit k.val = (filtering .copy 3).filters[(7 : Fin 8)].streamValue.getLsbD k.val)
    ∧ (∀ k : Fin 8, (filtering .copy 3).filters[(7 : Fin 8)].typeMask.getLsbD k.val = true →
      (delivery.payload.headD 0).getLsbD k.val = (filtering .copy 3).filters[(7 : Fin 8)].typeValue.getLsbD k.val)
    ∧ (∀ j : Fin 8, j < 7 → (filtering .copy 3).filters[j].enabled = false)
    ∧ (filtering .copy 3).filters[(7 : Fin 8)].action = .copy ∧ (filtering .copy 3).filters[(7 : Fin 8)].target ≠ 2
    ∧ (filtering .divert 2).filters[(7 : Fin 8)].target = 2 ∧ (filtering .divert 2).filters[(7 : Fin 8)].action = .divert
    ∧ (filtering .discard 2).filters[(7 : Fin 8)].action = .discard := by decide +kernel

/-- Stream 5 TRACKING at 99 with a gap at 95 and 97 accepted from path 1. -/
def arrived : State := onStream 5 (fun x => { x with
  enabled := true, tracking := true, highest := 99, gaps := [⟨95, ⟨5, .free⟩, ⟨7, .free⟩⟩], recent := [⟨97, 1, ⟨5, .free⟩⟩] }) s0

theorem witness_DeliveredRecordsAreQueuedOrDropped_arrivals :
    s0.streams[(5 : StreamId)].enabled = false ∧ arrived.streams[(5 : StreamId)].enabled = true
    ∧ arrived.streams[(5 : StreamId)].tracking = true ∧ tracking.streams[(5 : StreamId)].tracking = true
    ∧ (onStream 5 (fun x => { x with enabled := true }) s0).streams[(5 : StreamId)].tracking = false
    ∧ ((100 : BitVec 32) - 99).toInt = 1 ∧ ((101 : BitVec 32) - 99).toInt = 2 ∧ ((4195 : BitVec 32) - 99).toInt = 4096
    ∧ ((4196 : BitVec 32) - 99).toInt = 4097 ∧ ((99 : BitVec 32) - 99).toInt = 0 ∧ ((99 : BitVec 32) - 4195).toInt = -4096
    ∧ ((99 : BitVec 32) - 4196).toInt = -4097
    ∧ (∃ g ∈ arrived.streams[(5 : StreamId)].gaps, g.sequence = 95) ∧ (∀ g ∈ arrived.streams[(5 : StreamId)].gaps, g.sequence ≠ 97)
    ∧ (∀ e ∈ arrived.streams[(5 : StreamId)].recent, e.sequence ≠ 96)
    ∧ arrived.streams[(5 : StreamId)].recent = [] ++ (⟨97, 1, ⟨5, .free⟩⟩ : Recent) :: []
    ∧ (5 : StreamId).val = (⟨.data, 0, .lead, .free, 5, 3, 97, 7⟩ : FrameHeader).stream := by decide +kernel

theorem witness_MessagesToTheUnit :
    s0.paths[(0 : PathId)].port.link = .free ∧ s0.paths[(0 : PathId)].port.pendingTune = none
    ∧ s0.paths[(0 : PathId)].port.awaiting.length < 4 ∧ (inState 0 .down s0).paths[(0 : PathId)].sup.state ≠ .held
    ∧ (inState 0 .down s0).paths[(0 : PathId)].sup.state ≠ .disabled
    ∧ s0.paths[(0 : PathId)].setup.priority = .above
    ∧ (insertFrame 0 (.query 1) s0).paths[(0 : PathId)].port.insert = [⟨.query 1, 0⟩] ∧ (ControlFrame.query 1).kind ≠ .probe
    ∧ (insertFrame 0 (.probe 1) s0).paths[(0 : PathId)].port.insert = [⟨.probe 1, 0⟩]
    ∧ s0.paths[(0 : PathId)].sup.probeList.length < 4
    ∧ (onSup 0 (fun u => { u with probeList := List.replicate 4 ⟨1, ⟨0, .free⟩⟩ }) s0).paths[(0 : PathId)].sup.probeList.length = 4
    ∧ (inState 0 .up s0).paths[(0 : PathId)].sup.state = .up ∧ s0.paths[(0 : PathId)].port.insert = []
    ∧ (joinTransmit ⟨1, 3⟩ (held .fastest s0) 0).paths[(0 : PathId)].port.transmit = [⟨1, 3⟩]
    ∧ recordNamed (held .fastest s0) ⟨1, 3⟩ = some (record .urgent .fastest [])
    ∧ (onPort 0 (fun q => { q with link := .sending [1] }) s0).paths[(0 : PathId)].port.link = .sending [1]
    ∧ (orderTune 0 6 s0).paths[(0 : PathId)].port.pendingTune = some 6
    ∧ (onPort 0 (fun q => { q with link := .tuning [2] }) s0).paths[(0 : PathId)].port.link = .tuning [2] := by decide +kernel

/-- Priority BELOW, a frame passed `n` times and a DATA frame that may go. -/
def below (n : Nat) : State :=
  onSetup 0 (fun x => { x with priority := .below }) (onPort 0 (fun q => { q with insert := [⟨.query 1, n⟩] })
    (joinTransmit ⟨1, 3⟩ (held .fastest (inState 0 .up s0)) 0))

theorem witness_MessagesToTheUnit_below : (below 4).paths[(0 : PathId)].port.insert = [⟨.query 1, 4⟩]
    ∧ (below 3).paths[(0 : PathId)].setup.priority = .below ∧ (below 3).paths[(0 : PathId)].port.insert = [⟨.query 1, 3⟩]
    ∧ (below 3).paths[(0 : PathId)].port.transmit = [⟨1, 3⟩] ∧ (below 3).paths[(0 : PathId)].sup.state = .up
    ∧ (below 3).paths[(0 : PathId)].port.link = .free ∧ recordNamed (below 3) ⟨1, 3⟩ = some (record .urgent .fastest []) := by
  decide +kernel

/-- Where a SEND starts nothing: each condition by itself, and a copy on a path that is not in service. -/
theorem witness_MessagesToTheUnit_idle :
    (onPort 0 (fun q => { q with link := .tuning [2] }) (below 3)).paths[(0 : PathId)].port.link ≠ .free
    ∧ (orderTune 0 6 (below 3)).paths[(0 : PathId)].port.pendingTune ≠ none
    ∧ 4 ≤ (onPort 0 (fun q => { q with awaiting := List.replicate 4 ⟨.query, none, 0, 0⟩ }) (below 3)).paths[(0 : PathId)].port.awaiting.length
    ∧ (inState 0 .held (below 3)).paths[(0 : PathId)].sup.state = .held
    ∧ (inState 0 .disabled (below 3)).paths[(0 : PathId)].sup.state = .disabled
    ∧ s0.paths[(0 : PathId)].port.insert = [] ∧ s0.paths[(0 : PathId)].port.transmit = []
    ∧ (joinTransmit ⟨1, 3⟩ (held .fastest (inState 0 .down s0)) 0).paths[(0 : PathId)].sup.state = .down
    ∧ (onPort 0 (fun q => { q with link := .sending [1] }) (orderTune 0 6 s0)).paths[(0 : PathId)].port.link ≠ .free
    ∧ s0.paths[(0 : PathId)].port.pendingTune = none := by decide +kernel

/-- The bytes of a field, the parts of a time value, the bits of the reversed polynomial and a register that takes them in turn: such
functions are; and a control frame of every kind, and a header at the limits of its fields. -/
theorem witness_MessagesToTheUnit_bytes :
    (∃ le : BitVec 32 → List Byte, ∀ v, le v = [v.extractLsb' 0 8, v.extractLsb' 8 8, v.extractLsb' 16 8, v.extractLsb' 24 8])
    ∧ (∃ f : Time → BitVec 32, ∀ v, f v = BitVec.ofNat 32 (v / 1000000000))
    ∧ (∀ i : Fin 32, (0xEDB88320 : BitVec 32).getLsbD i.val = (0x04C11DB7 : BitVec 32).getLsbD (31 - i.val))
    ∧ (∀ (bytes : List Byte) (poly : BitVec 32), ∃ reg : Nat → BitVec 32, reg 0 = 0xFFFFFFFF ∧ ∀ k, k < 8 * bytes.length →
      reg (k + 1) = (reg k >>> 1) ^^^ (if (reg k).getLsbD 0 ≠ (bytes.getD (k / 8) 0).getLsbD (k % 8) then poly else 0))
    ∧ (∃ sent arrival : Stamp, ControlFrame.echo 8 ⟨9, .locked⟩ ⟨20, .locked⟩ = .echo 8 sent arrival)
    ∧ (∃ h : FrameHeader, h.path < 8 ∧ h.stream < 16 ∧ h.path = 7 ∧ h.stream = 15) := by
  refine ⟨⟨_, fun _ => rfl⟩, ⟨_, fun _ => rfl⟩, by decide, fun bytes poly => ⟨fun k => k.rec 0xFFFFFFFF fun k r =>
    (r >>> 1) ^^^ (if r.getLsbD 0 ≠ (bytes.getD (k / 8) 0).getLsbD (k % 8) then poly else 0), rfl, fun _ _ => rfl⟩,
    ⟨_, _, rfl⟩, ⟨⟨.data, 7, .lead, .free, 15, 0, 0, 0⟩, by decide⟩⟩

/-! ### The block's own events -/

/-- A gap of stream 5 that expires at 7. -/
def gap : State := onStream 5 (fun x => { x with gaps := [⟨8001, ⟨5, .free⟩, ⟨7, .free⟩⟩] }) s0

theorem witness_DeadlinesExpireGapsAndAgeRecords :
    gap.streams[(5 : StreamId)].gaps = [⟨8001, ⟨5, .free⟩, ⟨7, .free⟩⟩] ∧ gap.streams[(5 : StreamId)].markers = false
    ∧ (onStream 5 (fun x => { x with markers := true }) gap).streams[(5 : StreamId)].markers = true
    ∧ queueNames gap .urgent = [] ∧ queueNames gap .normal = [] ∧ ¬ 7 < gap.time.value ∧ 7 + 1 ≤ 4294967295 * 1000000000 + 999999999
    ∧ 7 < ({ gap with time := { gap.time with value := 8 } } : State).time.value
    ∧ (∀ j : StreamId, j ≠ 5 → gap.streams[j].gaps = []) := by decide +kernel

/-- R76: an expiry brought about at the last nanosecond of a second moves the seconds; one a nanosecond before does not. -/
theorem test_expiry_at_a_second :
    (after (.gapExpiry 5) (onStream 5 (fun x => { x with gaps := [⟨8001, ⟨5, .free⟩, ⟨999999999, .free⟩⟩] }) s0)).pulses.ppsOut = some 0
    ∧ (after (.gapExpiry 5) (onStream 5 (fun x => { x with gaps := [⟨8001, ⟨5, .free⟩, ⟨999999998, .free⟩⟩] }) s0)).pulses.ppsOut = none := by
  decide +kernel

/-- A record whose deadline is ahead: at 1,005 ns with the time value at 0. -/
theorem witness_DeadlinesExpireGapsAndAgeRecords_ageing :
    queueNames (held .fastest s0) .urgent = [⟨1, 3⟩] ∧ queueNames (held .fastest s0) .normal = []
    ∧ recordNamed (held .fastest s0) ⟨1, 3⟩ = some (record .urgent .fastest [])
    ∧ (record .urgent .fastest []).ageLimit = some 1 ∧ (record .urgent .fastest []).capture.time + 1 * 1000 = 1005
    ∧ ¬ 1005 < (held .fastest s0).time.value ∧ (∀ j : StreamId, (held .fastest s0).streams[j].gaps = []) := by decide +kernel

/-- Paths 0 and 1 listed as selectable, the head's transmit queue full in `crowded`. -/
def listed (m : LaunchMode) : State :=
  held m { s0 with ranking := { s0.ranking with list := [⟨0, true, some 1⟩, ⟨1, true, some 2⟩, ⟨4, true, some 3⟩] } }

def crowded : State := onPort 0 (fun q => { q with transmit := List.replicate 8 ⟨0, 0⟩ }) (listed .fastest)

/-- P4 alone listed as selectable. -/
def groundOnly : State := { s0 with ranking := { s0.ranking with list := [⟨4, true, some 3⟩, ⟨0, false, none⟩] } }

/-- An URGENT record and a NORMAL one, slots 3 and 4 of ring 1, with path 0 selectable. -/
def behind (u : LaunchRecord) : State :=
  { s0 with
    ranking := { s0.ranking with list := [⟨0, true, some 1⟩, ⟨4, false, none⟩] }
    sel := { s0.sel with
      held := [u, { record .normal .fastest [] with name := ⟨1, 4⟩ }], urgent := ⟨[], [⟨1, 3⟩]⟩, normal := ⟨[], [⟨1, 4⟩]⟩ } }

theorem witness_SelectionPlacesTheFrontRecord : s0.sel.launchHold = false
    ∧ Fronts (listed .fastest) .urgent (record .urgent .fastest []) ∧ (record .urgent .fastest []).cls = .urgent
    ∧ fastList (listed .fastest) = [0, 1] ∧ Room (listed .fastest) 0
    ∧ fastList crowded = 0 :: ([] ++ 1 :: []) ∧ ¬ Room crowded 0 ∧ crowded.sel.spill = true ∧ Room crowded 1
    ∧ (listed .fastest).sel.rainFlag = false ∧ (listed .fastest).sel.rainInput = false
    ∧ dualList (listed .dual) = [0, 1] ∧ (dualList (listed .dual)).filter (fun x => decide (Room (listed .dual) x)) = [0, 1]
    ∧ ({ listed .fastest with sel := { (listed .fastest).sel with rainFlag := true } } : State).sel.rainFlag = true
    ∧ Listed (listed .pinned) 1 ∧ Room (listed .pinned) 1 ∧ (record .urgent .pinned []).pinned = some 1
    ∧ ¬ Listed (held .pinned s0) 1 ∧ Listed (listed .ground) 4 ∧ Room (listed .ground) 4 := by
  refine ⟨rfl, ⟨⟨1, 3⟩, [], by decide +kernel, by decide +kernel⟩, rfl, ?_⟩
  decide +kernel

/-- P4 alone selectable: one candidate; a NORMAL record behind an URGENT one that must wait, and behind none. -/
theorem witness_SelectionPlacesTheFrontRecord_waits : dualList groundOnly = [4] ∧ fastList groundOnly = [4]
    ∧ Fronts (behind (record .urgent .ground [])) .normal { record .normal .fastest [] with name := ⟨1, 4⟩ }
    ∧ (∀ y, Fronts (behind (record .urgent .ground [])) .urgent y → MustWait (behind (record .urgent .ground [])) y)
    ∧ (∀ y, ¬ Fronts s0 .urgent y) ∧ (∀ y, ¬ Fronts s0 .normal y)
    ∧ ({ s0 with sel := { s0.sel with launchHold := true } } : State).sel.launchHold = true := by
  refine ⟨by decide +kernel, by decide +kernel, ⟨⟨1, 4⟩, [], by decide +kernel, by decide +kernel⟩, ?_, ?_, ?_, rfl⟩
  · rintro y ⟨x, m, h, k⟩
    rw [show queueNames (behind (record .urgent .ground [])) .urgent = [⟨1, 3⟩] from by decide +kernel] at h
    cases h
    rw [show recordNamed (behind (record .urgent .ground [])) ⟨1, 3⟩ = some (record .urgent .ground []) from by decide +kernel] at k
    cases k
    show ¬ (Listed _ 4 ∧ Room _ 4)
    decide +kernel
  · rintro y ⟨x, m, h, _⟩
    cases h
  · rintro y ⟨x, m, h, _⟩
    cases h

theorem witness_RequestedOutcomesJoinTheirList : (record .urgent .fastest []).cls = .urgent
    ∧ (requestOutcome (record .urgent .fastest []) .stale (held .fastest s0)).sel.held = [] := by decide +kernel

/-- A NORMAL record, and every result. -/
theorem witness_RequestedOutcomesJoinTheirList_classes : (record .normal .fastest []).cls = .normal
    ∧ (requestOutcome (record .normal .fastest []) .flushed (held .fastest s0)).sel.urgent.back = [⟨1, 3⟩] := by decide +kernel

/-- Path 1 with every channel running. -/
def running (x : PathState) (s : State) : State :=
  onPath 1 (fun y => { y with
    probe := y.probe.start, silence := y.silence.start, holdLow := y.holdLow.start, holdHigh := y.holdHigh.start
    sup := { y.sup with state := x } }) s

/-- Path 1 with `n` frames in its insert queue. -/
def inserted (n : Nat) : State := onPort 1 (fun q => { q with insert := List.replicate n ⟨.query 1, 0⟩ }) s0

theorem witness_ChannelEventsMoveThePath :
    (running .down s0).paths[(1 : PathId)].probe.run = true ∧ (running .down s0).paths[(1 : PathId)].sup.state = .down
    ∧ (running .down s0).paths[(1 : PathId)].sup.lastOffered = none
    ∧ (runProbe 4 (inState 4 .down s0)).paths[(4 : PathId)].probe.run = true
    ∧ (running .up s0).paths[(1 : PathId)].silence.run = true ∧ (running .up s0).paths[(1 : PathId)].sup.state = .up
    ∧ (running .training s0).paths[(1 : PathId)].sup.state = .training
    ∧ (running .held s0).paths[(1 : PathId)].holdLow.run = true
    ∧ (running .held s0).paths[(1 : PathId)].holdLow.loadedCompare = some 3000
    ∧ true = decide ((running .held s0).paths[(1 : PathId)].setup.holdMode = .wide)
    ∧ (3000 : BitVec 16).toNat < 256 * (running .held s0).paths[(1 : PathId)].holdHigh.counter.toNat
      + (running .held s0).paths[(1 : PathId)].holdLow.counter.toNat
    ∧ false = decide ((running .held narrow).paths[(1 : PathId)].setup.holdMode = .wide)
    ∧ (onPath 1 presetHold (running .held narrow)).paths[(1 : PathId)].holdLow.loadedCompare = some 100
    ∧ (100 : BitVec 16).toNat < 0 + (onPath 1 presetHold (running .held narrow)).paths[(1 : PathId)].holdLow.counter.toNat
    ∧ (running .held s0).paths[(1 : PathId)].sup.state = .held ∧ (running .up s0).paths[(1 : PathId)].sup.state ≠ .held
    ∧ (running .up narrow).paths[(1 : PathId)].setup.holdMode = .narrow
    ∧ (running .up narrow).paths[(1 : PathId)].holdHigh.run = true := by decide +kernel

/-- The resends in TRAINING and RETUNE, the PROBE in TRAINING, and the insert queue at 3 and 4 frames. -/
theorem witness_ChannelEventsMoveThePath_resends :
    (running .retune s0).paths[(1 : PathId)].sup.state = .retune ∧ (running .training s0).paths[(1 : PathId)].sup.contract = 0
    ∧ (onSup 1 (fun u => { u with contract := 5 }) (running .training s0)).paths[(1 : PathId)].sup.contract ≠ 0
    ∧ (running .training s0).paths[(1 : PathId)].sup.target = none
    ∧ (running .training s0).paths[(1 : PathId)].setup.role = .follow
    ∧ (onSetup 1 (fun x => { x with role := .lead }) (running .training s0)).paths[(1 : PathId)].setup.role = .lead
    ∧ HighestOf 0 0 ∧ s0.paths[(1 : PathId)].sup.lastGranted = 0 ∧ HighestOf 15 4
    ∧ (inserted 3).paths[(1 : PathId)].port.insert.length < 4 ∧ 4 ≤ (inserted 4).paths[(1 : PathId)].port.insert.length :=
  ⟨by decide +kernel, by decide +kernel, by decide +kernel, by decide +kernel, by decide +kernel, by decide +kernel,
    witness_HighestOf.2.1, by decide +kernel, witness_HighestOf.1, by decide +kernel, by decide +kernel⟩

/-- At a tick of every tap: counters at 0 and above it, the hold counter next to its compare and not, the guard. -/
theorem witness_ChannelEventsMoveThePath_ticks :
    (running .up s0).time.reference % 1000000 = 0 ∧ (running .up s0).paths[(1 : PathId)].probe.counter ≠ 0
    ∧ (onPath 1 (fun y => { y with probe := { y.probe with counter := 0 } }) (running .up s0)).paths[(1 : PathId)].probe.counter = 0
    ∧ (onPath 1 (fun y => { y with silence := { y.silence with counter := 0 } }) (running .up s0)).paths[(1 : PathId)].silence.counter = 0
    ∧ (running .up s0).paths[(1 : PathId)].silence.counter ≠ 0 ∧ s0.paths[(1 : PathId)].probe.run = false
    ∧ (running .up s0).paths[(1 : PathId)].setup.holdMode = .wide
    ∧ (running .up s0).paths[(1 : PathId)].holdLow.loadedCompare = some 3000
    ∧ 256 * (running .up s0).paths[(1 : PathId)].holdHigh.counter.toNat + (running .up s0).paths[(1 : PathId)].holdLow.counter.toNat = 5000
    ∧ holdValue (onPath 1 (setHoldValue 3001) (running .up s0)).paths[(1 : PathId)] - 1 = (3000 : BitVec 16).toNat
    ∧ holdValue (onPath 1 (setHoldValue 0) (running .up s0)).paths[(1 : PathId)] = 0
    ∧ (running .up narrow).paths[(1 : PathId)].holdHigh.run = true
    ∧ (onPath 1 (fun y => { y with holdHigh := { y.holdHigh with counter := 0 } }) (running .up narrow)).paths[(1 : PathId)].holdHigh.counter = 0
    ∧ (onPath 1 (fun y => { y with holdHigh := { y.holdHigh with counter := 9 } }) (running .up narrow)).paths[(1 : PathId)].holdHigh.counter ≠ 0 := by
  decide +kernel

theorem witness_PinsFiltersAndPulses : s0.lines[(3 : LineId)].event.isOutput = false ∧ s0.lines[(3 : LineId)].event ≠ .ppsIn
    ∧ s0.lines[(3 : LineId)].width = 0 ∧ counting.lines[(3 : LineId)].width ≠ 0
    ∧ counting.lines[(3 : LineId)].count ≠ none ∧ counting.lines[(3 : LineId)].filtered ≠ true
    ∧ counting.lines[(3 : LineId)].event.isOutput = false
    ∧ (onLine 3 (fun x => { x with width := 2 }) s0).lines[(3 : LineId)].count = none ∧ Settled s0 :=
  ⟨by decide +kernel, by decide +kernel, by decide +kernel, by decide +kernel, by decide +kernel, by decide +kernel,
    by decide +kernel, by decide +kernel, witness_EveryStepKeepsASettledState.1⟩

/-- A PPS_IN line that is active, at either polarity, an active-low one that is not, and a PPS_IN count that ends inactive. -/
theorem witness_PinsFiltersAndPulses_pps :
    (onLine 2 (fun x => { x with event := .ppsIn, filtered := true, outside := true }) s0).lines[(2 : LineId)].filtered
      ≠ (onLine 2 (fun x => { x with event := .ppsIn, filtered := true, outside := true }) s0).lines[(2 : LineId)].activeLow
    ∧ (onLine 2 (fun x => { x with event := .ppsIn, activeLow := true }) s0).lines[(2 : LineId)].filtered
      ≠ (onLine 2 (fun x => { x with event := .ppsIn, activeLow := true }) s0).lines[(2 : LineId)].activeLow
    ∧ (onLine 2 (fun x => { x with event := .ppsIn, activeLow := true, filtered := true, width := 2, count := some 5 }) s0).lines[(2 : LineId)].count
      = some 5 ∧ LineEvent.isOutput .ppsIn = false := by decide +kernel

/-- An open-drain ALARM line, which is not asserted: active high it drives the low level, active low it is released. -/
def drained (low : Bool) : State :=
  onLine 4 (fun x => { x with event := .alarm, openDrain := true, activeLow := low, outside := false }) s0

theorem witness_PinsFiltersAndPulses_drives : Settled (drained false) ∧ drives (drained false) (drained false).lines[(4 : LineId)] = true
    ∧ Settled (drained true) ∧ drives (drained true) (drained true).lines[(4 : LineId)] = false
    ∧ (drained false).lines[(4 : LineId)].count = none := by
  refine ⟨by unfold Settled lineFollows; decide +kernel, by decide +kernel, by unfold Settled lineFollows; decide +kernel, ?_⟩
  decide +kernel

/-- Ticks: a count below its width and at it; a pulse at its first tick and at its second. -/
theorem witness_PinsFiltersAndPulses_ticks : counting.lines[(3 : LineId)].count = some 1
    ∧ 1 < counting.lines[(3 : LineId)].width * 1000
    ∧ (onLine 3 (fun x => { x with count := some 2000 }) counting).lines[(3 : LineId)].width * 1000 ≤ 2000
    ∧ (∀ c k, (c = s0.pulses.critical ∨ c = s0.pulses.pathSwitch ∨ c = s0.pulses.ppsOut) → c = some k → k = 0)
    ∧ (∃ c k, (c = some 1 ∨ c = none ∨ c = none) ∧ c = some k ∧ 1 ≤ k) := by
  refine ⟨by decide +kernel, by decide +kernel, by decide +kernel, ?_, some 1, 1, .inl rfl, rfl, le_refl 1⟩
  rintro c k (rfl | rfl | rfl) h <;> cases h

theorem witness_PulseOffsetFromTheNearestSecond : s0.time.pulseAge = none
    ∧ (∃ a, ({ s0 with time := { s0.time with pulseAge := some 900 } } : State).time.pulseAge = some a ∧ 900 ≤ a)
    ∧ ((-1000 : Int) % 1000000000 = 999999000) := ⟨rfl, ⟨900, rfl, by decide⟩, by decide⟩

/-- PPS_IN on line 2. -/
def pps (q : Quality) (run : Nat) (age : Option Nat) : State :=
  { onLine 2 (fun x => { x with event := .ppsIn }) s0 with
    time := { s0.time with state := q, lockRun := run, pulseAge := age, value := 1000000500 } }

/-- The same behind a filter of 2 us whose count is in progress. -/
def filteredPps (q : Quality) : State := onLine 2 (fun x => { x with width := 2, count := some 2000, outside := true }) (pps q 0 none)

theorem witness_PulsesActByDisciplineState :
    (pps .free 0 none).lines[(2 : LineId)].event = .ppsIn ∧ (pps .free 0 none).lines[(2 : LineId)].width = 0
    ∧ (pps .free 0 none).lines[(2 : LineId)].activeLow = false ∧ (pps .free 0 none).lines[(2 : LineId)].filtered = false
    ∧ pulseOffset (pps .free 0 none).time.value = 500
    ∧ (∃ a, (pps .free 0 (some 899)).time.pulseAge = some a ∧ a < 900)
    ∧ (∃ a, (pps .locked 4 (some 900)).time.pulseAge = some a ∧ 900 ≤ a)
    ∧ (500 : Int).natAbs ≤ (pps .acquire 3 none).time.lockThreshold
    ∧ (pps .free 0 none).time.state = .free ∧ (pps .acquire 2 none).time.lockRun < 3
    ∧ (pps .acquire 3 none).time.lockRun = 3 ∧ (pps .acquire 3 none).time.state = .acquire
    ∧ (pps .locked 4 none).time.state = .locked :=
  ⟨by decide +kernel, by decide +kernel, by decide +kernel, by decide +kernel, by decide +kernel, ⟨899, rfl, by decide⟩,
    ⟨900, rfl, by decide⟩, by decide +kernel, rfl, by decide, rfl, rfl, rfl⟩

/-- Offsets at the threshold and beyond it, ahead and behind, and a filter of 2 us that ends its count. -/
theorem witness_PulsesActByDisciplineState_beyond : (pps .free 0 none).time.lockThreshold = 1000
    ∧ pulseOffset 1000001000 = 1000 ∧ pulseOffset 1000001001 = 1001 ∧ pulseOffset 1999999000 = -1000
    ∧ pulseOffset 1999998999 = -1001 ∧ pulseOffset 1500000000 = -500000000 ∧ pulseOffset 1499999999 = 499999999
    ∧ (filteredPps .locked).lines[(2 : LineId)].event = .ppsIn ∧ (filteredPps .locked).lines[(2 : LineId)].count ≠ none
    ∧ (filteredPps .locked).lines[(2 : LineId)].outside = true ∧ (filteredPps .locked).lines[(2 : LineId)].filtered = false
    ∧ pulseOffset ((filteredPps .locked).time.value - ((filteredPps .locked).lines[(2 : LineId)].width * 1000 : Nat)) = -1500 := by
  decide +kernel

/-- A step that passes a second, and one whose filter ended behind the second it steps from. -/
theorem witness_PulsesActByDisciplineState_step :
    ({ pps .acquire 0 none with time := { (pps .acquire 0 none).time with value := 1999998999 } } : State).time.value / 1000000000
      < (1999998999 + 1001) / 1000000000
    ∧ ¬ ((filteredPps .acquire).time.value / 1000000000 < ((filteredPps .acquire).time.value + 1500) / 1000000000) := by
  decide +kernel

/-- An active-low PPS_IN that is inactive: high, with the active level low. -/
theorem witness_PulsesActByDisciplineState_low :
    (onLine 2 (fun x => { x with activeLow := true, filtered := true, outside := true }) (pps .free 0 none)).lines[(2 : LineId)].filtered
      = (onLine 2 (fun x => { x with activeLow := true, filtered := true, outside := true }) (pps .free 0 none)).lines[(2 : LineId)].activeLow
    ∧ false = !(onLine 2 (fun x => { x with activeLow := true, filtered := true, outside := true }) (pps .free 0 none)).lines[(2 : LineId)].activeLow := by
  decide +kernel

theorem witness_TimeBaseEvents : (pps .locked 4 none).time.state = .locked ∧ (pps .acquire 0 none).time.state = .acquire
    ∧ holdover.time.state = .holdover
    ∧ ({ s0 with time := { s0.time with slew := some ⟨true, 5⟩ } } : State).time.slew = some ⟨true, 5⟩
    ∧ s0.time.value < 4294967295 * 1000000000 + 999999999 ∧ 0 < ((500000 : Int) - s0.time.trim).toNat
    ∧ (s0.time.value / 1000000000 + 1) * 1000000000 ≤ 4294967295 * 1000000000 + 999999999 := by
  refine ⟨rfl, rfl, rfl, rfl, ?_⟩
  decide +kernel

/-- An access that waits to pass, and an entry that waits for its burst. -/
def waitingBoth (run : Nat) : State :=
  { s0 with mem := { s0.mem with passing := [readOf 0 5], queue := [⟨.fault, 0, [(4096, 1)]⟩], runCount := run } }

/-- The greatest value and one below it; a slew that goes on, one that ends in this nanosecond and one held by the trim; seconds of
HOLDOVER and pulse ages about to be reached; an empty queue. -/
theorem witness_TimeBaseEvents_clock :
    s0.time.value ≠ 4294967295 * 1000000000 + 999999999 ∧ s0.time.slew = none
    ∧ ((500000 : Int) - 0).toNat < 1000000 ∧ 0 < ((500000 : Int) - 0).toNat ∧ 500000 ≤ ((500000 : Int) - 0).toNat
    ∧ ((500000 : Int) - 500000).toNat = 0 ∧ min 65535 (0 + 1) < s0.time.holdoverLimit
    ∧ holdover.time.state = .holdover ∧ holdover.time.holdoverMs < 999
    ∧ s0.time.holdoverLimit ≤ min 65535 (299 + 1) ∧ (1498 + 1 < 1500) ∧ 1500 ≤ 1499 + 1
    ∧ s0.pending = [] ∧ (waitingBoth 3).pending = []
    ∧ (s0.time.reference + 1) % 1000 ≠ 0 ∧ (999 + 1) % 1000 = 0 := by
  decide +kernel

/-! ### The M-port -/

/-- What the STATUS writer offers after one event. -/
def offering : State := after .ageing (onMark 0 (fun m => { m with changed := true }) status)

/-- An outcome offered after one event. -/
def outcomeOffered : State := after .ageing (onOutRing 1 (fun r => { r with outcomes := [entry false] }) outcome)

/-- A fault entry offered after one event. -/
def faultOffered : State := after .ageing (Machine.report .fault .access 3 9 faultLog)

/-- Whether an event of the block's own is possible, as the machine asks. -/
def possible (s : State) : Instr → Bool
  | .selection => (nextSelection s).isSome
  | .tuneStart p => (tuneDue s.paths[p].port).isSome
  | .sendStart p => (dueSend s p).isSome
  | .faultEntrySubmit => faultWins s
  | .outcomeSubmit => outcomeWins s
  | .statusSubmit => statusWins s
  | .passingAccessIssue => passingNext s
  | .burstStart => burstNext s
  | _ => false

theorem possible_iff (s : State) (c : Instr) : possible s c = true ↔ Due s c := by
  cases c
  case selection => exact nextSelection_iff s
  case tuneStart p => exact tuneDue_iff s p
  case sendStart p => exact dueSend_iff s p
  case faultEntrySubmit => exact faultWins_due s
  case outcomeSubmit => exact outcomeWins_due s
  case statusSubmit => exact statusWins_due s
  case passingAccessIssue => exact passingNext_iff s
  case burstStart => exact burstNext_iff s
  all_goals exact ⟨fun h => (nomatch h), False.elim⟩

/-- The events of the block's own, first to last. -/
def ownRows : List Instr :=
  [.selection] ++ (List.finRange 5).map .tuneStart ++ (List.finRange 5).map .sendStart
    ++ [.faultEntrySubmit, .outcomeSubmit, .statusSubmit, .passingAccessIssue, .burstStart]

theorem mem_ownRows (s : State) (c : Instr) (h : Due s c) : c ∈ ownRows := by
  cases c
  case tuneStart p => simp [ownRows]
  case sendStart p => simp [ownRows]
  all_goals first | exact h.elim | decide

/-- The first event of the list that is possible is one of the least rank. -/
theorem first_due (s : State) (c : Instr) (h : ownRows.find? (possible s) = some c) :
    Due s c ∧ ∀ d, Due s d → ownRows.idxOf c ≤ ownRows.idxOf d := by
  refine ⟨(possible_iff s c).mp (List.find?_some h), fun d hd => ?_⟩
  obtain ⟨-, before, rest, e, none⟩ := List.find?_eq_some_iff_append.mp h
  have out : d ∉ before := fun m => by
    have := none d m
    simp [(possible_iff s d).mpr hd] at this
  have own : c ∉ before := fun m => by
    have := none c m
    simp [List.find?_some h] at this
  rw [e, List.idxOf_append_of_notMem out, List.idxOf_append_of_notMem own, List.idxOf_cons_self]
  exact Nat.le_add_right _ _

/-- The ranks are those of a list, and each event of the block's own is somewhere the first that is possible; after reset none is. -/
theorem witness_TimeBaseEvents_own :
    (ownRows.idxOf .selection = 0
      ∧ (∀ p : PathId, ownRows.idxOf (.tuneStart p) = 1 + p.val ∧ ownRows.idxOf (.sendStart p) = 6 + p.val)
      ∧ ownRows.idxOf .faultEntrySubmit = 11 ∧ ownRows.idxOf .outcomeSubmit = 12 ∧ ownRows.idxOf .statusSubmit = 13
      ∧ ownRows.idxOf .passingAccessIssue = 14 ∧ ownRows.idxOf .burstStart = 15)
    ∧ (∀ c ∈ [(listed .fastest, Instr.selection), (orderTune 1 6 (orderTune 3 2 s0), .tuneStart 1),
        (inState 2 .down (insertFrame 2 (.query 1) s0), .sendStart 2), (below 3, .sendStart 0), (faultOffered, .faultEntrySubmit),
        (outcomeOffered, .outcomeSubmit), (offering, .statusSubmit), (waitingBoth 3, .passingAccessIssue), (waitingBoth 4, .burstStart)],
      c.1.pending = [] ∧ Due c.1 c.2 ∧ ∀ d, Due c.1 d → ownRows.idxOf c.2 ≤ ownRows.idxOf d)
    ∧ ∀ c, ¬ Due s0 c := by
  refine ⟨by decide, ?_, fun c h => ?_⟩
  · have first : ∀ c ∈ [(listed .fastest, Instr.selection), (orderTune 1 6 (orderTune 3 2 s0), .tuneStart 1),
        (inState 2 .down (insertFrame 2 (.query 1) s0), .sendStart 2), (below 3, .sendStart 0), (faultOffered, .faultEntrySubmit),
        (outcomeOffered, .outcomeSubmit), (offering, .statusSubmit), (waitingBoth 3, .passingAccessIssue), (waitingBoth 4, .burstStart)],
        c.1.pending = [] ∧ ownRows.find? (possible c.1) = some c.2 := by decide +kernel
    exact fun c m => ⟨(first c m).1, first_due c.1 c.2 (first c m).2⟩
  · have none : ownRows.find? (possible s0) = none := by decide +kernel
    exact List.find?_eq_none.mp none c (mem_ownRows s0 c h) ((possible_iff s0 c).mpr h)

/-- A move of the time value that reaches a second, and one that stops before it. -/
theorem test_moves_and_seconds : (moveTime 1000000000 s0).pulses.ppsOut = some 0 ∧ (moveTime 999999999 s0).pulses.ppsOut = none := by
  decide +kernel

/-- No fault entry is offered with none outstanding. -/
theorem no_fault (s : State) (h : s.log.outstanding = []) (k : Nat) : ¬ FaultOffer s k := by
  rintro ⟨⟨f, m, _⟩, _⟩
  rw [h] at m
  cases m

/-- Nor an outcome one, with no outcome listed. -/
theorem no_outcome (s : State) (h : ∀ n : RingId, s.outRings[n].outcomes = []) (n : RingId) (k : Nat) : ¬ OutcomeOffer s n k := by
  rintro ⟨⟨q, ⟨_, _, o, rest, e, _⟩, _⟩, _⟩
  rw [h n] at e
  cases e

/-- Nor a status one, without a window. -/
theorem no_status (s : State) (h : windowOf s .status 0 = none) (r : RecordId) (k : Nat) : ¬ StatusOffer s r k :=
  fun ⟨_, w, _⟩ => w h

theorem witness_SubmissionsJoinTheReportPart :
    (offering.mem.queue.filter (fun e => !e.isDeposit)).length < 16 ∧ StatusOffer offering 0 0
    ∧ (∀ k, ¬ FaultOffer offering k) ∧ (∀ n k, ¬ OutcomeOffer offering n k) ∧ windowOf offering .status 0 = some 0 := by
  refine ⟨by decide +kernel, ⟨by decide +kernel, by decide +kernel, 0, by decide +kernel, ?_, by decide +kernel⟩,
    no_fault _ (by decide +kernel), no_outcome _ (by decide +kernel), by decide +kernel⟩
  intro j b e
  rcases Nat.eq_zero_or_pos b with h | h
  · exact .inr ⟨h.symm, Fin.zero_le j⟩
  · exact .inl h

/-- Ring 1 alone offers one. -/
theorem others_empty : ∀ m : RingId, m ≠ 1 → outcomeOffered.outRings[m].outcomes = [] := by decide +kernel

theorem witness_SubmissionsJoinTheReportPart_outcome : OutcomeOffer outcomeOffered 1 0 ∧ (∀ k, ¬ FaultOffer outcomeOffered k)
    ∧ (∀ r k, ¬ StatusOffer outcomeOffered r k) ∧ windowOf outcomeOffered .outcome 1 = some 1
    ∧ outcomeOffered.outRings[(1 : RingId)].outcomes = [entry false] := by
  refine ⟨⟨⟨0, ⟨by decide +kernel, by decide +kernel, entry false, [], by decide +kernel, rfl⟩, ?_⟩, by decide +kernel⟩,
    no_fault _ (by decide +kernel), no_status _ (by decide +kernel), by decide +kernel, by decide +kernel⟩
  rintro m x ⟨_, _, o, rest, e, h⟩
  rcases Nat.eq_zero_or_pos x with z | z
  · refine .inr ⟨z.symm, ?_⟩
    by_cases q : m = 1
    · exact le_of_eq q.symm
    · rw [others_empty m q] at e
      cases e
  · exact .inl z

theorem witness_SubmissionsJoinTheReportPart_fault : FaultOffer faultOffered 0 ∧ (∀ n k, ¬ OutcomeOffer faultOffered n k)
    ∧ (∀ r k, ¬ StatusOffer faultOffered r k) ∧ windowOf faultOffered .faultLog 0 = some 0
    ∧ (∃ f, faultOffered.log.outstanding = [] ++ f :: [] ∧ f.submitted = false) := by
  refine ⟨⟨by decide +kernel, by decide +kernel⟩, no_outcome _ (by decide +kernel), no_status _ (by decide +kernel),
    by decide +kernel, _, rfl, by decide +kernel⟩

/-- An outcome at the limits of its fields, with each code of its paths. -/
theorem witness_SubmissionsJoinTheReportPart_words : (255 : Nat) < 256 ∧ ({ entry false with slot := 1023 } : OutcomeEntry).slot < 1024
    ∧ (∀ code : Fin 16, ∃ o : OutcomeEntry, o.slot < 1024 ∧ o.paths
      = ([0, 1, 2, 4, 8, 16, 1 + 2, 1 + 4, 1 + 8, 1 + 16, 2 + 4, 2 + 8, 2 + 16, 4 + 8, 4 + 16, 8 + 16].getD code.val 0 : BitVec 5)) :=
  ⟨by decide, by decide, fun _ => ⟨{ entry false with paths := _ }, show (3 : Nat) < 1024 by decide, rfl⟩⟩

/-- Sixteen reports queued: no place is free. -/
theorem witness_SubmissionsJoinTheReportPart_full :
    ¬ (({ s0 with mem := { s0.mem with queue := List.replicate 16 ⟨.fault, 0, []⟩ } } : State).mem.queue.filter
      (fun e => !e.isDeposit)).length < 16 := by decide +kernel

theorem witness_ArbiterChoosesTheNextUse : (∃ b, (bursting .fault s0).mem.burst = some b) ∧ (waitingBoth 3).mem.burst = none
    ∧ (∃ x rest, (waitingBoth 3).mem.passing = x :: rest) ∧ (waitingBoth 3).mem.runCount < 4
    ∧ (∃ e rest, (waitingBoth 4).mem.queue = e :: rest) ∧ 4 ≤ (waitingBoth 4).mem.runCount
    ∧ (waitingBoth 4).mem.passing ≠ [] ∧ (bursting .fault s0).mem.line = [] :=
  ⟨⟨_, rfl⟩, rfl, ⟨_, _, rfl⟩, by decide, ⟨_, _, rfl⟩, by decide, by decide, rfl⟩

/-- Two reads wait behind a burst, and nothing else. -/
def heldReads : State := { bursting .fault s0 with mem := { (bursting .fault s0).mem with line := [readOf 0 4096, readOf 1 5] } }

theorem witness_ArbiterChoosesTheNextUse_release : heldReads.mem.line ≠ [] ∧ (∀ x ∈ heldReads.mem.line, x.write = false)
    ∧ heldReads.mem.burst = some ⟨.fault, 0, [(4096, 1), (4097, 2)]⟩ ∧ (1 : Fin 64).val < [(4096, (1 : Word)), (4097, 2)].length := by
  decide +kernel

/-- The reads are passed to memory in order at the end of the burst, and at its error. -/
theorem test_release : (after .burstEnd heldReads).mem.passing = [readOf 0 4096, readOf 1 5] ∧ (after .burstEnd heldReads).mem.line = []
    ∧ (after (.burstError 1) heldReads).mem.passing = [readOf 0 4096, readOf 1 5] := by decide +kernel

/-- LOG_RESET waits for `n` outstanding entries. -/
def logResetting (n : Nat) : State :=
  busyWith 16 1 .logEntries (bursting .fault { faultLog with
    log := { faultLog.log with resetting := true, outstanding := List.replicate n ⟨4096, 0, 0, true⟩ } })

theorem witness_BurstEndTellsTheSource : (bursting (.delivery 2) s0).mem.burst = some ⟨.delivery 2, 0, [(4096, 1), (4097, 2)]⟩
    ∧ s0.mem.line = [] ∧ s0.cmd.busy = none ∧ s0.log.resetting = false
    ∧ (bursting (.outcome 1 (entry false)) outcome).mem.burst = some ⟨.outcome 1 (entry false), 0, [(4096, 1), (4097, 2)]⟩
    ∧ (entry false).generation = outcome.outRings[(1 : RingId)].generation
    ∧ (entry true).generation = outcome.outRings[(1 : RingId)].generation
    ∧ (entry true).generation ≠ (onOutRing 1 (fun r => { r with generation := 1 }) outcome).outRings[(1 : RingId)].generation
    ∧ (bursting (.status 35) s0).mem.burst = some ⟨.status 35, 0, [(4096, 1), (4097, 2)]⟩
    ∧ (bursting .fault s0).mem.burst = some ⟨.fault, 0, [(4096, 1), (4097, 2)]⟩ := by
  refine ⟨rfl, rfl, rfl, rfl, rfl, ?_, ?_, ?_, rfl, rfl⟩ <;> decide +kernel

/-- Commands that wait for the burst: one slot left and two, one record left and two, an older burst, the last entry and not. -/
theorem witness_BurstEndTellsTheSource_waits :
    (busyWith 5 1 (.ringBurst 2) (bursting (.delivery 2) s0)).cmd.busy = some ⟨5, 1, .ringBurst 2⟩
    ∧ ([3] : List Nat).filter (fun k => decide (k ≠ (entry false).slot)) = []
    ∧ ([3, 4] : List Nat).filter (fun k => decide (k ≠ (entry false).slot)) = [4]
    ∧ (entry false).refusal = false ∧ (entry false).slot ∈ [3, 4] ∧ (entry true).refusal = true ∧ (entry false).slot ∉ [4]
    ∧ ([34] : List RecordId).filter (fun k => decide (k ≠ 34)) = [] ∧ ([33, 34] : List RecordId).filter (fun k => decide (k ≠ 34)) = [33]
    ∧ (some 33 : Option RecordId) ≠ some 34 ∧ (logResetting 1).log.resetting = true ∧ (logResetting 1).log.outstanding.length ≤ 1
    ∧ 2 ≤ (logResetting 2).log.outstanding.length := by decide +kernel

/-- A burst of record 5 in progress and record 6 queued, both marked. -/
def twoRecords : State :=
  let t := markRecord 5 (markRecord 6 status)
  bursting (.status 5) { t with mem := { t.mem with queue := [⟨.status 6, 0, []⟩] } }

theorem witness_BurstErrorHaltsTheOwner_marks : twoRecords.mem.burst = some ⟨.status 5, 0, [(4096, 1), (4097, 2)]⟩
    ∧ (∃ e ∈ twoRecords.mem.queue, e.source = .status 6) ∧ twoRecords.status.records[(6 : RecordId)].changed = true :=
  ⟨rfl, ⟨_, List.mem_singleton.mpr rfl, rfl⟩, by decide +kernel⟩

theorem witness_BurstErrorHaltsTheOwner :
    ([(4096, 1), (4097, 2)] : List (Nat × Word))[(1 : Fin 64).val]? = some (4097, 2)
    ∧ (bursting (.delivery 2) queued).mem.burst = some ⟨.delivery 2, 0, [(4096, 1), (4097, 2)]⟩
    ∧ (queued.mem.queue.filter (fun e => e.source == .delivery 2)).length = 2 ∧ (bursting (.delivery 2) queued).mem.line = []
    ∧ (busyWith 5 1 (.ringBurst 2) (bursting (.delivery 2) queued)).cmd.busy = some ⟨5, 1, .ringBurst 2⟩
    ∧ (bursting (.outcome 1 (entry false)) outcome).mem.burst = some ⟨.outcome 1 (entry false), 0, [(4096, 1), (4097, 2)]⟩
    ∧ (busyWith 7 1 (.outcomes 1 [3]) (bursting (.outcome 1 (entry false)) outcome)).cmd.busy = some ⟨7, 1, .outcomes 1 [3]⟩
    ∧ (bursting (.status 35) status).mem.burst = some ⟨.status 35, 0, [(4096, 1), (4097, 2)]⟩
    ∧ (busyWith 17 1 (.records [34] none) (bursting (.status 34) status)).cmd.busy = some ⟨17, 1, .records [34] none⟩
    ∧ (bursting .fault faultOffered).log.outstanding.length = 1 ∧ (bursting .fault faultOffered).log.resetting = false
    ∧ (logResetting 2).log.resetting = true ∧ (logResetting 2).mem.burst = some ⟨.fault, 0, [(4096, 1), (4097, 2)]⟩ := by
  refine ⟨rfl, rfl, ?_⟩
  decide +kernel

end Sys2Proof.Tests
end

section
/-! SUPPORT. Path supervision: the latency estimate (R22) and PATH_ENABLE (R3). -/

namespace Sys2Proof.PathSupervision

open Machine

/-! ## The latency estimate -/

/-- A saturating counter stops where one more would not fit. -/
theorem satInc_eq_ite {w : Nat} (c : BitVec w) : satInc c = if c.toNat < 2 ^ w - 1 then c + 1 else c := by
  have fits := c.isLt
  rw [satInc, satAdd]
  by_cases room : c.toNat < 2 ^ w - 1
  · rw [if_pos (by omega), if_pos room, BitVec.ofNat_add, BitVec.ofNat_toNat, BitVec.setWidth_eq]
    rfl
  · rw [if_neg (by omega), if_neg room]
    apply BitVec.eq_of_toNat_eq
    rw [BitVec.toNat_allOnes]
    omega

/-- The first sample, and one of another kind, becomes the estimate. -/
theorem takeSample_restarts (p : PathId) (v : Nat) (k : LatencyKind) (s : State)
    (h : s.paths[p].sup.estimateCount = 0 ∨ k ≠ s.paths[p].sup.estimateKind) :
    takeSample p (v, k) s = onSup p (fun u => { u with
      estimate := BitVec.ofNat 32 v, estimateKind := k, estimateCount := 1 }) s := by
  refine onSup_congr p _ _ s (if_pos ?_)
  rw [Bool.or_eq_true, beq_iff_eq, Bool.not_eq_true', beq_eq_false_iff_ne]
  exact h.imp_right Ne.symm

/-- A sample of the estimate's kind moves it. -/
theorem takeSample_moves (p : PathId) (v : Nat) (k : LatencyKind) (s : State)
    (counted : s.paths[p].sup.estimateCount ≠ 0) (same : k = s.paths[p].sup.estimateKind) :
    takeSample p (v, k) s = onSup p (fun u => { u with
      estimate := bits32 (eighth s.paths[p].sup.estimate.toNat v), estimateCount := satInc u.estimateCount }) s := by
  refine onSup_congr p _ _ s (if_neg ?_)
  simpa [same] using counted

/-- Settles O13: the restart as it stands; the move stays within 32 bits, so its figure is the exact one. -/
theorem sampleUpdatesTheLatencyEstimate : Obligations.SampleUpdatesTheLatencyEstimate := by
  intro p v k s small
  refine ⟨takeSample_restarts p v k s, fun counted same =>
    ⟨bits32 (eighth s.paths[p].sup.estimate.toNat v), bits32_eighth _ v small, ?_⟩⟩
  rw [takeSample_moves p v k s counted same]
  simp only [satInc_eq_ite]
  rfl

/-! ## PATH_ENABLE -/

/-- Code 1 names PATH_ENABLE (Table 11-1). -/
theorem runCommand_pathEnable (num : Byte) (arg : BitVec 48) (s : State) :
    runCommand (commandWord 1 num arg) s = withIndex 5 (commandWord 1 num arg) enablePath s := by
  rw [runCommand, commandWord_field]
  rfl

/-- A command taken from IDLE that completes leaves what `finished` says of the state it acted on. -/
theorem kept_complete_busyWith (code num : Byte) (w : Wait) (r : CommandResult) (u : State) :
    kept (complete r (busyWith code num w u)) = kept (finished code num r u) :=
  (kept_complete (b := ⟨code, num, w⟩) r rfl).trans rfl

/-- On a DISABLED path: the entry to DOWN, and DONE. -/
theorem enablePath_disabled (p : PathId) (s : State) (h : s.paths[p].sup.state = .disabled) :
    enablePath p s = complete .done (downFrom p s) := by
  rw [enablePath, if_pos (by rw [h]; rfl), enterDown_eq p s (by rw [h]; decide)]

/-- On a path in any other state: STATE alone. -/
theorem enablePath_enabled (p : PathId) (s : State) (h : s.paths[p].sup.state ≠ .disabled) :
    enablePath p s = complete .state s :=
  if_neg (by simpa using h)

/-- An entry to DOWN does not concern the command state. -/
theorem downFrom_busyWith (p : PathId) (code num : Byte) (w : Wait) (s : State) :
    downFrom p (busyWith code num w s) = busyWith code num w (downFrom p s) := rfl

/-- A taken PATH_ENABLE ends in what the command leaves, its word passed to memory (R176). -/
theorem endsIn_pathEnable {m : Master} {num : Byte} {arg : BitVec 48} {s u : State} (ready : CommandReady s m)
    (acts : kept (withIndex 5 (commandWord 1 num arg) enablePath (busyWith 1 num .nothing s)) = kept u) :
    EndsIn (.pathEnable m 0xFF num arg) s (commandPassed s 1 m num arg u) :=
  endsIn_command rfl ready (by rw [runCommand_pathEnable, acts])

/-- Settles O34, by the argument's range and then by the path's state. -/
theorem pathEnableMovesToDown : Obligations.PathEnableMovesToDown := by
  intro m num arg s ready
  refine ⟨fun above => endsIn_pathEnable ready ?_, fun p named => ⟨fun disabled => endsIn_pathEnable ready ?_,
    fun enabled => endsIn_pathEnable ready ?_⟩⟩
  · rw [withIndex_outOfRange 1 num enablePath _ (by omega), kept_complete_busyWith]
  · rw [withIndex_inRange 1 num p enablePath _ named, enablePath_disabled p (busyWith 1 num .nothing s) disabled,
      downFrom_busyWith, kept_complete_busyWith]
    rfl
  · rw [withIndex_inRange 1 num p enablePath _ named, enablePath_enabled p (busyWith 1 num .nothing s) enabled,
      kept_complete_busyWith]

end Sys2Proof.PathSupervision
end

section
/-! SUPPORT. Ranking and fallback: what RESET leaves of the ranking, of the alarm causes and of the pulse outputs (R46, R181, R182). -/

namespace Sys2Proof.RankingAndFallback

open Machine

/-- RESET answers the state at reset, whatever state it is taken in. -/
theorem exec_reset (straps : BitVec 4) (s : State) : exec (.reset straps) s = .next (doReset straps s) := rfl

@[simp] theorem doReset_ranking (straps : BitVec 4) (s : State) : (doReset straps s).ranking = .reset := rfl
@[simp] theorem doReset_alarm (straps : BitVec 4) (s : State) : (doReset straps s).alarm = .reset := rfl
@[simp] theorem doReset_pulses (straps : BitVec 4) (s : State) : (doReset straps s).pulses = ⟨none, none, none⟩ := rfl

/-- Every cause is at reset not pending, disabled, of level 0 and never raised (R181). -/
theorem alarmUnit_reset_cause (c : CauseId) : AlarmUnit.reset.causes[c] = ⟨false, false, 0, 0⟩ :=
  Vector.getElem_replicate c.isLt

/-- Settles O2: RESET leaves the ranking, the alarm unit and the pulse outputs at their reset values; those of the ranking
are the last column of Table 3-1, and those of the alarm unit hold cause by cause. -/
theorem resetLeavesTheRankingOfTable31 : Obligations.ResetLeavesTheRankingOfTable31 := by
  intro straps s
  have noCause (c : CauseId) : (doReset straps s).alarm.causes[c].pending = false
      ∧ (doReset straps s).alarm.causes[c].raises = 0 := by
    rw [doReset_alarm, alarmUnit_reset_cause]
    exact ⟨rfl, rfl⟩
  have noPulse : (doReset straps s).pulses.pathSwitch = none := by rw [doReset_pulses]
  refine ⟨doReset straps s, exec_reset straps s, ?_⟩
  rw [doReset_ranking]
  exact ⟨rfl, rfl, rfl, rfl, rfl, rfl, rfl, noCause, noPulse⟩

end Sys2Proof.RankingAndFallback
end

section
/-! SUPPORT. Time base and stamps: TIME_ADJUST (R63, R64). -/

namespace Sys2Proof.TimeBaseAndStamps

open Machine

/-- Code 11 names TIME_ADJUST (Table 12-8). -/
theorem runCommand_timeAdjust (num : Byte) (arg : BitVec 48) (s : State) :
    runCommand (commandWord 11 num arg) s = timeAdjust s := by
  rw [runCommand, commandWord_field]
  rfl

/-- What the start of a slew does: the slew is replaced, with a mark when there was a slew or there now is one (R63). -/
theorem startSlew_eq (amount : Int) (s : State) : startSlew amount s =
    if s.time.slew.isSome || (slewOf amount).isSome then
      markTime { s with time := { s.time with slew := slewOf amount } }
    else { s with time := { s.time with slew := slewOf amount } } := rfl

/-- The start of a slew does not concern the command state. -/
theorem startSlew_busyWith (amount : Int) (code num : Byte) (w : Wait) (s : State) :
    startSlew amount (busyWith code num w s) = busyWith code num w (startSlew amount s) := by
  rw [startSlew_eq, startSlew_eq, apply_ite (busyWith code num w)]
  rfl

/-- A mark set before a completion is one set after it: neither concerns the other. -/
theorem finished_markTime (code num : Byte) (r : CommandResult) (s : State) :
    finished code num r (markTime s) = markTime (finished code num r s) := rfl

/-- A slew is replaced or ended whether or not the time status record is marked with it, and a mark is what any event may bring. -/
theorem kept_finished_startSlew (code num : Byte) (r : CommandResult) (amount : Int) (s : State) :
    kept (finished code num r (startSlew amount s))
      = kept (finished code num r { s with time := { s.time with slew := slewOf amount } }) := by
  rw [startSlew_eq]
  split
  · rw [finished_markTime, markTime, kept_markRecord]
  · rfl

/-- TIME_ADJUST taken from IDLE sets the trim hold, gives the slew the adjust word's amount and completes (R64). -/
theorem kept_timeAdjust_busyWith (code num : Byte) (w : Wait) (s : State) :
    kept (timeAdjust (busyWith code num w s)) = kept (finished code num .done { s with
      time := { s.time with trimHold := true, slew := slewOf s.time.adjust } }) := by
  have held : timeAdjust (busyWith code num w s) = complete .done (startSlew s.time.adjust
      (busyWith code num w { s with time := { s.time with trimHold := true } })) := rfl
  rw [held, startSlew_busyWith, PathSupervision.kept_complete_busyWith, kept_finished_startSlew]

/-- Settles O41: the slew that the statement writes out is `slewOf` the adjust word. -/
theorem timeAdjustStartsASlew : Obligations.TimeAdjustStartsASlew := by
  intro m num arg s ready
  refine endsIn_command rfl ready ?_
  rw [runCommand_timeAdjust, kept_timeAdjust_busyWith, slewOf]

end Sys2Proof.TimeBaseAndStamps
end

section
/-! SUPPORT. The memory path: the guarded span, the master table and the extent words (R79, R80, R83), the control words of the inbound
rings (R150, R152) and the fault-log release word (R91). -/

namespace Sys2Proof.MemoryPath

open Machine

/-! ## Words judged by a condition (R175) -/

/-- A word judged by a condition is taken when that holds and trapped when it fails. -/
theorem endsIn_judged {c : Instr} {s t : State} {o : Nat} {m : Master} {d : Word} {b : Bool} {P : Prop}
    (row : exec c s = .next (settle s (arriveSetup o m 0xFF d s))) (inRegion : o < 2048) (ready : SetupReady s m)
    (judged : takeSetupWord o d s = takeIf b t) (means : b = true ↔ P) :
    (P → EndsIn c s (wordPassed s o m d t)) ∧ (¬ P → EndsIn c s (wordTrapped s o m d)) := by
  refine ⟨fun holds => endsIn_taken row inRegion ready ?_ rfl, fun fails => endsIn_trapped row inRegion ready ?_⟩
  · rw [judged, takeIf, if_pos (means.mpr holds)]
  · rw [judged, takeIf, if_neg (fails ∘ means.mp)]

/-! ## The guarded span (R79) -/

/-- Every enabled window lies in a range, entry by entry. -/
theorem enabledWithin_iff (s : State) (base length : Nat) :
    (s.mem.windows.toList.all fun w => !w.enabled || within w.base w.length base length) = true
      ↔ ∀ e : Fin 15, s.mem.windows[e].enabled = true → base ≤ s.mem.windows[e].base
        ∧ s.mem.windows[e].base + s.mem.windows[e].length ≤ base + length := by
  rw [Vector.all_toList, Vector.all_eq_true, Fin.forall_iff]
  refine forall₂_congr fun i hi => ?_
  cases s.mem.windows[i].enabled <;> simp [within]

/-- What R79 asks of a new span. -/
theorem spanAllowed_iff (s : State) (base length : Nat) :
    spanAllowed s base length = true ↔ base ≤ setupBase s ∧ setupBase s + 2048 ≤ base + length ∧ base + length ≤ 268435456
      ∧ ∀ e : Fin 15, s.mem.windows[e].enabled = true → base ≤ s.mem.windows[e].base
        ∧ s.mem.windows[e].base + s.mem.windows[e].length ≤ base + length := by
  rw [spanAllowed, Bool.and_eq_true, Bool.and_eq_true, enabledWithin_iff, within, Bool.and_eq_true, decide_eq_true_iff,
    decide_eq_true_iff, decide_eq_true_iff, and_assoc, and_assoc]
  rfl

/-! ## The master table (R83) -/

/-- The word's master has the new privilege, every other keeps its own. -/
theorem withPrivilege_get (s : State) (k j : Master) (v : BitVec 2) :
    (withPrivilege s k v)[j] = if j = k then v else s.mem.masters[j] := by
  rw [withPrivilege, Fin.getElem_fin, Vector.getElem_set]
  exact if_congr (eq_comm.trans Fin.ext_iff.symm) rfl rfl

/-- A master keeps privilege 0: the one the word names by its new value, or another by its old one. -/
theorem privilegeKept_iff (s : State) (k : Master) (v : BitVec 2) :
    ((withPrivilege s k v).toList.any (· == 0)) = true ↔ v = 0 ∨ ∃ j : Master, j ≠ k ∧ s.mem.masters[j] = 0 := by
  have someZero : ((withPrivilege s k v).toList.any (· == 0)) = true ↔ ∃ j : Master, (withPrivilege s k v)[j] = 0 := by
    rw [Vector.any_toList, Vector.any_eq_true, Fin.exists_iff]
    simp only [beq_iff_eq, Fin.getElem_fin]
  rw [someZero]
  constructor
  · rintro ⟨j, zero⟩
    rw [withPrivilege_get] at zero
    by_cases named : j = k
    · exact .inl (by rwa [if_pos named] at zero)
    · exact .inr ⟨j, named, by rwa [if_neg named] at zero⟩
  · rintro (zero | ⟨j, other, zero⟩)
    · exact ⟨k, by rw [withPrivilege_get, if_pos rfl, zero]⟩
    · exact ⟨j, by rw [withPrivilege_get, if_neg other, zero]⟩

/-! ## Extents (R80) -/

/-- On a disabled entry the extent is judged by its end alone. -/
theorem takeExtent_disabled (e : Fin 15) (d : Word) (s : State) (off : s.mem.windows[e].enabled = false) :
    takeExtent e d s = takeIf (field d 0 28 + field d 32 29 ≤ Config.addressSpace)
      (onWindow e (fun w => { w with base := field d 0 28, length := field d 32 29 }) s) := by
  rw [takeExtent]
  exact if_neg (by rw [off]; decide)

/-- On an enabled entry nothing is taken: the extent in force passes, another is refused. -/
theorem takeExtent_enabled (e : Fin 15) (d : Word) (s : State) (on : s.mem.windows[e].enabled = true) :
    takeExtent e d s =
      if field d 0 28 = s.mem.windows[e].base ∧ field d 32 29 = s.mem.windows[e].length then .taken s
      else .refused .windowInUse s := by
  rw [takeExtent]
  refine (if_pos on).trans (if_congr ?_ rfl rfl)
  rw [Bool.and_eq_true, beq_iff_eq, beq_iff_eq]

/-- Settles O16, word by word: span and master words by their conditions, extent words by whether the entry is enabled. -/
theorem spanMasterAndExtentWords : Obligations.SpanMasterAndExtentWords := by
  intro m d s ready
  have span := endsIn_judged (c := .guardedSpanWord m 0xFF d) (o := 2) rfl (by decide) ready (takeSetupWord_span d s)
    (spanAllowed_iff s _ _)
  refine ⟨span.1, span.2, fun k => ?_, fun e => ?_⟩
  · exact endsIn_judged (c := .masterWord m 0xFF k d) rfl (by omega) ready (takeSetupWord_master k d s)
      (privilegeKept_iff s k _)
  have row : exec (.windowExtentWord m 0xFF e d) s = .next (settle s (arriveSetup (16 + 2 * e.val) m 0xFF d s)) := rfl
  have inRegion : 16 + 2 * e.val < 2048 := by omega
  have extent := takeSetupWord_extent e d s
  have disabled (off : s.mem.windows[e].enabled = false) :=
    endsIn_judged row inRegion ready (extent.trans (takeExtent_disabled e d s off)) decide_eq_true_iff
  refine ⟨fun off => (disabled off).1, fun off beyond => (disabled off).2 (Nat.not_le.mpr beyond),
    fun on base length => endsIn_taken row inRegion ready ?_ rfl, fun on changed => endsIn_refused row inRegion ready ?_⟩
  · rw [extent, takeExtent_enabled e d s on, if_pos ⟨base, length⟩]
  · rw [extent, takeExtent_enabled e d s on, if_neg (not_and_or.mpr changed)]

/-! ## The control words of the inbound rings (R150, R152) -/

/-- What R152 asks of a ring that the start field starts. -/
theorem startsRing_iff (r : InRing) :
    startsRing r = true ↔ (r.state = .stopped ∧ r.slotCount ≠ none) ∨ r.state = .halted := by
  rw [startsRing, Bool.or_eq_true, Bool.and_eq_true, beq_iff_eq, beq_iff_eq, Option.isSome_iff_ne_none]

/-- Only what becomes of the ring itself matters. -/
theorem onInRing_congr (n : RingId) (f g : InRing → InRing) (s : State) (h : f s.inRings[n] = g s.inRings[n]) :
    onInRing n f s = onInRing n g s := by
  rw [onInRing, h]
  rfl

/-- A ring with the control word taken. -/
def controlled (d : Word) (r : InRing) : InRing :=
  { r with release := bits d 0 16, state := if d.getLsbD 16 && startsRing r then .active else r.state }

/-- A control word is judged by its release alone (R150). -/
theorem takeRingControl_eq (n : RingId) (d : Word) (s : State) :
    takeRingControl n d s = takeIf ((bits d 0 16 - s.inRings[n].release).toNat ≤ s.inRings[n].fill)
      (onInRing n (controlled d) s) := rfl

/-- A control word that starts the ring. -/
theorem controlled_starts {d : Word} {r : InRing} (start : d.getLsbD 16 = true) (may : startsRing r = true) :
    controlled d r = { r with release := bits d 0 16, state := .active } := by
  rw [controlled, start, may]
  rfl

/-- A control word without the start field, or to a ring that it does not start. -/
theorem controlled_releases {d : Word} {r : InRing} (stays : d.getLsbD 16 = false ∨ ¬ startsRing r = true) :
    controlled d r = { r with release := bits d 0 16 } := by
  rw [controlled, if_neg (by simpa [imp_iff_not_or] using stays)]

/-- The two rows of a control word, whichever its start field calls for: it is taken or trapped by its release. -/
theorem endsIn_ringControl {c : Instr} {m : Master} {n : RingId} {d : Word} {s : State}
    (row : exec c s = .next (settle s (arriveSetup (120 + n.val) m 0xFF d s))) (ready : SetupReady s m) :
    ((d.extractLsb' 0 16 - s.inRings[n].release).toNat ≤ (s.inRings[n].deposit - s.inRings[n].release).toNat →
      EndsIn c s (wordPassed s (120 + n.val) m d (onInRing n (controlled d) s)))
    ∧ (¬ (d.extractLsb' 0 16 - s.inRings[n].release).toNat ≤ (s.inRings[n].deposit - s.inRings[n].release).toNat →
      EndsIn c s (wordTrapped s (120 + n.val) m d)) :=
  endsIn_judged row (by omega) ready ((takeSetupWord_ring n d s).trans (takeRingControl_eq n d s)) decide_eq_true_iff

/-- Settles O24: both words are judged by how far the release advances; of a ring control word taken, the start field and the ring's
state say whether the ring starts. -/
theorem ringControlAndLogReleaseWords : Obligations.RingControlAndLogReleaseWords := by
  intro m d s ready
  have log := endsIn_judged (c := .faultLogRelease m 0xFF d) (o := 124) rfl (by decide) ready (takeSetupWord_log d s)
    decide_eq_true_iff
  refine ⟨fun n => ?_, log.1, fun beyond => log.2 (Nat.not_le.mpr beyond)⟩
  have release := endsIn_ringControl (c := .inboundRelease m 0xFF n d) rfl ready
  have start := endsIn_ringControl (c := .ringStartField m 0xFF n d) rfl ready
  refine ⟨fun fits => ⟨fun noStart => ?_, fun asks may => ?_, fun asks mayNot => ?_⟩,
    fun beyond => ⟨release.2 (Nat.not_le.mpr beyond), start.2 (Nat.not_le.mpr beyond)⟩⟩
  · rw [← onInRing_congr n _ _ s (controlled_releases (.inl noStart))]
    exact release.1 fits
  · rw [← onInRing_congr n _ _ s (controlled_starts asks ((startsRing_iff _).mpr may))]
    exact start.1 fits
  · rw [← onInRing_congr n _ _ s (controlled_releases (.inr (mayNot ∘ (startsRing_iff _).mp)))]
    exact start.1 fits

end Sys2Proof.MemoryPath
end

section
/-! SUPPORT. Inbound merge and delivery: STREAM_RESET (R143). -/

namespace Sys2Proof.InboundMergeAndDelivery

open Machine

/-- Code 9 names STREAM_RESET (Table 12-8). -/
theorem runCommand_streamReset (num : Byte) (arg : BitVec 48) (s : State) :
    runCommand (commandWord 9 num arg) s = withIndex 16 (commandWord 9 num arg) resetStream s := by
  rw [runCommand, commandWord_field]
  rfl

/-- A change of a stream does not concern the command state. -/
theorem onStream_busyWith (i : StreamId) (f : Stream → Stream) (code num : Byte) (w : Wait) (s : State) :
    onStream i f (busyWith code num w s) = busyWith code num w (onStream i f s) := rfl

/-- STREAM_RESET taken from IDLE clears the tracker of its stream and completes (R143). -/
theorem kept_resetStream_busyWith (i : StreamId) (code num : Byte) (w : Wait) (s : State) :
    kept (resetStream i (busyWith code num w s)) = kept (finished code num .done (onStream i (·.clear) s)) := by
  rw [resetStream, onStream_busyWith, PathSupervision.kept_complete_busyWith]

/-- A taken STREAM_RESET ends in what the command leaves, its word passed to memory (R176). -/
theorem endsIn_streamReset {m : Master} {num : Byte} {arg : BitVec 48} {s u : State} (ready : CommandReady s m)
    (acts : kept (withIndex 16 (commandWord 9 num arg) resetStream (busyWith 9 num .nothing s)) = kept u) :
    EndsIn (.streamReset m 0xFF num arg) s (commandPassed s 9 m num arg u) :=
  endsIn_command rfl ready (by rw [runCommand_streamReset, acts])

/-- Settles O39, by the argument's range: up to 15 the command acts on the stream it names, above 15 the range alone answers. -/
theorem streamResetClearsTheTracker : Obligations.StreamResetClearsTheTracker := by
  intro m num arg s ready
  refine ⟨fun i named => endsIn_streamReset ready ?_, fun above => endsIn_streamReset ready ?_⟩
  · rw [withIndex_inRange 9 num i resetStream _ named, kept_resetStream_busyWith]
    rfl
  · rw [withIndex_outOfRange 9 num resetStream _ above, PathSupervision.kept_complete_busyWith]

end Sys2Proof.InboundMergeAndDelivery
end

section
/-! SUPPORT. What holds between events: RESET, every command and every step leave a settled state (R50, R174, R182). -/

namespace Sys2Proof.BetweenEvents

open Machine

/-! ## RESET -/

/-- A line at reset carries no event and shows the level outside. -/
theorem doReset_line (straps : BitVec 4) (s : State) (l : LineId) :
    (doReset straps s).lines[l] = Line.reset s.lines[l].outside :=
  Vector.getElem_map _ _

/-- At reset no input event is active: no line carries one. -/
theorem doReset_inputActive (straps : BitVec 4) (s : State) (e : LineEvent) (given : e ≠ .none) :
    inputActive (doReset straps s) e = false := by
  rw [← Bool.not_eq_true, inputActive_iff]
  rintro ⟨l, active⟩
  rw [doReset_line, Bool.and_eq_true, beq_iff_eq] at active
  exact given active.1.symm

/-- RESET leaves a settled state: the tables of chapters 3 and 11 at reset agree with each other, and every line follows its pin. -/
theorem settled_doReset (straps : BitVec 4) (s : State) : Settled (doReset straps s) := by
  refine ⟨fun l => .inl ?_, ?_, ?_, ?_, ?_, ?_, ?_, ?_, ?_⟩
  · rw [doReset_line]
    rfl
  · exact (doReset_inputActive straps s _ (by decide)).symm
  · exact (doReset_inputActive straps s _ (by decide)).symm
  · exact (doReset_inputActive straps s _ (by decide)).symm
  all_goals rfl

/-- Settles O6: the state after reset is what RESET leaves of it. -/
theorem resetStateIsSettled : Obligations.ResetStateIsSettled := by
  have same : doReset 0 State.reset = State.reset := by
    have lines : State.reset.lines.map (·.atReset) = Vector.replicate 8 (.reset false) := Vector.map_replicate
    rw [doReset, lines]
    rfl
  have settled := settled_doReset 0 State.reset
  rwa [same] at settled

/-! ## Commands -/

/-- Every command but RESET leaves, by its own event, the consequences of an event. -/
theorem leaves_settle (c : Instr) (s : State) (noReset : ∀ straps, c ≠ .reset straps) : ∃ o u, Leaves c s (settle o u) := by
  cases c
  case reset straps => exact absurd rfl (noReset straps)
  case burstEnd => exact ⟨_, _, leaves_of_drain rfl (by rw [settle_mem, doBurstEnd_line]) (.inl rfl)⟩
  case burstError k => exact ⟨_, _, leaves_of_drain rfl (by rw [settle_mem, doBurstError_line]) (.inr ⟨k, rfl⟩)⟩
  all_goals exact ⟨_, _, rfl⟩

/-- What follows on a settled state, event by event, leaves a settled state. -/
theorem settled_foldl {α : Type} (g : State → α → State) (keeps : ∀ s a, Settled s → Settled (g s a)) (l : List α) (s : State)
    (h : Settled s) : Settled (l.foldl g s) := by
  induction l generalizing s with
  | nil => exact h
  | cons a l ih => exact ih _ (keeps s a h)

/-- So does the release of what waits at the P-port. -/
theorem settled_release (l : List Access) (v : State) (h : Settled v) :
    Settled (l.foldl (fun w x => settle w (arrive x w)) v) :=
  settled_foldl _ (fun _ _ _ => settled_settle _ _) l v h

/-- What a command leaves settled by its own event, it answers settled. -/
theorem settled_of_leaves {c : Instr} {s v : State} (left : Leaves c s v) (h : Settled v) : ∃ t, exec c s = .next t ∧ Settled t := by
  cases c
  case burstEnd => exact ⟨_, left.2, settled_release _ _ h⟩
  case burstError => exact ⟨_, left.2, settled_release _ _ h⟩
  all_goals exact ⟨v, left, h⟩

/-- Settles O7: RESET by its own state, every other command by the event it leaves. -/
theorem everyCommandLeavesASettledState : Obligations.EveryCommandLeavesASettledState := by
  intro c s
  refine ⟨?_, leaves_settle c s⟩
  by_cases reset : ∃ straps, c = .reset straps
  · obtain ⟨straps, rfl⟩ := reset
    exact ⟨_, rfl, settled_doReset straps s⟩
  · obtain ⟨o, u, left⟩ := leaves_settle c s fun straps is => reset ⟨straps, is⟩
    exact settled_of_leaves left (settled_settle o u)

/-! ## The reference clock -/

/-- What is settled depends on the lines, the level inputs, the alarm unit, what the lines show, and the ranking with its inputs. -/
theorem settled_of_steady {s t : State} (h : Settled s) (steady : Steady s t) (lines : t.lines = s.lines) (sel : t.sel = s.sel)
    (alarm : t.alarm = s.alarm) (shown : ∀ e, asserted t e = asserted s e) : Settled t := by
  obtain ⟨⟨ranking, -⟩, places⟩ := steady
  have pins (x : Line) : pinLevel t x = pinLevel s x := by
    have level : shownLevel t x = shownLevel s x := congrArg (· != x.activeLow) (shown x.event)
    rw [pinLevel, drives, level]
    rfl
  have inputs (e : LineEvent) : inputActive t e = inputActive s e := by rw [inputActive, lines, ← inputActive]
  have entries : rankEntry t = rankEntry s := funext fun p => by rw [rankEntry, rankEntry, (places p).1, (places p).2]
  have list : rankList t = rankList s := by rw [rankList, entries, ← rankList]
  have fallback : fallbackHolds t = fallbackHolds s := by simp only [fallbackHolds, places]
  obtain ⟨follow, rest⟩ := h
  refine ⟨fun l => ?_, ?_⟩
  · rw [lines, lineFollows, pins]
    exact follow l
  · rw [ranking, sel, alarm, inputs, inputs, inputs, list, fallback]
    exact rest

/-- A change of a path that keeps its supervisor's record and its setup, such as a channel's tick, keeps a settled state. -/
theorem settled_onPath (p : PathId) (f : Path → Path) (s : State) (sup : (f s.paths[p]).sup = s.paths[p].sup)
    (setup : (f s.paths[p]).setup = s.paths[p].setup) (h : Settled s) : Settled (onPath p f s) := by
  have terms : terms (f s.paths[p]) = terms s.paths[p] := by rw [Machine.terms, sup, setup]
  refine settled_of_steady h (still_onPath p f s terms).steady rfl rfl rfl fun e => ?_
  cases e
  case pathUp q =>
    by_cases same : p = q
    · subst same
      simpa [asserted, onPath] using congrArg (fun u => u.state.inService) sup
    · simp [asserted, onPath, Fin.val_ne_of_ne same]
  all_goals rfl

/-- The counters of the time base are no inputs of what is settled; its discipline state is one. -/
theorem settled_time (s : State) (v : TimeBase) (state : v.state = s.time.state) (h : Settled s) :
    Settled { s with time := v } := by
  refine settled_of_steady (t := { s with time := v }) h (steady_of rfl fun _ => rfl) rfl rfl rfl fun e => ?_
  cases e
  case timeLocked => exact congrArg (· == Quality.locked) state
  all_goals rfl

theorem settled_tickFilter (s : State) (l : LineId) (h : Settled s) : Settled (tickFilter s l) := by
  unfold tickFilter
  dsimp only
  split
  · exact h
  · split
    · exact settled_settle _ _
    · exact h

theorem settled_failIfDue (p : PathId) (s : State) (h : Settled s) : Settled (failIfDue p s) := by
  unfold failIfDue
  split
  · split
    · exact settled_settle _ _
    · exact h
  · exact h

theorem settled_tickAnswers (s : State) (p : PathId) (h : Settled s) : Settled (tickAnswers s p) := by
  have counted : Settled (countAnswers p s) := by
    unfold countAnswers
    split
    · exact h
    · exact settled_settle _ _
  exact settled_failIfDue p _ (settled_failIfDue p _ (settled_failIfDue p _ (settled_failIfDue p _ counted)))

theorem settled_tickProbe (p : PathId) (s : State) (h : Settled s) : Settled (tickProbe p s) := by
  unfold tickProbe
  dsimp only
  split
  · exact h
  · split
    · exact settled_settle _ _
    · exact settled_onPath p _ s rfl rfl h

theorem settled_tickSilence (p : PathId) (s : State) (h : Settled s) : Settled (tickSilence p s) := by
  unfold tickSilence
  dsimp only
  split
  · exact h
  · split
    · exact settled_settle _ _
    · exact settled_onPath p _ s rfl rfl h

/-- The hold counter is none of the supervisor's record and none of the setup. -/
theorem setHoldValue_keeps (v : Nat) (x : Path) : (setHoldValue v x).sup = x.sup ∧ (setHoldValue v x).setup = x.setup := by
  unfold setHoldValue
  split <;> exact ⟨rfl, rfl⟩

theorem settled_tickHold (p : PathId) (s : State) (h : Settled s) : Settled (tickHold p s) := by
  unfold tickHold
  dsimp only
  split
  · exact h
  · split
    · exact settled_settle _ _
    · split
      · exact settled_settle _ _
      · exact settled_onPath p _ s (setHoldValue_keeps _ _).1 (setHoldValue_keeps _ _).2 h

theorem settled_tickGuard (p : PathId) (s : State) (h : Settled s) : Settled (tickGuard p s) := by
  unfold tickGuard
  dsimp only
  split
  · exact h
  · split
    · exact settled_settle _ _
    · exact settled_onPath p _ s rfl rfl h

theorem settled_tickChannels (s : State) (p : PathId) (h : Settled s) : Settled (tickChannels s p) :=
  settled_tickGuard p _ (settled_tickHold p _ (settled_tickSilence p _ (settled_tickProbe p s h)))

theorem settled_tickHoldover (s : State) (h : Settled s) : Settled (tickHoldover s) := by
  unfold tickHoldover
  split
  · split
    · exact settled_settle _ _
    · exact settled_time s _ rfl h
  · exact h

theorem settled_tickAge (s : State) (h : Settled s) : Settled (tickAge s) := by
  unfold tickAge
  split
  · exact h
  · dsimp only
    split
    · exact settled_settle _ _
    · exact settled_time s _ rfl h

theorem settled_tickMicro (s : State) (h : Settled s) : Settled (tickMicro s) := by
  have channels := settled_foldl _ settled_tickChannels (List.finRange 5) _
    (settled_foldl _ settled_tickAnswers (List.finRange 5) _ (settled_foldl _ settled_tickFilter (List.finRange 8) s h))
  unfold tickMicro
  dsimp only
  split
  · exact settled_tickAge _ (settled_tickHoldover _ channels)
  · exact channels

/-- A nanosecond of the reference clock is an event, and what its taps bring keeps what that leaves. -/
theorem settled_tick (s : State) : Settled (tick s) := by
  unfold tick
  dsimp only
  split
  · exact settled_tickMicro _ (settled_settle _ _)
  · exact settled_settle _ _

/-- On an empty queue the block takes an event of its own, or a nanosecond passes. -/
theorem settled_idle (s : State) : Settled (idle s) := by
  unfold idle
  split
  · exact settled_settle _ _
  · exact settled_tick s

/-- Settles O8, by what stands at the front of the queue. -/
theorem everyStepKeepsASettledState : Obligations.EveryStepKeepsASettledState := by
  intro s t _ stepped
  unfold step at stepped
  split at stepped
  next c rest _ =>
    obtain ⟨v, answers, settled⟩ := (everyCommandLeavesASettledState c { s with pending := rest }).1
    rw [answers, Host.Outcome.next.injEq] at stepped
    rwa [← stepped]
  next =>
    rw [Host.Outcome.next.injEq] at stepped
    rw [← stepped]
    exact settled_idle s

end Sys2Proof.BetweenEvents
end

section
/-! SUPPORT. What every event announces: head and fallback changes (R53, R55), and the outputs of the alarm unit (R182). -/

namespace Sys2Proof.Announcing

open Machine BetweenEvents

/-! ## The state whose ranking is recomputed -/

/-- Up to the ranking, an event's consequences touch lines, level inputs and cause 19 only. -/
theorem beforeRanking_eq (o s : State) : ∃ causes, beforeRanking o s = { s with
      lines := followed s
      ranking := { s.ranking with forced := (beforeRanking o s).ranking.forced }
      sel := (beforeRanking o s).sel
      alarm := { s.alarm with causes := causes } }
    ∧ causes[5] = s.alarm.causes[5] ∧ causes[6] = s.alarm.causes[6] := by
  rw [beforeRanking, refreshLines_eq, announceRain]
  split
  · exact ⟨_, rfl, rfl, rfl⟩
  · refine ⟨_, rfl, ?_, ?_⟩ <;> exact Vector.getElem_set_ne _ _ (by decide)

@[simp] theorem beforeRanking_time (o s : State) : (beforeRanking o s).time = s.time := by
  obtain ⟨_, e, -⟩ := beforeRanking_eq o s
  rw [e]

@[simp] theorem beforeRanking_pulses (o s : State) : (beforeRanking o s).pulses = s.pulses := by
  obtain ⟨_, e, -⟩ := beforeRanking_eq o s
  rw [e]

@[simp] theorem beforeRanking_inService (o s : State) : (beforeRanking o s).alarm.inService = s.alarm.inService := by
  obtain ⟨_, e, -⟩ := beforeRanking_eq o s
  rw [e]

/-! ## Head and fallback changes -/

/-- From `a` to `b` a change of the head is announced with the date of `a`, and so is a change of the fallback flag; where nothing
changes, nothing that announces it is touched, the causes' pending flags included. -/
def AnnouncedAlone (a b : State) : Prop :=
  (b.ranking.head ≠ a.ranking.head →
    b.ranking.headChanges = satInc a.ranking.headChanges ∧ b.ranking.lastHeadChange = some ⟨a.time.value, a.time.state⟩
    ∧ b.pulses.pathSwitch = some 0 ∧ b.alarm.causes[5].pending = true
    ∧ b.alarm.causes[5].raises = satInc a.alarm.causes[5].raises)
  ∧ (b.ranking.head = a.ranking.head →
    b.ranking.headChanges = a.ranking.headChanges ∧ b.ranking.lastHeadChange = a.ranking.lastHeadChange
    ∧ b.pulses.pathSwitch = a.pulses.pathSwitch ∧ b.alarm.causes[5] = a.alarm.causes[5])
  ∧ (b.ranking.fallback ≠ a.ranking.fallback →
    b.ranking.fallbackEntries
      = (if b.ranking.fallback then satInc a.ranking.fallbackEntries else a.ranking.fallbackEntries)
    ∧ b.alarm.causes[6].pending = true ∧ b.alarm.causes[6].raises = satInc a.alarm.causes[6].raises)
  ∧ (b.ranking.fallback = a.ranking.fallback →
    b.ranking.fallbackEntries = a.ranking.fallbackEntries ∧ b.alarm.causes[6] = a.alarm.causes[6])

/-- A recomputation announces a head change and a fallback change, whichever of the two there are. -/
theorem announcedAlone_rerank (s : State) : AnnouncedAlone s (rerank s) := by
  unfold rerank
  dsimp only
  by_cases head : headOf (rankList s) = s.ranking.head <;>
    by_cases fallback : fallbackHolds s = s.ranking.fallback <;>
      simp [head, fallback, AnnouncedAlone, announceHead, announceFallback, raiseCause, onCause, stampNow]

/-- An event announces what its recomputation announces: the stages before and after it touch nothing of that. -/
theorem announcedAlone_settle (o s : State) : AnnouncedAlone s (settle o s) := by
  obtain ⟨causes, before, five, six⟩ := beforeRanking_eq o s
  have announced := announcedAlone_rerank (beforeRanking o s)
  have switch : (settle o s).pulses.pathSwitch = (rerank (beforeRanking o s)).pulses.pathSwitch := by
    rw [settle_pulses, refreshAlarm]
    dsimp only
    split <;> rfl
  rw [AnnouncedAlone, settle_ranking, settle_causes, switch]
  rw [AnnouncedAlone] at announced
  generalize rerank (beforeRanking o s) = v at announced ⊢
  rw [before] at announced
  dsimp only at announced
  rwa [five, six] at announced

theorem settle_time (o s : State) : (settle o s).time = s.time := by
  have time (x : State) : (kept x).time = x.time := rfl
  rw [← time, kept_settle, time]

/-- What stands apart is announced; the date is that of the state after the event, which an event's consequences leave alone. -/
theorem announced_settle (o s : State) : Announced s (settle o s) := by
  obtain ⟨head, sameHead, fallback, sameFallback⟩ := announcedAlone_settle o s
  refine ⟨fun h => ?_, fun h => ?_, fallback, fun h => ?_⟩
  · rw [settle_time]
    exact head h
  · obtain ⟨count, last, switch, cause⟩ := sameHead h
    exact ⟨count, last, switch, congrArg AlarmCause.raises cause⟩
  · obtain ⟨count, cause⟩ := sameFallback h
    exact ⟨count, congrArg AlarmCause.raises cause⟩

/-- Fallback is active exactly when no air path is selectable (R55). -/
theorem fallbackHolds_iff (s : State) : fallbackHolds s = true ↔ ∀ p : PathId, p.val < 4 → selectable s p = false := by
  simp [fallbackHolds, isAir]

/-! ## What a command does to the heralds before its consequences -/

/-- The state with the pulse that the command ends withdrawn. -/
def withdrawn (c : Instr) (s : State) : State :=
  match c with
  | .pulseEnd e => doPulseEnd e s
  | _ => s

/-- The commands that may judge fade conditions within their event. -/
def mayJudge : Instr → Bool
  | .carry .. | .report .. | .unknownUnitMessage .. | .sendStart _ => true
  | _ => false

/-- A command but RESET that judges no fade condition touches no herald by its own effect, but for the pulse that it ends. -/
theorem leaves_heralds (c : Instr) (s : State) (noReset : ∀ straps, c ≠ .reset straps) (calm : mayJudge c = false) :
    ∃ o u, Leaves c s (settle o u) ∧ heralds u = heralds (withdrawn c s) := by
  cases c
  case reset straps => exact absurd rfl (noReset straps)
  case carry | report | unknownUnitMessage | sendStart => exact Bool.noConfusion calm
  case pPortWrite | pPortRead | headerWrite | stagingWrite => exact ⟨_, _, rfl, heralds_arrive ..⟩
  case identityWord | guardedSpanWord | masterWord | windowExtentWord | windowEnable | windowDisable | selectorWord
    | timeSetupWord | pathModeWord | timerSetupWord | penaltyWord | statusBytesWord | streamSetupWord | divertFilterWord
    | inboundRelease | ringStartField | faultLogRelease | lineWord | alarmSetupWord =>
    exact ⟨_, _, rfl, heralds_arriveSetup ..⟩
  case pathEnable | pathDisable | pathReset | ringStart | ringStop | ringReset | outFlush | outSeqSet | streamReset | timeSet
    | timeAdjust | rainSet | rainClear | queryPath | alarmAck | logReset | snapshot | unknownCommand =>
    exact ⟨_, _, rfl, heralds_arriveCommand ..⟩
  case accept => exact ⟨_, _, rfl, heralds_doAccept ..⟩
  case reject => exact ⟨_, _, rfl, heralds_doReject ..⟩
  case gapExpiry => exact ⟨_, _, rfl, heralds_doGapExpiry ..⟩
  case ageing => exact ⟨_, _, rfl, heralds_doAgeing ..⟩
  case selection => exact ⟨_, _, rfl, heralds_doSelection ..⟩
  case sendEnd => exact ⟨_, _, rfl, heralds_doSendEnd ..⟩
  case tuneStart => exact ⟨_, _, rfl, heralds_doTuneStart ..⟩
  case tuneEnd => exact ⟨_, _, rfl, heralds_doTuneEnd ..⟩
  case noAnswer => exact ⟨_, _, rfl, heralds_doNoAnswer ..⟩
  case probeChannelUnderflow => exact ⟨_, _, rfl, heralds_doProbeChannelUnderflow ..⟩
  case silenceUnderflow => exact ⟨_, _, rfl, heralds_doSilenceUnderflow ..⟩
  case holdCompareMatch => exact ⟨_, _, rfl, heralds_doHoldCompareMatch ..⟩
  case holdUnderflow => exact ⟨_, _, rfl, heralds_doHoldUnderflow ..⟩
  case guardUnderflow => exact ⟨_, _, rfl, heralds_doGuardUnderflow ..⟩
  case pinChange => exact ⟨_, _, rfl, heralds_doPinChange ..⟩
  case filterExpiry => exact ⟨_, _, rfl, heralds_doFilterExpiry ..⟩
  case pulseWatchdog => exact ⟨_, _, rfl, heralds_doPulseWatchdog ..⟩
  case holdoverLimit => exact ⟨_, _, rfl, heralds_doHoldoverLimit ..⟩
  case slewEnd => exact ⟨_, _, rfl, heralds_doSlewEnd ..⟩
  case ppsOut => exact ⟨_, _, rfl, heralds_doPpsOut ..⟩
  case pulseEnd => exact ⟨_, _, rfl, rfl⟩
  case statusSubmit => exact ⟨_, _, rfl, heralds_doStatusSubmit ..⟩
  case outcomeSubmit => exact ⟨_, _, rfl, heralds_doOutcomeSubmit ..⟩
  case faultEntrySubmit => exact ⟨_, _, rfl, heralds_doFaultEntrySubmit ..⟩
  case passingAccessIssue => exact ⟨_, _, rfl, heralds_doPassingAccessIssue ..⟩
  case burstStart => exact ⟨_, _, rfl, heralds_doBurstStart ..⟩
  case burstEnd =>
    exact ⟨_, _, leaves_of_drain rfl (by rw [settle_mem, doBurstEnd_line]) (.inl rfl), heralds_doBurstEnd s⟩
  case burstError k =>
    exact ⟨_, _, leaves_of_drain rfl (by rw [settle_mem, doBurstError_line]) (.inr ⟨k, rfl⟩), heralds_doBurstError k s⟩

/-- A command that may judge touches the critical flag and its pulse by no effect of its own. -/
theorem judging_leaves_critical (c : Instr) (s : State) (judges : mayJudge c = true) : ∃ u, Leaves c s (settle s u)
    ∧ u.pulses.critical = s.pulses.critical ∧ u.alarm.inService = s.alarm.inService := by
  cases c
  case carry => exact ⟨_, rfl, (announces_doCarry ..).critical⟩
  case report => exact ⟨_, rfl, (announces_doReport ..).critical⟩
  case unknownUnitMessage => exact ⟨_, rfl, (announces_doUnknownUnitMessage ..).critical⟩
  case sendStart => exact ⟨_, rfl, (announces_doSendStart ..).critical⟩
  all_goals exact Bool.noConfusion judges

/-- Every command but RESET touches neither the critical flag nor its pulse by its own effect, but for the pulse's end. -/
theorem leaves_critical (c : Instr) (s : State) (noReset : ∀ straps, c ≠ .reset straps) : ∃ o u, Leaves c s (settle o u)
    ∧ u.pulses.critical = (withdrawn c s).pulses.critical ∧ u.alarm.inService = s.alarm.inService := by
  by_cases judges : mayJudge c = true
  · obtain ⟨u, left, critical⟩ := judging_leaves_critical c s judges
    have same : withdrawn c s = s := by
      cases c
      case pulseEnd => exact Bool.noConfusion judges
      all_goals rfl
    exact ⟨s, u, left, by rwa [same]⟩
  · obtain ⟨o, u, left, same⟩ := leaves_heralds c s noReset (Bool.eq_false_iff.mpr judges)
    have flag : (withdrawn c s).alarm = s.alarm := by cases c <;> rfl
    simp only [heralds, Prod.mk.injEq, flag] at same
    obtain ⟨-, critical, -, inService, -⟩ := same
    exact ⟨o, u, left, critical, inService⟩

/-- Withdrawing a pulse other than PATH_SWITCH leaves what head and fallback changes are announced by. -/
theorem announced_of_withdrawn {c : Instr} {s v : State} (h : Announced (withdrawn c s) v) :
    Announced (if c = .pulseEnd .pathSwitch then { s with pulses := { s.pulses with pathSwitch := none } } else s) v := by
  cases c
  case pulseEnd e => cases e <;> exact h
  all_goals exact h

/-! ## The statement of the ranking -/

/-- The first entry of the list says what the head is. -/
theorem headOf_cons (e : RankEntry) (rest : List RankEntry) : headOf (e :: rest) = if e.selectable then some e.path else none :=
  rfl

/-- What judges at most `n` times settles with that said of it (R10, R24, R50). -/
theorem judged_settles {p : PathId} {n : Nat} {c : Instr} {s u : State} (row : exec c s = .next (settle s u))
    (h : Announces p n s u) : ∃ v u, JudgedUpTo p n s v ∧ Unannounced v u ∧ Settles c s u := by
  obtain ⟨v, judges, same⟩ := h
  exact ⟨v, u, judges.judged, unannounced_of_heralds same, row⟩

/-- Settles O9: the ranking from what every event leaves; the announcements from the recomputation; command by command what its own
effect leaves to that; and, of the four that may judge, how often they do. -/
theorem headAndFallbackChangesAreAnnounced : Obligations.HeadAndFallbackChangesAreAnnounced := by
  refine ⟨?_, ?_, announced_fadeJudged, ?_⟩
  · rintro o s t rfl
    obtain ⟨-, -, -, -, list, head, fallback, -⟩ := settled_settle o s
    refine ⟨list, head, fun entry entries => ?_, fun e rest front => ?_, ?_, announcedAlone_settle o s⟩
    · obtain rfl : entry = rankEntry (settle o s) := funext entries
      rw [list]
      exact rankList_groups (settle o s)
    · rw [head, front, headOf_cons]
    · rw [fallback, fallbackHolds_iff]
  · intro c s b noReset noCarry noReport noUnknown noSend is
    have calm : mayJudge c = false := by
      cases c
      case carry => exact absurd rfl (noCarry _ _ _)
      case report => exact absurd rfl (noReport _ _ _ _)
      case unknownUnitMessage => exact absurd rfl (noUnknown _ _ _ _ _)
      case sendStart => exact absurd rfl (noSend _)
      all_goals rfl
    obtain ⟨o, u, left, same⟩ := leaves_heralds c s noReset calm
    rw [is]
    exact ⟨_, left, announced_of_withdrawn (announced_congr same (announced_settle o u))⟩
  · rintro p c n s (⟨⟨x, y, z, rfl⟩ | rfl, rfl⟩ | ⟨⟨x, l, rfl⟩ | ⟨w, x, y, z, rfl⟩, rfl⟩)
    · exact judged_settles rfl (announces_doReport p x y z s)
    · exact judged_settles rfl (announces_doSendStart p s)
    · exact judged_settles rfl (announces_doCarry p x l s)
    · exact judged_settles rfl (announces_doUnknownUnitMessage p w x y z s)

/-! ## The alarm unit -/

/-- ALARM: a pending and enabled cause of a level from 1, at or above the threshold. -/
theorem alarmLevel_iff (u : AlarmUnit) : alarmLevel u = true ↔ ∃ c : CauseId, u.causes[c].pending = true
    ∧ u.causes[c].enabled = true ∧ 1 ≤ u.causes[c].level.toNat ∧ u.threshold.toNat ≤ u.causes[c].level.toNat := by
  have level (x : BitVec 2) : (x != 0) = true ↔ 1 ≤ x.toNat := by
    rw [bne_iff_ne, ne_eq, ← BitVec.toNat_inj, Nat.one_le_iff_ne_zero]
    rfl
  simp only [alarmLevel, AlarmCause.active, Vector.any_toList, Vector.any_eq_true, Bool.and_eq_true, decide_eq_true_iff, level,
    and_assoc, Fin.exists_iff, Fin.getElem_fin]

/-- The critical flag: a pending and enabled cause of level 3. -/
theorem criticalActive_iff (u : AlarmUnit) : criticalActive u = true ↔ ∃ c : CauseId, u.causes[c].pending = true
    ∧ u.causes[c].enabled = true ∧ u.causes[c].level.toNat = 3 := by
  have level (x : BitVec 2) : ((x != 0) = true ∧ (x == 3) = true) ↔ x.toNat = 3 := by revert x; decide
  simp only [criticalActive, AlarmCause.active, Vector.any_toList, Vector.any_eq_true, Bool.and_eq_true, and_assoc, level,
    Fin.exists_iff, Fin.getElem_fin]

theorem settle_alarm (o s : State) : (settle o s).alarm = (refreshAlarm (rerank (beforeRanking o s))).alarm := by
  obtain ⟨v, a, r, n, h⟩ := settle_parts o s
  rw [h]

/-- The CRITICAL pulse starts when the flag becomes set at an event, and is left alone otherwise. -/
theorem settle_critical (o s : State) : (settle o s).pulses.critical
    = if (settle o s).alarm.inService && !s.alarm.inService then some 0 else s.pulses.critical := by
  obtain ⟨pulse, flag⟩ := critical_rerank (beforeRanking o s)
  rw [beforeRanking_pulses] at pulse
  rw [beforeRanking_inService] at flag
  rw [settle_alarm, settle_pulses, ← pulse, ← flag, refreshAlarm]
  dsimp only
  split <;> rfl

/-- Settles O10: the outputs from what every event leaves, the pulse from where the flag becomes set, and from what the commands do
to flag and pulse by their own effect. -/
theorem alarmOutputsFollowTheCauses : Obligations.AlarmOutputsFollowTheCauses := by
  intro outputs means
  have settles (b o s : State) (pulse : s.pulses.critical = b.pulses.critical) (flag : s.alarm.inService = b.alarm.inService) :
      outputs b (settle o s) := by
    obtain ⟨-, -, -, -, -, -, -, alarm, critical⟩ := settled_settle o s
    have pulses := settle_critical o s
    rw [pulse, flag] at pulses
    refine (means _ _).mpr ⟨by rw [alarm, alarmLevel_iff], by rw [critical, criticalActive_iff], fun set clear => ?_,
      fun stays => ?_⟩
    · rw [pulses, set, clear]
      rfl
    · rw [pulses]
      rcases stays with clear | set
      · rw [clear]
        rfl
      · rw [set, Bool.not_true, Bool.and_false]
        rfl
  refine ⟨fun o s => settles s o s rfl rfl, fun c s b noReset is => ?_⟩
  obtain ⟨o, u, left, pulse, flag⟩ := leaves_critical c s noReset
  have before : (withdrawn c s).pulses.critical = b.pulses.critical ∧ s.alarm.inService = b.alarm.inService := by
    rw [is]
    cases c
    case pulseEnd e => cases e <;> exact ⟨rfl, rfl⟩
    all_goals exact ⟨rfl, rfl⟩
  exact ⟨_, left, settles b o u (pulse.trans before.1) (flag.trans before.2)⟩

end Sys2Proof.Announcing
end

section
/-! SUPPORT. Which records an event marks (R178), and what every status record shows, field by field and bit by bit (R184, R186). -/

namespace Sys2Proof.StatusRecords

open Machine

/-! ## Changed records are marked -/

/-- The dates of the offers show in no record. -/
theorem recordFields_dateOffers (s : State) (r : RecordId) : recordFields (dateOffers s) r = recordFields s r := by
  have ring (n : RingId) : outRingFields (dateOffers s) n = outRingFields s n := by
    have dated : (dateOffers s).outRings[n]
        = { s.outRings[n] with since := date s (outcomeReady s n) s.outRings[n].since } := Vector.getElem_ofFn _
    simp only [outRingFields, dated]
    rfl
  unfold recordFields
  simp only [ring]
  rfl

/-- The marks are set, and the offers dated, on a state that the event's other consequences have left. -/
theorem settle_marked (o s : State) : ∃ w n, settle o s = { dateOffers (markChanges o w) with events := n } ∧ w.mem = s.mem := by
  obtain ⟨w, is⟩ : ∃ w, w = refreshLines (refreshAlarm (rerank (beforeRanking o s))) := ⟨_, rfl⟩
  have last : consequences o s = dateOffers (markChanges o w) := by rw [is]; rfl
  have keeps (x : State) : (kept x).mem = x.mem := rfl
  refine ⟨w, (dateOffers (markChanges o w)).events + 1, by rw [settle_eq, last], ?_⟩
  rw [is, ← keeps, kept_refreshLines, kept_refreshAlarm, kept_rerank, beforeRanking, kept_announceRain, kept_takeInputs,
    kept_refreshLines, keeps]

theorem recordFields_events (s : State) (n : Nat) (r : RecordId) : recordFields { s with events := n } r = recordFields s r := rfl

theorem recordFields_status (s : State) (v : StatusWriter) (r : RecordId) :
    recordFields { s with status := v } r = recordFields s r := rfl

/-- A record shows no mark and no date. -/
theorem marking_marked (o w : State) (n : Nat) : marking { dateOffers (markChanges o w) with events := n } = marking w := by
  funext r
  obtain ⟨v, marks⟩ := markChanges_eq o w
  rw [marking, recordFields_events, recordFields_dateOffers, marks, recordFields_status, marking]

/-- Every record that is marked is marked, and a change during its own burst is kept apart. -/
theorem markRecords_marks (l : List RecordId) (s : State) (r : RecordId) (listed : r ∈ l) :
    (l.foldl (fun s r => markRecord r s) s).status.records[r].changed = true
    ∧ (burstWrites r s = true → (l.foldl (fun s r => markRecord r s) s).status.records[r].again = true) := by
  induction l generalizing s with
  | nil => exact absurd listed List.not_mem_nil
  | cons q l ih =>
    rw [List.foldl_cons]
    rcases List.mem_cons.mp listed with rfl | later
    · obtain ⟨changed, again⟩ := keepsMarks_markRecords l (markRecord r s) r
      have marked := markRecord_get r r s
      rw [if_pos rfl] at marked
      refine ⟨changed (by rw [marked]), fun busy => again ?_⟩
      rw [marked, busy, Bool.or_true]
    · exact ih (markRecord q s) later

/-- A record whose marking an event changed is marked after it (R178). -/
theorem settle_marks (o s : State) (r : RecordId) (changed : marking (settle o s) r ≠ marking o r) :
    (settle o s).status.records[r].changed = true
    ∧ ∀ e, s.mem.burst = some e → e.source = .status r → (settle o s).status.records[r].again = true := by
  obtain ⟨w, n, settled, mem⟩ := settle_marked o s
  rw [settled, marking_marked] at changed
  have listed : r ∈ (List.finRange 36).filter fun r => !(marking w r == marking o r) := by
    rw [List.mem_filter, Bool.not_eq_true', beq_eq_false_iff_ne]
    exact ⟨List.mem_finRange r, changed⟩
  have marks : markChanges o w = ((List.finRange 36).filter fun r => !(marking w r == marking o r)).foldl
      (fun s r => markRecord r s) w := rfl
  obtain ⟨marked, again⟩ := markRecords_marks _ w r listed
  rw [← marks] at marked again
  obtain ⟨keepsChanged, keepsAgain⟩ := keepsMarks_dateOffers (markChanges o w) r
  generalize dateOffers (markChanges o w) = dated at settled keepsChanged keepsAgain
  rw [settled]
  refine ⟨keepsChanged marked, fun e burst source => keepsAgain (again ?_)⟩
  rw [burstWrites, mem, burst]
  exact beq_iff_eq.mpr source

/-- What the state after a command is compared with: the state before it, after the clock's own part of it (entry 9). -/
def comparedWith (c : Instr) (s : State) : State :=
  match c with
  | .probeChannelUnderflow p => reloadProbe p s
  | .holdCompareMatch p => reachCompare p s
  | _ => s

/-- Every command but RESET leaves the consequences of an event compared with that state. -/
theorem leaves_compared (c : Instr) (s : State) (noReset : ∀ straps, c ≠ .reset straps) :
    ∃ u, Leaves c s (settle (comparedWith c s) u) := by
  cases c
  case reset straps => exact absurd rfl (noReset straps)
  case burstEnd => exact ⟨_, leaves_of_drain rfl (by rw [settle_mem, doBurstEnd_line]) (.inl rfl)⟩
  case burstError k => exact ⟨_, leaves_of_drain rfl (by rw [settle_mem, doBurstError_line]) (.inr ⟨k, rfl⟩)⟩
  all_goals exact ⟨_, rfl⟩

/-- Only what becomes of the path itself matters. -/
theorem onPath_congr (p : PathId) (f g : Path → Path) (s : State) (h : f s.paths[p] = g s.paths[p]) :
    onPath p f s = onPath p g s := by
  rw [onPath, h]
  rfl

/-- A running probe channel is reloaded with its setup and keeps running (R169). -/
theorem reloadProbe_eq (p : PathId) (s : State) : reloadProbe p s = if s.paths[p].probe.run = true then
    onPath p (fun x => { x with probe := ⟨x.setup.probeReload, true, x.setup.probeReload, none, x.setup.probeTap⟩ }) s else s := by
  rw [reloadProbe]
  split
  next runs => exact onPath_congr p _ _ s (by rw [presetProbe, Channel.preset, runs])
  next => rfl

/-- A hold counter above its compare comes down to it. -/
theorem reachCompare_eq (p : PathId) (s : State) : reachCompare p s = match s.paths[p].holdLow.loadedCompare with
    | some k => if s.paths[p].holdLow.run = true ∧ k.toNat < holdValue s.paths[p] then onPath p (setHoldValue k.toNat) s else s
    | none => s := by
  rw [reachCompare]
  cases s.paths[p].holdLow.loadedCompare with
  | none => rfl
  | some k =>
    refine if_congr ?_ rfl rfl
    rw [Bool.and_eq_true, decide_eq_true_iff]

/-! ## The layout of a record (R186) -/

/-- Word 0 of a record. -/
theorem recordHeader_fields (s : State) (r : RecordId) : (recordHeader s r).extractLsb' 0 16 = s.status.records[r].updates
    ∧ (recordHeader s r).extractLsb' 16 16 = s.identity.generation ∧ (recordHeader s r).extractLsb' 32 16 = s.identity.site
    ∧ ((recordHeader s r).extractLsb' 48 16).toNat = r.val := by
  have number : r.val < 2 ^ 16 := by omega
  have fields := packWord_fields [(0, 16, s.status.records[r].updates.toNat), (16, 16, s.identity.generation.toNat),
    (32, 16, s.identity.site.toNat), (48, 16, r.val)]
    (by simpa only [List.forall_mem_cons, List.not_mem_nil, false_implies, implies_true, and_true] using
      ⟨BitVec.isLt _, BitVec.isLt _, BitVec.isLt _, number⟩) (by simp)
  simp only [List.forall_mem_cons] at fields
  obtain ⟨updates, generation, site, record, -⟩ := fields
  exact ⟨(updates (by decide)).trans (BitVec.ofNat_toNat _ _), (generation (by decide)).trans (BitVec.ofNat_toNat _ _),
    (site (by decide)).trans (BitVec.ofNat_toNat _ _), field_toNat number (record (by decide))⟩

/-- The next free bit is the one `behind` counts, when it counts fields as R186 lays them out. -/
theorem behind_eq {place : Nat → Nat → Nat} {behind : List Shown → Nat} (aligns : ∀ n w, place n w = (n + (w - 1)) / w * w)
    (nil : behind [] = 0) (snoc : ∀ l f, behind (l ++ [f]) = place (behind l) f.width + f.width) (l : List Shown) :
    behind l = nextFree l := by
  induction l using List.reverseRecOn with
  | nil => rw [nil, nextFree_nil]
  | append_singleton l f ih => rw [snoc, nextFree_snoc, ih, aligns, alignUp]

/-- A word cut from a record's bits has the bits of its place. -/
theorem cutWord_getLsbD (all words k : Nat) (inside : k < 64 * words) :
    (((List.range words).map fun i => BitVec.ofNat 64 (all >>> (64 * i))).getD (k / 64) 0).getLsbD (k % 64) = all.testBit k := by
  have word : k / 64 < words := by omega
  have bit : k % 64 < 64 := by omega
  have place : 64 * (k / 64) + k % 64 = k := by omega
  rw [List.getD_eq_getElem?_getD, List.getElem?_map, List.getElem?_range word, Option.map_some, Option.getD_some,
    BitVec.getLsbD_ofNat, Nat.testBit_shiftRight, place, decide_eq_true bit, Bool.true_and]

/-- A record's words fill its length. -/
theorem recordBody_length (s : State) (r : RecordId) : (recordBody s r).length + 1 = recordLength r := by
  rw [recordBody]
  split
  next completion =>
    obtain rfl : r = 35 := Fin.ext completion
    rw [completionWords]
    split <;> rfl
  next =>
    have positive : 1 ≤ recordLength r := by
      rw [recordLength]
      repeat' split
      all_goals decide
    rw [List.length_map, List.length_range]
    omega

/-- Words 1 to 3 of the completion record (Table 12-10). -/
theorem completionWords_fields (s : State) : ∃ x stamp : Word, completionWords s = [x, stamp, 0]
    ∧ x.extractLsb' 24 8 = (if s.cmd.busy = none then 0 else 1) ∧ x.extractLsb' 32 16 = s.cmd.count ∧ x.extractLsb' 48 16 = 0
    ∧ match s.cmd.last with
      | some c => x.extractLsb' 0 8 = c.number ∧ x.extractLsb' 8 8 = c.code ∧ (x.extractLsb' 16 8).toNat = c.result.code
        ∧ stamp = stampWord c.stamp
      | none => x.extractLsb' 0 24 = 0 ∧ stamp = 0 := by
  have small : bit s.cmd.busy.isSome < 2 ^ 8 := Nat.lt_of_lt_of_le (bit_lt _) (by decide)
  have busy : BitVec.ofNat 8 (bit s.cmd.busy.isSome) = if s.cmd.busy = none then 0 else 1 := by
    cases s.cmd.busy <;> rfl
  rw [completionWords]
  cases s.cmd.last with
  | none =>
    let parts : List (Nat × Nat × Nat) := [(24, 8, bit s.cmd.busy.isSome), (32, 16, s.cmd.count.toNat)]
    have fit : ∀ x ∈ parts, x.2.2 < 2 ^ x.2.1 := by
      simpa only [parts, List.forall_mem_cons, List.not_mem_nil, false_implies, implies_true, and_true] using
        ⟨small, BitVec.isLt _⟩
    have fields := packWord_fields parts fit (by simp [parts])
    simp only [parts, List.forall_mem_cons] at fields
    obtain ⟨flag, count, -⟩ := fields
    exact ⟨_, 0, rfl, (flag (by decide)).trans busy, (count (by decide)).trans (BitVec.ofNat_toNat _ _),
      packWord_unassigned parts fit 48 16 (by simp [parts]), packWord_unassigned parts fit 0 24 (by simp [parts]), rfl⟩
  | some c =>
    have result : c.result.code < 2 ^ 8 := by cases c.result <;> decide
    let parts : List (Nat × Nat × Nat) := [(0, 8, c.number.toNat), (8, 8, c.code.toNat), (16, 8, c.result.code),
      (24, 8, bit s.cmd.busy.isSome), (32, 16, s.cmd.count.toNat)]
    have fit : ∀ x ∈ parts, x.2.2 < 2 ^ x.2.1 := by
      simpa only [parts, List.forall_mem_cons, List.not_mem_nil, false_implies, implies_true, and_true] using
        ⟨BitVec.isLt _, BitVec.isLt _, result, small, BitVec.isLt _⟩
    have fields := packWord_fields parts fit (by simp [parts])
    simp only [parts, List.forall_mem_cons] at fields
    obtain ⟨number, code, res, flag, count, -⟩ := fields
    exact ⟨_, _, rfl, (flag (by decide)).trans busy, (count (by decide)).trans (BitVec.ofNat_toNat _ _),
      packWord_unassigned parts fit 48 16 (by simp [parts]), (number (by decide)).trans (BitVec.ofNat_toNat _ _),
      (code (by decide)).trans (BitVec.ofNat_toNat _ _), field_toNat result (res (by decide)), rfl⟩

/-- The stamp word: nanoseconds, quality, low 32 bits of the seconds (R184). -/
theorem stampWord_fields (v : Stamp) : ((stampWord v).extractLsb' 0 30).toNat = v.time % 1000000000
    ∧ ((stampWord v).extractLsb' 30 2).toNat = v.quality.code
    ∧ ((stampWord v).extractLsb' 32 32).toNat = v.time / 1000000000 % 4294967296 := by
  have nanoseconds : v.time % Config.second < 2 ^ 30 := Nat.lt_trans (Nat.mod_lt _ (by decide)) (by decide)
  have quality : v.quality.code < 2 ^ 2 := by cases v.quality <;> decide
  have seconds : v.time / Config.second % 4294967296 < 2 ^ 32 := Nat.mod_lt _ (by decide)
  have fields := packWord_fields [(0, 30, v.time % Config.second), (30, 2, v.quality.code),
    (32, 32, v.time / Config.second % 4294967296)]
    (by simpa only [List.forall_mem_cons, List.not_mem_nil, false_implies, implies_true, and_true] using
      ⟨nanoseconds, quality, seconds⟩) (by simp)
  simp only [List.forall_mem_cons] at fields
  obtain ⟨low, middle, high, -⟩ := fields
  exact ⟨field_toNat nanoseconds (low (by decide)), field_toNat quality (middle (by decide)),
    field_toNat seconds (high (by decide))⟩

/-! ## The fields of each record (Table 11-2) -/

/-- A field that may be absent shows its presence and its value, 0 when it is absent. -/
theorem fOpt_shown {α : Type} (field : Nat → Shown) (value : α → Nat) (v : Option α) :
    fOpt (fun x => field (value x)) (field 0) v = [fFlag (v.map value).isSome, field ((v.map value).getD 0)] := by
  cases v <;> rfl

theorem fOpt_f8 (v : Option Nat) : fOpt f8 (f8 0) v = [fFlag v.isSome, f8 (v.getD 0)] := by cases v <;> rfl

theorem fOpt_f16 (v : Option Nat) : fOpt f16 (f16 0) v = [fFlag v.isSome, f16 (v.getD 0)] := by cases v <;> rfl

theorem fOpt_f64 (v : Option Nat) : fOpt f64 (f64 0) v = [fFlag v.isSome, f64 (v.getD 0)] := by cases v <;> rfl

theorem fOpt_count (v : Option (BitVec 32)) : fOpt fCount (f32 0) v = [fFlag (v.map (·.toNat)).isSome, f32 ((v.map (·.toNat)).getD 0)] :=
  fOpt_shown f32 (fun x : BitVec 32 => x.toNat) v

theorem fOpt_stamp (v : Option Stamp) :
    fOpt fStamp (f64 0) v = [fFlag (v.map fun t => (stampWord t).toNat).isSome, f64 ((v.map fun t => (stampWord t).toNat).getD 0)] :=
  fOpt_shown f64 (fun t => (stampWord t).toNat) v

theorem fOpt_int (v : Option Int) : fOpt fInt (f32 0) v = [fFlag v.isSome, fInt (v.getD 0)] := by cases v <;> rfl

/-- A list shows its count and the groups of its capacity. -/
theorem fList_eq {α : Type} (capacity : Nat) (f : α → List Shown) (unused : List Shown) (l : List α) :
    fList capacity f unused l = ⟨16, (l.map f).length, false⟩
      :: ((l.map f).flatten ++ (List.replicate (capacity - (l.map f).length) unused).flatten) := by
  rw [fList, List.length_map, List.flatMap_def]
  rfl

theorem fAwait_eq : fAwait = fun e => [f8 e.kind.code, f8 ((e.copy.map (·.ring.val)).getD 0),
    f16 ((e.copy.map (·.slot)).getD 0), f8 e.probe.toNat, f16 (1000 - e.ticks)] := by
  funext e
  rw [fAwait]
  cases e.copy <;> rfl

/-- The path record of a path. -/
theorem recordFields_path (s : State) (p : PathId) : recordFields s ⟨p.val, by omega⟩ = pathFields s.paths[p] := dif_pos p.isLt

/-- The record of an inbound ring. -/
theorem recordFields_inRing (s : State) (n : RingId) :
    recordFields s ⟨7 + n.val, by omega⟩ = inRingFields s.inRings[n] (s.alarm.causes[overflowCause n]).pending := by
  have kind : ¬ 7 + n.val < 5 ∧ 7 + n.val ≠ 5 ∧ 7 + n.val ≠ 6 ∧ 7 + n.val < 11 := by omega
  simp [recordFields, kind]

/-- The record of an outbound ring. -/
theorem recordFields_outRing (s : State) (n : RingId) : recordFields s ⟨11 + n.val, by omega⟩ = outRingFields s n := by
  have kind : ¬ 11 + n.val < 5 ∧ 11 + n.val ≠ 5 ∧ 11 + n.val ≠ 6 ∧ ¬ 11 + n.val < 11 ∧ 11 + n.val < 15 := by omega
  simp [recordFields, kind]

/-- The record of a stream. -/
theorem recordFields_stream (s : State) (i : StreamId) : recordFields s ⟨15 + i.val, by omega⟩ = streamFields s i := by
  have kind : ¬ 15 + i.val < 5 ∧ 15 + i.val ≠ 5 ∧ 15 + i.val ≠ 6 ∧ ¬ 15 + i.val < 11 ∧ ¬ 15 + i.val < 15
      ∧ 15 + i.val < 31 := by omega
  simp [recordFields, kind]

/-- The terms of the five paths follow one another. -/
theorem flatMap_paths (f : PathId → List Shown) : (List.finRange 5).flatMap f = f 0 ++ f 1 ++ f 2 ++ f 3 ++ f 4 := by
  simp [List.finRange_succ]

/-- Streams and alarm records are the two of 32 words around record 31. -/
theorem recordLength_eq (r : RecordId) : recordLength r = (if r.val < 5 then 64 else if r.val = 5 then 32 else if r.val = 6 then 16
    else if r.val < 11 then 8 else if r.val < 32 then 32 else if r.val = 32 then 8 else if r.val = 33 then 40
    else if r.val = 34 then 16 else 4) := by
  revert r
  decide

/-- Settles O11: the marks by comparison, the layout bit by bit, and the fields record by record. -/
theorem changedRecordsAreMarked : Obligations.ChangedRecordsAreMarked := by
  refine ⟨fun o s => ⟨kept_settle o s, settle_marks o s⟩, ?_, fun _ _ => rfl, fun r => ⟨rfl, recordLength_eq r⟩, ?_, ?_, ?_,
    stampWord_fields⟩
  · intro c s o noReset is
    obtain ⟨u, left⟩ := leaves_compared c s noReset
    refine ⟨_, left, fun r changed => ?_⟩
    rw [settle_mem]
    refine settle_marks _ _ r fun same => changed (same.trans ?_)
    rw [is]
    cases c
    case probeChannelUnderflow p => exact congrArg (marking · r) (reloadProbe_eq p s)
    case holdCompareMatch p => exact congrArg (marking · r) (reachCompare_eq p s)
    all_goals rfl
  · intro s base r
    obtain ⟨updates, generation, site, number⟩ := recordHeader_fields s r
    refine ⟨recordHeader s r, recordBody s r, rfl, recordBody_length s r, updates, generation, site, number, ?_, ?_⟩
    · intro other place behind aligns nil snoc k inside
      rw [recordBody, if_neg other] at inside ⊢
      rw [List.length_map, List.length_range] at inside
      rw [cutWord_getLsbD _ _ _ inside, packFields_testBit]
      simp only [behind_eq aligns nil snoc, aligns, alignUp]
    · intro completion
      rw [recordBody, if_pos completion]
      exact completionWords_fields s
  · intro s
    refine ⟨?_, ?_, ?_, ?_, ?_, ?_, rfl, rfl, rfl, ?_⟩
    · rintro p u q x rfl rfl rfl
      rw [recordFields_path]
      unfold pathFields
      extract_lets u q
      simp only [fOpt_f8, fAwait_eq]
      simp only [fOpt_shown f8, fOpt_count, fList_eq]
      simp only [f8, f16, f32, f64, fFlag, fCount, fStamp, bit, fChannel, List.append_assoc, List.cons_append, List.nil_append]
      cases u.farStatus <;> rfl
    · intro terms is
      obtain rfl : terms = termFields s := funext is
      have ranking : recordFields s 5 = rankingFields s := rfl
      rw [ranking, rankingFields, flatMap_paths]
      simp only [fOpt_shown f8, fOpt_f64, fOpt_stamp, fList_eq]
      simp only [f8, f64, fFlag, fCount, f32, bit, List.append_assoc, List.cons_append, List.nil_append]
    · have time : recordFields s 6 = timeFields s.time := rfl
      rw [time, timeFields, fOpt_int, rateCorrection]
      cases s.time.slew <;> rfl
    · rintro n r rfl
      rw [recordFields_inRing, inRingFields, fOpt_f16]
      rfl
    · rintro n r c slots rfl rfl rfl
      rw [recordFields_outRing, outRingFields]
      simp only [fOpt_f16]
      simp only [f8, f16, f32, fFlag, fCount, bit, List.append_assoc, List.cons_append, List.nil_append]
      rfl
    · rintro i x rfl
      rw [recordFields_stream]
      rfl
    · have log : recordFields s 34 = logFields s := rfl
      rw [log, logFields, fOpt_f16, fList_eq]
      simp only [f8, f16, f32, f64, fFlag, fCount, fStamp, bit, List.append_assoc, List.cons_append, List.nil_append]
      cases s.log.lastAbort <;> rfl
  · refine ⟨?_, ?_, ?_, ?_, ?_, ?_, ?_, ?_, ?_, ?_, ?_, ?_, ?_, ?_⟩ <;> rfl

end Sys2Proof.StatusRecords
end

section
/-! SUPPORT. The state at reset, record by record (R46, R98, R115, R165, R183), and what makes a path selectable (R47, R48). -/

namespace Sys2Proof.AtReset

open Machine RankingAndFallback

@[simp] theorem doReset_path (straps : BitVec 4) (s : State) (p : PathId) : (doReset straps s).paths[p] = .reset :=
  Vector.getElem_replicate p.isLt

@[simp] theorem doReset_window (straps : BitVec 4) (s : State) (e : Fin 15) :
    (doReset straps s).mem.windows[e] = ⟨0, 0, .plain, 0, 0, 0, false⟩ :=
  Vector.getElem_replicate e.isLt

@[simp] theorem doReset_outRing (straps : BitVec 4) (s : State) (n : RingId) : (doReset straps s).outRings[n] = .reset :=
  Vector.getElem_replicate n.isLt

@[simp] theorem doReset_nextSequence (straps : BitVec 4) (s : State) (i : StreamId) : (doReset straps s).nextSequence[i] = 0 :=
  Vector.getElem_replicate i.isLt

@[simp] theorem doReset_counters (straps : BitVec 4) (s : State) (n : RingId) :
    (doReset straps s).sel.counters[n] = ⟨0, 0, 0, 0, 0, 0, 0, 0, 0⟩ :=
  Vector.getElem_replicate n.isLt

@[simp] theorem doReset_stream (straps : BitVec 4) (s : State) (i : StreamId) : (doReset straps s).streams[i] = .reset :=
  Vector.getElem_replicate i.isLt

@[simp] theorem doReset_filter (straps : BitVec 4) (s : State) (f : Fin 8) : (doReset straps s).filters[f] = .reset :=
  Vector.getElem_replicate f.isLt

@[simp] theorem doReset_inRing (straps : BitVec 4) (s : State) (n : RingId) : (doReset straps s).inRings[n] = .reset :=
  Vector.getElem_replicate n.isLt

@[simp] theorem doReset_mark (straps : BitVec 4) (s : State) (r : RecordId) :
    (doReset straps s).status.records[r] = ⟨false, false, 0, none, none⟩ :=
  Vector.getElem_replicate r.isLt

/-- Master 0 alone has privilege 0 at reset (R83). -/
theorem doReset_master (straps : BitVec 4) (s : State) (m : Master) :
    (doReset straps s).mem.masters[m] = if m = 0 then 0 else 3 := by
  change ((Vector.replicate 8 3).set 0 0 : Vector (BitVec 2) 8)[m] = _
  clear s straps
  revert m
  decide

/-- Settles O3: one record for all five paths, and the time base's own. -/
theorem resetLeavesPathsAndTimeBase : Obligations.ResetLeavesPathsAndTimeBase := by
  intro straps s
  refine ⟨doReset straps s, exec_reset straps s, fun p => ?_, ?_⟩
  · rw [doReset_path]
    refine ⟨rfl, rfl, rfl, rfl, rfl, rfl, rfl, rfl, rfl, rfl⟩
  · repeat' constructor

/-- Settles O4, record by record. -/
theorem resetLeavesMemoryPathRingsAndMerge : Obligations.ResetLeavesMemoryPathRingsAndMerge := by
  intro straps s
  refine ⟨doReset straps s, exec_reset straps s, rfl, rfl, rfl, doReset_window straps s, doReset_master straps s,
    rfl, rfl, rfl, rfl, rfl, rfl, rfl, rfl, rfl, rfl, rfl, rfl, rfl, fun n => ?_, doReset_nextSequence straps s,
    rfl, rfl, rfl, rfl, rfl, rfl, rfl, rfl, rfl, doReset_counters straps s, doReset_stream straps s, doReset_filter straps s,
    doReset_inRing straps s⟩
  rw [doReset_outRing]
  exact ⟨rfl, rfl, rfl, rfl, rfl, rfl, rfl, rfl, rfl, rfl, rfl, rfl, rfl⟩

/-- Settles O5: every line takes the level outside, and what is outside the block is left alone. -/
theorem resetLeavesLinesAlarmsAndCommands : Obligations.ResetLeavesLinesAlarmsAndCommands := by
  intro straps s
  refine ⟨doReset straps s, exec_reset straps s, BetweenEvents.doReset_line straps s, rfl, alarmUnit_reset_cause, rfl, rfl, rfl, rfl,
    rfl, fun r => ?_, rfl, rfl⟩
  rw [doReset_mark]
  exact ⟨rfl, rfl, rfl⟩

/-! ## Selectability and effective latency -/

/-- A path in service (R47). -/
theorem inService_iff (s : State) (p : PathId) : inService s p = true ↔ if p = 4 then s.paths[p].sup.state = .up
    else s.paths[p].sup.state = .up ∨ s.paths[p].sup.state = .fading := by
  rw [inService]
  by_cases ground : p = 4
  · subst ground
    exact beq_iff_eq
  · rw [if_pos ((isAir_iff p).mpr ground), if_neg ground, PathState.inService, Bool.or_eq_true, beq_iff_eq, beq_iff_eq]

/-- A selectable path is in service, and an air path only while fallback is not forced (R47). -/
theorem selectable_iff (s : State) (p : PathId) :
    selectable s p = true ↔ inService s p = true ∧ (p = 4 ∨ s.ranking.forced = false) := by
  have air : isAir p = true ↔ p ≠ 4 := isAir_iff p
  rw [selectable, Bool.and_eq_true, Bool.not_eq_true', Bool.and_eq_false_iff, ← Bool.not_eq_true, air, not_not]

/-- The serialization of a profile is the table's figure (R25). -/
theorem serialization_eq (k : Nat) : Config.serialization k = if k = 1 then 10880 else if k = 2 then 5440 else if k = 3 then 3627
    else if k = 4 then 2720 else if k = 5 then 1813 else if k = 6 then 1360 else 0 := by
  unfold Config.serialization
  split
  case h_7 no1 no2 no3 no4 no5 no6 =>
    rw [if_neg no1, if_neg no2, if_neg no3, if_neg no4, if_neg no5, if_neg no6]
  all_goals rfl

/-- The ground path has a figure of its own (R48). -/
theorem serializationTerm_eq (s : State) (p : PathId) :
    serializationTerm s p = if p = 4 then 544 else Config.serialization s.paths[p].sup.contract := by
  rw [serializationTerm]
  by_cases ground : p = 4
  · rw [ground]
    rfl
  · rw [if_pos ((isAir_iff p).mpr ground), if_neg ground]

/-- Settles O12, a part for each of the four terms. -/
theorem selectabilityAndEffectiveLatency : Obligations.SelectabilityAndEffectiveLatency := by
  intro s p
  refine ⟨inService_iff s p, selectable_iff s p, fun out => ?_, fun serving => ?_⟩
  · rw [effectiveLatency, out]
    rfl
  · rw [effectiveLatency, if_pos serving, serializationTerm_eq, serialization_eq, fadeTerm, recoveryTerm]
    simp only [beq_iff_eq]

end Sys2Proof.AtReset
end

section
/-! SUPPORT. The setup words of identity, selector, time, paths, streams, filters, lines and alarms (R49, R72, R116, R135, R144, R168,
R171, R172, R175, R181). -/

namespace Sys2Proof.SetupWords

open Machine MemoryPath

/-! ## Words taken whole -/

/-- A word that no condition judges is taken. -/
theorem endsIn_word {c : Instr} {m : Master} {o : Nat} {d : Word} {s t : State} (ready : SetupReady s m)
    (row : exec c s = .next (settle s (arriveSetup o m 0xFF d s))) (taken : takeSetupWord o d s = .taken t) (inRegion : o < 2048) :
    EndsIn c s (wordPassed s o m d t) :=
  endsIn_taken row inRegion ready taken rfl

/-- A word that is trapped whatever its state. -/
theorem endsIn_trap {c : Instr} {m : Master} {o : Nat} {d : Word} {s : State} (ready : SetupReady s m)
    (row : exec c s = .next (settle s (arriveSetup o m 0xFF d s))) (trapped : takeSetupWord o d s = .trapped)
    (inRegion : o < 2048) : EndsIn c s (wordTrapped s o m d) :=
  endsIn_trapped row inRegion ready trapped

/-- A field of a word is not 0 as a number when it is not 0 as bits. -/
theorem bits_ne_zero (d : Word) (lo n : Nat) : (bits d lo n != 0) = true ↔ field d lo n ≠ 0 := by
  rw [bne_iff_ne, field, ne_eq, ← BitVec.toNat_inj]
  exact not_congr (Eq.congr_right (BitVec.toNat_ofNat ..))

/-! ## Identity, selector, alarms -/

/-- Settles O15: the identity words and the cause word are taken as they come, the others by their one condition. -/
theorem identitySelectorAndAlarmWords : Obligations.IdentitySelectorAndAlarmWords := by
  intro m d s ready
  have selector := endsIn_judged (c := .selectorWord m 0xFF d) (o := 48) rfl (by decide) ready (takeSetupWord_selector d s)
    bne_iff_ne
  have control := endsIn_judged (c := .alarmSetupWord m 0xFF 1 d) (o := 137) rfl (by decide) ready (takeSetupWord_alarm 1 d s)
    (bits_ne_zero d 0 2)
  exact ⟨endsIn_word ready rfl (takeSetupWord_identity 0 d s) (by decide),
    endsIn_word ready rfl (takeSetupWord_identity 1 d s) (by decide), selector.1, fun zero => selector.2 (not_not.mpr zero),
    endsIn_word ready rfl (takeSetupWord_alarm 0 d s) (by decide), control.1, fun zero => control.2 (not_not.mpr zero)⟩

/-! ## Time setup (R72) -/

/-- A limit that HOLDOVER has reached ends it (R70). -/
theorem limitReached_reached (s : State) (h : s.time.state = .holdover ∧ s.time.holdoverLimit ≤ s.time.holdoverElapsed) :
    limitReached s = raiseCause 7 { s with time := { s.time with state := .free } } := by
  have reached : (s.time.state == .holdover && s.time.holdoverLimit ≤ s.time.holdoverElapsed) = true := by
    rw [h.1, decide_eq_true h.2]
    rfl
  rw [limitReached, if_pos reached, setDiscipline, h.1]
  rfl

/-- Before that it changes nothing. -/
theorem limitReached_before (s : State) (h : ¬ (s.time.state = .holdover ∧ s.time.holdoverLimit ≤ s.time.holdoverElapsed)) :
    limitReached s = s := by
  rw [limitReached]
  refine if_neg ?_
  rwa [Bool.and_eq_true, beq_iff_eq, decide_eq_true_iff]

/-- The ranges of a time control word. -/
theorem timeControl_iff (d : Word) : (decide (10 ≤ field d 0 32) && decide (field d 0 32 ≤ 100000) && decide (1 ≤ field d 32 16))
    = true ↔ (10 ≤ field d 0 32 ∧ field d 0 32 ≤ 100000) ∧ 1 ≤ field d 32 16 := by
  simp only [Bool.and_eq_true, decide_eq_true_iff]

/-- Settles O20: control and set value by their ranges; a control word taken may end HOLDOVER. -/
theorem timeSetupWords : Obligations.TimeSetupWords := by
  intro m d s ready
  have control := endsIn_judged (c := .timeSetupWord m 0xFF 0 d) (o := 49) rfl (by decide) ready (takeSetupWord_time 0 d s)
    (timeControl_iff d)
  have setValue := endsIn_judged (c := .timeSetupWord m 0xFF 1 d) (o := 50) rfl (by decide) ready (takeSetupWord_time 1 d s)
    decide_eq_true_iff
  refine ⟨fun low high limit => ⟨fun reached => ?_, fun before => ?_⟩, fun out => control.2 (by omega), setValue.1,
    fun above => setValue.2 (by omega), endsIn_word ready rfl (takeSetupWord_time 2 d s) (by decide)⟩
  · have taken := control.1 ⟨⟨low, high⟩, limit⟩
    rwa [limitReached_reached { s with time := { s.time with
      lockThreshold := field d 0 32, holdoverLimit := field d 32 16 } } reached] at taken
  · have taken := control.1 ⟨⟨low, high⟩, limit⟩
    rwa [limitReached_before { s with time := { s.time with
      lockThreshold := field d 0 32, holdoverLimit := field d 32 16 } } before] at taken

/-! ## The path setup record (R44, R49, R168, R171, R175) -/

/-- A WIDE pair is stopped when its low channel is, a NARROW one when both are (R171). -/
theorem pairStopped_iff (x : Path) : pairStopped x = true ↔
    x.holdLow.run = false ∧ (x.setup.holdMode = .narrow → x.holdHigh.run = false) := by
  rw [pairStopped]
  cases x.setup.holdMode <;> simp

/-- What a mode word may not do: change the role of an enabled path, or the hold mode of an enabled one or of one whose pair runs. -/
theorem modeAllowed_iff (x : Path) (d : Word) : modeAllowed x d = true ↔
    ¬ ((Role.ofBit (d.getLsbD 0) ≠ x.setup.role ∧ x.sup.state ≠ .disabled)
      ∨ (holdModeOf d ≠ x.setup.holdMode ∧ (x.sup.state ≠ .disabled ∨ x.holdLow.run = true
        ∨ (x.setup.holdMode = .narrow ∧ x.holdHigh.run = true)))) := by
  rw [modeAllowed, Bool.and_eq_true, Bool.or_eq_true, Bool.or_eq_true, Bool.and_eq_true, pairStopped_iff, beq_iff_eq, beq_iff_eq,
    beq_iff_eq]
  simp only [← Bool.not_eq_true]
  tauto

/-- On a DISABLED path whose pair is stopped it may do both. -/
theorem modeAllowed_stopped {x : Path} {d : Word} (off : x.sup.state = .disabled) (stopped : pairStopped x = true) :
    modeAllowed x d = true := by
  simp [modeAllowed, off, stopped]

/-- A path with a mode word in force that keeps the hold mode. -/
def modeKept (d : Word) (x : Path) : Path :=
  { x with setup := { x.setup with
      role := Role.ofBit (d.getLsbD 0), check := d.getLsbD 1, priority := if d.getLsbD 2 then .below else .above } }

/-- A path with one in force that changes it: both channels of the pair are preset under the new mode (R171). -/
def modeChanged (d : Word) (new : HoldMode) (x : Path) : Path :=
  presetGuard (presetHold { x with setup := { x.setup with
    role := Role.ofBit (d.getLsbD 0), check := d.getLsbD 1, priority := if d.getLsbD 2 then .below else .above
    holdMode := new } })

theorem withMode_kept {d : Word} {x : Path} (same : holdModeOf d = x.setup.holdMode) : withMode d x = modeKept d x := by
  rw [withMode, same, if_pos (beq_self_eq_true _)]
  rfl

theorem withMode_changed {d : Word} {x : Path} {new : HoldMode} (asks : holdModeOf d = new) (changed : x.setup.holdMode ≠ new) :
    withMode d x = modeChanged d new x := by
  rw [withMode, asks]
  exact if_neg (by rw [beq_iff_eq]; exact changed.symm)

/-- Settles O21: a mode word is judged by what it would change, and does what its hold mode asks for. -/
theorem pathModeWord : Obligations.PathModeWord := by
  intro m p d s r h ready role mode
  obtain rfl : r = Role.ofBit (d.getLsbD 0) := role
  obtain rfl : h = holdModeOf d := mode
  have word := endsIn_judged (c := .pathModeWord m 0xFF p d) (o := 64 + 5 * p.val) rfl (by omega) ready
    (takeSetupWord_pathMode p d s) Iff.rfl
  refine ⟨fun hard => word.2 (mt (modeAllowed_iff _ d).mp (not_not.mpr hard)), fun mayRole same => ?_,
    fun off stopped wide narrow => ?_, fun off stopped guard narrow wide => ?_⟩
  · have taken := word.1 ((modeAllowed_iff _ d).mpr (by tauto))
    rwa [StatusRecords.onPath_congr p _ (modeKept d) s (withMode_kept same)] at taken
  · have taken := word.1 (modeAllowed_stopped off ((pairStopped_iff _).mpr ⟨stopped, fun is => by rw [wide] at is; cases is⟩))
    rwa [StatusRecords.onPath_congr p _ (modeChanged d .narrow) s (withMode_changed narrow (by rw [wide]; decide))] at taken
  · have taken := word.1 (modeAllowed_stopped off ((pairStopped_iff _).mpr ⟨stopped, fun _ => guard⟩))
    rwa [StatusRecords.onPath_congr p _ (modeChanged d .wide) s (withMode_changed wide (by rw [narrow]; decide))] at taken

/-- A tap has a code from 0 to 3. -/
theorem tapOfCode_none {n : Nat} (above : 3 < n) : Tap.ofCode n = none := by
  rw [Tap.ofCode] <;> omega

/-- A timers A word with a tap code that names no tap is trapped (R168). -/
theorem takeTimersA_trapped {p : PathId} {d : Word} {s : State}
    (out : 3 < field d 8 8 ∨ 3 < field d 24 8 ∨ 3 < field d 40 8) : takeTimersA p d s = .trapped := by
  rw [takeTimersA]
  split
  next probe silence hold =>
    rcases out with above | above | above
    · rw [tapOfCode_none above] at probe
      cases probe
    · rw [tapOfCode_none above] at silence
      cases silence
    · rw [tapOfCode_none above] at hold
      cases hold
  next => rfl

/-- Settles O22: timers A by its tap codes, timers B by its narrow values, the others as they come. -/
theorem timerPenaltyAndStatusBytesWords : Obligations.TimerPenaltyAndStatusBytesWords := by
  intro m p d s ready
  have timersB := endsIn_judged (c := .timerSetupWord m 0xFF p 1 d) (o := 66 + 5 * p.val) (P := field d 32 16 ≤ 255 ∧ field d 48 16 ≤ 255)
    (by rw [show 66 + 5 * p.val = 65 + 5 * p.val + (1 : Fin 2).val by omega]; rfl) (by omega) ready
    (takeSetupWord_timersB p d s) (by simp only [Bool.and_eq_true, decide_eq_true_iff])
  refine ⟨fun a b c probe silence hold => ?_, fun out => ?_, fun reload compare => timersB.1 ⟨reload, compare⟩,
    fun out => timersB.2 (by omega), endsIn_word ready rfl (takeSetupWord_penalties p d s) (by omega),
    endsIn_word ready rfl (takeSetupWord_statusBytes p d s) (by omega)⟩
  · refine endsIn_word ready rfl ((takeSetupWord_timersA p d s).trans ?_) (by omega)
    rw [takeTimersA, probe, silence, hold]
    rfl
  · exact endsIn_trap ready rfl ((takeSetupWord_timersA p d s).trans (takeTimersA_trapped out)) (by omega)

/-! ## Streams, filters, lines (R135, R144, R172) -/

/-- An action is read from its code. -/
theorem divertAction_ofCode (a : DivertAction) : DivertAction.ofCode a.code = some a := by cases a <;> rfl

/-- The width a line word asks for (Table 10-4). -/
theorem widthOfCode_eq (d : Word) : widthOfCode (field d 10 2)
    = if field d 10 2 = 0 then 0 else if field d 10 2 = 1 then 2 else if field d 10 2 = 2 then 8 else 32 := by
  have small : field d 10 2 < 4 := (bits d 10 2).isLt
  generalize field d 10 2 = n at small ⊢
  revert n
  decide

/-- The lines after a line word: its own line has the record, another that carried the event loses it (R172). -/
def worded (l : LineId) (e : LineEvent) (d : Word) (s : State) : State :=
  onLine l (fun x => x.withWord e d) { s with lines := s.lines.map fun x => x.giveUp e }

/-- A line word that names an event is taken. -/
theorem takeLine_named {l : LineId} {d : Word} {s : State} {e : LineEvent} (names : LineEvent.ofCode (field d 0 5) = some e) :
    takeLine l d s = .taken (markRecord 31 (worded l e d s)) := by
  rw [takeLine, names]
  rfl

/-- A line that gives up its event keeps the rest. -/
theorem giveUp_withWord (x : Line) (e : LineEvent) (d : Word) : (x.giveUp e).withWord e d = x.withWord e d := by
  rw [Line.giveUp]
  split <;> rfl

theorem worded_self (l : LineId) (e : LineEvent) (d : Word) (s : State) : (worded l e d s).lines[l] = s.lines[l].withWord e d := by
  rw [← giveUp_withWord]
  simp [worded, onLine]

theorem worded_other {l k : LineId} (e : LineEvent) (d : Word) (s : State) (other : k ≠ l) :
    (worded l e d s).lines[k] = s.lines[k].giveUp e := by
  have apart : l.val ≠ k.val := fun same => other (Fin.ext same.symm)
  simp [worded, onLine, apart]

/-- The records of the lines after a line word, as the statement gives them. -/
theorem kept_worded (l : LineId) (e : LineEvent) (d : Word) (s : State) : kept (worded l e d s) = kept { s with
    lines := Vector.ofFn fun k : LineId =>
      if k = l then { s.lines[k] with
        event := e, openDrain := d.getLsbD 8, activeLow := d.getLsbD 9
        width := if field d 10 2 = 0 then 0 else if field d 10 2 = 1 then 2 else if field d 10 2 = 2 then 8 else 32 }
      else if s.lines[k].event = e then { s.lines[k] with event := .none } else s.lines[k] } := by
  have lines (v w : Vector Line 8) (same : keptLines v = keptLines w) : kept { s with lines := v } = kept { s with lines := w } := by
    simp only [kept, same]
  refine lines _ _ (Vector.ext fun i hi => ?_)
  have line : (keptLines (worded l e d s).lines)[i]
      = { (worded l e d s).lines[(⟨i, hi⟩ : LineId)] with filtered := false, count := none } := Vector.getElem_map _ _
  refine line.trans ?_
  simp only [keptLines, Vector.getElem_map, Vector.getElem_ofFn]
  by_cases own : (⟨i, hi⟩ : LineId) = l
  · subst own
    rw [if_pos rfl, worded_self, Line.withWord, widthOfCode_eq]
  · rw [if_neg own, worded_other e d s own, Line.giveUp]
    by_cases carries : s.lines[(⟨i, hi⟩ : LineId)].event = e
    · rw [if_pos carries, if_pos (beq_iff_eq.mpr carries)]
    · rw [if_neg carries, if_neg (by rwa [beq_iff_eq])]

/-- A width of the word other than the line's starts its count again (R174). -/
theorem withWord_restarts {x : Line} {e : LineEvent} {d : Word} (new : widthOfCode (field d 10 2) ≠ x.width) :
    (x.withWord e d).count.getD 0 = 0 := by
  simp only [Line.withWord, if_neg new]
  cases x.count <;> rfl

/-- What becomes of the filter of a line that a line word gives an input event, or none (R174). -/
theorem followPin_withWord (x : Line) (e : LineEvent) (d : Word) (w : Nat) (is : w = widthOfCode (field d 10 2)) :
    (x.filtered = x.outside → (followPin x.outside (x.withWord e d)).filtered = x.filtered
      ∧ (followPin x.outside (x.withWord e d)).count = none)
    ∧ (x.filtered ≠ x.outside → w = 0 → (followPin x.outside (x.withWord e d)).filtered = x.outside
      ∧ (followPin x.outside (x.withWord e d)).count = none)
    ∧ (x.filtered ≠ x.outside → w ≠ 0 → (followPin x.outside (x.withWord e d)).filtered = x.filtered
      ∧ (followPin x.outside (x.withWord e d)).count = some (if w = x.width then x.count.getD 0 else 0)) := by
  have filtered : (x.withWord e d).filtered = x.filtered := rfl
  have width : (x.withWord e d).width = w := is.symm
  have count : (x.withWord e d).count = if w = x.width then x.count else x.count.map fun _ => 0 := by rw [is]; rfl
  rw [followPin, filtered, width, count]
  refine ⟨fun same => ?_, fun differs zero => ?_, fun differs nonzero => ?_⟩
  · rw [if_pos (beq_iff_eq.mpr same)]
    exact ⟨filtered, rfl⟩
  · rw [if_neg (by rwa [beq_iff_eq]), if_pos (beq_iff_eq.mpr zero)]
    exact ⟨rfl, rfl⟩
  · rw [if_neg (by rwa [beq_iff_eq]), if_neg (by rwa [beq_iff_eq])]
    refine ⟨filtered, congrArg some ?_⟩
    split
    · rfl
    · cases x.count <;> rfl

/-- Settles O23: streams and filters by their fields; a line word by the event it names, with what the filter of its line does. -/
theorem streamFilterAndLineWords : Obligations.StreamFilterAndLineWords := by
  intro m d s ready
  refine ⟨fun i => ?_, fun f => ⟨fun a named => ?_, fun reserved => ?_⟩, fun l => ⟨fun none => ?_, fun e named => ?_⟩⟩
  · have stream := endsIn_judged (c := .streamSetupWord m 0xFF i d) (o := 96 + i.val) rfl (by omega) ready
      (takeSetupWord_stream i d s) bne_iff_ne
    exact ⟨stream.1, fun zero => stream.2 (not_not.mpr zero)⟩
  · refine endsIn_word ready rfl ((takeSetupWord_filter f d s).trans ?_) (by omega)
    rw [takeDivertFilter, named, divertAction_ofCode]
    rfl
  · refine endsIn_trap ready rfl ((takeSetupWord_filter f d s).trans ?_) (by omega)
    rw [takeDivertFilter, reserved]
    rfl
  · refine endsIn_trap ready rfl ((takeSetupWord_line l d s).trans ?_) (by omega)
    rw [takeLine, none]
  · have taken := (takeSetupWord_line l d s).trans (takeLine_named (l := l) (s := s) named)
    have row : exec (.lineWord m 0xFF l d) s = .next (settle s (arriveSetup (128 + l.val) m 0xFF d s)) := rfl
    refine ⟨endsIn_taken row (by omega) ready taken ((kept_markRecord _ _).trans (kept_worded l e d s)), _, row, fun w is => ?_⟩
    rw [← widthOfCode_eq] at is
    rw [arriveSetup_taken (by omega) ready taken]
    have line : (wordPassed s (128 + l.val) m d (markRecord 31 (worded l e d s))).lines[l] = s.lines[l].withWord e d :=
      worded_self l e d s
    refine ⟨fun new => ?_, fun input => ?_⟩
    · exact settle_line_restarted s _ l (by rw [line]; exact withWord_restarts (is ▸ new))
    · rw [settle_line_input s _ l (by rw [line]; exact input), line]
      exact followPin_withWord s.lines[l] e d w is

end Sys2Proof.SetupWords
end

section
/-! SUPPORT. The control words of the window table: enable and disable, their conditions spelled out (R81, R82, Table 5-3). -/

namespace Sys2Proof.WindowTable

open Machine MemoryPath SetupWords

/-! ## The conditions of an enable (R81) -/

/-- Two ranges that do not overlap lie one behind the other; an empty one overlaps where it lies inside. -/
theorem not_overlap_iff (base length base' length' : Nat) :
    overlap base length base' length' = false ↔ base' + length' ≤ base ∨ base + length ≤ base' := by
  rw [overlap, Bool.and_eq_false_iff, decide_eq_false_iff_not, decide_eq_false_iff_not, Nat.not_lt, Nat.not_lt]

/-- A condition on every enabled entry, as the model runs through the table. -/
theorem allEnabled_iff (s : State) (f : Window → Bool) : (s.mem.windows.toList.all fun w => !w.enabled || f w) = true
    ↔ ∀ e : Fin 15, s.mem.windows[e].enabled = true → f s.mem.windows[e] = true := by
  rw [Vector.all_toList, Vector.all_eq_true, Fin.forall_iff]
  refine forall₂_congr fun i hi => ?_
  cases s.mem.windows[i].enabled <;> simp

/-- No window is enabled for a kind and number. -/
theorem windowOf_none_iff (s : State) (k : WindowKind) (n : RingId) : windowOf s k n = none ↔
    ∀ e : Fin 15, s.mem.windows[e].enabled = true → s.mem.windows[e].kind = k →
      k.isRing = true ∧ s.mem.windows[e].number ≠ n := by
  simp only [windowOf, List.find?_eq_none, List.mem_finRange, true_implies, Window.isOf, Bool.and_eq_true, Bool.or_eq_true,
    beq_iff_eq, Bool.not_eq_true', not_and, not_or, Bool.not_eq_false, ne_eq]

/-- A slot count is a power of two from 16 to 1024. -/
theorem isSlotCount_iff (n : Nat) : isSlotCount n = true ↔ ∃ k, 4 ≤ k ∧ k ≤ 10 ∧ n = 2 ^ k := by
  constructor
  · intro is
    simp only [isSlotCount, Bool.or_eq_true, beq_iff_eq] at is
    rcases is with (((((rfl | rfl) | rfl) | rfl) | rfl) | rfl) | rfl
    exacts [⟨4, by decide⟩, ⟨5, by decide⟩, ⟨6, by decide⟩, ⟨7, by decide⟩, ⟨8, by decide⟩, ⟨9, by decide⟩, ⟨10, by decide⟩]
  · rintro ⟨k, low, high, rfl⟩
    interval_cases k <;> rfl

/-- A length of whole slots, as many as a ring may have. -/
theorem slotLength_iff (words length : Nat) (some : 0 < words) : (length % words == 0 && isSlotCount (length / words)) = true ↔
    ∃ k, 4 ≤ k ∧ k ≤ 10 ∧ length = words * 2 ^ k := by
  rw [Bool.and_eq_true, beq_iff_eq, isSlotCount_iff]
  constructor
  · rintro ⟨whole, k, low, high, count⟩
    exact ⟨k, low, high, by rw [← count, Nat.mul_div_cancel' (Nat.dvd_of_mod_eq_zero whole)]⟩
  · rintro ⟨k, low, high, rfl⟩
    exact ⟨Nat.mul_mod_right .., k, low, high, Nat.mul_div_cancel_left _ some⟩

/-- The other window of the ring, when it is enabled, has as many slots. -/
theorem slotsAgree_iff (s : State) (k : WindowKind) (n : RingId) (words slots : Nat) (some : 0 < words) :
    slotsAgree s k n words slots = true ↔
      ∀ e, windowOf s k n = .some e → s.mem.windows[e].length / words = slots ∧ s.mem.windows[e].length % words = 0 := by
  rw [slotsAgree]
  cases windowOf s k n with
  | none => simp
  | some e =>
    simp only [beq_iff_eq, Option.some.injEq, forall_eq']
    constructor
    · rintro is
      rw [is]
      exact ⟨Nat.mul_div_cancel_left _ some, Nat.mul_mod_right ..⟩
    · rintro ⟨rfl, whole⟩
      exact (Nat.mul_div_cancel' (Nat.dvd_of_mod_eq_zero whole)).symm

/-- The length of a window fits its kind (R81, conditions 5 and 6). -/
theorem lengthFits_iff (s : State) (w : Window) : lengthFits s w = true ↔ match w.kind with
    | .plain => 1 ≤ w.length
    | .inbound => ∃ k, 4 ≤ k ∧ k ≤ 10 ∧ w.length = 8 * 2 ^ k
    | .outbound => (∃ k, 4 ≤ k ∧ k ≤ 10 ∧ w.length = 8 * 2 ^ k)
      ∧ ∀ e, windowOf s .outcome w.number = some e → s.mem.windows[e].length / 4 = w.length / 8
        ∧ s.mem.windows[e].length % 4 = 0
    | .outcome => (∃ k, 4 ≤ k ∧ k ≤ 10 ∧ w.length = 4 * 2 ^ k)
      ∧ ∀ e, windowOf s .outbound w.number = some e → s.mem.windows[e].length / 8 = w.length / 4
        ∧ s.mem.windows[e].length % 8 = 0
    | .status => 1140 ≤ w.length
    | .faultLog => w.length % 2 = 0 ∧ 2 ≤ w.length ∧ w.length ≤ 1024
      ∧ (s.log.entryCount - s.log.releaseCount).toNat ≤ w.length / 2 := by
  rw [lengthFits]
  cases w.kind
  case plain | status => exact decide_eq_true_iff
  case inbound => exact slotLength_iff 8 _ (by decide)
  case outbound => exact Bool.and_eq_true _ _ ▸ and_congr (slotLength_iff 8 _ (by decide)) (slotsAgree_iff _ _ _ 4 _ (by decide))
  case outcome => exact Bool.and_eq_true _ _ ▸ and_congr (slotLength_iff 4 _ (by decide)) (slotsAgree_iff _ _ _ 8 _ (by decide))
  case faultLog => 
    rw [Bool.and_eq_true, Bool.and_eq_true, Bool.and_eq_true, beq_iff_eq, decide_eq_true_iff, decide_eq_true_iff, and_assoc, and_assoc]
    exact and_congr_right' (and_congr_right' (and_congr_right' decide_eq_true_iff))

/-! ## A window in use (Table 5-3) -/

/-- An entry in the queue or in its burst. -/
theorem queuedOrBurst_iff (s : State) (f : WriteEntry → Bool) :
    queuedOrBurst s f = true ↔ (∃ q ∈ s.mem.queue, f q = true) ∨ ∃ q, s.mem.burst = some q ∧ f q = true := by
  rw [queuedOrBurst, Bool.or_eq_true, List.any_eq_true]
  cases s.mem.burst <;> simp

/-- A captured slot, or a record that the selector holds. -/
theorem outboundBusy_iff (s : State) (n : RingId) : outboundBusy s n = true ↔
    (∃ x ∈ s.outRings[n].slots, x.captured = true) ∨ ∃ r ∈ s.sel.held, r.name.ring = n := by
  simp only [outboundBusy, Bool.or_eq_true, List.any_eq_true, beq_iff_eq]

theorem deliversTo_iff (n : RingId) (q : WriteEntry) : q.deliversTo n = true ↔ q.source = .delivery n := beq_iff_eq

theorem outcomeOf_iff (n : RingId) (q : WriteEntry) : q.outcomeOf n = true ↔ ∃ o, q.source = .outcome n o := by
  rw [WriteEntry.outcomeOf]
  cases q.source <;> simp

theorem isStatus_iff (q : WriteEntry) : q.isStatus = true ↔ ∃ r, q.source = .status r := by
  rw [WriteEntry.isStatus]
  cases q.source <;> simp

/-- Settles O19: the five conditions one by one, and Table 5-3 kind by kind. -/
theorem windowConditionsSpelledOut : Obligations.WindowConditionsSpelledOut := by
  intro s w
  constructor
  · have free : kindIsFree s w = true ↔ w.kind = .plain ∨ ∀ e : Fin 15, s.mem.windows[e].enabled = true →
        s.mem.windows[e].kind = w.kind → w.kind.isRing = true ∧ s.mem.windows[e].number ≠ w.number := by
      rw [kindIsFree, Bool.or_eq_true, beq_iff_eq, Option.isNone_iff_eq_none, windowOf_none_iff]
    have apart : overlapsNone s w = true ↔ (setupBase s + 2048 ≤ w.base ∨ w.base + w.length ≤ setupBase s)
        ∧ ∀ e : Fin 15, s.mem.windows[e].enabled = true →
          s.mem.windows[e].base + s.mem.windows[e].length ≤ w.base ∨ w.base + w.length ≤ s.mem.windows[e].base := by
      rw [overlapsNone, Bool.and_eq_true, allEnabled_iff]
      simp only [Bool.not_eq_true', not_overlap_iff]
      rfl
    rw [mayEnable, Bool.and_eq_true, Bool.and_eq_true, Bool.and_eq_true, free, apart, lengthFits_iff, within, Bool.and_eq_true,
      decide_eq_true_iff, decide_eq_true_iff]
    constructor
    · rintro ⟨⟨⟨⟨low, high⟩, setup, others⟩, kind⟩, length⟩
      exact ⟨low, high, setup, others, kind, length⟩
    · rintro ⟨low, high, setup, others, kind, length⟩
      exact ⟨⟨⟨⟨low, high⟩, setup, others⟩, kind⟩, length⟩
  · rw [windowInUse]
    cases w.kind
    case plain => simp
    case outbound => exact outboundBusy_iff s w.number
    case outcome =>
      simp only [Bool.or_eq_true, outboundBusy_iff, queuedOrBurst_iff, outcomeOf_iff, or_assoc, exists_and_left]
    case inbound =>
      simp only [Bool.or_eq_true, Bool.not_eq_true', beq_eq_false_iff_ne, queuedOrBurst_iff, deliversTo_iff, ne_eq]
    case status =>
      simp only [queuedOrBurst_iff, isStatus_iff, exists_and_left]
    case faultLog =>
      simp only [Bool.not_eq_true', List.isEmpty_eq_false_iff]

/-! ## Control words -/

/-- A kind is read from its code. -/
theorem windowKind_ofCode (k : WindowKind) : WindowKind.ofCode k.code = some k := by cases k <;> rfl

/-- A code of 6 or 7 names no kind. -/
theorem windowKind_ofCode_none {n : Nat} (above : 6 ≤ n) : WindowKind.ofCode n = none := by
  rw [WindowKind.ofCode] <;> omega

/-- The entry with a control word's fields. -/
def controlledEntry (w : Window) (k : WindowKind) (d : Word) (on : Bool) : Window :=
  ⟨w.base, w.length, k, (d.extractLsb' 4 2).toFin, d.extractLsb' 8 2, d.extractLsb' 16 8, on⟩

section
variable {e : Fin 15} {d : Word} {s : State} {k : WindowKind} (named : field d 0 3 = k.code)
include named

/-- A control word that sets enable, on a disabled entry (R81). -/
theorem takeControlWord_enable (on : d.getLsbD 31 = true) (off : s.mem.windows[e].enabled = false) :
    takeControlWord e d s = takeIf (mayEnable s (controlledEntry s.mem.windows[e] k d true))
      (windowOpened (controlledEntry s.mem.windows[e] k d true)
        (onWindow e (fun _ => controlledEntry s.mem.windows[e] k d true) s)) := by
  rw [takeControlWord, named, windowKind_ofCode]
  simp only [Window.withControl, on, off, if_true, Bool.false_eq_true, if_false]
  rfl

/-- A control word that sets enable, on an enabled entry: rights of the same use may change (R81). -/
theorem takeControlWord_again (on : d.getLsbD 31 = true) (enabled : s.mem.windows[e].enabled = true) :
    takeControlWord e d s = if sameUse s.mem.windows[e] (controlledEntry s.mem.windows[e] k d true) then
        .taken (onWindow e (fun w => { w with required := d.extractLsb' 8 2, writers := d.extractLsb' 16 8 }) s)
      else .refused .windowInUse s := by
  rw [takeControlWord, named, windowKind_ofCode]
  simp only [Window.withControl, on, enabled, if_true]
  rfl

/-- A control word that clears enable, on a disabled entry (R82). -/
theorem takeControlWord_fields (off : d.getLsbD 31 = false) (disabled : s.mem.windows[e].enabled = false) :
    takeControlWord e d s = .taken (onWindow e (fun _ => controlledEntry s.mem.windows[e] k d false) s) := by
  rw [takeControlWord, named, windowKind_ofCode]
  simp only [Window.withControl, off, disabled, Bool.false_eq_true, if_false]
  rfl

/-- A control word that clears enable, on an enabled entry: refused while that is in use (R82). -/
theorem takeControlWord_disable (off : d.getLsbD 31 = false) (enabled : s.mem.windows[e].enabled = true) :
    takeControlWord e d s = if windowInUse s s.mem.windows[e] then .refused .windowInUse s
      else .taken (windowClosed s.mem.windows[e]
        (onWindow e (fun _ => controlledEntry s.mem.windows[e] k d false) s)) := by
  rw [takeControlWord, named, windowKind_ofCode]
  simp only [Window.withControl, off, enabled, if_true, Bool.false_eq_true, if_false]
  rfl

end

/-- The same use: the same kind and, of a ring kind, the same number (R81). -/
theorem sameUse_iff (a b : Window) : sameUse a b = true ↔ a.kind = b.kind ∧ (a.kind.isRing = false ∨ a.number = b.number) := by
  rw [sameUse, Bool.and_eq_true, Bool.or_eq_true, beq_iff_eq, beq_iff_eq, Bool.not_eq_true']

/-- The status writer told of its window runs, every record marked (R179). -/
theorem restartWriter_marks (s : State) : (restartWriter s).status.running = true
    ∧ ∀ r : RecordId, (restartWriter s).status.records[r].changed = true := by
  refine ⟨?_, fun r =>
    (StatusRecords.markRecords_marks (List.finRange 36) { s with status := { s.status with running := true } } r
      (List.mem_finRange r)).1⟩
  have running (v : State) (l : List RecordId) : (l.foldl (fun s r => markRecord r s) v).status.running = v.status.running := by
    induction l generalizing v with
    | nil => rfl
    | cons r l ih => exact ih _
  exact running { s with status := { s.status with running := true } } (List.finRange 36)


/-- An event leaves the writer running and every mark that it found. -/
theorem settle_marked_all (o u : State) (h : u.status.running = true ∧ ∀ r : RecordId, u.status.records[r].changed = true) :
    (settle o u).status.running = true ∧ ∀ r : RecordId, (settle o u).status.records[r].changed = true := by
  have keeps (x : State) : (kept x).status.running = x.status.running := rfl
  refine ⟨?_, fun r => (keepsMarks_settle o u r).1 (h.2 r)⟩
  rw [← keeps, kept_settle, keeps, h.1]

/-- The owner of a STATUS window restarts its writer (R179). -/
theorem windowOpened_status (v : Window) (u : State) (status : v.kind = .status) : windowOpened v u = restartWriter u := by
  rw [windowOpened, status]

/-- What the owner of the kind is told, but for the marks of a writer that restarts (R100, R148, R179). -/
def ownerTold (k : WindowKind) (v : Window) (u : State) : State :=
  match k with
  | .plain | .faultLog => u
  | .status => { u with status := { u.status with running := true } }
  | .outbound => onOutRing v.number (fun r => { r with table := some (List.replicate (v.length / 8) freeSlot) }) u
  | .outcome => onOutRing v.number (fun r => { r with outcomeCount := 0, assigned := 0 }) u
  | .inbound => onInRing v.number (fun r => { r with
      slotCount := some (v.length / 8), deposit := 0, assigned := 0, release := 0 }) u

theorem kept_windowOpened (v : Window) (u : State) : kept (windowOpened v u) = kept (ownerTold v.kind v u) := by
  cases kind : v.kind
  case status => rw [windowOpened_status v u kind, restartWriter, kept_markAll, ownerTold]
  all_goals rw [windowOpened, kind, ownerTold]

/-- Settles O17: by the kind's code, by whether the entry is enabled, and by what of it the word would change. -/
theorem windowEnableWord : Obligations.WindowEnableWord := by
  intro m e d s ready on
  have row : exec (.windowEnable m 0xFF e d) s = .next (settle s (arriveSetup (17 + 2 * e.val) m 0xFF d s)) := rfl
  have inRegion : 17 + 2 * e.val < 2048 := by omega
  have control := takeSetupWord_control e d s
  refine ⟨fun above => endsIn_trap ready row (control.trans ?_) inRegion, fun k v named is => ?_⟩
  · rw [takeControlWord, windowKind_ofCode_none above]
  obtain rfl : v = controlledEntry s.mem.windows[e] k d true := is
  have enable (off : s.mem.windows[e].enabled = false) := endsIn_judged row inRegion ready
    (control.trans (takeControlWord_enable named on off)) Iff.rfl
  refine ⟨fun off mayNot => (enable off).2 (by rw [mayNot]; decide), fun off may => ?_, fun off may status => ?_,
    fun enabled kind number => ?_, fun enabled other => ?_⟩
  · have taken := control.trans (takeControlWord_enable named on off)
    rw [may, takeIf, if_pos rfl] at taken
    refine endsIn_taken row inRegion ready taken ?_
    rw [kept_windowOpened]
    cases k <;> rfl
  · subst status
    have taken := control.trans (takeControlWord_enable named on off)
    rw [may, takeIf, if_pos rfl] at taken
    refine ⟨_, row, ?_⟩
    rw [arriveSetup_taken inRegion ready taken, windowOpened_status _ _ rfl]
    have marks := restartWriter_marks (onWindow e (fun _ => controlledEntry s.mem.windows[e] .status d true) s)
    generalize restartWriter (onWindow e (fun _ => controlledEntry s.mem.windows[e] .status d true) s) = u at marks ⊢
    exact settle_marked_all s (wordPassed s (17 + 2 * e.val) m d u) marks
  · refine endsIn_word ready row (control.trans ?_) inRegion
    rw [takeControlWord_again named on enabled, if_pos ((sameUse_iff _ _).mpr ⟨kind, kind ▸ number⟩)]
    rfl
  · refine endsIn_refused row inRegion ready (control.trans ?_)
    rw [takeControlWord_again named on enabled, if_neg]
    rw [sameUse_iff]
    rintro ⟨sameKind, sameNumber⟩
    rcases other with kind | ⟨ring, number⟩
    · exact kind sameKind
    · rcases sameNumber with noRing | same
      · rw [show s.mem.windows[e].kind = k from sameKind, ring] at noRing
        cases noRing
      · exact number same

/-! ## The owners told of a disable (R100, R148, R180) -/

/-- The dates of the offers are the model's: a ring that differs in its own alone is kept as the same. -/
theorem kept_onOutRing (n : RingId) (f g : OutRing → OutRing) (s : State)
    (same : { f s.outRings[n] with since := none } = { g s.outRings[n] with since := none }) :
    kept (onOutRing n f s) = kept (onOutRing n g s) := by
  have rings : keptRings (onOutRing n f s).outRings = keptRings (onOutRing n g s).outRings := by
    refine Vector.ext fun i hi => ?_
    by_cases own : n.val = i
    · subst own
      simpa [keptRings, onOutRing] using same
    · simp [keptRings, onOutRing, own]
  simp only [kept, rings]
  rfl

/-- A ring whose slot table is released, its date kept (R100, entry 20). -/
def tableReleased (r : OutRing) : OutRing :=
  { r with
    table := none
    outcomes := r.outcomes.filter (fun o => !o.refusal)
    discarded := satAdd r.discarded (r.outcomes.filter (fun o => o.refusal)).length
    generation := r.generation + 1 }

/-- A SNAPSHOT that waits for its records ends with the result (R180). -/
theorem kept_snapshotLoses_waiting {s : State} {c : Busy} {left : List RecordId} {old : Option RecordId} (r : CommandResult)
    (busy : s.cmd.busy = some c) (waits : c.waits = .records left old) :
    kept (snapshotLoses r s) = kept (finished c.code c.number r s) := by
  rw [snapshotLoses, waiting, busy]
  dsimp only
  rw [waits]
  exact kept_complete r busy

/-- Any other command stays as it is. -/
theorem snapshotLoses_other {s : State} (r : CommandResult)
    (others : ∀ c left old, s.cmd.busy = some c → c.waits ≠ .records left old) : snapshotLoses r s = s := by
  rw [snapshotLoses, waiting]
  cases busy : s.cmd.busy with
  | none => rfl
  | some c =>
    dsimp only
    cases waits : c.waits with
    | records left old => exact absurd waits (others c left old busy)
    | _ => rfl

/-- Settles O18: by the kind's code, by whether the entry is enabled and in use, and by who waits for the window. -/
theorem windowDisableWord : Obligations.WindowDisableWord := by
  intro m e d s ready off
  have row : exec (.windowDisable m 0xFF e d) s = .next (settle s (arriveSetup (17 + 2 * e.val) m 0xFF d s)) := rfl
  have inRegion : 17 + 2 * e.val < 2048 := by omega
  have control := takeSetupWord_control e d s
  refine ⟨fun above => endsIn_trap ready row (control.trans ?_) inRegion, fun k v w named entry is => ?_⟩
  · rw [takeControlWord, windowKind_ofCode_none above]
  subst entry
  obtain rfl : v = controlledEntry s.mem.windows[e] k d false := is
  refine ⟨fun disabled => endsIn_word ready row (control.trans (takeControlWord_fields named off disabled)) inRegion,
    fun enabled inUse => endsIn_refused row inRegion ready (control.trans ?_), fun enabled free u told => ?_⟩
  · rw [takeControlWord_disable named off enabled, if_pos inUse]
  have taken := control.trans (takeControlWord_disable named off enabled)
  rw [free, if_neg Bool.false_ne_true] at taken
  refine ⟨fun nobody => endsIn_taken row inRegion ready taken ?_, fun c left old status busy waits =>
    endsIn_taken row inRegion ready taken ?_⟩
  · rw [told, windowClosed]
    cases kind : s.mem.windows[e].kind
    case status =>
      exact congrArg kept (snapshotLoses_other (s := onWindow e _ s) .state (nobody.resolve_left (not_not.mpr kind)))
    case outbound => exact kept_onOutRing _ OutRing.release tableReleased (onWindow e _ s) rfl
    all_goals rfl
  · rw [told, windowClosed, status]
    exact kept_snapshotLoses_waiting (s := onWindow e _ s) .state busy waits

end Sys2Proof.WindowTable
end

section
/-! SUPPORT. Accesses at the P-port: the write check, held reads, fault reports (R84 to R90, R97, R175). -/

namespace Sys2Proof.PPort

open Machine

/-! ## An access that nothing waits before (R84) -/

/-- A write that nothing waits before is taken as its check says. -/
theorem arrive_write {x : Access} {s : State} (write : x.write = true) (line : s.mem.line = []) : arrive x s = takeWrite x s := by
  rw [arrive, line, takeAccess, write]
  rfl

/-- A read that nothing waits before is held or passed. -/
theorem arrive_read {x : Access} {s : State} (read : x.write = false) (line : s.mem.line = []) : arrive x s = takeRead x s := by
  rw [arrive, line, takeAccess, read]
  rfl

/-- Behind another access it waits. -/
theorem arrive_behind {x : Access} {s : State} (line : s.mem.line ≠ []) : arrive x s = waitAtPort x s := by
  rw [arrive]
  exact if_neg (by rwa [List.isEmpty_iff])

section
variable {c : Instr} {x : Access} {s t : State} (row : exec c s = .next (settle s (arrive x s))) (line : s.mem.line = [])
  (write : x.write = true)
include row line write

/-- A row that is a write taken by its owner passes it to memory. -/
theorem endsIn_write_taken (check : writeCheck x s = .taken t) : EndsIn c s (passAccess x t) :=
  endsIn_of_settle c s s _ _ row (by rw [arrive_write write line, takeWrite, check])

/-- A row that is a write refused. -/
theorem endsIn_write_refused {why : Cause} (check : writeCheck x s = .refused why t) :
    EndsIn c s (consumed x (report .fault why x.master x.addr.toNat t)) :=
  endsIn_of_settle c s s _ _ row (by rw [arrive_write write line, takeWrite, check]; rfl)

end

/-! ## The rows of the setup region -/

/-- Settles O25: every row is the arrival of its write, and a command's word is its argument, number and code side by side. -/
theorem setupRowsAreWritesAtTheirPlace : Obligations.SetupRowsAreWritesAtTheirPlace := by
  intro m be d s
  refine ⟨fun _ => rfl, rfl, fun _ => rfl, fun _ => ⟨rfl, rfl, rfl⟩, rfl, fun _ => rfl, fun _ => ⟨rfl, fun _ => rfl, rfl, rfl⟩,
    fun _ => rfl, fun _ => rfl, fun _ => ⟨rfl, rfl⟩, rfl, fun _ => rfl, fun _ => rfl, fun _ => ⟨rfl, rfl⟩, fun num arg => ?_⟩
  exact ⟨rfl, rfl, rfl, rfl, rfl, rfl, rfl, rfl, rfl, rfl, rfl, rfl, rfl, rfl, rfl, rfl, rfl, fun _ => rfl⟩

/-! ## The write check (R85) -/

/-- A word of no record is trapped: no range of Table 12-9 holds its offset. -/
theorem takeSetupWord_unassigned {o : Nat} (d : Word) (s : State)
    (nobody : (3 ≤ o ∧ o ≤ 7) ∨ o = 46 ∨ o = 47 ∨ (52 ≤ o ∧ o ≤ 63) ∨ (89 ≤ o ∧ o ≤ 95) ∨ (125 ≤ o ∧ o ≤ 127)
      ∨ (138 ≤ o ∧ o ≤ 143) ∨ 145 ≤ o) : takeSetupWord o d s = .trapped := by
  have outside (first n : Nat) (out : o < first ∨ first + n ≤ o) : offsetIn o first n = none := by
    rw [offsetIn, asIndex]
    split
    · exact dif_neg (by omega)
    · rfl
  rw [takeSetupWord]
  by_cases lower : o < 64
  · rw [if_pos lower, takeLowerWord, outside 0 2 (by omega), outside 8 8 (by omega), outside 16 30 (by omega),
      outside 49 3 (by omega)]
    dsimp only
    rw [if_neg (by omega), if_neg (by omega)]
  · rw [if_neg lower]
    by_cases middle : o < 120
    · rw [if_pos middle, takeMiddleWord, outside 64 25 (by omega), outside 96 16 (by omega), outside 112 8 (by omega)]
    · rw [if_neg middle, takeUpperWord, outside 120 4 (by omega), outside 128 8 (by omega), outside 136 2 (by omega)]
      dsimp only
      rw [if_neg (by omega), if_neg (by omega)]

/-- Privilege 0 or nothing writes the setup region. -/
theorem mayWrite_setup (s : State) (m : Master) : mayWrite s m 0 0 = true ↔ s.mem.masters[m] = 0 := by
  have nobody : BitVec.getLsbD (0 : BitVec 8) m.val = false := BitVec.getLsbD_zero
  rw [mayWrite, nobody, Bool.or_false, decide_eq_true_iff, ← BitVec.toNat_inj]
  exact Nat.le_zero

/-- The span holds the setup region, so a write of a setup word is checked there. -/
theorem writeCheck_word {s : State} {m : Master} {be : ByteEnables} {d : Word} {o : Nat} (inRegion : o < 2048)
    (low : s.mem.spanBase ≤ setupBase s) (high : setupBase s + 2048 ≤ s.mem.spanBase + s.mem.spanLength) :
    writeCheck (writeOf m (setupAddress s o) be d) s = checkSetup (writeOf m (setupAddress s o) be d) s := by
  have address := setupAddress_toNat s o inRegion
  refine writeCheck_setup _ s ?_ ?_
  · rw [writeOf, inSpan, address, Bool.and_eq_true, decide_eq_true_iff, decide_eq_true_iff]
    omega
  · rw [writeOf, inSetupRegion, address, Bool.and_eq_true, decide_eq_true_iff, decide_eq_true_iff, Config.setupWords]
    omega

/-- A command word is refused while a command is in progress (R176). -/
theorem takeCommand_busy {d : Word} {s : State} (busy : s.cmd.busy ≠ none) : takeCommand d s = .refused .cmdBusy s := by
  rw [takeCommand]
  exact if_pos (Option.isSome_iff_ne_none.mpr busy)

/-- Settles O26, step by step of the write check. -/
theorem setupWritesRefusedOrTrapped : Obligations.SetupWritesRefusedOrTrapped := by
  intro m be d s o inRegion line low high
  have check (be : ByteEnables) := writeCheck_word (m := m) (be := be) (d := d) inRegion low high
  refine ⟨fun other => endsIn_write_refused rfl line rfl ?_, fun full partly => endsIn_write_refused rfl line rfl ?_,
    fun full command busy => ?_, fun full nobody => ?_⟩
  · rw [check, checkSetup]
    exact if_pos (by rw [Bool.not_eq_true', ← Bool.not_eq_true]; exact mt (mayWrite_setup s m).mp other)
  · rw [check, checkSetup, if_neg (by rw [writeOf, (mayWrite_setup s m).mpr full]; decide)]
    exact if_pos (by rwa [Bool.not_eq_true', beq_eq_false_iff_ne])
  · have ready : SetupReady s m := ⟨line, by rw [within, Bool.and_eq_true, decide_eq_true_iff, decide_eq_true_iff]; exact ⟨low, high⟩,
      full⟩
    refine endsIn_refused rfl inRegion ready ?_
    rw [command, takeSetupWord_command, takeCommand_busy busy]
  · have ready : SetupReady s m := ⟨line, by rw [within, Bool.and_eq_true, decide_eq_true_iff, decide_eq_true_iff]; exact ⟨low, high⟩,
      full⟩
    exact endsIn_trapped rfl inRegion ready (takeSetupWord_unassigned d s nobody)

/-- A window lets a master write by its privilege or by its writer mask (R85, step 3). -/
theorem mayWrite_iff (s : State) (m : Master) (required : BitVec 2) (writers : BitVec 8) :
    mayWrite s m required writers = true ↔ s.mem.masters[m].toNat ≤ required.toNat ∨ writers.getLsbD m.val = true := by
  rw [mayWrite, Bool.or_eq_true, decide_eq_true_iff]

/-- A write in a window outside the setup region is checked by that window. -/
theorem writeCheck_window {x : Access} {s : State} {e : Fin 15} (span : inSpan s x.addr.toNat = true)
    (outside : inSetupRegion s x.addr.toNat = false) (hit : windowAt s x.addr.toNat = some e) :
    writeCheck x s = checkWindow s.mem.windows[e] x s := by
  simp [writeCheck, span, outside, hit]

/-- Settles O27, step by step of the write check outside the setup region. -/
theorem windowWritesAreChecked : Obligations.WindowWritesAreChecked := by
  intro m a be d s line
  refine ⟨fun out => endsIn_write_taken rfl line rfl ?_, fun span outside => ⟨fun none => ?_, fun e w hit entry => ?_⟩⟩
  · rw [writeCheck]
    exact if_pos (by rw [writeOf, out]; rfl)
  · refine endsIn_write_refused (t := s) rfl line rfl ?_
    simp [writeCheck, writeOf, span, outside, none]
  · subst entry
    have check := writeCheck_window (x := writeOf m a be d) span outside hit
    refine ⟨fun ⟨rank, mask⟩ => endsIn_write_refused rfl line rfl (check.trans ?_), fun may => ⟨fun owned rank =>
      endsIn_write_refused rfl line rfl (check.trans ?_), fun free => endsIn_write_taken rfl line rfl (check.trans ?_)⟩⟩
    · rw [checkWindow]
      refine if_pos ?_
      rw [Bool.not_eq_true', ← Bool.not_eq_true]
      intro may
      rcases (mayWrite_iff ..).mp may with high | listed
      · exact Nat.not_le.mpr rank high
      · rw [writeOf, mask] at listed
        cases listed
    · rw [checkWindow, writeOf, (mayWrite_iff ..).mpr may, owned]
      refine (if_neg Bool.false_ne_true).trans (if_pos ?_)
      rw [Bool.true_and, Bool.not_eq_true', beq_eq_false_iff_ne]
      exact rank
    · rw [checkWindow, writeOf, (mayWrite_iff ..).mpr may]
      dsimp only
      rcases free with plain | ⟨owned, rank⟩
      · rw [plain]
        rfl
      · rw [owned, rank]
        cases kind : s.mem.windows[e].kind with
        | plain | status | outcome | inbound | faultLog => rfl
        | outbound => exact Bool.noConfusion ((congrArg WindowKind.isOwned kind).symm.trans owned)

/-! ## Reads (R87, R97) -/

/-- The read-hold tracker holds the addresses of the burst in progress. -/
theorem isHeld_iff (s : State) (a : Nat) : isHeld s a = true ↔ ∃ b, s.mem.burst = some b ∧ ∃ w ∈ b.words, w.1 = a := by
  rw [isHeld]
  cases s.mem.burst <;> simp

/-- Settles O28: by what waits at the port, and by what the burst in progress writes. -/
theorem readsPassOrWaitForTheBurst : Obligations.ReadsPassOrWaitForTheBurst := by
  intro m a be d s
  have row : exec (.pPortRead m a) s = .next (settle s (arrive (readOf m a) s)) := rfl
  refine ⟨fun line free => endsIn_of_settle _ s s _ _ row (congrArg kept ?_), fun line held =>
    endsIn_of_settle _ s s _ _ row (congrArg kept ?_), fun line =>
    ⟨endsIn_of_settle _ s s _ _ row (congrArg kept (arrive_behind line)),
      endsIn_of_settle _ s s _ _ rfl (congrArg kept (arrive_behind line))⟩⟩
  · rw [arrive_read rfl line, takeRead]
    refine if_neg ?_
    rw [isHeld_iff]
    rintro ⟨b, burst, w, listed, same⟩
    exact free b burst w listed same
  · rw [arrive_read rfl line, takeRead]
    refine (if_pos ((isHeld_iff _ _).mpr held)).trans ?_
    rw [waitAtPort, line]
    rfl

/-! ## Fault reports (R88, R90) -/

/-- A report is counted lost without a window, with the writer failed or resetting, with four entries outstanding, or with the log
full. -/
theorem report_lost {cls : ReportClass} {c : Cause} {m : Master} {a : Nat} {s : State}
    (lost : s.log.state = .failed ∨ s.log.resetting = true ∨ windowOf s .faultLog 0 = none ∨ 4 ≤ s.log.outstanding.length
      ∨ (∃ e, windowOf s .faultLog 0 = some e
        ∧ (s.log.entryCount - s.log.releaseCount).toNat = s.mem.windows[e].length / 2)) :
    report cls c m a s = countLost s := by
  rw [report]
  cases hit : windowOf s .faultLog 0 with
  | none => rfl
  | some e =>
    refine if_pos ?_
    rw [Bool.or_eq_true, Bool.or_eq_true, Bool.or_eq_true, beq_iff_eq, beq_iff_eq, decide_eq_true_iff, FaultLog.fill]
    rw [hit] at lost
    rcases lost with failed | resetting | none | four | ⟨e', same, full⟩
    · exact .inl (.inl (.inl failed))
    · exact .inl (.inl (.inr resetting))
    · cases none
    · exact .inl (.inr four)
    · cases same
      exact .inr full

/-- The first word of a fault entry, bit by bit (Table 12-7). -/
theorem faultWord0_fields (lap : Nat) (cls : ReportClass) (c : Cause) (m : Master) (t : Time) (small : lap < 256) :
    ((faultWord0 lap cls c m t).extractLsb' 0 8).toNat = lap ∧ ((faultWord0 lap cls c m t).extractLsb' 8 2).toNat = cls.code
    ∧ ((faultWord0 lap cls c m t).extractLsb' 10 5).toNat = c.code ∧ ((faultWord0 lap cls c m t).extractLsb' 15 3).toNat = m.val
    ∧ ((faultWord0 lap cls c m t).extractLsb' 18 30).toNat = t % 1000000000
    ∧ ((faultWord0 lap cls c m t).extractLsb' 48 16).toNat = t / 1000000000 % 65536 := by
  have cls' : cls.code < 2 ^ 2 := by cases cls <;> decide
  have cause : c.code < 2 ^ 5 := by cases c <;> decide
  have nanoseconds : t % Config.second < 2 ^ 30 := Nat.lt_trans (Nat.mod_lt _ (by decide)) (by decide)
  have seconds : t / Config.second % 65536 < 2 ^ 16 := Nat.mod_lt _ (by decide)
  have fields := packWord_fields [(0, 8, lap), (8, 2, cls.code), (10, 5, c.code), (15, 3, m.val), (18, 30, t % Config.second),
    (48, 16, t / Config.second % 65536)]
    (by simpa only [List.forall_mem_cons, List.not_mem_nil, false_implies, implies_true, and_true] using
      ⟨small, cls', cause, m.isLt, nanoseconds, seconds⟩) (by simp)
  simp only [List.forall_mem_cons] at fields
  obtain ⟨f0, f1, f2, f3, f4, f5, -⟩ := fields
  exact ⟨field_toNat small (f0 (by decide)), field_toNat cls' (f1 (by decide)), field_toNat cause (f2 (by decide)),
    field_toNat (n := 3) m.isLt (f3 (by decide)), field_toNat nanoseconds (f4 (by decide)), field_toNat seconds (f5 (by decide))⟩

/-- Settles O29: what makes a report lost, and the entry that any other becomes. -/
theorem faultReportsBecomeEntriesOrAreLost : Obligations.FaultReportsBecomeEntriesOrAreLost := by
  refine ⟨⟨rfl, rfl⟩, fun cls c m a s => ⟨report_lost, fun e cap n ready running hit four capacity count room => ?_⟩⟩
  subst capacity count
  refine ⟨faultWord0 (s.log.entryCount.toNat / (s.mem.windows[e].length / 2) % 256) cls c m s.time.value, ?_,
    faultWord0_fields _ cls c m s.time.value (Nat.mod_lt _ (by decide))⟩
  rw [report, hit]
  refine if_neg ?_
  rw [Bool.or_eq_true, Bool.or_eq_true, Bool.or_eq_true, beq_iff_eq, beq_iff_eq, decide_eq_true_iff, ready, running]
  rintro (((failed | resetting) | full) | same)
  · cases failed
  · cases resetting
  · omega
  · exact room same

end Sys2Proof.PPort
end

section
/-! SUPPORT. Writes to outbound slots: refused headers, captures and refusal outcomes, staging (chapter 6). -/

namespace Sys2Proof.OutboundSlots

open Machine PPort

/-! ## Ring images -/

/-- Two images of one ring are the image under both. -/
theorem onOutRing_onOutRing (n : RingId) (f g : OutRing → OutRing) (s : State) :
    onOutRing n f (onOutRing n g s) = onOutRing n (f ∘ g) s := by
  simp [onOutRing]

/-- Images that agree on the ring are equal. -/
theorem onOutRing_congr {n : RingId} {f g : OutRing → OutRing} {s : State} (same : f s.outRings[n] = g s.outRings[n]) :
    onOutRing n f s = onOutRing n g s := by
  rw [onOutRing, onOutRing, same]

/-- A change of a slot and a change of the ring outside its slots are made in either order. -/
theorem onOutRing_onSlot_comm {n : RingId} {k : Nat} {f : Slot → Slot} {g : OutRing → OutRing} (s : State)
    (apart : ∀ r, g { r with table := r.table.map fun t => t.modify k f }
      = { g r with table := (g r).table.map fun t => t.modify k f }) :
    onOutRing n g (onSlot n k f s) = onSlot n k f (onOutRing n g s) := by
  rw [onSlot, onSlot, onOutRing_onOutRing, onOutRing_onOutRing]
  exact onOutRing_congr (apart _)

/-! ## The write check of an OUTBOUND window (R85, R86, R101) -/

/-- A write that passes steps 1 to 5 is decided by the window's outbound ring. -/
theorem writeCheck_outbound {s : State} {m : Master} {a : Addr} {n : RingId} {o : Nat} (be : ByteEnables) (d : Word)
    (ready : OutboundReady s m a n o) : ∃ base, writeCheck (writeOf m a be d) s = takeOutbound n base (base + o) be d s := by
  obtain ⟨-, span, outside, e, hit, kind, number, may, place⟩ := ready
  refine ⟨s.mem.windows[e].base, (writeCheck_window span outside hit).trans ?_⟩
  have owned : s.mem.windows[e].kind.isOwned = false := by rw [kind]; rfl
  rw [checkWindow, writeOf, may, owned, kind, number, place]
  rfl

/-- Word 0 of a slot is its header. -/
theorem takeOutbound_header (n : RingId) (base k : Nat) (be : ByteEnables) (d : Word) (s : State) :
    takeOutbound n base (base + 8 * k) be d s = takeHeader n k be d s := by
  have first : 8 * k % 8 = 0 := Nat.mul_mod_right 8 k
  have slot : 8 * k / 8 = k := Nat.mul_div_cancel_left k (by decide)
  simp [takeOutbound, first, slot, asIndex]

/-- Words 1 to 7 of a slot are its staging words. -/
theorem takeOutbound_staging (n : RingId) (base k : Nat) (w : Fin 7) (be : ByteEnables) (d : Word) (s : State) :
    takeOutbound n base (base + (8 * k + (w.val + 1))) be d s = .taken (stage n k w be d s) := by
  have word : (8 * k + (w.val + 1)) % 8 = w.val + 1 := by omega
  have slot : (8 * k + (w.val + 1)) / 8 = k := by omega
  simp [takeOutbound, word, slot, asIndex]

/-- A header write that passes steps 1 to 5 is decided by Table 6-2. -/
theorem writeCheck_header {s : State} {m : Master} {a : Addr} {n : RingId} {k : Nat} (be : ByteEnables) (d : Word)
    (ready : OutboundReady s m a n (8 * k)) : writeCheck (writeOf m a be d) s = takeHeader n k be d s := by
  obtain ⟨base, check⟩ := writeCheck_outbound be d ready
  rw [check, takeOutbound_header]

/-- A staging write that passes steps 1 to 5 is taken. -/
theorem writeCheck_staging {s : State} {m : Master} {a : Addr} {n : RingId} {k : Nat} {w : Fin 7} (be : ByteEnables) (d : Word)
    (ready : OutboundReady s m a n (8 * k + (w.val + 1))) : writeCheck (writeOf m a be d) s = .taken (stage n k w be d s) := by
  obtain ⟨base, check⟩ := writeCheck_outbound be d ready
  rw [check, takeOutbound_staging]

/-! ## Header writes (Table 6-2) -/

section
variable {n : RingId} {k : Nat} {be : ByteEnables} {d : Word} {s : State}

/-- Step 1. -/
theorem takeHeader_halted (halted : s.outRings[n].state = .halted) : takeHeader n k be d s = refuseHeader n .ringHalted s := by
  rw [takeHeader]
  exact if_pos (beq_iff_eq.mpr halted)

variable (capturing : s.outRings[n].state = .capturing)
include capturing

/-- Step 2. -/
theorem takeHeader_partial (partly : be ≠ 0xFF) : takeHeader n k be d s = refuseHeader n .partialHeader s := by
  rw [takeHeader, capturing]
  refine (if_neg (by decide)).trans (if_pos ?_)
  rwa [Bool.not_eq_true', beq_eq_false_iff_ne]

/-- Step 3. -/
theorem takeHeader_noGo (noGo : d.getLsbD 0 = false) : takeHeader n k 0xFF d s = .taken s := by
  rw [takeHeader, capturing, slotHeader, noGo]
  rfl

variable (go : d.getLsbD 0 = true) {x : Slot} (slot : slotAt s n k = some x)
include go slot

/-- Step 4. -/
theorem takeHeader_busy (busy : x.captured = true ∨ x.refusal ≠ none) : takeHeader n k 0xFF d s = refuseHeader n .slotBusy s := by
  rw [takeHeader, capturing, slot]
  refine (if_neg (by decide)).trans ((if_neg (by decide)).trans ((if_neg ?_).trans (if_pos ?_)))
  · rw [slotHeader, go]
    exact Bool.false_ne_true
  · rwa [Bool.or_eq_true, Option.isSome_iff_ne_none]

/-- Steps 5 to 7. -/
theorem takeHeader_free (free : x.captured = false) (unrefused : x.refusal = none) :
    takeHeader n k 0xFF d s = .taken (decideHeader n k x (slotHeader d) s) := by
  rw [takeHeader, capturing, slot]
  refine (if_neg (by decide)).trans ((if_neg (by decide)).trans ((if_neg ?_).trans (if_neg ?_)))
  · rw [slotHeader, go]
    exact Bool.false_ne_true
  · rw [free, unrefused]
    decide

end

/-- Settles O30: steps 1 to 4 of Table 6-2. -/
theorem headerWritesRefused : Obligations.HeaderWritesRefused := by
  intro m a be d s n k ready
  have line : s.mem.line = [] := ready.1
  have check (be : ByteEnables) := writeCheck_header be d ready
  refine ⟨fun halted => endsIn_write_refused rfl line rfl ((check be).trans (takeHeader_halted halted)), fun capturing =>
    ⟨fun partly => endsIn_write_refused rfl line rfl ((check be).trans (takeHeader_partial capturing partly)), fun noGo =>
      endsIn_write_taken rfl line rfl ((check 0xFF).trans (takeHeader_noGo capturing noGo)), fun x go slot busy =>
      endsIn_write_refused rfl line rfl ((check 0xFF).trans (takeHeader_busy capturing go slot busy))⟩⟩

/-! ## Captures and refusal outcomes (R103, R104) -/

/-- The code a header gives for its class (Table 12-4). -/
def classCode : LaunchClass → Nat
  | .urgent => 0
  | .normal => 1

theorem classCode_le (c : LaunchClass) : classCode c ≤ 1 := by
  cases c <;> decide

/-- A header names a class by its code. -/
theorem cls_of_code {h : SlotHeader} {c : LaunchClass} (code : h.classCode = classCode c) : h.cls = some c := by
  rw [SlotHeader.cls, code]
  cases c <;> rfl

/-- R104, field by field. -/
theorem illegal_iff (h : SlotHeader) :
    h.illegal = true ↔ h.length = 0 ∨ 48 < h.length ∨ (h.mode = .pinned ∧ 4 < h.pinnedCode) ∨ 1 < h.classCode := by
  simp [SlotHeader.illegal, or_assoc]

section
variable {n : RingId} {k : Nat} {x : Slot} {h : SlotHeader} {s : State}

/-- An illegal header draws the refusal BAD_HEADER. -/
theorem decideHeader_illegal (bad : h.illegal = true) : decideHeader n k x h s = enterRefusal n k x h .badHeader s := by
  rw [decideHeader]
  cases h.cls with
  | none => rfl
  | some c => exact if_pos bad

/-- A legal header is captured unless its class is full. -/
theorem decideHeader_legal {c : LaunchClass} (code : h.classCode = classCode c) (legal : h.illegal = false) :
    decideHeader n k x h s = if 16 ≤ holdCount s c then enterRefusal n k x h .refusedFull s else capture n k x h c s := by
  rw [decideHeader, cls_of_code code]
  exact if_neg (by rw [legal]; exact Bool.false_ne_true)

end

/-- A capture, every effect of it in its place. -/
theorem capture_eq (n : RingId) (k : Nat) (x : Slot) (h : SlotHeader) (c : LaunchClass) (s : State) :
    capture n k x h c s = onSlot n k (fun x => { x with captured := true })
      (onOutRing n (fun o => { o with captures := satInc o.captures }) { s with
        nextSequence := s.nextSequence.set h.stream.val (s.nextSequence[h.stream] + 1) h.stream.isLt
        sel := { s.sel with
          held := s.sel.held ++ [captureRecord s n k x h c]
          urgent := if c = .urgent then { s.sel.urgent with back := s.sel.urgent.back ++ [⟨n, k⟩] } else s.sel.urgent
          normal := if c = .normal then { s.sel.normal with back := s.sel.normal.back ++ [⟨n, k⟩] } else s.sel.normal
          holdUrgent := if c = .urgent then s.sel.holdUrgent + 1 else s.sel.holdUrgent
          holdNormal := if c = .normal then s.sel.holdNormal + 1 else s.sel.holdNormal
          captureOrder := s.sel.captureOrder + 1 } }) := by
  rw [← onOutRing_onSlot_comm _ fun _ => rfl]
  cases c <;> rfl

/-- A ring with a refusal outcome counted and requested (R104). -/
def withRefusal (k : Nat) (x : Slot) (i : StreamId) (res : OutcomeResult) (s : State) (o : OutRing) : OutRing :=
  { o with
    badHeader := if res = .badHeader then satInc o.badHeader else o.badHeader
    refusedFull := if res = .badHeader then o.refusedFull else satInc o.refusedFull
    outcomes := o.outcomes ++ [{
      slot := k, result := res, paths := 0, stream := i, sequence := 0, spill := false, single := false, rain := false
      capture := stampNow s, launch := none, tag := x.staging[0], refusal := true, generation := o.generation
      request := s.sel.requestOrder }] }

/-- The next request takes the next number. -/
def requested (s : State) : State := { s with sel := { s.sel with requestOrder := s.sel.requestOrder + 1 } }

/-- A refusal outcome, every effect of it in its place. -/
theorem enterRefusal_eq {res : OutcomeResult} (n : RingId) (k : Nat) (x : Slot) (h : SlotHeader) (s : State)
    (either : res = .badHeader ∨ res = .refusedFull) :
    enterRefusal n k x h res s
      = onSlot n k (fun x => { x with refusal := some res }) (onOutRing n (withRefusal k x h.stream res s) (requested s)) := by
  have ring : onOutRing n (fun r => { r with outcomes := r.outcomes ++ [{ refusalEntry s n k x h res with request := s.sel.requestOrder }] })
      (onOutRing n (·.countRefusal res) (onSlot n k (fun x => { x with refusal := some res }) s))
      = onSlot n k (fun x => { x with refusal := some res }) (onOutRing n (withRefusal k x h.stream res s) s) := by
    rw [onSlot, onSlot, onOutRing_onOutRing, onOutRing_onOutRing, onOutRing_onOutRing]
    refine onOutRing_congr ?_
    rcases either with bad | full
    · subst bad
      rfl
    · subst full
      rfl
  exact congrArg requested ring

/-- A stream is named by four bits of the header. -/
theorem stream_of_field {d : Word} {i : StreamId} (named : i.val = field d 16 4) : (slotHeader d).stream = i :=
  Fin.ext named.symm

/-- The record of a capture, field by field (R103). -/
theorem captureRecord_eq {d : Word} {i : StreamId} {md : LaunchMode} (s : State) (n : RingId) (k : Nat) (x : Slot) (c : LaunchClass)
    (named : i.val = field d 16 4) (mode : md = LaunchMode.ofCode (field d 20 2)) :
    captureRecord s n k x (slotHeader d) c = {
      name := ⟨n, k⟩, stream := i, sequence := s.nextSequence[i], cls := c, mode := md
      pinned := if md = .pinned then asIndex 5 (field d 24 3) else none
      payload := ((x.staging.toList.drop 1).flatMap wordBytes).take (field d 8 8)
      tag := x.staging[0], capture := ⟨s.time.value, s.time.state⟩
      ageLimit := if field d 32 16 = 0 then none else some (field d 32 16)
      copies := [], spill := false, single := false, rain := false, firstAccepted := none
      order := s.sel.captureOrder } := by
  obtain rfl := stream_of_field named
  subst mode
  rw [captureRecord]
  congr 1
  exact if_congr beq_iff_eq rfl rfl

/-- Settles O31: by the class the header names and the room its class has. -/
theorem headerWritesCaptureOrDrawARefusal : Obligations.HeaderWritesCaptureOrDrawARefusal := by
  intro m a d s n k x i md ready capturing go slot free unrefused named mode
  have line : s.mem.line = [] := ready.1
  have check := (writeCheck_header 0xFF d ready).trans (takeHeader_free capturing go slot free unrefused)
  obtain rfl := stream_of_field named
  have decided {t : State} (into : decideHeader n k x (slotHeader d) s = t) :
      EndsIn (.headerWrite m a 0xFF d) s (passAccess (writeOf m a 0xFF d) t) :=
    endsIn_write_taken rfl line rfl (check.trans (congrArg Verdict.taken into))
  have legal (low : 1 ≤ field d 8 8) (high : field d 8 8 ≤ 48) (pinned : md = .pinned → field d 24 3 ≤ 4)
      (code : field d 28 2 ≤ 1) : (slotHeader d).illegal = false := by
    rw [← Bool.not_eq_true, illegal_iff]
    rintro (empty | long | ⟨isPinned, path⟩ | reserved)
    · exact absurd (show field d 8 8 = 0 from empty) (by omega)
    · exact absurd (show 48 < field d 8 8 from long) (by omega)
    · exact absurd (show 4 < field d 24 3 from path) (Nat.not_lt.mpr (pinned (mode.trans isPinned)))
    · exact absurd (show 1 < field d 28 2 from reserved) (by omega)
  refine ⟨fun c low high pinned code room => decided ?_, fun res why => decided ?_⟩
  · have known : field d 28 2 = classCode c := code
    have room : ¬ 16 ≤ holdCount s c := Nat.not_le.mpr room
    rw [decideHeader_legal known (legal low high pinned (known ▸ classCode_le c)), if_neg room, capture_eq,
      captureRecord_eq s n k x c named mode]
  · rcases why with ⟨bad, why⟩ | ⟨isFull, low, high, pinned, why⟩
    · have illegal : (slotHeader d).illegal = true := by
        rw [illegal_iff]
        rw [mode] at why
        exact why
      subst bad
      exact (decideHeader_illegal illegal).trans (enterRefusal_eq _ _ _ _ _ (.inl rfl))
    · have crowded : ∃ c, field d 28 2 = classCode c ∧ 16 ≤ holdCount s c := by
        rcases why with ⟨code, held⟩ | ⟨code, held⟩
        · exact ⟨.urgent, code, held⟩
        · exact ⟨.normal, code, held⟩
      obtain ⟨c, code, held⟩ := crowded
      rw [decideHeader_legal code (legal low high pinned (code ▸ classCode_le c)), if_pos held]
      subst isFull
      exact enterRefusal_eq _ _ _ _ _ (.inr rfl)

/-! ## Staging writes (R101) -/

/-- The bits of an enabled byte's mask. -/
theorem byteMask_getLsbD {i : Nat} (k : Nat) (inWord : i < 64) : (0xFF#64 <<< (8 * k)).getLsbD i = decide (i / 8 = k) := by
  have low : (0xFF#64).getLsbD (i - 8 * k) = decide (i - 8 * k < 8) := Nat.testBit_two_pow_sub_one 8 _
  rw [BitVec.getLsbD_shiftLeft, low, decide_eq_true inWord, Bool.true_and, Bool.eq_iff_iff, Bool.and_eq_true,
    Bool.not_eq_true', decide_eq_false_iff_not, decide_eq_true_iff, decide_eq_true_iff]
  omega

/-- Bit `i` of a merged word: of the new word if its byte is enabled. -/
theorem mergeBytes_getLsbD {i : Nat} (old new : Word) (be : ByteEnables) (inWord : i < 64) :
    (mergeBytes old new be).getLsbD i = if be.getLsbD (i / 8) then new.getLsbD i else old.getLsbD i := by
  have upTo (n : Nat) : ((List.range n).foldl (fun w k => if be.getLsbD k then
      (w &&& ~~~(0xFF#64 <<< (8 * k))) ||| (new &&& (0xFF#64 <<< (8 * k))) else w) old).getLsbD i
      = if i / 8 < n ∧ be.getLsbD (i / 8) = true then new.getLsbD i else old.getLsbD i := by
    induction n with
    | zero => rfl
    | succ n ih =>
      rw [List.range_succ, List.foldl_append, List.foldl_cons, List.foldl_nil]
      by_cases here : i / 8 = n
      · subst here
        by_cases on : be.getLsbD (i / 8) = true
        · simp [on, byteMask_getLsbD _ inWord]
        · simp [on, ih]
      · have reach : i / 8 < n + 1 ↔ i / 8 < n := by omega
        have outside : (0xFF#64 <<< (8 * n)).getLsbD i = false := by rw [byteMask_getLsbD n inWord, decide_eq_false here]
        rw [if_congr (and_congr_left' reach) rfl rfl, ← ih]
        split
        · rw [BitVec.getLsbD_or, BitVec.getLsbD_and, BitVec.getLsbD_and, BitVec.getLsbD_not, outside, decide_eq_true inWord,
            Bool.and_false, Bool.or_false]
          exact Bool.and_true _
        · rfl
  refine (upTo 8).trans (if_congr ?_ rfl rfl)
  exact and_iff_right (by omega)

/-- Settles O32, bit by bit of the merged word. -/
theorem stagingWritesReplaceEnabledBytes : Obligations.StagingWritesReplaceEnabledBytes := by
  refine ⟨fun m a be d s n k w ready => endsIn_write_taken rfl ready.1 rfl (writeCheck_staging be d ready), fun old new be j => ?_⟩
  refine BitVec.eq_of_getLsbD_eq fun i inByte => ?_
  have byte : (8 * j.val + i) / 8 = j.val := by omega
  rw [BitVec.getLsbD_extractLsb', mergeBytes_getLsbD old new be (by omega), byte, decide_eq_true inByte, Bool.true_and]
  split
  · rw [BitVec.getLsbD_extractLsb', decide_eq_true inByte, Bool.true_and]
  · rw [BitVec.getLsbD_extractLsb', decide_eq_true inByte, Bool.true_and]

end Sys2Proof.OutboundSlots
end

section
/-! SUPPORT. Link frames: what a port reads from the bytes that another has put into a frame (R161, R162, Tables 12-1 and 12-2). -/

namespace Sys2Proof.LinkFrames

open Machine

/-! ## Numbers spelled by bytes (R184) -/

theorem leBytes_succ (n v : Nat) : leBytes (n + 1) v = BitVec.ofNat 8 v :: leBytes n (v / 256) := by
  rw [leBytes, leBytes, List.range_succ_eq_map, List.map_cons, List.map_map]
  congr 1
  refine List.map_congr_left fun i _ => ?_
  rw [Function.comp_apply, Nat.mul_succ, Nat.add_comm, Nat.shiftRight_add, Nat.shiftRight_eq_div_pow v 8]

/-- The number that bytes spell is the number they were taken from, if they are enough. -/
theorem leValue_leBytes (n v : Nat) (fits : v < 256 ^ n) : leValue (leBytes n v) = v := by
  induction n generalizing v with
  | zero => exact (Nat.lt_one_iff.mp fits).symm
  | succ n ih =>
    rw [leBytes_succ, leValue, ih _ (Nat.div_lt_of_lt_mul (by rwa [← Nat.pow_succ'])), BitVec.toNat_ofNat]
    exact Nat.mod_add_div v 256

theorem leValue_lt (bs : List Byte) : leValue bs < 256 ^ bs.length := by
  induction bs with
  | nil => exact Nat.one_pos
  | cons b bs ih =>
    have low := b.isLt
    rw [leValue, List.length_cons, Nat.pow_succ]
    omega

theorem bytesAt_lt (bs : List Byte) (i n : Nat) : bytesAt bs i n < 256 ^ n :=
  Nat.lt_of_lt_of_le (leValue_lt _) (Nat.pow_le_pow_right (by decide) (List.length_take_le ..))

/-- Bytes within the first part of a string are that part's. -/
theorem bytesAt_append_left {l r : List Byte} {i n : Nat} (within : i + n ≤ l.length) : bytesAt (l ++ r) i n = bytesAt l i n := by
  rw [bytesAt, bytesAt, List.drop_append_of_le_length (by omega), List.take_append_of_le_length (by rw [List.length_drop]; omega)]

/-- Bytes behind the first part of a string are the second's. -/
theorem bytesAt_append_right (l r : List Byte) (n : Nat) : bytesAt (l ++ r) l.length n = bytesAt r 0 n := by
  rw [bytesAt, bytesAt, List.drop_left, List.drop_zero]

/-! ## Codes read back (Table 12-1) -/

theorem kind_code_of_ofCode {n : Nat} {k : FrameKind} (read : FrameKind.ofCode n = some k) : k.code = n := by
  unfold FrameKind.ofCode at read
  split at read <;> cases read <;> rfl

theorem ofCode_eq_none {n : Nat} (unknown : 6 < n) : FrameKind.ofCode n = none := by
  match n, unknown with
  | _ + 7, _ => rfl

theorem exists_kind {n : Nat} (known : n ≤ 6) : ∃ k, FrameKind.ofCode n = some k := by
  interval_cases n <;> exact ⟨_, rfl⟩

theorem kind_code_injective : Function.Injective FrameKind.code :=
  have readBack (k : FrameKind) : FrameKind.ofCode k.code = some k := by cases k <;> rfl
  fun a b same => Option.some.inj ((readBack a).symm.trans ((congrArg FrameKind.ofCode same).trans (readBack b)))

theorem role_code_injective : Function.Injective Role.code :=
  Function.LeftInverse.injective (g := fun n => Role.ofBit (n = 1)) fun r => by cases r <;> rfl

theorem quality_code_injective : Function.Injective Quality.code :=
  Function.LeftInverse.injective (g := Quality.ofCode) fun q => by cases q <;> rfl

theorem role_ofBit_code {b : Nat} (byte : b < 256) : (Role.ofBit (b / 128 = 1)).code = b / 128 := by
  have either : b / 128 = 0 ∨ b / 128 = 1 := by omega
  rcases either with lead | follow
  · rw [lead]
    rfl
  · rw [follow]
    rfl

theorem quality_ofCode_code (n : Nat) : (Quality.ofCode n).code = n % 4 := by
  have four : n % 4 < 4 := Nat.mod_lt n (by decide)
  rw [Quality.ofCode]
  interval_cases n % 4 <;> rfl

/-! ## The judgement of a frame (R161, R162) -/

/-- The header that bytes of a known kind spell. -/
def headerOf (bs : List Byte) (kind : FrameKind) : FrameHeader where
  kind := kind
  path := byteAt bs 0 / 16 % 8
  role := Role.ofBit (byteAt bs 0 / 128 = 1)
  quality := Quality.ofCode (byteAt bs 1)
  stream := byteAt bs 1 / 4 % 16
  length := byteAt bs 2
  sequence := BitVec.ofNat 32 (bytesAt bs 4 4)
  sent := timeOf (bytesAt bs 8 4) (bytesAt bs 12 4)

/-- A frame of a known kind is good. -/
def Good (p : PathId) (check errored : Bool) (bs : List Byte) (h : FrameHeader) : Prop :=
  errored = false ∧ h.path = p.val ∧ lengthGood h = true ∧ bytesAt bs 12 4 ≤ 999999999
  ∧ bs.length = 16 + h.length + (if check then 4 else 0)
  ∧ (check = true → bytesAt bs (16 + h.length) 4 = (crc32 (bs.take (16 + h.length))).toNat)

section
variable {p : PathId} {check errored : Bool} {bs : List Byte} {kind : FrameKind}

theorem judgeFrame_unknown (unknown : FrameKind.ofCode (byteAt bs 0 % 16) = none) : judgeFrame p check errored bs = none := by
  rw [judgeFrame, parseHeader, unknown]

variable (known : FrameKind.ofCode (byteAt bs 0 % 16) = some kind)
include known

theorem judgeFrame_good (good : Good p check errored bs (headerOf bs kind)) :
    judgeFrame p check errored bs = some (headerOf bs kind, (bs.drop 16).take (byteAt bs 2)) := by
  obtain ⟨received, path, length, time, whole, crc⟩ := good
  have payload : (bs.take (16 + byteAt bs 2)).drop 16 = (bs.drop 16).take (byteAt bs 2) := by
    rw [List.drop_take, Nat.add_sub_cancel_left]
  rw [judgeFrame, parseHeader, known, ← payload]
  refine if_pos ?_
  simp only [Bool.and_eq_true, Bool.or_eq_true, Bool.not_eq_true', beq_iff_eq, decide_eq_true_iff]
  exact ⟨⟨⟨⟨⟨received, path⟩, length⟩, time⟩, whole⟩, (Bool.eq_false_or_eq_true check).symm.imp id crc⟩

theorem judgeFrame_bad (bad : ¬ Good p check errored bs (headerOf bs kind)) : judgeFrame p check errored bs = none := by
  rw [judgeFrame, parseHeader, known]
  refine if_neg ?_
  simp only [Bool.and_eq_true, Bool.or_eq_true, Bool.not_eq_true', beq_iff_eq, decide_eq_true_iff]
  rintro ⟨⟨⟨⟨⟨received, path⟩, length⟩, time⟩, whole⟩, crc⟩
  exact bad ⟨received, path, length, time, whole, fun on => crc.resolve_left (by rw [on]; decide)⟩

end

/-- The lengths that a frame of each kind may not have (Table 9-3). -/
theorem lengthGood_iff (h : FrameHeader) : lengthGood h = true ↔ ¬ (48 < h.length ∨ (h.kind.code = 1 ∧ h.length ≠ 0)
    ∨ (h.kind.code = 2 ∧ h.length ≠ 20) ∨ ((h.kind.code = 3 ∨ h.kind.code = 4 ∨ h.kind.code = 5) ∧ h.length ≠ 4)
    ∨ (h.kind.code = 6 ∧ h.length ≠ 8)) := by
  rw [lengthGood, Bool.and_eq_true, decide_eq_true_iff]
  cases h.kind <;> simp [FrameKind.fixedLength, FrameKind.code]

/-- The conditions that make bytes a bad frame. -/
def Bad (p : PathId) (check errored : Bool) (bytes : List Byte) (b0 length : Nat) : Prop :=
  errored = true ∨ 6 < b0 % 16 ∨ b0 / 16 % 8 ≠ p.val ∨ 48 < length
  ∨ (b0 % 16 = 1 ∧ length ≠ 0) ∨ (b0 % 16 = 2 ∧ length ≠ 20)
  ∨ ((b0 % 16 = 3 ∨ b0 % 16 = 4 ∨ b0 % 16 = 5) ∧ length ≠ 4) ∨ (b0 % 16 = 6 ∧ length ≠ 8)
  ∨ 999999999 < bytesAt bytes 12 4
  ∨ bytes.length ≠ 16 + length + (if check then 4 else 0)
  ∨ (check = true ∧ bytesAt bytes (16 + length) 4 ≠ (crc32 (bytes.take (16 + length))).toNat)

/-- A frame of a known kind is good if and only if no condition makes it bad. -/
theorem good_iff {p : PathId} {check errored : Bool} {bs : List Byte} {kind : FrameKind}
    (known : FrameKind.ofCode (byteAt bs 0 % 16) = some kind) :
    Good p check errored bs (headerOf bs kind) ↔ ¬ Bad p check errored bs (byteAt bs 0) (byteAt bs 2) := by
  have code : (headerOf bs kind).kind.code = byteAt bs 0 % 16 := kind_code_of_ofCode known
  have within : ¬ 6 < byteAt bs 0 % 16 := fun unknown => by
    rw [ofCode_eq_none unknown] at known
    cases known
  rw [Good, Bad, lengthGood_iff, code]
  simp only [not_or, not_and, ne_eq, not_not, Bool.not_eq_true]
  constructor
  · rintro ⟨received, path, ⟨short, probe, echo, four, answer⟩, time, whole, crc⟩
    exact ⟨received, within, path, short, probe, echo, four, answer, Nat.not_lt.mpr time, whole, crc⟩
  · rintro ⟨received, -, path, short, probe, echo, four, answer, time, whole, crc⟩
    exact ⟨received, path, ⟨short, probe, echo, four, answer⟩, Nat.not_lt.mp time, whole, crc⟩

/-- A frame is bad under each of the conditions. -/
theorem judgeFrame_of_bad {p : PathId} {check errored : Bool} {bs : List Byte}
    (bad : Bad p check errored bs (byteAt bs 0) (byteAt bs 2)) : judgeFrame p check errored bs = none := by
  cases known : FrameKind.ofCode (byteAt bs 0 % 16) with
  | none => exact judgeFrame_unknown known
  | some kind => exact judgeFrame_bad known fun good => (good_iff known).mp good bad

/-- A frame under no such condition is read field by field. -/
theorem judgeFrame_of_not_bad {p : PathId} {check errored : Bool} {bs : List Byte}
    (fine : ¬ Bad p check errored bs (byteAt bs 0) (byteAt bs 2)) : ∃ h : FrameHeader,
      judgeFrame p check errored bs = some (h, (bs.drop 16).take (byteAt bs 2))
      ∧ h.kind.code = byteAt bs 0 % 16 ∧ h.path = p.val ∧ h.role.code = byteAt bs 0 / 128 ∧ h.quality.code = byteAt bs 1 % 4
      ∧ h.stream = byteAt bs 1 / 4 % 16 ∧ h.length = byteAt bs 2 ∧ h.sequence.toNat = bytesAt bs 4 4
      ∧ h.sent = bytesAt bs 8 4 * 1000000000 + bytesAt bs 12 4 := by
  obtain ⟨kind, known⟩ := exists_kind (Nat.not_lt.mp fun unknown => fine (.inr (.inl unknown)))
  have good := (good_iff known).mpr fine
  obtain ⟨-, path, -⟩ := id good
  refine ⟨headerOf bs kind, judgeFrame_good known good, kind_code_of_ofCode known, path, role_ofBit_code (bytesAt_lt bs 0 1),
    quality_ofCode_code _, rfl, rfl, ?_, rfl⟩
  exact Nat.mod_eq_of_lt (bytesAt_lt bs 4 4)

/-! ## The bytes of a frame -/

section
variable (check : Bool) (h : FrameHeader) (payload : List Byte)

theorem headerBytes_length : (headerBytes h).length = 16 := rfl

/-- A number within the header is the header's, whatever follows it. -/
theorem bytesAt_frameBytes {i n : Nat} (within : i + n ≤ 16) : bytesAt (frameBytes check h payload) i n = bytesAt (headerBytes h) i n := by
  rw [frameBytes]
  split
  · rw [List.append_assoc, bytesAt_append_left within]
  · rw [bytesAt_append_left within]

theorem byteAt_of_lt {bs : List Byte} {i v : Nat} (place : (bs.drop i).take 1 = [BitVec.ofNat 8 v]) (byte : v < 256) :
    byteAt bs i = v := by
  rw [byteAt, bytesAt, place, leValue, leValue, BitVec.toNat_ofNat]
  exact Nat.mod_eq_of_lt byte

theorem bytesAt_of_lt {bs : List Byte} {i v : Nat} (place : (bs.drop i).take 4 = leBytes 4 v) (small : v < 4294967296) :
    bytesAt bs i 4 = v := by
  rw [bytesAt, place, leValue_leBytes 4 v small]

theorem frameBytes_length : (frameBytes check h payload).length = 16 + payload.length + (if check then 4 else 0) := by
  rw [frameBytes]
  cases check with
  | true => exact (List.length_append).trans (congrArg (· + 4) (List.length_append))
  | false => exact List.length_append

theorem frameBytes_take : (frameBytes check h payload).take (16 + payload.length) = headerBytes h ++ payload := by
  have whole : 16 + payload.length = (headerBytes h ++ payload).length := by rw [List.length_append, headerBytes_length]
  rw [frameBytes, whole]
  cases check with
  | true => exact List.take_left
  | false => exact List.take_length

theorem frameBytes_payload : ((frameBytes check h payload).drop 16).take payload.length = payload :=
  calc ((frameBytes check h payload).drop 16).take payload.length
      = ((frameBytes check h payload).take (16 + payload.length)).drop 16 := by rw [List.drop_take, Nat.add_sub_cancel_left]
    _ = payload := by rw [frameBytes_take]; exact List.drop_left' (headerBytes_length h)

theorem frameBytes_crc : bytesAt (frameBytes true h payload) (16 + payload.length) 4 = (crc32 (headerBytes h ++ payload)).toNat := by
  have whole : 16 + payload.length = (headerBytes h ++ payload).length := by rw [List.length_append, headerBytes_length]
  rw [frameBytes, whole]
  refine (bytesAt_append_right ..).trans (bytesAt_of_lt rfl (BitVec.isLt _))

end

/-- What a port puts into a frame, another reads from it. -/
theorem judgeFrame_frameBytes {p : PathId} {check : Bool} {h : FrameHeader} {payload : List Byte} (path : h.path = p.val)
    (stream : h.stream < 16) (length : h.length = payload.length) (short : h.length ≤ 48)
    (fixed : ∀ n, h.kind.fixedLength = some n → h.length = n) (sent : h.sent ≤ 4294967295 * 1000000000 + 999999999) :
    judgeFrame p check false (frameBytes check h payload) = some (h, payload) := by
  have kindCode : h.kind.code ≤ 6 := by cases h.kind <;> decide
  have roleCode : h.role.code ≤ 1 := by cases h.role <;> decide
  have qualityCode : h.quality.code ≤ 3 := by cases h.quality <;> decide
  have port := p.isLt
  have late : @LE.le Nat _ h.sent (4294967295 * 1000000000 + 999999999) := sent
  have byte0 : byteAt (frameBytes check h payload) 0 = h.kind.code + 16 * h.path + 128 * h.role.code :=
    (bytesAt_frameBytes check h payload (by decide)).trans (byteAt_of_lt rfl (by omega))
  have byte1 : byteAt (frameBytes check h payload) 1 = h.quality.code + 4 * h.stream :=
    (bytesAt_frameBytes check h payload (by decide)).trans (byteAt_of_lt rfl (by omega))
  have byte2 : byteAt (frameBytes check h payload) 2 = h.length :=
    (bytesAt_frameBytes check h payload (by decide)).trans (byteAt_of_lt rfl (by omega))
  have sequence : bytesAt (frameBytes check h payload) 4 4 = h.sequence.toNat :=
    (bytesAt_frameBytes check h payload (by decide)).trans (bytesAt_of_lt rfl h.sequence.isLt)
  have seconds : bytesAt (frameBytes check h payload) 8 4 = h.sent / 1000000000 :=
    (bytesAt_frameBytes check h payload (by decide)).trans (bytesAt_of_lt rfl (by omega))
  have nanoseconds : bytesAt (frameBytes check h payload) 12 4 = h.sent % 1000000000 :=
    (bytesAt_frameBytes check h payload (by decide)).trans (bytesAt_of_lt rfl (by omega))
  have kind0 : byteAt (frameBytes check h payload) 0 % 16 = h.kind.code := by omega
  have kindLength : lengthGood h = true := by
    rw [lengthGood, Bool.and_eq_true, decide_eq_true_iff]
    refine ⟨short, ?_⟩
    split
    · rfl
    · exact beq_iff_eq.mpr (fixed _ ‹_›)
  have fine : ¬ Bad p check false (frameBytes check h payload) (byteAt (frameBytes check h payload) 0)
      (byteAt (frameBytes check h payload) 2) := by
    rw [lengthGood_iff, ← byte2, ← kind0] at kindLength
    rintro (errored | unknown | other | bad | bad | bad | bad | bad | time | size | ⟨on, crc⟩)
    · cases errored
    · omega
    · omega
    · exact kindLength (.inl bad)
    · exact kindLength (.inr (.inl bad))
    · exact kindLength (.inr (.inr (.inl bad)))
    · exact kindLength (.inr (.inr (.inr (.inl bad))))
    · exact kindLength (.inr (.inr (.inr (.inr bad))))
    · omega
    · rw [byte2, length] at size
      exact size (frameBytes_length check h payload)
    · subst on
      rw [byte2, length, frameBytes_take] at crc
      exact crc (frameBytes_crc h payload)
  obtain ⟨read, judged, kind, samePath, role, quality, sameStream, sameLength, number, time⟩ := judgeFrame_of_not_bad fine
  have same : read = h := by
    have sameKind : read.kind = h.kind := kind_code_injective (by omega)
    have sameRole : read.role = h.role := role_code_injective (by omega)
    have sameQuality : read.quality = h.quality := quality_code_injective (by omega)
    have sameNumber : read.sequence = h.sequence := BitVec.eq_of_toNat_eq (by omega)
    have sameStream' : read.stream = h.stream := by omega
    have sameTime : read.sent = h.sent := by
      rw [time, seconds, nanoseconds]
      exact Nat.div_add_mod' h.sent 1000000000
    rw [← path] at samePath
    rw [byte2] at sameLength
    cases read
    cases h
    congr
  rw [judged, same, byte2, length, frameBytes_payload]

/-- Settles O14: by the numbers that the bytes of a frame spell, and by the conditions that make it bad. -/
theorem linkFramesReadBackAsSent : Obligations.LinkFramesReadBackAsSent := by
  refine ⟨fun p check h payload path stream length short fixed sent =>
    judgeFrame_frameBytes path stream length short fixed sent, fun p check errored bytes b0 b1 length bad e0 e1 e2 conditions => ?_⟩
  subst e0 e1 e2
  exact ⟨fun isBad => judgeFrame_of_bad (conditions.mp isBad), fun fine => judgeFrame_of_not_bad (mt conditions.mpr fine)⟩

end Sys2Proof.LinkFrames
end

section
/-! SUPPORT. The commands of the command word that complete or wait at once: RANGE and UNKNOWN, PATH_RESET, the inbound rings,
QUERY_PATH, ALARM_ACK, LOG_RESET and SNAPSHOT (chapter 11). -/

namespace Sys2Proof.Commands

open Machine PathSupervision WindowTable

/-! ## The command a code names (Table 11-1) -/

section
variable (num : Byte) (arg : BitVec 48) (s : State)

theorem runCommand_pathDisable : runCommand (commandWord 2 num arg) s = withIndex 5 (commandWord 2 num arg) disablePath s := by
  rw [runCommand, commandWord_field]; rfl

theorem runCommand_pathReset : runCommand (commandWord 3 num arg) s = withIndex 5 (commandWord 3 num arg) resetPath s := by
  rw [runCommand, commandWord_field]; rfl

theorem runCommand_ringStart : runCommand (commandWord 4 num arg) s = withIndex 4 (commandWord 4 num arg) startRing s := by
  rw [runCommand, commandWord_field]; rfl

theorem runCommand_ringStop : runCommand (commandWord 5 num arg) s = withIndex 4 (commandWord 5 num arg) stopRing s := by
  rw [runCommand, commandWord_field]; rfl

theorem runCommand_ringReset : runCommand (commandWord 6 num arg) s = withIndex 4 (commandWord 6 num arg) resetRing s := by
  rw [runCommand, commandWord_field]; rfl

theorem runCommand_outFlush : runCommand (commandWord 7 num arg) s = withIndex 4 (commandWord 7 num arg) flushRing s := by
  rw [runCommand, commandWord_field]; rfl

theorem runCommand_outSeqSet : runCommand (commandWord 8 num arg) s
    = withIndex 16 (commandWord 8 num arg) (setOutSequence (commandWord 8 num arg)) s := by
  rw [runCommand, commandWord_field]; rfl

theorem runCommand_timeSet : runCommand (commandWord 10 num arg) s = timeSet s := by
  rw [runCommand, commandWord_field]; rfl

theorem runCommand_rainSet : runCommand (commandWord 12 num arg) s = setRain true s := by
  rw [runCommand, commandWord_field]; rfl

theorem runCommand_rainClear : runCommand (commandWord 13 num arg) s = setRain false s := by
  rw [runCommand, commandWord_field]; rfl

theorem runCommand_queryPath : runCommand (commandWord 14 num arg) s = withIndex 5 (commandWord 14 num arg) queryPath s := by
  rw [runCommand, commandWord_field]; rfl

theorem runCommand_alarmAck : runCommand (commandWord 15 num arg) s = ackAlarms (commandWord 15 num arg) s := by
  rw [runCommand, commandWord_field]; rfl

theorem runCommand_logReset : runCommand (commandWord 16 num arg) s = resetLog s := by
  rw [runCommand, commandWord_field]; rfl

theorem runCommand_snapshot : runCommand (commandWord 17 num arg) s = takeSnapshot s := by
  rw [runCommand, commandWord_field]; rfl

/-- Any other code is UNKNOWN. -/
theorem runCommand_unknown {code : Byte} (other : code.toNat = 0 ∨ 17 < code.toNat) :
    runCommand (commandWord code num arg) s = complete .unknown s := by
  rw [runCommand, commandWord_field]
  generalize code.toNat = n at other
  match n, other with
  | 0, _ => rfl
  | _ + 18, _ => rfl

end

/-! ## Rows of commands (R176, R177) -/

section
variable {c : Instr} {m : Master} {code num : Byte} {arg : BitVec 48} {s u : State}
  (row : exec c s = .next (settle s (arriveCommand code m 0xFF num arg s))) (ready : CommandReady s m)
include row ready

/-- A command that completes. -/
theorem endsIn_completes {r : CommandResult}
    (runs : runCommand (commandWord code num arg) (busyWith code num .nothing s) = complete r (busyWith code num .nothing u)) :
    EndsIn c s (commandPassed s code m num arg (finished code num r u)) :=
  endsIn_command row ready (by rw [runs, kept_complete_busyWith])

/-- A command that waits. -/
theorem endsIn_waits {w : Wait} (runs : runCommand (commandWord code num arg) (busyWith code num .nothing s) = busyWith code num w u) :
    EndsIn c s (commandPassed s code m num arg (busyWith code num w u)) :=
  endsIn_command row ready (congrArg kept runs)

/-- A command whose index is out of range completes with RANGE. -/
theorem endsIn_outOfRange {n : Nat} {act : Fin n → State → State} (above : n ≤ argIndex arg)
    (runs : runCommand (commandWord code num arg) (busyWith code num .nothing s)
      = withIndex n (commandWord code num arg) act (busyWith code num .nothing s)) :
    EndsIn c s (commandPassed s code m num arg (finished code num .range s)) :=
  endsIn_completes row ready (runs.trans (withIndex_outOfRange code num act _ above))

end

/-- Settles O33: by the range of each command's index; the codes outside Table 11-1 by the command word's match. -/
theorem commandsOutOfRangeOrUnknown : Obligations.CommandsOutOfRangeOrUnknown := by
  intro m num code arg s ready
  refine ⟨fun above => ⟨?_, ?_, ?_, ?_⟩, fun above => ⟨?_, ?_, ?_, ?_⟩, fun above => ⟨?_, ?_⟩, fun other =>
    endsIn_completes rfl ready (runCommand_unknown num arg _ other)⟩
  · exact endsIn_outOfRange rfl ready (Nat.succ_le_of_lt above) (runCommand_pathEnable ..)
  · exact endsIn_outOfRange rfl ready (Nat.succ_le_of_lt above) (runCommand_pathDisable ..)
  · exact endsIn_outOfRange rfl ready (Nat.succ_le_of_lt above) (runCommand_pathReset ..)
  · exact endsIn_outOfRange rfl ready (Nat.succ_le_of_lt above) (runCommand_queryPath ..)
  · exact endsIn_outOfRange rfl ready (Nat.succ_le_of_lt above) (runCommand_ringStart ..)
  · exact endsIn_outOfRange rfl ready (Nat.succ_le_of_lt above) (runCommand_ringStop ..)
  · exact endsIn_outOfRange rfl ready (Nat.succ_le_of_lt above) (runCommand_ringReset ..)
  · exact endsIn_outOfRange rfl ready (Nat.succ_le_of_lt above) (runCommand_outFlush ..)
  · exact endsIn_outOfRange rfl ready (Nat.succ_le_of_lt above) (runCommand_outSeqSet ..)
  · exact endsIn_outOfRange rfl ready (Nat.succ_le_of_lt above) (InboundMergeAndDelivery.runCommand_streamReset ..)

/-! ## PATH_RESET (R6) -/

/-- The channels at PATH_RESET, in each hold mode. -/
theorem resetChannels_eq (x : Path) : resetChannels x = { x with
    probe := ⟨x.setup.probeReload, false, x.setup.probeReload, none, x.setup.probeTap⟩
    silence := ⟨x.setup.silenceReload, false, x.setup.silenceReload, none, x.setup.silenceTap⟩
    holdLow := match x.setup.holdMode with
      | .wide => ⟨x.setup.wideReload.extractLsb' 0 8, false, x.setup.wideReload.extractLsb' 0 8, some x.setup.wideCompare,
          x.setup.holdTap⟩
      | .narrow => ⟨x.setup.narrowReload, false, x.setup.narrowReload, some (x.setup.narrowCompare.zeroExtend 16),
          x.setup.holdTap⟩
    holdHigh := match x.setup.holdMode with
      | .wide => ⟨x.setup.wideReload.extractLsb' 8 8, false, x.setup.wideReload.extractLsb' 8 8, none, x.setup.holdTap⟩
      | .narrow => ⟨x.setup.guardReload, false, x.setup.guardReload, none, x.setup.holdTap⟩ } := by
  cases mode : x.setup.holdMode <;>
    simp [resetChannels, presetGuard, presetHold, presetSilence, presetProbe, Channel.preset, Channel.stop, mode]

theorem runs_pathReset {num : Byte} {arg : BitVec 48} {s : State} {p : PathId} (named : argIndex arg = p.val) :
    runCommand (commandWord 3 num arg) (busyWith 3 num .nothing s) = resetPath p (busyWith 3 num .nothing s) := by
  rw [runCommand_pathReset, withIndex_inRange 3 num p resetPath _ named]

/-- Settles O36, by the argument's range and the path's state. -/
theorem pathResetForgetsHistory : Obligations.PathResetForgetsHistory := by
  intro m num arg s ready
  refine ⟨fun above => endsIn_outOfRange rfl ready (Nat.succ_le_of_lt above) (runCommand_pathReset ..), fun p named =>
    ⟨fun enabled => endsIn_completes rfl ready ((runs_pathReset named).trans (if_neg (mt beq_iff_eq.mp enabled))), fun disabled =>
      endsIn_completes rfl ready ((runs_pathReset named).trans ((if_pos (beq_iff_eq.mpr disabled)).trans ?_))⟩⟩
  refine congrArg (fun f => complete .done (busyWith 3 num .nothing (onPath p f s))) (funext fun x => ?_)
  rw [Path.forget, resetChannels_eq]
  rfl

/-! ## The inbound rings (R152 to R154) -/

section
variable {num : Byte} {arg : BitVec 48} {s : State} {n : RingId} (named : argIndex arg = n.val)
include named

theorem runs_ringStart : runCommand (commandWord 4 num arg) (busyWith 4 num .nothing s) = startRing n (busyWith 4 num .nothing s) := by
  rw [runCommand_ringStart, withIndex_inRange 4 num n startRing _ named]

theorem runs_ringStop : runCommand (commandWord 5 num arg) (busyWith 5 num .nothing s) = stopRing n (busyWith 5 num .nothing s) := by
  rw [runCommand_ringStop, withIndex_inRange 5 num n stopRing _ named]

theorem runs_ringReset : runCommand (commandWord 6 num arg) (busyWith 6 num .nothing s) = resetRing n (busyWith 6 num .nothing s) := by
  rw [runCommand_ringReset, withIndex_inRange 6 num n resetRing _ named]

end

/-- A ring that is STOPPED stays as it is when stopped. -/
theorem onInRing_stopped {n : RingId} {s : State} (stopped : s.inRings[n].state = .stopped) :
    onInRing n (fun r => { r with state := .stopped }) s = s := by
  have same : { s.inRings[n] with state := .stopped } = s.inRings[n] := by rw [← stopped]
  calc onInRing n (fun r => { r with state := .stopped }) s
      = onInRing n id s := MemoryPath.onInRing_congr n _ id s same
    _ = s := by simp [onInRing]

/-- Dropped records do not concern the command state. -/
theorem dropRecords_busyWith (n : RingId) (why : DropReason) (count : Nat) (code num : Byte) (w : Wait) (s : State) :
    dropRecords n why count (busyWith code num w s) = busyWith code num w (dropRecords n why count s) := by
  rw [dropRecords, dropRecords]
  exact List.foldl_hom (busyWith code num w) (fun _ _ => rfl)

/-- A ring that is not ACTIVE is STOPPED at RING_STOP. -/
theorem stopRing_idle {n : RingId} {s : State} (idle : s.inRings[n].state ≠ .active) :
    stopRing n s = complete .done (onInRing n (fun r => { r with state := .stopped }) s) := by
  rw [stopRing]
  cases state : s.inRings[n].state with
  | active => exact absurd state idle
  | halted => rfl
  | stopped => exact congrArg (complete .done) (onInRing_stopped state).symm

/-- How many records of the ring are in the deposit queue. -/
def queuedFor (n : RingId) (s : State) : Nat := (s.mem.queue.filter (·.deliversTo n)).length

/-- An ACTIVE ring STOPPED, its queued records withdrawn and dropped (R153). -/
def ringStopped (n : RingId) (s : State) : State :=
  dropRecords n .stopped (queuedFor n s) (unqueue (·.deliversTo n)
    (onInRing n (fun r => { r with state := .stopped, assigned := r.assigned - BitVec.ofNat 16 (queuedFor n s) }) s))

theorem dropRecords_mem (n : RingId) (why : DropReason) (count : Nat) (s : State) : (dropRecords n why count s).mem = s.mem := by
  rw [dropRecords]
  induction List.range count generalizing s with
  | nil => rfl
  | cons _ l ih => exact ih _

/-- RING_STOP of an ACTIVE ring completes, or waits for the end of the ring's burst. -/
theorem stopRing_active {n : RingId} {s : State} (active : s.inRings[n].state = .active) :
    stopRing n s = if ringInBurst n s then waitFor (.ringBurst n) (ringStopped n s) else complete .done (ringStopped n s) := by
  have burst : ringInBurst n (ringStopped n s) = ringInBurst n s := by
    rw [ringInBurst, ringStopped, dropRecords_mem]
    rfl
  rw [stopRing, active, ← burst]
  rfl

theorem ringStopped_busyWith (n : RingId) (code num : Byte) (w : Wait) (s : State) :
    ringStopped n (busyWith code num w s) = busyWith code num w (ringStopped n s) :=
  dropRecords_busyWith n .stopped (queuedFor n s) code num w (unqueue (·.deliversTo n)
    (onInRing n (fun r => { r with state := .stopped, assigned := r.assigned - BitVec.ofNat 16 (queuedFor n s) }) s))

/-- The burst in progress is a delivery of the ring. -/
theorem ringInBurst_iff (n : RingId) (s : State) :
    ringInBurst n s = true ↔ ∃ b, s.mem.burst = some b ∧ b.source = .delivery n := by
  rw [ringInBurst]
  cases s.mem.burst with
  | none => simp
  | some b => exact (deliversTo_iff n b).trans ⟨fun delivers => ⟨b, rfl, delivers⟩, fun ⟨_, same, delivers⟩ =>
    by cases same; exact delivers⟩

theorem startsAtCommand_iff (r : InRing) :
    (r.state == .stopped && r.slotCount.isSome) = true ↔ r.state = .stopped ∧ r.slotCount ≠ none := by
  rw [Bool.and_eq_true, beq_iff_eq, Option.isSome_iff_ne_none]

/-- Settles O37, by the ring's state and the burst in progress. -/
theorem inboundRingCommands : Obligations.InboundRingCommands := by
  intro m num arg s n ready named
  refine ⟨fun stopped slots => endsIn_completes rfl ready ((runs_ringStart named).trans (if_pos ?_)), fun not =>
    endsIn_completes rfl ready ((runs_ringStart named).trans (if_neg ?_)), fun idle =>
    endsIn_completes rfl ready ((runs_ringStop named).trans (stopRing_idle idle)), fun k u active count is => ?_, fun stopped =>
    endsIn_completes rfl ready ((runs_ringReset named).trans (if_pos (beq_iff_eq.mpr stopped))), fun not =>
    endsIn_completes rfl ready ((runs_ringReset named).trans (if_neg (mt beq_iff_eq.mp not)))⟩
  · exact (startsAtCommand_iff _).mpr ⟨stopped, slots⟩
  · exact fun starts => not.elim (absurd ((startsAtCommand_iff _).mp starts).1) (fun none => ((startsAtCommand_iff _).mp starts).2 none)
  · subst count
    obtain rfl : u = ringStopped n s := is
    have stops := (runs_ringStop (num := num) (s := s) named).trans (stopRing_active active)
    rw [ringStopped_busyWith] at stops
    refine ⟨fun none => endsIn_completes rfl ready (stops.trans (if_neg ?_)), fun burst =>
      endsIn_waits rfl ready (stops.trans (if_pos ((ringInBurst_iff n s).mpr burst)))⟩
    rintro burst
    obtain ⟨b, is, delivers⟩ := (ringInBurst_iff n s).mp burst
    exact none b is delivers

/-! ## QUERY_PATH (R43) -/

theorem runs_queryPath {num : Byte} {arg : BitVec 48} {s : State} {p : PathId} (named : argIndex arg = p.val) :
    runCommand (commandWord 14 num arg) (busyWith 14 num .nothing s) = queryPath p (busyWith 14 num .nothing s) := by
  rw [runCommand_queryPath, withIndex_inRange 14 num p queryPath _ named]

theorem pathState_inService_iff (x : PathState) : x.inService = true ↔ x = .up ∨ x = .fading := by
  rw [PathState.inService, Bool.or_eq_true, beq_iff_eq, beq_iff_eq]

/-- A query number follows another, and is never 0. -/
theorem nextNumber_ne_zero (n : Byte) : (if n = 255 then 1 else n + 1) ≠ 0 := by
  split
  · decide
  · next below =>
    intro zero
    exact below (by bv_omega)

/-- In service: a QUERY with the next number. -/
theorem queryPath_inService {p : PathId} {s : State} (up : s.paths[p].sup.state.inService = true) :
    queryPath p s = complete .done (insertFrame p (.query (nextNumber s.paths[p].sup.lastQuery))
      (onSup p (fun u => { u with lastQuery := nextNumber s.paths[p].sup.lastQuery }) s)) := by
  have number : (onSup p (fun u => { u with lastQuery := nextNumber u.lastQuery }) s).paths[p].sup.lastQuery
      = nextNumber s.paths[p].sup.lastQuery := by rw [onSup_self]
  have same : onSup p (fun u => { u with lastQuery := nextNumber u.lastQuery }) s
      = onSup p (fun u => { u with lastQuery := nextNumber s.paths[p].sup.lastQuery }) s := onSup_congr p _ _ s rfl
  rw [queryPath, if_pos up]
  dsimp only
  rw [number, same]

/-- Settles O42, by the argument's range and the path's state. -/
theorem queryPathPlacesAQuery : Obligations.QueryPathPlacesAQuery := by
  intro m num arg s ready
  refine ⟨fun above => endsIn_outOfRange rfl ready (Nat.succ_le_of_lt above) (runCommand_queryPath ..), fun p named =>
    ⟨fun up q is => ?_, fun out => endsIn_completes rfl ready ((runs_queryPath named).trans (if_neg ?_))⟩⟩
  · obtain rfl : q = nextNumber s.paths[p].sup.lastQuery := is
    exact ⟨nextNumber_ne_zero _, endsIn_completes rfl ready ((runs_queryPath named).trans
      (queryPath_inService ((pathState_inService_iff _).mpr up)))⟩
  · exact fun up => ((pathState_inService_iff _).mp up).elim out.1 out.2

/-! ## ALARM_ACK, LOG_RESET and SNAPSHOT (R181, R93, R180) -/

/-- The set of causes an ALARM_ACK names. -/
theorem commandWord_named (code num : Byte) (arg : BitVec 48) :
    field (commandWord code num arg) 16 32 = (arg.extractLsb' 0 32).toNat := by
  rw [field, bits, ← commandWord_argument code num arg 0 32]

/-- ALARM_ACK by what its argument names. -/
theorem runs_alarmAck {num : Byte} {arg : BitVec 48} {named : Nat} (s : State) (is : named = (arg.extractLsb' 0 32).toNat) :
    runCommand (commandWord 15 num arg) s = if 1048576 ≤ named then completeWith (named.testBit 18) .range s
      else completeWith (named.testBit 18) .done (clearNamed named s) := by
  rw [runCommand_alarmAck, ackAlarms, commandWord_named, ← is]
  rfl

/-- A command that completes, with CMD_DONE or without it. -/
theorem endsIn_completesWith {c : Instr} {m : Master} {code num : Byte} {arg : BitVec 48} {s u : State} {r : CommandResult}
    {quiet : Bool} (row : exec c s = .next (settle s (arriveCommand code m 0xFF num arg s))) (ready : CommandReady s m)
    (runs : runCommand (commandWord code num arg) (busyWith code num .nothing s)
      = completeWith quiet r (busyWith code num .nothing u)) :
    (quiet = false → EndsIn c s (commandPassed s code m num arg (finished code num r u)))
    ∧ (quiet = true → EndsIn c s (commandPassed s code m num arg (finishedQuietly code num r u))) := by
  refine ⟨fun loud => endsIn_completes row ready (by rw [runs, loud]; rfl), fun still => endsIn_command row ready ?_⟩
  rw [runs, still]
  exact (kept_completeQuietly (b := ⟨code, num, .nothing⟩) r rfl).trans rfl

/-- The status record whose burst is in progress. -/
theorem recordInBurst_iff (s : State) (r : RecordId) :
    recordInBurst s = some r ↔ ∃ b, s.mem.burst = some b ∧ b.source = .status r := by
  rw [recordInBurst]
  cases s.mem.burst with
  | none => simp
  | some b => cases source : b.source <;> simp [source]

/-- A SNAPSHOT without a STATUS window is answered with STATE. -/
theorem takeSnapshot_none {s : State} (none : windowOf s .status 0 = none) : takeSnapshot s = complete .state s := by
  rw [takeSnapshot, none]

/-- A SNAPSHOT waits for every record but its own. -/
theorem takeSnapshot_some {s : State} (window : windowOf s .status 0 ≠ none) :
    takeSnapshot s = waitFor (.records snapshotRecords (recordInBurst s)) (forgetSubmissions (restartWriter s)) := by
  obtain ⟨e, hit⟩ := Option.ne_none_iff_exists'.mp window
  rw [takeSnapshot, hit]

/-- What the records forget is no mark. -/
theorem kept_forgetSubmissions (s : State) : kept (forgetSubmissions s) = forgetSubmissions (kept s) := by
  have marks : keptMarks (s.status.records.map fun m => { m with submitted := none })
      = (keptMarks s.status.records).map fun m => { m with submitted := none } := by
    simp only [keptMarks, Vector.map_map]
    rfl
  rw [kept, forgetSubmissions]
  dsimp only
  rw [marks]
  rfl

/-- A writer started again is kept as one that runs. -/
theorem kept_forget_restart (s : State) : kept (forgetSubmissions (restartWriter s))
    = kept (forgetSubmissions { s with status := { s.status with running := true } }) := by
  rw [kept_forgetSubmissions, kept_forgetSubmissions, restartWriter, kept_markAll]

/-- What the command waits for is kept. -/
theorem kept_waitFor (w : Wait) (s : State) : kept (waitFor w s) = waitFor w (kept s) := rfl

/-- A command taken: its word passes to memory, and it acts. -/
theorem exec_command {c : Instr} {m : Master} {code num : Byte} {arg : BitVec 48} {s : State}
    (row : exec c s = .next (settle s (arriveCommand code m 0xFF num arg s))) (ready : CommandReady s m) :
    exec c s = .next (settle s (commandPassed s code m num arg (runCommand (commandWord code num arg) (busyWith code num .nothing s)))) := by
  rw [row, arriveCommand, arriveSetup_taken (by decide) ready.1 (t := runCommand (commandWord code num arg) (busyWith code num .nothing s))]
  · rfl
  · rw [takeSetupWord_command, takeCommand, ready.2, commandWord_code, commandWord_number]
    rfl

/-- An event that touches neither lines, paths nor ranking nor the rain flag touches no cause by its consequences. -/
theorem settle_causes_calm {s u : State} (settled : Settled s) (lines : u.lines = s.lines) (paths : u.paths = s.paths)
    (ranking : u.ranking = s.ranking) (rain : u.sel.rainFlag = s.sel.rainFlag) :
    (settle s u).alarm.causes = u.alarm.causes := by
  rw [settle_causes_same s u settled lines paths ranking, rain]
  exact if_pos (beq_self_eq_true _)

/-- Nor does a command that touches none of them. -/
theorem settle_command_causes {s u : State} (code : Byte) (m : Master) (num : Byte) (arg : BitVec 48) (settled : Settled s)
    (lines : u.lines = s.lines) (paths : u.paths = s.paths) (ranking : u.ranking = s.ranking) (sel : u.sel = s.sel) :
    (settle s (commandPassed s code m num arg u)).alarm.causes = u.alarm.causes :=
  settle_causes_calm (u := commandPassed s code m num arg u) settled lines paths ranking (congrArg Selector.rainFlag sel)

/-- Completing a command raises CMD_DONE or nothing. -/
theorem completeWith_busyWith (quiet : Bool) (r : CommandResult) (code num : Byte) (s : State) :
    completeWith quiet r (busyWith code num .nothing s)
      = markRecord 35 (if quiet then finishedQuietly code num r s else finished code num r s) := by
  cases quiet <;> rfl

/-- A cause that ALARM_ACK names is not pending after it, CMD_DONE included (R181). -/
theorem clearNamed_completes_pending {named : Nat} {c : CauseId} (code num : Byte) (r : CommandResult) (s : State)
    (isNamed : named.testBit c.val = true) :
    ((completeWith (named.testBit 18) r (busyWith code num .nothing (clearNamed named s))).alarm.causes[c]).pending = false := by
  have cleared : ((clearNamed named s).alarm.causes[c]).pending = false := by
    simp [clearNamed, isNamed]
  rw [completeWith_busyWith, markRecord_alarm]
  cases done : named.testBit 18 with
  | true => exact cleared
  | false =>
    have other : (18 : CauseId) ≠ c := by
      rintro rfl
      exact Bool.false_ne_true (done.symm.trans isNamed)
    have apart : (raiseCause 18 (clearNamed named s)).alarm.causes[c] = (clearNamed named s).alarm.causes[c] :=
      Vector.getElem_set_ne (by decide) c.isLt (Fin.val_ne_of_ne other)
    exact (congrArg AlarmCause.pending apart).trans cleared

/-- Completing a command touches no input of the ranking and nothing of the selector. -/
theorem completeWith_keeps (quiet : Bool) (r : CommandResult) (s : State) :
    (completeWith quiet r s).lines = s.lines ∧ (completeWith quiet r s).paths = s.paths
    ∧ (completeWith quiet r s).ranking = s.ranking ∧ (completeWith quiet r s).sel = s.sel := by
  rw [completeWith]
  split
  · exact ⟨rfl, rfl, rfl, rfl⟩
  · cases quiet <;> exact ⟨rfl, rfl, rfl, rfl⟩

theorem clearNamed_keeps (named : Nat) (s : State) : (clearNamed named s).lines = s.lines ∧ (clearNamed named s).paths = s.paths
    ∧ (clearNamed named s).ranking = s.ranking ∧ (clearNamed named s).sel = s.sel := by
  simp only [clearNamed, and_self]

theorem busyWith_keeps (code num : Byte) (w : Wait) (s : State) : (busyWith code num w s).lines = s.lines
    ∧ (busyWith code num w s).paths = s.paths ∧ (busyWith code num w s).ranking = s.ranking
    ∧ (busyWith code num w s).sel = s.sel := ⟨rfl, rfl, rfl, rfl⟩

/-- An ALARM_ACK that completes touches no input of the ranking and nothing of the selector. -/
theorem clearNamed_completes_keeps (named : Nat) (quiet : Bool) (code num : Byte) (r : CommandResult) (s : State) :
    (completeWith quiet r (busyWith code num .nothing (clearNamed named s))).lines = s.lines
    ∧ (completeWith quiet r (busyWith code num .nothing (clearNamed named s))).paths = s.paths
    ∧ (completeWith quiet r (busyWith code num .nothing (clearNamed named s))).ranking = s.ranking
    ∧ (completeWith quiet r (busyWith code num .nothing (clearNamed named s))).sel = s.sel := by
  simp only [completeWith_keeps, busyWith_keeps, clearNamed_keeps, and_self]

/-- A SNAPSHOT leaves every record marked, and the one in its burst marked again (R179, R180). -/
theorem snapshot_marks (s : State) (r : RecordId) : (restartWriter s).status.records[r].changed = true
    ∧ ((∃ b, s.mem.burst = some b ∧ b.source = .status r) → (restartWriter s).status.records[r].again = true) := by
  have marks := StatusRecords.markRecords_marks (List.finRange 36) { s with status := { s.status with running := true } } r
    (List.mem_finRange r)
  refine ⟨marks.1, fun ⟨b, burst, source⟩ => marks.2 ?_⟩
  rw [burstWrites]
  show (match s.mem.burst with | some e => e.source == .status r | none => false) = true
  rw [burst]
  exact beq_iff_eq.mpr source

/-- What the records forget leaves their marks. -/
theorem forgetSubmissions_marks (s : State) (r : RecordId) :
    (forgetSubmissions s).status.records[r].changed = s.status.records[r].changed
    ∧ (forgetSubmissions s).status.records[r].again = s.status.records[r].again := by
  simp [forgetSubmissions]

theorem commandPassed_waitFor_status (s u : State) (code : Byte) (m : Master) (num : Byte) (arg : BitVec 48) (w : Wait) :
    (commandPassed s code m num arg (waitFor w u)).status = u.status := rfl

/-- Settles O43: by the causes an ALARM_ACK names, the entries outstanding at a LOG_RESET, and the STATUS window of a SNAPSHOT. -/
theorem alarmLogAndSnapshotCommands : Obligations.AlarmLogAndSnapshotCommands := by
  intro m num arg s named ready is
  have ack := runs_alarmAck (num := num) (busyWith 15 num .nothing s) is
  refine ⟨fun inRange u cleared => ?_, fun above => ?_, fun empty => endsIn_completes rfl ready ((runCommand_logReset ..).trans
    (if_pos (List.isEmpty_iff.mpr empty))), fun some => endsIn_waits rfl ready ((runCommand_logReset ..).trans
    (if_neg (mt List.isEmpty_iff.mp some))), fun none => endsIn_completes rfl ready ((runCommand_snapshot ..).trans
    (takeSnapshot_none none)), fun old window burst => ?_⟩
  · obtain rfl : u = clearNamed named s := cleared
    have clears : runCommand (commandWord 15 num arg) (busyWith 15 num .nothing s)
        = completeWith (named.testBit 18) .done (busyWith 15 num .nothing (clearNamed named s)) :=
      ack.trans (if_neg (Nat.not_le.mpr inRange))
    obtain ⟨loud, quiet⟩ := endsIn_completesWith (c := .alarmAck m 0xFF num arg) rfl ready clears
    refine ⟨loud, quiet, fun settled => ⟨_, exec_command rfl ready, fun c isNamed => ?_⟩⟩
    obtain ⟨lines, paths, ranking, sel⟩ := clearNamed_completes_keeps named (named.testBit 18) 15 num .done s
    rw [clears, settle_command_causes 15 m num arg settled lines paths ranking sel]
    exact clearNamed_completes_pending 15 num .done s isNamed
  · exact endsIn_completesWith rfl ready (ack.trans (if_pos above))
  · obtain rfl : recordInBurst s = old := Option.ext fun r => (recordInBurst_iff s r).trans (burst r).symm
    have waits : runCommand (commandWord 17 num arg) (busyWith 17 num .nothing s)
        = waitFor (.records snapshotRecords (recordInBurst s)) (forgetSubmissions (restartWriter (busyWith 17 num .nothing s))) :=
      (runCommand_snapshot ..).trans (takeSnapshot_some window)
    refine ⟨endsIn_command rfl ready ?_, ⟨_, exec_command rfl ready, fun r => ?_⟩⟩
    · rw [waits, kept_waitFor, kept_forget_restart]
      rfl
    · obtain ⟨changed, again⟩ := snapshot_marks (busyWith 17 num .nothing s) r
      obtain ⟨sameChanged, sameAgain⟩ := forgetSubmissions_marks (restartWriter (busyWith 17 num .nothing s)) r
      rw [waits]
      generalize restartWriter (busyWith 17 num .nothing s) = v at changed again sameChanged sameAgain
      obtain ⟨keepsChanged, keepsAgain⟩ := keepsMarks_settle s (commandPassed s 17 m num arg
        (waitFor (.records snapshotRecords (recordInBurst s)) (forgetSubmissions v))) r
      rw [commandPassed_waitFor_status] at keepsChanged keepsAgain
      exact ⟨keepsChanged (sameChanged.trans changed), fun own => keepsAgain (sameAgain.trans (again ((burst r).mp own)))⟩

end Sys2Proof.Commands
end

section
/-! SUPPORT. PATH_DISABLE with the re-steer of queued copies (R4, R5, R117, R132). -/

namespace Sys2Proof.PathDisable

open Machine PathSupervision Commands

/-! ## The command (R4, R5) -/

/-- Leaving service leaves the command state. -/
theorem leftService_keepsCmd (p : PathId) (x : PathState) (s : State) : (leftService p x s).cmd = s.cmd := by
  have same : leftService p x s = { leftService p x s with cmd := s.cmd } := leftService_cmd p x s.cmd s
  rw [same]

/-- Leaving service does not concern the command state. -/
theorem leftService_busyWith (p : PathId) (x : PathState) (code num : Byte) (w : Wait) (s : State) :
    leftService p x (busyWith code num w s) = busyWith code num w (leftService p x s) := by
  rw [busyWith, leftService_cmd, busyWith, leftService_keepsCmd]

/-- A path as PATH_DISABLE leaves it at once. -/
def disabledFrom (p : PathId) (s : State) : State :=
  if s.paths[p].sup.state = .disabled then s else leftService p .disabled s

theorem disabledFrom_busyWith (p : PathId) (code num : Byte) (w : Wait) (s : State) :
    disabledFrom p (busyWith code num w s) = busyWith code num w (disabledFrom p s) := by
  unfold disabledFrom
  rw [apply_ite (busyWith code num w), leftService_busyWith]
  rfl

theorem disabledFrom_awaiting (p : PathId) (s : State) : (disabledFrom p s).paths[p].port.awaiting = s.paths[p].port.awaiting := by
  unfold disabledFrom
  split
  · rfl
  · exact leftService_awaiting p .disabled s

/-- PATH_DISABLE waits for the answers that are outstanding. -/
theorem disablePath_eq (p : PathId) (s : State) : disablePath p s = answersDone p (waitFor (.answers p) (disabledFrom p s)) := by
  rw [disablePath, disabledFrom]
  by_cases disabled : s.paths[p].sup.state = .disabled
  · rw [if_pos disabled, if_pos (beq_iff_eq.mpr disabled)]
  · rw [if_neg disabled, if_neg (mt beq_iff_eq.mp disabled), enterDisabled_eq p s disabled]

/-- Waiting for answers ends where none is outstanding. -/
theorem answersDone_waiting (p : PathId) (code num : Byte) (u : State) :
    answersDone p (busyWith code num (.answers p) u)
      = if u.paths[p].port.awaiting = [] then complete .done (busyWith code num (.answers p) u)
        else busyWith code num (.answers p) u := by
  rw [answersDone]
  refine if_congr ?_ rfl rfl
  rw [Bool.and_eq_true, List.isEmpty_iff]
  exact and_iff_right (beq_self_eq_true _)

/-- The whole of the command. -/
theorem runs_pathDisable {num : Byte} {arg : BitVec 48} {p : PathId} (s : State) (named : argIndex arg = p.val) :
    runCommand (commandWord 2 num arg) (busyWith 2 num .nothing s)
      = if s.paths[p].port.awaiting = [] then complete .done (busyWith 2 num (.answers p) (disabledFrom p s))
        else busyWith 2 num (.answers p) (disabledFrom p s) := by
  have waits (u : State) : waitFor (.answers p) (busyWith 2 num .nothing u) = busyWith 2 num (.answers p) u := rfl
  rw [runCommand_pathDisable, withIndex_inRange 2 num p disablePath _ named, disablePath_eq, disabledFrom_busyWith, waits,
    answersDone_waiting, disabledFrom_awaiting]

/-! ## The re-steer of one record (R117, R125, R132) -/

theorem resteerOne_some {p : PathId} {t : State} {x : RecordName} {r : LaunchRecord} (named : recordNamed t x = some r) : resteerOne p t x = resteerRecord p r t := by
  rw [resteerOne, named]

/-- The record with the copies that other paths hold. -/
def without (p : PathId) (r : LaunchRecord) : LaunchRecord := { r with copies := r.copies.filter fun c => decide (c.path ≠ p) }

/-- A re-steered record by the copies left to it. -/
theorem resteerRecord_eq (p : PathId) (r : LaunchRecord) (t : State) : resteerRecord p r t =
    if ∃ c ∈ (without p r).copies, c.state ≠ .failed then settleCopies (without p r) (putRecord (without p r) t)
    else if { r with copies := [] }.isPast t.time.value then
      requestOutcome { r with copies := [] } .stale (putRecord { r with copies := [] } t)
    else rejoin { r with copies := [] } (putRecord { r with copies := [] } t) := by
  have copies : r.copies.filter (fun c => !(c.path == p)) = (without p r).copies :=
    List.filter_congr fun c _ => by rw [beq_eq_decide, ← decide_not]
  rw [resteerRecord, copies]
  refine if_congr ?_ rfl rfl
  simp only [List.any_eq_true, Bool.not_eq_true', beq_eq_false_iff_ne]

/-- A record with a copy under way is not settled. -/
theorem settleCopies_underWay {r : LaunchRecord} {t : State} (way : ∃ c ∈ r.copies, c.state = .queued ∨ c.state = .sent) :
    settleCopies r t = t := by
  obtain ⟨c, listed, state⟩ := way
  rw [settleCopies]
  refine if_neg ?_
  rw [Bool.and_eq_true, List.all_eq_true]
  rintro ⟨-, complete⟩
  have done := complete c listed
  rcases state with queued | sent
  · rw [Copy.isComplete, queued] at done
    cases done
  · rw [Copy.isComplete, sent] at done
    cases done

/-- A record with an accepted copy and no other under way is LAUNCHED. -/
theorem settleCopies_launched {r : LaunchRecord} {t : State} (accepted : ∃ c ∈ r.copies, c.state = .accepted)
    (complete : ∀ c ∈ r.copies, c.state = .accepted ∨ c.state = .failed) : settleCopies r t = requestOutcome r .launched t := by
  have any : r.copies.any (·.state == .accepted) = true := by
    simpa only [List.any_eq_true, beq_iff_eq] using accepted
  rw [settleCopies, any]
  refine if_pos ?_
  rw [Bool.and_eq_true, Bool.not_eq_true', ← Bool.not_eq_true, List.isEmpty_iff, List.all_eq_true]
  obtain ⟨c, listed, -⟩ := accepted
  refine ⟨List.ne_nil_of_mem listed, fun c listed => ?_⟩
  rw [Copy.isComplete, Bool.or_eq_true, beq_iff_eq, beq_iff_eq]
  exact complete c listed

/-- A record ages out when it has an age limit that has been passed (R125). -/
theorem isPast_iff (r : LaunchRecord) (now : Time) :
    r.isPast now = true ↔ ∃ us, r.ageLimit = some us ∧ r.capture.time + us * 1000 < now := by
  rw [LaunchRecord.isPast, LaunchRecord.deadline]
  cases r.ageLimit <;> simp

/-- A record rejoins its class queue behind every record captured before it (R117). -/
theorem rejoin_eq {r : LaunchRecord} {t : State} {earlier : RecordName → Bool}
    (means : ∀ n, earlier n = true ↔ ∃ z, recordNamed t n = some z ∧ z.order < r.order) :
    rejoin r t = onQueue r.cls (fun q => { q with
      front := q.front.takeWhile earlier ++ [r.name] ++ q.front.dropWhile earlier }) t := by
  have same : earlier = fun x => match recordNamed t x with | some y => decide (y.order < r.order) | none => false := by
    funext n
    rw [Bool.eq_iff_iff, means]
    cases recordNamed t n <;> simp
  rw [same]
  rfl

/-- Settles O35: the command by the answers outstanding, the re-steer by the copies left to the record. -/
theorem pathDisableLeavesServiceAndWaits : Obligations.PathDisableLeavesServiceAndWaits := by
  refine ⟨fun m num arg s u p ready named is => ?_, fun p t => ⟨rfl, fun x r y w others found copies kept bare => ?_⟩⟩
  · obtain rfl : u = disabledFrom p s := is
    have runs := runs_pathDisable (num := num) s named
    refine ⟨fun none => endsIn_command rfl ready ?_, fun some => endsIn_waits rfl ready (runs.trans (if_neg some))⟩
    rw [runs, if_pos none, kept_complete_busyWith]
  · subst copies kept bare
    have steer := (resteerOne_some (p := p) found).trans (resteerRecord_eq p r t)
    refine ⟨fun ⟨c, listed, state⟩ => ?_, fun ⟨c, listed, accepted⟩ complete => ?_, fun failed => ?_⟩
    · have alive : c.state ≠ .failed := by rcases state with queued | sent <;> simp [*]
      exact (steer.trans (if_pos ⟨c, listed, alive⟩)).trans (settleCopies_underWay ⟨c, listed, state⟩)
    · have alive : c.state ≠ .failed := by rw [accepted]; decide
      exact (steer.trans (if_pos ⟨c, listed, alive⟩)).trans (settleCopies_launched ⟨c, listed, accepted⟩ complete)
    · have steer := steer.trans (if_neg fun ⟨c, listed, alive⟩ => alive (failed c listed))
      refine ⟨fun past => steer.trans (if_pos ((isPast_iff _ _).mpr past)), fun fresh earlier means =>
        (steer.trans (if_neg ?_)).trans (rejoin_eq means)⟩
      rw [isPast_iff]
      rintro ⟨us, limit, past⟩
      exact Nat.not_le.mpr past (fresh us limit)

end Sys2Proof.PathDisable
end

section
/-! SUPPORT. TIME_SET (R65) and the rain alert (R122): the commands, the input line, and what announces a change. -/

namespace Sys2Proof.TimeAndRain

open Machine PathSupervision Commands TimeBaseAndStamps

/-! ## A move of the time value concerns neither the command state nor the status writer nor a line -/

/-- The state with another command state, another status writer and other lines. -/
def beside (c : CommandUnit) (v : StatusWriter) (x : Vector Line 8) (s : State) : State :=
  { s with cmd := c, status := v, lines := x }

/-- A change of the state that reads and writes none of these. -/
def Aside (f : State → State) : Prop := ∀ c v y s, f (beside c v y s) = beside c v y (f s)

theorem aside_requestOutcome (r : LaunchRecord) (res : OutcomeResult) : Aside (requestOutcome r res) := by
  intro c v y s
  rw [requestOutcome_eq, requestOutcome_eq]
  rfl

theorem aside_ageOne (x : RecordName) : Aside fun s => ageOne s x := by
  intro c v y s
  have named : recordNamed (beside c v y s) x = recordNamed s x := rfl
  unfold ageOne
  dsimp only
  rw [named]
  cases recordNamed s x with
  | none => rfl
  | some r =>
    dsimp only
    rw [aside_requestOutcome, apply_ite (beside c v y)]
    rfl

theorem aside_foldl {α : Type} {g : State → α → State} (each : ∀ a, Aside fun s => g s a) (l : List α) :
    Aside fun s => l.foldl g s := by
  intro c v y s
  exact List.foldl_hom (beside c v y) fun w a => each a c v y w

theorem aside_ageRecords : Aside ageRecords := fun c v y s =>
  aside_foldl aside_ageOne (s.sel.urgent.names ++ s.sel.normal.names) c v y s

theorem aside_handRecord (rec : Delivery) (n : RingId) : Aside fun s => handRecord rec s n := by
  intro c v y s
  have ring : (beside c v y s).inRings[n] = s.inRings[n] := rfl
  have window : windowOf (beside c v y s) .inbound n = windowOf s .inbound n := rfl
  have count : depositCount (beside c v y s) = depositCount s := rfl
  simp only [handRecord, ring, window, count]
  generalize s.inRings[n].state = a, s.inRings[n].slotCount = b, windowOf s .inbound n = w
  match a, b, w with
  | .active, some slots, some e =>
    dsimp only
    split
    · rfl
    · split <;> rfl
  | .active, some _, none | .active, none, _ | .stopped, _, _ | .halted, _, _ => rfl

theorem aside_deliver (rec : Delivery) : Aside (deliver rec) := by
  intro c v y s
  have found : ((List.finRange 8).find? fun i => (beside c v y s).filters[i].matches rec)
      = (List.finRange 8).find? fun i => s.filters[i].matches rec := rfl
  have hit (i : Fin 8) : onFilter i (fun f => { f with hits := satInc f.hits }) (beside c v y s)
      = beside c v y (onFilter i (fun f => { f with hits := satInc f.hits }) s) := rfl
  have filter (i : Fin 8) : (beside c v y s).filters[i] = s.filters[i] := rfl
  have mapped : (beside c v y s).streams[rec.stream].ring = s.streams[rec.stream].ring := rfl
  have hand (r : Delivery) (n : RingId) (t : State) : handRecord r (beside c v y t) n = beside c v y (handRecord r t n) :=
    aside_handRecord r n c v y t
  unfold deliver
  rw [found]
  cases (List.finRange 8).find? fun i => s.filters[i].matches rec with
  | none => exact hand ..
  | some i =>
    dsimp only
    rw [filter, hit, mapped]
    cases s.filters[i].action with
    | divert => exact hand ..
    | copy =>
      dsimp only
      rw [hand, hand, apply_ite (beside c v y)]
    | discard => rfl

theorem aside_expireGap (i : StreamId) (g : Gap) : Aside fun s => expireGap i s g := by
  intro c v y s
  have lost : raiseCause 12 (onStream i (fun x => { x with lost := satInc x.lost }) (beside c v y s))
      = beside c v y (raiseCause 12 (onStream i (fun x => { x with lost := satInc x.lost }) s)) := rfl
  unfold expireGap
  dsimp only
  rw [lost]
  generalize raiseCause 12 (onStream i (fun x => { x with lost := satInc x.lost }) s) = t
  have markers : (beside c v y t).streams[i].markers = t.streams[i].markers := rfl
  have stamp : stampNow (beside c v y t) = stampNow t := rfl
  rw [markers, stamp, aside_deliver, apply_ite (beside c v y)]

theorem aside_expireStream (i : StreamId) : Aside fun s => expireStream s i := fun c v y s =>
  aside_foldl (aside_expireGap i) (s.streams[i].gaps.filter (·.isPast s.time.value)) c v y
    (onStream i (fun x => { x with gaps := x.gaps.filter fun g => !g.isPast s.time.value }) s)

theorem aside_passDeadlines : Aside passDeadlines := by
  intro c v y s
  rw [passDeadlines, aside_ageRecords]
  exact aside_foldl aside_expireStream (List.finRange 16) c v y (ageRecords s)

theorem aside_moveTime (x : Time) : Aside (moveTime x) := by
  intro c v y s
  rw [moveTime_eq, moveTime_eq, ← aside_passDeadlines]
  rfl

/-! ## TIME_SET (R65) -/

/-- A move of the time value leaves the command state. -/
theorem moveTime_cmd (x : Time) (s : State) : (moveTime x s).cmd = s.cmd := by
  have same : moveTime x s = beside s.cmd s.status s.lines (moveTime x s) := aside_moveTime x s.cmd s.status s.lines s
  rw [same, beside]

/-- A move of the time value leaves the lines. -/
theorem moveTime_lines (x : Time) (s : State) : (moveTime x s).lines = s.lines := by
  have same : moveTime x s = beside s.cmd s.status s.lines (moveTime x s) := aside_moveTime x s.cmd s.status s.lines s
  rw [same, beside]

theorem moveTime_busyWith (x : Time) (code num : Byte) (w : Wait) (s : State) :
    moveTime x (busyWith code num w s) = busyWith code num w (moveTime x s) := by
  have moved : moveTime x (busyWith code num w s) = beside (busyWith code num w s).cmd s.status s.lines (moveTime x s) :=
    aside_moveTime x (busyWith code num w s).cmd s.status s.lines s
  have cmd := moveTime_cmd x s
  have status := (moveTime_status x s).1
  have lines := moveTime_lines x s
  rw [moved]
  generalize moveTime x s = t at cmd status lines ⊢
  rw [beside, busyWith, busyWith, cmd, ← status, ← lines]

/-- A mark of the time status record is made before or after a move. -/
theorem moveTime_markTime (x : Time) (s : State) : moveTime x (markTime s) = markTime (moveTime x s) := by
  have moved : moveTime x (markTime s) = beside s.cmd (markTime s).status s.lines (moveTime x s) :=
    aside_moveTime x s.cmd (markTime s).status s.lines s
  have burst : burstWrites 6 (moveTime x s) = burstWrites 6 s := by
    rw [burstWrites, (moveTime_status x s).2, ← burstWrites]
  have cmd := moveTime_cmd x s
  have status := (moveTime_status x s).1
  have lines := moveTime_lines x s
  rw [moved, markTime, markTime, markRecord, markRecord, burst]
  generalize moveTime x s = t at cmd status lines ⊢
  rw [beside, onMark, onMark, status, ← cmd, ← lines]

/-- The time base that TIME_SET leaves. -/
def timeReplaced (s : State) : State :=
  moveTime s.time.setValue { s with time := { s.time with slew := none, trimHold := true, fraction := 0 } }

/-- A mark of the time status record where a condition asks for one. -/
def markTimeIf (b : Bool) (s : State) : State := if b then markTime s else s

theorem markTimeIf_busyWith (b : Bool) (code num : Byte) (w : Wait) (s : State) :
    markTimeIf b (busyWith code num w s) = busyWith code num w (markTimeIf b s) := by
  cases b <;> rfl

theorem moveTime_markTimeIf (b : Bool) (x : Time) (s : State) : moveTime x (markTimeIf b s) = markTimeIf b (moveTime x s) := by
  cases b
  · rfl
  · exact moveTime_markTime x s

theorem kept_finished_markTimeIf (b : Bool) (code num : Byte) (r : CommandResult) (s : State) :
    kept (finished code num r (markTimeIf b s)) = kept (finished code num r s) := by
  cases b
  · rfl
  · exact (congrArg kept (finished_markTime code num r s)).trans (kept_markRecord 6 _)

/-- TIME_SET replaces the time value; what it marks is a mark of the time status record. -/
theorem timeSet_forward {s : State} (forward : s.time.value ≤ s.time.setValue) :
    ∃ a b, timeSet s = complete .done (markTimeIf a (markTimeIf b (timeReplaced s))) := by
  refine ⟨decide (s.time.value < s.time.setValue), s.time.slew.isSome, ?_⟩
  have slewEnded : startSlew 0 { s with time := { s.time with trimHold := true, fraction := 0 } }
      = markTimeIf s.time.slew.isSome { s with time := { s.time with slew := none, trimHold := true, fraction := 0 } } := by
    rw [startSlew_eq, markTimeIf]
    exact if_congr (by rw [Bool.or_eq_true]; exact or_iff_left (by decide)) rfl rfl
  rw [timeReplaced, ← moveTime_markTimeIf, ← moveTime_markTimeIf, ← slewEnded, timeSet, if_neg (Nat.not_lt.mpr forward)]
  dsimp only
  rw [markTimeIf]
  simp only [decide_eq_true_iff]

theorem timeReplaced_busyWith (code num : Byte) (w : Wait) (s : State) :
    timeReplaced (busyWith code num w s) = busyWith code num w (timeReplaced s) :=
  moveTime_busyWith s.time.setValue code num w { s with time := { s.time with slew := none, trimHold := true, fraction := 0 } }

/-- What TIME_SET leaves of the time base. -/
theorem timeReplaced_time (s : State) : (timeReplaced s).time
    = { s.time with value := s.time.setValue, slew := none, trimHold := true, fraction := 0 } := by
  rw [timeReplaced, moveTime_time]

/-- A command that completes starts and ends no pulse. -/
theorem complete_pulses (r : CommandResult) (s : State) : (complete r s).pulses = s.pulses := by
  rw [complete, completeWith]
  split <;> rfl

theorem markTimeIf_pulses (b : Bool) (s : State) : (markTimeIf b s).pulses = s.pulses := by
  cases b <;> rfl

theorem finished_last (code num : Byte) (r : CommandResult) (u : State) :
    (finished code num r u).cmd.last = some ⟨num, code, r, stampNow u⟩ := rfl

section
variable {m : Master} {num : Byte} {arg : BitVec 48} {s : State} (ready : CommandReady s m) (forward : s.time.value ≤ s.time.setValue)
include ready forward

theorem endsIn_timeSet :
    EndsIn (.timeSet m 0xFF num arg) s (commandPassed s 10 m num arg (finished 10 num .done (timeReplaced s))) := by
  obtain ⟨a, b, runs⟩ := timeSet_forward (s := busyWith 10 num .nothing s) forward
  refine endsIn_command rfl ready ?_
  rw [runCommand_timeSet, runs, timeReplaced_busyWith, markTimeIf_busyWith, markTimeIf_busyWith, kept_complete_busyWith,
    kept_finished_markTimeIf, kept_finished_markTimeIf]

theorem timeSet_ppsOut : ∃ t, exec (.timeSet m 0xFF num arg) s = .next t ∧ t.pulses.ppsOut
    = if s.time.value / 1000000000 < s.time.setValue / 1000000000 then some 0 else s.pulses.ppsOut := by
  obtain ⟨a, b, runs⟩ := timeSet_forward (s := busyWith 10 num .nothing s) forward
  have pulses : (timeReplaced s).pulses = if s.time.value / 1000000000 < s.time.setValue / 1000000000
      then { s.pulses with ppsOut := some 0 } else s.pulses := moveTime_pulses ..
  have passed (u : State) : (commandPassed s 10 m num arg u).pulses = u.pulses := rfl
  have busy (u : State) : (busyWith 10 num .nothing u).pulses = u.pulses := rfl
  refine ⟨_, exec_command rfl ready, ?_⟩
  rw [settle_ppsOut, passed, runCommand_timeSet, runs, complete_pulses, markTimeIf_pulses, markTimeIf_pulses,
    timeReplaced_busyWith, busy, pulses]
  split <;> rfl

end

/-! ## Changes of the rain alert (R122) -/

/-- The ranking raises no RAIN_CHANGE. -/
theorem rerank_rainCause (s : State) : (rerank s).alarm.causes[(19 : CauseId)] = s.alarm.causes[(19 : CauseId)] := by
  unfold rerank
  dsimp only
  by_cases head : headOf (rankList s) = s.ranking.head <;> by_cases fallback : fallbackHolds s = s.ranking.fallback <;>
    simp [head, fallback, announceHead, announceFallback, raiseCause, onCause]

/-- The rain alert that an event leaves: of the rain flag and of the lines as they then are. -/
theorem settle_rainAlert (o s : State) :
    (settle o s).sel.rainFlag = s.sel.rainFlag ∧ (settle o s).sel.rainInput = inputActive { s with lines := followed s } .rainAlert := by
  obtain ⟨v, a, r, n, parts⟩ := settle_parts o s
  obtain ⟨causes, rain⟩ := announceRain_eq o (takeInputs (refreshLines s))
  obtain ⟨ranking, alarm, pulses, ranked, -⟩ := rerank_eq (beforeRanking o s)
  have sel : (settle o s).sel = (takeInputs { s with lines := followed s }).sel := by
    rw [parts, ← refreshLines_eq]
    show (rerank (beforeRanking o s)).sel = _
    rw [ranked, beforeRanking, rain]
  rw [sel]
  exact ⟨rfl, rfl⟩

/-- An event raises RAIN_CHANGE at a change of the rain alert and at no other time. -/
theorem settle_rainCause (o s : State) : (settle o s).alarm.causes[(19 : CauseId)]
    = if rainAlert (settle o s) = rainAlert o then s.alarm.causes[(19 : CauseId)]
      else { s.alarm.causes[(19 : CauseId)] with pending := true, raises := satInc s.alarm.causes[(19 : CauseId)].raises } := by
  obtain ⟨flag, input⟩ := settle_rainAlert o s
  have alert : rainAlert (takeInputs (refreshLines s)) = rainAlert (settle o s) := by
    rw [rainAlert, rainAlert, flag, input, refreshLines_eq]
    rfl
  have same : (takeInputs (refreshLines s)).alarm = s.alarm := by rw [refreshLines_eq]; rfl
  rw [settle_causes, rerank_rainCause, beforeRanking, announceRain, alert]
  by_cases still : rainAlert (settle o s) = rainAlert o
  · rw [if_pos still, if_pos (beq_iff_eq.mpr still), same]
  · rw [if_neg still, if_neg (mt beq_iff_eq.mp still), ← same]
    exact onCause_alarm_causes_same ..

/-- A record of an outbound ring shows the rain alert in its last field but one (Table 11-2). -/
theorem marking_outRing (s : State) (n : RingId) : ∃ first : List Nat,
    marking s ⟨11 + n.val, by omega⟩ = first ++ [bit (rainAlert s), bit s.sel.launchHold] := by
  rw [marking, StatusRecords.recordFields_outRing, outRingFields]
  rw [List.filter_append, List.map_append]
  exact ⟨_, (List.append_assoc _ [s.sel.urgent.names.length, s.sel.normal.names.length, bit s.sel.rainFlag, bit s.sel.rainInput]
    [bit (rainAlert s), bit s.sel.launchHold]).symm⟩

theorem last_but_one {α : Type} {l k : List α} {a b c d : α} (same : l ++ [a, b] = k ++ [c, d]) : a = c :=
  (List.cons.inj (List.append_inj' same rfl).2).1

theorem bit_injective : Function.Injective bit :=
  Function.LeftInverse.injective (g := fun n => decide (n = 1)) (by decide)

/-- A change of the rain alert marks the records of the outbound rings. -/
theorem settle_marks_rain (o s : State) (n : RingId) (changed : rainAlert (settle o s) ≠ rainAlert o) :
    (settle o s).status.records[11 + n.val].changed = true := by
  refine (StatusRecords.settle_marks o s ⟨11 + n.val, by omega⟩ fun same => changed ?_).1
  obtain ⟨first, shown⟩ := marking_outRing (settle o s) n
  obtain ⟨first', shown'⟩ := marking_outRing o n
  rw [shown, shown'] at same
  exact bit_injective (last_but_one same)

/-- From `s` to `t` the rain alert goes from one value to another: RAIN_CHANGE and the marks of the outbound rings' records at a
change, neither otherwise. -/
def RainAnnounced (s : State) (before after : Bool) (t : State) : Prop :=
  (before = after → t.alarm.causes[19] = s.alarm.causes[19])
  ∧ (before ≠ after → t.alarm.causes[19] = { s.alarm.causes[19] with
      pending := true, raises := satInc s.alarm.causes[19].raises }
    ∧ ∀ n : RingId, t.status.records[11 + n.val].changed = true)

/-- Every event whose own effect leaves RAIN_CHANGE alone announces what becomes of the rain alert. -/
theorem settle_announces_rain {s u : State} (same : u.alarm.causes[(19 : CauseId)] = s.alarm.causes[(19 : CauseId)]) :
    RainAnnounced s (rainAlert s) (rainAlert (settle s u)) (settle s u) := by
  have cause := settle_rainCause s u
  rw [same] at cause
  exact ⟨fun still => cause.trans (if_pos still.symm), fun changed =>
    ⟨cause.trans (if_neg (Ne.symm changed)), fun n => settle_marks_rain s u n (Ne.symm changed)⟩⟩

/-- A completion raises no RAIN_CHANGE. -/
theorem finished_rainCause (s u : State) (code : Byte) (m : Master) (num : Byte) (arg : BitVec 48) (r : CommandResult) :
    (commandPassed s code m num arg (markRecord 35 (finished code num r u))).alarm.causes[(19 : CauseId)]
      = u.alarm.causes[(19 : CauseId)] :=
  onCause_alarm_causes_other 18 19 (fun a => { a with pending := true, raises := satInc a.raises }) u (by decide)

section
variable {m : Master} {num : Byte} {arg : BitVec 48} {s : State}

/-- RAIN_SET and RAIN_CLEAR give the rain flag its value, and announce what becomes of the alert. -/
theorem setRain_announced {c : Instr} {code : Byte} {flag : Bool}
    (row : exec c s = .next (settle s (arriveCommand code m 0xFF num arg s))) (ready : CommandReady s m) (settled : Settled s)
    (runs : runCommand (commandWord code num arg) (busyWith code num .nothing s) = setRain flag (busyWith code num .nothing s)) :
    ∃ t, exec c s = .next t ∧ RainAnnounced s (s.sel.rainFlag || s.sel.rainInput) (flag || s.sel.rainInput) t := by
  refine ⟨_, exec_command row ready, ?_⟩
  have acts : setRain flag (busyWith code num .nothing s)
      = markRecord 35 (finished code num .done { s with sel := { s.sel with rainFlag := flag } }) := rfl
  rw [runs, acts]
  have announced := settle_announces_rain (s := s) (u := commandPassed s code m num arg
    (markRecord 35 (finished code num .done { s with sel := { s.sel with rainFlag := flag } })))
    (finished_rainCause ..)
  obtain ⟨flagAfter, inputAfter⟩ := settle_rainAlert s (commandPassed s code m num arg
    (markRecord 35 (finished code num .done { s with sel := { s.sel with rainFlag := flag } })))
  obtain ⟨-, inputSame⟩ := inputs_same s (commandPassed s code m num arg
    (markRecord 35 (finished code num .done { s with sel := { s.sel with rainFlag := flag } }))) settled rfl
  rw [refreshLines_eq] at inputSame
  rw [rainAlert, rainAlert, flagAfter, inputAfter.trans inputSame] at announced
  exact announced

end

/-! ## The RAIN_ALERT input (R174) -/

section
variable {l : LineId} {high : Bool} {s : State} (event : s.lines[l].event = .rainAlert) (width : s.lines[l].width = 0)
include event width

/-- The line with the new level at its pin, which it shows at once. -/
def atLevel (high : Bool) (x : Line) : Line := followPin high { x with outside := high }

omit event width in
theorem atLevel_event (x : Line) : (atLevel high x).event = x.event := followPin_event ..

omit event in
theorem atLevel_isActive : (atLevel high s.lines[l]).isActive = (high != s.lines[l].activeLow) := by
  rw [atLevel, followPin, Line.isActive]
  by_cases same : s.lines[l].filtered = high
  · rw [if_pos (beq_iff_eq.mpr same)]
    exact congrArg (· != _) same
  · rw [if_neg (mt beq_iff_eq.mp same), if_pos (beq_iff_eq.mpr width)]

omit event width in
theorem atLevel_outside (x : Line) : (atLevel high x).outside = high := by
  rw [atLevel, followPin]
  split
  · rfl
  · split <;> rfl

omit width in
/-- A pin change at a line of RAIN_ALERT gives the line the new level and touches nothing else. -/
theorem doPinChange_rain : doPinChange l high s = onLine l (atLevel high) s := by
  have put : (onLine l (fun x => { x with outside := high }) s).lines[l] = { s.lines[l] with outside := high } :=
    onLine_lines_same ..
  have level : pinLevel (onLine l (fun x => { x with outside := high }) s) { s.lines[l] with outside := high } = high :=
    pinLevel_input _ _ (by rw [event]; rfl)
  have refreshed : refreshLine (onLine l (fun x => { x with outside := high }) s) l = onLine l (atLevel high) s := by
    rw [refreshLine, put, level]
    simp [onLine, atLevel]
  have after : (onLine l (atLevel high) s).lines[l].event = .rainAlert := by
    rw [Fin.getElem_fin, onLine_lines_same, atLevel_event]
    exact event
  rw [doPinChange, refreshed, pulseOnEdge]
  refine if_neg ?_
  rw [after]
  exact Bool.false_ne_true

/-- With no other line of RAIN_ALERT the input is the level of this one. -/
theorem rainInput_atLevel (alone : ∀ k : LineId, k ≠ l → s.lines[k].event ≠ .rainAlert) :
    inputActive { onLine l (atLevel high) s with lines := followed (onLine l (atLevel high) s) } .rainAlert
      = (high != s.lines[l].activeLow) := by
  have own : (followed (onLine l (atLevel high) s))[l] = atLevel high s.lines[l] := by
    have line : (onLine l (atLevel high) s).lines[l] = atLevel high s.lines[l] := onLine_lines_same ..
    have input : (atLevel high s.lines[l]).event.isOutput = false := by rw [atLevel_event, event]; rfl
    rw [followed_get, line, pinLevel_input _ _ input, atLevel_outside, atLevel, followPin_twice]
  rw [Bool.eq_iff_iff, inputActive_iff, ← atLevel_isActive width]
  constructor
  · rintro ⟨k, active⟩
    rw [Bool.and_eq_true, beq_iff_eq] at active
    obtain ⟨named, active⟩ := active
    have same : k = l := by
      by_contra other
      refine alone k other (Eq.trans ?_ named)
      show _ = (followed (onLine l (atLevel high) s))[k].event
      rw [followed_get, followPin_event, onLine_lines_other l k _ s other]
    subst same
    exact (congrArg Line.isActive own).symm.trans active
  · intro active
    refine ⟨l, ?_⟩
    show ((followed (onLine l (atLevel high) s))[l].event == _ && (followed (onLine l (atLevel high) s))[l].isActive) = true
    rw [own, active, atLevel_event, event]
    rfl

/-- A pin change at the line of RAIN_ALERT announces what becomes of the rain alert. -/
theorem pinChange_announced (alone : ∀ k : LineId, k ≠ l → s.lines[k].event ≠ .rainAlert) :
    ∃ t, exec (.pinChange l high) s = .next t ∧ t.sel.rainFlag = s.sel.rainFlag
      ∧ t.sel.rainInput = (high != s.lines[l].activeLow)
      ∧ RainAnnounced s (s.sel.rainFlag || s.sel.rainInput) (s.sel.rainFlag || (high != s.lines[l].activeLow)) t := by
  obtain ⟨flag, input⟩ := settle_rainAlert s (onLine l (atLevel high) s)
  rw [rainInput_atLevel event width alone] at input
  have announced := settle_announces_rain (s := s) (u := onLine l (atLevel high) s) rfl
  rw [rainAlert, rainAlert, flag, input] at announced
  refine ⟨settle s (onLine l (atLevel high) s), ?_, flag, input, announced⟩
  rw [← doPinChange_rain event]
  rfl

end

/-- Settles O40: TIME_SET by its direction; the commands and the input line by what they leave of the rain alert. -/
theorem timeSetAndRainCommands : Obligations.TimeSetAndRainCommands := by
  intro m num arg s ready
  refine ⟨fun backward => endsIn_completes rfl ready ((runCommand_timeSet ..).trans (if_pos backward)), fun forward u is => ?_,
    endsIn_completes rfl ready (runCommand_rainSet ..), endsIn_completes rfl ready (runCommand_rainClear ..),
    fun settled announced means => ?_⟩
  · have replaced : u = timeReplaced s := is
    rw [replaced]
    have time := timeReplaced_time s
    refine ⟨by rw [time], endsIn_timeSet ready forward, ?_, timeSet_ppsOut ready forward⟩
    rw [finished_last, stampNow, time]
  · obtain rfl : announced = RainAnnounced s := funext fun before => funext fun after => funext fun t =>
      propext (means before after t)
    refine ⟨?_, ?_, fun l high event width alone => ?_⟩
    · simpa only [Bool.true_or] using setRain_announced rfl ready settled (runCommand_rainSet num arg _)
    · simpa only [Bool.false_or] using setRain_announced rfl ready settled (runCommand_rainClear num arg _)
    · exact pinChange_announced event width alone

end Sys2Proof.TimeAndRain
end

section
/-! SUPPORT. OUT_FLUSH and OUT_SEQ_SET (R107, R114, R133), and the places that the end of a halt gives out (R94, R110, R114). -/

namespace Sys2Proof.OutboundFlush

open Machine PathSupervision Commands

/-! ## Places are given without regard to the command state -/

theorem submitRecord_busyWith (r : RecordId) (tick : Nat) (code num : Byte) (w : Wait) (s : State) :
    submitRecord r tick (busyWith code num w s) = busyWith code num w (submitRecord r tick s) := by
  have window : windowOf (busyWith code num w s) .status 0 = windowOf s .status 0 := rfl
  rw [submitRecord, submitRecord, window]
  cases windowOf s .status 0 <;> rfl

theorem doStatusSubmit_busyWith (code num : Byte) (w : Wait) (s : State) :
    doStatusSubmit (busyWith code num w s) = busyWith code num w (doStatusSubmit s) := by
  have candidate : statusCandidate (busyWith code num w s) = statusCandidate s := rfl
  have wins : statusWins (busyWith code num w s) = statusWins s := rfl
  rw [doStatusSubmit, doStatusSubmit, candidate, wins]
  cases statusCandidate s with
  | none => rfl
  | some r =>
    dsimp only
    rw [apply_ite (busyWith code num w), ← submitRecord_busyWith]
    rfl

theorem doOutcomeSubmit_busyWith (code num : Byte) (w : Wait) (s : State) :
    doOutcomeSubmit (busyWith code num w s) = busyWith code num w (doOutcomeSubmit s) := by
  have candidate : outcomeCandidate (busyWith code num w s) = outcomeCandidate s := rfl
  have wins : outcomeWins (busyWith code num w s) = outcomeWins s := rfl
  have head (n : RingId) : (busyWith code num w s).outRings[n].outcomes.head? = s.outRings[n].outcomes.head? := rfl
  have window (n : RingId) : windowOf (busyWith code num w s) .outcome n = windowOf s .outcome n := rfl
  rw [doOutcomeSubmit, doOutcomeSubmit, candidate, wins]
  cases outcomeCandidate s with
  | none => rfl
  | some n =>
    dsimp only
    rw [head, window]
    cases outcomeWins s with
    | false => rfl
    | true => cases s.outRings[n].outcomes.head? <;> cases windowOf s .outcome n <;> rfl

theorem doFaultEntrySubmit_busyWith (code num : Byte) (w : Wait) (s : State) :
    doFaultEntrySubmit (busyWith code num w s) = busyWith code num w (doFaultEntrySubmit s) := by
  have wins : faultWins (busyWith code num w s) = faultWins s := rfl
  have entry : faultWaiting (busyWith code num w s) = faultWaiting s := rfl
  have window : windowOf (busyWith code num w s) .faultLog 0 = windowOf s .faultLog 0 := rfl
  rw [doFaultEntrySubmit, doFaultEntrySubmit, wins, entry, window]
  cases faultWins s with
  | false => rfl
  | true => cases faultWaiting s <;> cases windowOf s .faultLog 0 <;> rfl

theorem givePlace_busyWith (n : RingId) (code num : Byte) (w : Wait) (s : State) :
    givePlace n (busyWith code num w s) = busyWith code num w (givePlace n s) := by
  have ready : outcomeReady (busyWith code num w s) n = outcomeReady s n := rfl
  have dated : dateOffers (busyWith code num w s) = busyWith code num w (dateOffers s) := rfl
  have next (t : State) : nextSubmission (busyWith code num w t) = (nextSubmission t).map (busyWith code num w) := by
    have fault : faultWins (busyWith code num w t) = faultWins t := rfl
    have outcome : outcomeWins (busyWith code num w t) = outcomeWins t := rfl
    have status : statusWins (busyWith code num w t) = statusWins t := rfl
    rw [nextSubmission, nextSubmission, fault, outcome, status, doFaultEntrySubmit_busyWith, doOutcomeSubmit_busyWith,
      doStatusSubmit_busyWith]
    cases faultWins t <;> cases outcomeWins t <;> cases statusWins t <;> rfl
  rw [givePlace, givePlace, ready, dated, next, apply_ite (busyWith code num w), Option.getD_map]

theorem resubmit_busyWith (n : RingId) (code num : Byte) (w : Wait) (s : State) :
    resubmit n (busyWith code num w s) = busyWith code num w (resubmit n s) :=
  List.foldl_hom (busyWith code num w) fun t _ => givePlace_busyWith n code num w t

/-- The end of a halt does not concern the command state. -/
theorem endHalt_busyWith (n : RingId) (code num : Byte) (w : Wait) (s : State) :
    endHalt n (busyWith code num w s) = busyWith code num w (endHalt n s) := by
  have capturing : onOutRing n (fun r => { r with state := .capturing }) (busyWith code num w s)
      = busyWith code num w (onOutRing n (fun r => { r with state := .capturing }) s) := rfl
  rw [endHalt, endHalt, capturing, resubmit_busyWith, apply_ite (busyWith code num w)]
  rfl

/-! ## Places leave the selector as it is -/

theorem submitRecord_sel (r : RecordId) (tick : Nat) (s : State) : (submitRecord r tick s).sel = s.sel := by
  rw [submitRecord]
  cases windowOf s .status 0 <;> rfl

theorem doStatusSubmit_sel (s : State) : (doStatusSubmit s).sel = s.sel := by
  rw [doStatusSubmit]
  cases statusCandidate s with
  | none => rfl
  | some r =>
    dsimp only
    split
    · exact submitRecord_sel ..
    · rfl

theorem doOutcomeSubmit_sel (s : State) : (doOutcomeSubmit s).sel = s.sel := by
  rw [doOutcomeSubmit]
  cases outcomeCandidate s with
  | none => rfl
  | some n =>
    dsimp only
    cases outcomeWins s with
    | false => rfl
    | true => cases s.outRings[n].outcomes.head? <;> cases windowOf s .outcome n <;> rfl

theorem doFaultEntrySubmit_sel (s : State) : (doFaultEntrySubmit s).sel = s.sel := by
  rw [doFaultEntrySubmit]
  cases faultWins s with
  | false => rfl
  | true => cases faultWaiting s <;> cases windowOf s .faultLog 0 <;> rfl

theorem givePlace_sel (n : RingId) (s : State) : (givePlace n s).sel = s.sel := by
  rw [givePlace]
  split
  · cases next : nextSubmission (dateOffers s) with
    | none => rfl
    | some t =>
      rcases nextSubmission_some next with ⟨-, rfl⟩ | ⟨-, rfl⟩ | ⟨-, rfl⟩
      · exact doFaultEntrySubmit_sel (dateOffers s)
      · exact doOutcomeSubmit_sel (dateOffers s)
      · exact doStatusSubmit_sel (dateOffers s)
  · rfl

theorem endHalt_sel (n : RingId) (s : State) : (endHalt n s).sel = s.sel := by
  have places (l : List Nat) (t : State) : (l.foldl (fun v _ => givePlace n v) t).sel = t.sel := by
    induction l generalizing t with
    | nil => rfl
    | cons _ l ih => exact (ih _).trans (givePlace_sel n t)
  rw [endHalt]
  split
  · exact places _ _
  · rfl

/-! ## OUT_FLUSH (R133, R114) -/

theorem requestOutcome_busyWith (r : LaunchRecord) (res : OutcomeResult) (code num : Byte) (w : Wait) (s : State) :
    requestOutcome r res (busyWith code num w s) = busyWith code num w (requestOutcome r res s) := by
  rw [requestOutcome_eq, requestOutcome_eq]
  rfl

/-- The records flushed, their outcomes requested. -/
def flushedFrom (l : List LaunchRecord) (s : State) : State := l.foldl (fun v r => requestOutcome r .flushed v) s

theorem flushedFrom_busyWith (l : List LaunchRecord) (code num : Byte) (w : Wait) (s : State) :
    flushedFrom l (busyWith code num w s) = busyWith code num w (flushedFrom l s) :=
  List.foldl_hom (busyWith code num w) fun t r => requestOutcome_busyWith r .flushed code num w t

/-- The queued records of a ring are those of the selector. -/
theorem flushable_of_sel {s t : State} (same : t.sel = s.sel) (n : RingId) : flushable t n = flushable s n := by
  have named : recordNamed t = recordNamed s := funext fun x => by rw [recordNamed, same, ← recordNamed]
  rw [flushable, same, named, ← flushable]

/-- The whole of OUT_FLUSH. -/
theorem runs_outFlush {num : Byte} {arg : BitVec 48} {n : RingId} (s : State) (named : argIndex arg = n.val) :
    runCommand (commandWord 7 num arg) (busyWith 7 num .nothing s)
      = if ((flushable s n).map (·.name.slot)).isEmpty
        then complete .done (busyWith 7 num .nothing (flushedFrom (flushable s n) (endHalt n s)))
        else busyWith 7 num (.outcomes n ((flushable s n).map (·.name.slot))) (flushedFrom (flushable s n) (endHalt n s)) := by
  have records : flushable (busyWith 7 num .nothing s) n = flushable s n := rfl
  have flushes : flushRecords n (endHalt n (busyWith 7 num .nothing s))
      = busyWith 7 num .nothing (flushedFrom (flushable s n) (endHalt n s)) := by
    have later : flushable (endHalt n (busyWith 7 num .nothing s)) n = flushable s n :=
      (flushable_of_sel (endHalt_sel n _) n).trans records
    rw [flushRecords, later, endHalt_busyWith]
    exact flushedFrom_busyWith ..
  rw [runCommand_outFlush, withIndex_inRange 7 num n flushRing _ named, flushRing, records, flushes]
  rfl

/-- A capturing ring ends no halt. -/
theorem endHalt_capturing {n : RingId} {s : State} (capturing : s.outRings[n].state = .capturing) : endHalt n s = s := by
  rw [endHalt]
  exact if_neg (by rw [capturing]; decide)

/-- The end of a halt gives out places. -/
theorem endHalt_halted {n : RingId} {s : State} (halted : s.outRings[n].state = .halted) :
    endHalt n s = (List.range 16).foldl (fun v _ => givePlace n v) (onOutRing n (fun r => { r with state := .capturing }) s) := by
  rw [endHalt]
  exact if_pos (by rw [halted]; decide)

/-- Nothing is given where the ring's front outcome is not ready. -/
theorem givePlace_notReady {n : RingId} {s : State} (notReady : ¬ ∃ q, OutcomeReady s n q) : givePlace n s = s := by
  rw [givePlace]
  refine if_neg fun ready => notReady ⟨_, (outcomeReady_iff s n _).mpr ⟨ready, rfl⟩⟩

theorem givePlaces_notReady {n : RingId} {s : State} (notReady : ¬ ∃ q, OutcomeReady s n q) (l : List Nat) :
    l.foldl (fun v _ => givePlace n v) s = s := by
  induction l with
  | nil => rfl
  | cons _ l ih => rw [List.foldl_cons, givePlace_notReady notReady, ih]

theorem notReady_noWindow {n : RingId} {s : State} (none : windowOf s .outcome n = none) : ¬ ∃ q, OutcomeReady s n q :=
  fun ⟨_, _, window, _⟩ => window none

/-- The end of the halt of a ring without an OUTCOME window gives out no place. -/
theorem endHalt_noWindow {n : RingId} {s : State} (halted : s.outRings[n].state = .halted)
    (none : windowOf s .outcome n = none) : endHalt n s = onOutRing n (fun r => { r with state := .capturing }) s := by
  have noWindow : windowOf (onOutRing n (fun r => { r with state := .capturing }) s) .outcome n = .none := none
  rw [endHalt_halted halted]
  exact givePlaces_notReady (notReady_noWindow noWindow) _

/-- The records of a ring that are in the class queues. -/
theorem flushable_eq (s : State) (n : RingId) : flushable s n
    = ((s.sel.urgent.front ++ s.sel.urgent.back ++ (s.sel.normal.front ++ s.sel.normal.back)).filterMap (recordNamed s)).filter
        (fun r => decide (r.name.ring = n)) := by
  rw [flushable, ClassQueue.names, ClassQueue.names]
  exact List.filter_congr fun r _ => beq_eq_decide r.name.ring n

/-! ## To whom a place goes (R94, R110) -/

section
variable {n : RingId} {v : State}

theorem reportFree_dateOffers : reportFree (dateOffers v) = true ↔ (v.mem.queue.filter (fun x => !x.isDeposit)).length < 16 :=
  decide_eq_true_iff

/-- No place is free: nothing is given. -/
theorem givePlace_full (full : 16 ≤ (v.mem.queue.filter (fun x => !x.isDeposit)).length) : givePlace n v = v := by
  have notFree : ¬ reportFree (dateOffers v) = true := mt reportFree_dateOffers.mp (Nat.not_lt.mpr full)
  have none : nextSubmission (dateOffers v) = none := by
    rw [nextSubmission_none]
    refine ⟨?_, ?_, ?_⟩ <;> rw [← Bool.not_eq_true]
    · exact fun wins => notFree ((faultWins_iff _).mp wins).1
    · exact fun wins => notFree ((outcomeWins_iff _).mp wins).1
    · exact fun wins => notFree ((statusWins_iff _).mp wins).1
  rw [givePlace, none, Option.getD_none, ite_self]

theorem givePlace_next (ready : ∃ q, OutcomeReady v n q) : givePlace n v = (nextSubmission (dateOffers v)).getD v := by
  obtain ⟨q, ready⟩ := ready
  exact if_pos ((outcomeReady_iff v n q).mp ready).1

/-- A fault entry does not win against what comes before it. -/
theorem faultWins_not {k : Nat} (faults : ∀ j, FaultOffer (dateOffers v) j → k < j)
    (other : (∃ m, OutcomeOffer (dateOffers v) m k) ∨ ∃ r, StatusOffer (dateOffers v) r k) : ¬ faultWins (dateOffers v) = true := by
  intro wins
  obtain ⟨-, j, offer, outcomes, statuses⟩ := (faultWins_iff _).mp wins
  have later := faults j offer
  rcases other with ⟨m, outcome⟩ | ⟨r, status⟩
  · exact Nat.not_le.mpr later (outcomes m k outcome)
  · exact Nat.not_le.mpr later (statuses r k status)

variable (ready : ∃ q, OutcomeReady v n q) (free : (v.mem.queue.filter (fun x => !x.isDeposit)).length < 16)
include ready free

theorem givePlace_fault {k : Nat} (offer : FaultOffer (dateOffers v) k) (outcomes : ∀ m j, OutcomeOffer (dateOffers v) m j → k ≤ j)
    (statuses : ∀ r j, StatusOffer (dateOffers v) r j → k ≤ j) : givePlace n v = doFaultEntrySubmit (dateOffers v) := by
  have wins : faultWins (dateOffers v) = true := (faultWins_iff _).mpr ⟨reportFree_dateOffers.mpr free, k, offer, outcomes, statuses⟩
  rw [givePlace_next ready, nextSubmission, if_pos wins, Option.getD_some]

theorem givePlace_outcome {m : RingId} {k : Nat} (offer : OutcomeOffer (dateOffers v) m k)
    (faults : ∀ j, FaultOffer (dateOffers v) j → k < j) (statuses : ∀ r j, StatusOffer (dateOffers v) r j → k ≤ j) :
    outcomeWins (dateOffers v) = true ∧ givePlace n v = doOutcomeSubmit (dateOffers v) := by
  have wins : outcomeWins (dateOffers v) = true :=
    (outcomeWins_iff _).mpr ⟨reportFree_dateOffers.mpr free, m, k, offer, faults, statuses⟩
  refine ⟨wins, ?_⟩
  rw [givePlace_next ready, nextSubmission, if_neg (faultWins_not faults (.inl ⟨m, offer⟩)), if_pos wins,
    Option.getD_some]

theorem givePlace_status {r : RecordId} {k : Nat} (offer : StatusOffer (dateOffers v) r k)
    (faults : ∀ j, FaultOffer (dateOffers v) j → k < j) (outcomes : ∀ m j, OutcomeOffer (dateOffers v) m j → k < j) :
    givePlace n v = doStatusSubmit (dateOffers v) := by
  have wins : statusWins (dateOffers v) = true :=
    (statusWins_iff _).mpr ⟨reportFree_dateOffers.mpr free, r, k, offer, faults, outcomes⟩
  have noOutcome : ¬ outcomeWins (dateOffers v) = true := by
    intro outcome
    obtain ⟨-, m, j, outcomeOffer, -, statuses⟩ := (outcomeWins_iff _).mp outcome
    exact Nat.not_le.mpr (outcomes m j outcomeOffer) (statuses r k offer)
  rw [givePlace_next ready, nextSubmission, if_neg (faultWins_not faults (.inr ⟨r, offer⟩)), if_neg noOutcome,
    if_pos wins, Option.getD_some]

end

/-! ## A ring that alone has something to offer -/

/-- The state without the model's dates. -/
def undated (s : State) : State :=
  { s with
    status := { s.status with since := none, records := s.status.records.map fun m => { m with since := none } }
    log := { s.log with since := none }
    outRings := s.outRings.map fun r => { r with since := none } }

theorem kept_undated (s : State) : kept (undated s) = kept s := by
  have marks : keptMarks (undated s).status.records = keptMarks s.status.records := by
    simp only [undated, keptMarks, Vector.map_map]
    rfl
  have rings : keptRings (undated s).outRings = keptRings s.outRings := by
    simp only [undated, keptRings, Vector.map_map]
    rfl
  rw [kept, kept, marks, rings]
  rfl

/-- A state with other dates alone is the same without dates. -/
theorem undated_of (s : State) (marks : Vector StatusMark 36) (rings : Vector OutRing 4) (a b : Option Nat)
    (sameMarks : marks.map (fun m => { m with since := none }) = s.status.records.map fun m => { m with since := none })
    (sameRings : rings.map (fun r => { r with since := none }) = s.outRings.map fun r => { r with since := none }) :
    undated { s with status := { s.status with since := a, records := marks }, log := { s.log with since := b }, outRings := rings }
      = undated s := by
  rw [undated, undated]
  dsimp only
  rw [sameMarks, sameRings]

theorem undated_dateOffers (s : State) : undated (dateOffers s) = undated s :=
  undated_of s _ _ _ _ (Vector.ext fun i hi => by simp) (Vector.ext fun i hi => by simp)

/-- Nothing but outcomes of ring `n` is offered, and these for window `e`. -/
def OnlyRing (n : RingId) (e : Fin 15) (s : State) : Prop :=
  s.outRings[n].state = .capturing ∧ windowOf s .outcome n = some e ∧ (∀ f ∈ s.log.outstanding, f.submitted = true)
  ∧ (s.status.running = false ∨ windowOf s .status 0 = none ∨ ∀ r : RecordId, s.status.records[r].changed = false)
  ∧ ∀ m : RingId, m ≠ n → s.outRings[m].state = .halted ∨ windowOf s .outcome m = none ∨ s.outRings[m].outcomes = []

theorem undated_ring (s : State) (n : RingId) : (undated s).outRings[n].state = s.outRings[n].state
    ∧ (undated s).outRings[n].outcomes = s.outRings[n].outcomes := by
  simp [undated]

theorem undated_mark (s : State) (r : RecordId) : (undated s).status.records[r].changed = s.status.records[r].changed := by
  simp [undated]

/-- Dates are no part of that. -/
theorem onlyRing_undated (n : RingId) (e : Fin 15) (s : State) : OnlyRing n e (undated s) ↔ OnlyRing n e s := by
  have window (k : WindowKind) (m : RingId) : windowOf (undated s) k m = windowOf s k m := rfl
  have log : (undated s).log.outstanding = s.log.outstanding := rfl
  have running : (undated s).status.running = s.status.running := rfl
  simp only [OnlyRing, window, log, running, undated_ring, undated_mark]

theorem onlyRing_congr {n : RingId} {e : Fin 15} {s t : State} (same : undated s = undated t) (only : OnlyRing n e t) : OnlyRing n e s := by
  rw [← onlyRing_undated, same, onlyRing_undated]
  exact only

/-! What the dates leave. -/

theorem dateOffers_outstanding (s : State) : (dateOffers s).log.outstanding = s.log.outstanding := rfl

theorem dateOffers_running (s : State) : (dateOffers s).status.running = s.status.running := by
  rw [dateOffers]

theorem dateOffers_windowOf (s : State) (k : WindowKind) (m : RingId) : windowOf (dateOffers s) k m = windowOf s k m := rfl

theorem dateOffers_recordSince (s : State) (r : RecordId) :
    (dateOffers s).status.records[r].since = date s (eligible s r) s.status.records[r].since := by
  simp [dateOffers]

theorem dateOffers_ring (s : State) (m : RingId) : (dateOffers s).outRings[m].state = s.outRings[m].state
    ∧ (dateOffers s).outRings[m].outcomes = s.outRings[m].outcomes := by
  simp [dateOffers]

section
variable {n : RingId} {e : Fin 15} {s : State} (only : OnlyRing n e s)
include only

/-- No other offer stands at the event. -/
theorem noOtherOffer : (∀ k, ¬ FaultOffer (dateOffers s) k) ∧ (∀ r k, ¬ StatusOffer (dateOffers s) r k)
    ∧ ∀ m, m ≠ n → ∀ q, ¬ OutcomeReady (dateOffers s) m q := by
  obtain ⟨-, -, faults, statuses, others⟩ := only
  refine ⟨?_, ?_, ?_⟩
  · rintro k ⟨⟨f, listed, waiting⟩, -⟩
    rw [dateOffers_outstanding] at listed
    exact Bool.false_ne_true (waiting.symm.trans (faults f listed))
  · rintro r k ⟨running, window, a, since, -⟩
    rw [dateOffers_running] at running
    rw [dateOffers_windowOf] at window
    rcases statuses with stopped | noWindow | unchanged
    · exact Bool.false_ne_true (stopped.symm.trans running)
    · exact window noWindow
    · rw [dateOffers_recordSince, eligible, unchanged r] at since
      cases since
  · rintro m other q ⟨state, window, o, rest, outcomes, -⟩
    rw [(dateOffers_ring s m).1] at state
    rw [(dateOffers_ring s m).2] at outcomes
    rw [dateOffers_windowOf] at window
    rcases others m other with halted | noWindow | empty
    · exact OutRingState.noConfusion (halted.symm.trans state)
    · exact window noWindow
    · exact List.cons_ne_nil o rest (outcomes.symm.trans empty)

/-- The next place goes to the ring's front outcome. -/
theorem givePlace_only {o : OutcomeEntry} {rest : List OutcomeEntry} (front : s.outRings[n].outcomes = o :: rest)
    (free : (s.mem.queue.filter (fun x => !x.isDeposit)).length < 16) : givePlace n s = submitOutcome n o e (dateOffers s) := by
  obtain ⟨noFault, noStatus, noOther⟩ := noOtherOffer only
  obtain ⟨capturing, window, -⟩ := only
  have readyAt (t : State) (state : t.outRings[n].state = .capturing) (win : windowOf t .outcome n = some e)
      (outcomes : t.outRings[n].outcomes = o :: rest) : OutcomeReady t n o.request :=
    ⟨state, by rw [win]; exact Option.some_ne_none e, o, rest, outcomes, rfl⟩
  have ring := dateOffers_ring s n
  have frontAfter := ring.2.trans front
  have windowAfter : windowOf (dateOffers s) .outcome n = some e := window
  have ready := readyAt (dateOffers s) (ring.1.trans capturing) windowAfter frontAfter
  have offer : OutcomeOffer (dateOffers s) n ((dateOffers s).outRings[n].since.getD 0) := by
    refine ⟨⟨o.request, ready, fun m x other => ?_⟩, rfl⟩
    by_cases same : m = n
    · subst same
      obtain ⟨-, -, o', rest', front', rfl⟩ := other
      obtain ⟨rfl, -⟩ := List.cons.inj (frontAfter.symm.trans front')
      exact .inr ⟨rfl, le_rfl⟩
    · exact absurd other (noOther m same x)
  obtain ⟨wins, gives⟩ := givePlace_outcome ⟨o.request, readyAt s capturing window front⟩ free offer
    (fun j fault => absurd fault (noFault j)) (fun r j status => absurd status (noStatus r j))
  rw [gives, doOutcomeSubmit, ((outcomeOffer_iff _ _ _).mp offer).1]
  dsimp only
  rw [if_pos wins, frontAfter, windowAfter]
  rfl

end

/-- Without an outcome no place is given. -/
theorem givePlace_empty {n : RingId} {s : State} (empty : s.outRings[n].outcomes = []) : givePlace n s = s :=
  givePlace_notReady fun ⟨_, _, _, o, rest, outcomes, _⟩ => List.cons_ne_nil o rest (outcomes.symm.trans empty)

/-! ## The places one after another (R110, R114) -/

/-- The entry of an outcome of the ring that is submitted as the `i`-th from now (R111). -/
def placedEntry (n : RingId) (e : Fin 15) (s : State) (i : Nat) (o : OutcomeEntry) : WriteEntry :=
  let c := (s.outRings[n].assigned + BitVec.ofNat 16 i).toNat
  let slots := s.mem.windows[e].length / 4
  ⟨.outcome n o, e, outcomeWords (s.mem.windows[e].base + 4 * (c % slots)) (c / slots % 256) o⟩

/-- The ring with its first `k` outcomes submitted. -/
def ringPlaced (k : Nat) (r : OutRing) : OutRing :=
  { r with assigned := r.assigned + BitVec.ofNat 16 k, outcomes := r.outcomes.drop k }

/-- The state with the first `k` outcomes of the ring submitted, each at a position of its own. -/
def placed (n : RingId) (e : Fin 15) (s : State) (k : Nat) : State :=
  onOutRing n (ringPlaced k) { s with
    mem := { s.mem with queue := s.mem.queue ++ (s.outRings[n].outcomes.take k).mapIdx (placedEntry n e s) } }

theorem placed_zero (n : RingId) (e : Fin 15) (s : State) : placed n e s 0 = s := by
  have none (r : OutRing) : ringPlaced 0 r = r := by
    rw [ringPlaced, BitVec.add_zero, List.drop_zero]
  rw [placed, List.take_zero, List.mapIdx_nil, List.append_nil, onOutRing, none, Fin.getElem_fin, Vector.set_getElem_self]

theorem placed_outcomes (n : RingId) (e : Fin 15) (s : State) (k : Nat) :
    (placed n e s k).outRings[n].outcomes = s.outRings[n].outcomes.drop k := by
  rw [placed, Fin.getElem_fin, onOutRing_outRings_same]
  rfl

/-- An outcome entry takes a place of the report part. -/
theorem placed_count (n : RingId) (e : Fin 15) (s : State) (k : Nat) (enough : k ≤ s.outRings[n].outcomes.length) :
    ((placed n e s k).mem.queue.filter (fun x => !x.isDeposit)).length
      = (s.mem.queue.filter (fun x => !x.isDeposit)).length + k := by
  have reports (l : List WriteEntry) (all : ∀ x ∈ l, x.isDeposit = false) : l.filter (fun x => !x.isDeposit) = l :=
    List.filter_eq_self.mpr fun x listed => by rw [all x listed]; rfl
  have outcomes : ∀ x ∈ (s.outRings[n].outcomes.take k).mapIdx (placedEntry n e s), x.isDeposit = false := by
    intro x listed
    obtain ⟨i, _, rfl⟩ := List.mem_mapIdx.mp listed
    rfl
  rw [placed, onOutRing_mem]
  dsimp only
  rw [List.filter_append, reports _ outcomes, List.length_append, List.length_mapIdx, List.length_take, Nat.min_eq_left enough]

/-- Nothing else is offered meanwhile. -/
theorem onlyRing_placed {n : RingId} {e : Fin 15} {s : State} (only : OnlyRing n e s) (k : Nat) : OnlyRing n e (placed n e s k) := by
  obtain ⟨capturing, window, faults, statuses, others⟩ := only
  refine ⟨?_, window, faults, statuses, fun m other => ?_⟩
  · rw [placed, Fin.getElem_fin, onOutRing_outRings_same]
    exact capturing
  · rw [placed, onOutRing_outRings_other n m _ _ other]
    exact others m other

/-- Images of a ring that differ in a date are the same without dates. -/
theorem undated_onOutRing {n : RingId} {f g : OutRing → OutRing} {s : State}
    (same : { f s.outRings[n] with since := none } = { g s.outRings[n] with since := none }) :
    undated (onOutRing n f s) = undated (onOutRing n g s) := by
  have rings : (s.outRings.set n.val (f s.outRings[n]) n.isLt).map (fun r => { r with since := none })
      = (s.outRings.set n.val (g s.outRings[n]) n.isLt).map fun r => { r with since := none } := by
    rw [Vector.map_set, Vector.map_set, same]
  rw [undated, undated, onOutRing, onOutRing]
  dsimp only
  rw [rings]

/-- The next outcome joins those placed. -/
theorem mapIdx_take_succ {k : Nat} {l rest : List OutcomeEntry} {o : OutcomeEntry} (f : Nat → OutcomeEntry → WriteEntry)
    (front : l.drop k = o :: rest) : (l.take (k + 1)).mapIdx f = (l.take k).mapIdx f ++ [f k o] := by
  have here : l[k]? = some o := by rw [← List.head?_drop, front, List.head?_cons]
  have enough : k < l.length := (List.getElem?_eq_some_iff.mp here).1
  rw [List.take_add_one, here, Option.toList_some, List.mapIdx_append, List.length_take, Nat.min_eq_left enough.le, List.mapIdx_singleton,
    Nat.zero_add]

/-- One more outcome submitted. -/
theorem submitOutcome_placed {n : RingId} {e : Fin 15} {s : State} {k : Nat} {o : OutcomeEntry} {rest : List OutcomeEntry}
    (front : s.outRings[n].outcomes.drop k = o :: rest) :
    undated (submitOutcome n o e (placed n e s k)) = undated (placed n e s (k + 1)) := by
  have position : (placed n e s k).outRings[n].assigned = s.outRings[n].assigned + BitVec.ofNat 16 k := by
    rw [placed, Fin.getElem_fin, onOutRing_outRings_same]
    rfl
  have submits : submitOutcome n o e (placed n e s k)
      = onOutRing n (fun r => { r with assigned := r.assigned + 1, outcomes := r.outcomes.drop 1, since := none })
        (enqueue (placedEntry n e s k o) (placed n e s k)) := by
    rw [submitOutcome, position]
    rfl
  have queue : enqueue (placedEntry n e s k o) (placed n e s k) = onOutRing n (ringPlaced k) { s with
      mem := { s.mem with queue := s.mem.queue ++ (s.outRings[n].outcomes.take (k + 1)).mapIdx (placedEntry n e s) } } := by
    rw [mapIdx_take_succ _ front, ← List.append_assoc]
    rfl
  rw [submits, queue, OutboundSlots.onOutRing_onOutRing, placed]
  refine undated_onOutRing ?_
  rw [Function.comp_apply, ringPlaced, ringPlaced, List.drop_drop, BitVec.ofNat_add, ← BitVec.add_assoc]
  rfl

/-- An image that passes a date on, or puts none, is made with the dates or without. -/
theorem undated_onOutRing_comm {n : RingId} {f : OutRing → OutRing} (s : State)
    (passes : ∀ r, { f r with since := none } = f { r with since := none }) : undated (onOutRing n f s) = onOutRing n f (undated s) := by
  have own : (undated s).outRings[n] = { s.outRings[n] with since := none } := by simp [undated]
  have rings : (s.outRings.set n.val (f s.outRings[n]) n.isLt).map (fun r => { r with since := none })
      = (undated s).outRings.set n.val (f (undated s).outRings[n]) n.isLt := by
    rw [Vector.map_set, passes, ← own]
    rfl
  rw [undated, onOutRing, onOutRing]
  dsimp only
  rw [rings]
  rfl

/-- A submission concerns no date. -/
theorem undated_submitOutcome {n : RingId} {e : Fin 15} {o : OutcomeEntry} {s t : State} (same : undated s = undated t) :
    undated (submitOutcome n o e s) = undated (submitOutcome n o e t) := by
  have alone (x : State) : undated (submitOutcome n o e x) = submitOutcome n o e (undated x) := by
    have position : (undated x).outRings[n].assigned = x.outRings[n].assigned := by simp [undated]
    rw [submitOutcome, submitOutcome, position]
    exact undated_onOutRing_comm _ fun _ => rfl
  rw [alone, alone, same]

/-- How many places are given to a ring that alone has something to offer. -/
def placesFor (n : RingId) (s : State) : Nat :=
  min s.outRings[n].outcomes.length (16 - (s.mem.queue.filter (fun x => !x.isDeposit)).length)

section
variable {n : RingId} {e : Fin 15} {s v : State} {k : Nat} (only : OnlyRing n e s) (same : undated v = undated (placed n e s k))
include same

theorem outcomes_of_placed : v.outRings[n].outcomes = s.outRings[n].outcomes.drop k := by
  rw [← (undated_ring v n).2, same, (undated_ring _ n).2, placed_outcomes]

theorem count_of_placed (enough : k ≤ s.outRings[n].outcomes.length) :
    (v.mem.queue.filter (fun x => !x.isDeposit)).length = (s.mem.queue.filter (fun x => !x.isDeposit)).length + k := by
  have whole (x : State) : (undated x).mem = x.mem := rfl
  have memory : v.mem = (placed n e s k).mem := by rw [← whole, same, whole]
  rw [memory, placed_count n e s k enough]

/-- With all places given, nothing more is given. -/
theorem givePlace_last (all : k = placesFor n s) : givePlace n v = v := by
  rw [placesFor] at all
  by_cases empty : s.outRings[n].outcomes.length ≤ k
  · exact givePlace_empty ((outcomes_of_placed same).trans (List.drop_eq_nil_of_le empty))
  · refine givePlace_full ?_
    rw [count_of_placed same (Nat.le_of_not_le empty)]
    omega

include only

/-- Before that the next outcome is submitted. -/
theorem givePlace_further (more : k < placesFor n s) : undated (givePlace n v) = undated (placed n e s (k + 1)) := by
  rw [placesFor] at more
  have enough : k < s.outRings[n].outcomes.length := by omega
  have front : s.outRings[n].outcomes.drop k = s.outRings[n].outcomes[k] :: s.outRings[n].outcomes.drop (k + 1) :=
    List.drop_eq_getElem_cons enough
  have free : (v.mem.queue.filter (fun x => !x.isDeposit)).length < 16 := by
    rw [count_of_placed same enough.le]
    omega
  rw [givePlace_only (onlyRing_congr same (onlyRing_placed only k)) ((outcomes_of_placed same).trans front) free,
    undated_submitOutcome ((undated_dateOffers v).trans same), submitOutcome_placed front]

end

/-- The places given, one after another, as long as there are outcomes and free places. -/
theorem givePlaces_placed {n : RingId} {e : Fin 15} {s : State} (only : OnlyRing n e s) (j : Nat) :
    undated ((List.range j).foldl (fun v _ => givePlace n v) s) = undated (placed n e s (min j (placesFor n s))) := by
  induction j with
  | zero => rw [Nat.zero_min, placed_zero]; rfl
  | succ j ih =>
    rw [List.range_succ, List.foldl_append, List.foldl_cons, List.foldl_nil]
    generalize (List.range j).foldl (fun v _ => givePlace n v) s = v at ih ⊢
    by_cases more : j < placesFor n s
    · rw [Nat.min_eq_left more.le] at ih
      rw [Nat.min_eq_left (Nat.succ_le_of_lt more)]
      exact givePlace_further only ih more
    · rw [Nat.min_eq_right (Nat.not_lt.mp more)] at ih
      rw [Nat.min_eq_right (Nat.le_succ_of_le (Nat.not_lt.mp more)), givePlace_last ih rfl, ih]

/-- Settles O38: OUT_FLUSH by what the end of the halt gives out; a place by the offers; a ring's own places one after another. -/
theorem outboundCommands : Obligations.OutboundCommands := by
  refine ⟨fun m num arg s ready => ⟨fun n u flushed named records after => ?_, fun i named =>
    endsIn_completes rfl ready ?_⟩, fun n v t isReady dated means => ?_, fun n e k s capturing window faults statuses others count => ?_⟩
  · have ended : u = endHalt n s := by
      rcases after with ⟨capturing, is⟩ | ⟨halted, none, is⟩ | ⟨halted, -, is⟩
      · rw [is, endHalt_capturing capturing]
      · rw [is, endHalt_noWindow halted none]
      · rw [is, endHalt_halted halted]
    rw [← flushable_eq] at records
    subst ended records
    have runs := runs_outFlush (num := num) s named
    refine ⟨fun nothing => endsIn_completes rfl ready ?_, fun some => endsIn_waits rfl ready ?_⟩
    · rw [runs, nothing]
      rfl
    · refine runs.trans (if_neg ?_)
      rw [List.isEmpty_iff, List.map_eq_nil_iff]
      exact some
  · have value : (commandWord 8 num arg).extractLsb' 32 32 = arg.extractLsb' 16 32 := commandWord_argument 8 num arg 16 32
    rw [runCommand_outSeqSet, withIndex_inRange 8 num i _ _ named, setOutSequence, bits, value]
    rfl
  · subst dated
    refine ⟨?_, fun holds free => ?_, rfl, rfl, rfl⟩
    · rintro (not | full)
      · exact givePlace_notReady (mt means.mpr not)
      · exact givePlace_full full
    · have ready := means.mp holds
      exact ⟨fun k offer outcomes statuses => givePlace_fault ready free offer outcomes statuses,
        fun m k offer faults statuses => (givePlace_outcome ready free offer faults statuses).2,
        fun r k offer faults outcomes => givePlace_status ready free offer faults outcomes⟩
  · subst count
    have given := givePlaces_placed ⟨capturing, window, faults, statuses, others⟩ 16
    have all : min 16 (placesFor n s) = placesFor n s := Nat.min_eq_right ((Nat.min_le_right ..).trans (Nat.sub_le ..))
    rw [all] at given
    rw [← kept_undated, given, kept_undated]
    rfl

end Sys2Proof.OutboundFlush
end

section
/-! SUPPORT. ACCEPT, REJECT and NO_ANSWER, and the ticks of the answer limits (R126, R130, R131, R158, R159). -/

namespace Sys2Proof.UnitAnswers

open Machine PathSupervision Commands PathDisable

/-! ## The oldest entry leaves the list (R158, R159) -/

/-- What the end of a path's awaiting-answer list does to a PATH_DISABLE that waits for it (R5). -/
def listPassed (p : PathId) (s : State) (rest : List AwaitEntry) (u : State) : State :=
  if rest = [] ∧ ∃ b, s.cmd.busy = some b ∧ b.waits = .answers p then
    (match s.cmd.busy with | some b => finished b.code b.number .done u | none => u) else u

theorem waiting_answers_iff (p : PathId) (s : State) :
    waiting s = .answers p ↔ ∃ b, s.cmd.busy = some b ∧ b.waits = .answers p := by
  unfold waiting
  cases s.cmd.busy with
  | none => simp
  | some b => simp

theorem kept_answersDone {p : PathId} {s u : State} {rest : List AwaitEntry} (cmd : u.cmd = s.cmd)
    (left : u.paths[p].port.awaiting = rest) : kept (answersDone p u) = kept (listPassed p s rest u) := by
  have test : (waiting u == .answers p && u.paths[p].port.awaiting.isEmpty) = true
      ↔ rest = [] ∧ ∃ b, s.cmd.busy = some b ∧ b.waits = .answers p := by
    rw [Bool.and_eq_true, beq_iff_eq, left, List.isEmpty_iff, waiting_answers_iff, cmd, and_comm]
  by_cases ends : rest = [] ∧ ∃ b, s.cmd.busy = some b ∧ b.waits = .answers p
  · obtain ⟨b, busy, -⟩ := ends.2
    rw [answersDone, if_pos (test.mpr ends), listPassed, if_pos ends, busy]
    exact kept_complete .done (cmd ▸ busy)
  · rw [answersDone, if_neg (mt test.mp ends), listPassed, if_neg ends]

theorem finishOldest_none (p : PathId) (ok : Bool) (count : Port → Port) {s : State} (none : s.paths[p].port.awaiting = []) :
    finishOldest p ok count s = s := by
  rw [finishOldest, none]

/-- An entry without a copy only leaves the list. -/
theorem kept_finishOldest_plain (p : PathId) (ok : Bool) (count : Port → Port) {s : State} {e : AwaitEntry}
    {rest : List AwaitEntry} (front : s.paths[p].port.awaiting = e :: rest) (plain : e.copy = none) :
    kept (finishOldest p ok count s)
      = kept (listPassed p s rest (onPort p (fun q => { count q with awaiting := rest }) s)) := by
  simp only [finishOldest, front, plain]
  exact kept_answersDone rfl (by simp [onPort, onPath])

/-- The copy of an entry is answered as it leaves the list. -/
theorem kept_finishOldest_copy (p : PathId) (ok : Bool) (count : Port → Port) {s : State} {e : AwaitEntry}
    {rest : List AwaitEntry} {x : RecordName} (front : s.paths[p].port.awaiting = e :: rest) (copy : e.copy = some x) :
    kept (finishOldest p ok count s)
      = kept (listPassed p s rest (answerCopy p ok x (onPort p (fun q => { count q with awaiting := rest }) s))) := by
  simp only [finishOldest, front, copy]
  exact kept_answersDone (answerCopy_keepsCmd ..) (by simp [answerCopy_paths, onPort, onPath])

theorem doAccept_none {p : PathId} {s : State} (none : s.paths[p].port.awaiting = []) : doAccept p s = lateAnswer p s :=
  if_pos (List.isEmpty_iff.mpr none)

theorem doReject_none {p : PathId} {s : State} (none : s.paths[p].port.awaiting = []) : doReject p s = lateAnswer p s :=
  if_pos (List.isEmpty_iff.mpr none)

theorem doAccept_some {p : PathId} {s : State} (some : s.paths[p].port.awaiting ≠ []) :
    doAccept p s = finishOldest p true (fun q => { q with accepted := satInc q.accepted }) s :=
  if_neg (mt List.isEmpty_iff.mp some)

theorem doReject_some {p : PathId} {s : State} (some : s.paths[p].port.awaiting ≠ []) :
    doReject p s = finishOldest p false (fun q => { q with rejected := satInc q.rejected }) s :=
  if_neg (mt List.isEmpty_iff.mp some)

/-! ## A copy is answered (R126, R130, R131) -/

/-- A record with the copy on path `p` answered. -/
def answeredRecord (p : PathId) (ok : Bool) (r : LaunchRecord) : LaunchRecord :=
  { r with
    copies := r.copies.map (fun c => if c.path = p ∧ c.state = .sent then
      { c with state := if ok then .accepted else .failed } else c)
    firstAccepted := if ok = true ∧ r.firstAccepted = none then (r.copies.find? (fun c => c.path == p)).bind (fun c => c.launch)
      else r.firstAccepted }

theorem answerCopy_some {p : PathId} {ok : Bool} {x : RecordName} {t : State} {r : LaunchRecord}
    (named : recordNamed t x = some r) :
    answerCopy p ok x t = settleCopies (answeredRecord p ok r) (putRecord (answeredRecord p ok r) t) := by
  have copies : r.copies.map (·.answered p ok) = (answeredRecord p ok r).copies :=
    List.map_congr_left fun c _ => if_congr (by simp) rfl rfl
  have stamp : (if ok && r.firstAccepted.isNone then r.launchOn p else r.firstAccepted) = (answeredRecord p ok r).firstAccepted :=
    if_congr (by simp) rfl rfl
  rw [answerCopy, named]
  simp only [copies, stamp]
  rfl

/-- Copies that have all failed bring the outcome REJECTED about (R126, R131). -/
theorem settleCopies_rejected {r : LaunchRecord} {t : State} (some : r.copies ≠ [])
    (failed : ∀ c ∈ r.copies, c.state = .failed) : settleCopies r t = requestOutcome r .rejected t := by
  have any : r.copies.any (·.state == .accepted) = false := by
    rw [List.any_eq_false]
    intro c listed
    rw [failed c listed]
    decide
  rw [settleCopies, any]
  refine if_pos ?_
  rw [Bool.and_eq_true, Bool.not_eq_true', ← Bool.not_eq_true, List.isEmpty_iff, List.all_eq_true]
  refine ⟨some, fun c listed => ?_⟩
  rw [Copy.isComplete, failed c listed]
  rfl

/-! ## The ticks of the answer limits (R159) -/

theorem countAnswers_eq (p : PathId) (s : State) :
    countAnswers p s = if s.paths[p].port.awaiting = [] then s else settle s (onPort p (fun q => { q with
      awaiting := q.awaiting.map (fun e => { e with ticks := e.ticks + 1 }) }) s) :=
  if_congr List.isEmpty_iff rfl rfl

theorem failIfDue_early {p : PathId} {v : State}
    (early : ∀ e rest, v.paths[p].port.awaiting = e :: rest → e.ticks < 1000) : failIfDue p v = v := by
  rw [failIfDue]
  split
  next e rest front => exact if_neg (Nat.not_le.mpr (early e rest front))
  next => rfl

theorem failIfDue_due {p : PathId} {v : State} {e : AwaitEntry} {rest : List AwaitEntry}
    (front : v.paths[p].port.awaiting = e :: rest) (due : 1000 ≤ e.ticks) : failIfDue p v = settle v (doNoAnswer p v) := by
  simp only [failIfDue, front]
  exact if_pos due

/-- Settles O44: each answer removes the front entry, and `settleCopies` decides the outcome of its record. -/
theorem answersFinishTheOldestEntry : Obligations.AnswersFinishTheOldestEntry := by
  refine ⟨fun p s => ⟨fun none => ?_, ?_⟩, ?_, ?_⟩
  · refine ⟨endsIn_of_settle _ s s _ _ rfl (congrArg kept (doAccept_none none)),
      endsIn_of_settle _ s s _ _ rfl (congrArg kept (doReject_none none)),
      endsIn_of_settle _ s s _ _ rfl (congrArg kept (finishOldest_none p false _ none))⟩
  · rintro e rest done front rfl
    have some : s.paths[p].port.awaiting ≠ [] := by rw [front]; exact List.cons_ne_nil e rest
    refine ⟨fun plain => ⟨?_, ?_, ?_⟩, fun x copy => ⟨?_, ?_, ?_⟩⟩
    · exact endsIn_of_settle _ s s _ _ rfl (doAccept_some some ▸ kept_finishOldest_plain p true _ front plain)
    · exact endsIn_of_settle _ s s _ _ rfl (doReject_some some ▸ kept_finishOldest_plain p false _ front plain)
    · exact endsIn_of_settle _ s s _ _ rfl (kept_finishOldest_plain p false _ front plain)
    · exact endsIn_of_settle _ s s _ _ rfl (doAccept_some some ▸ kept_finishOldest_copy p true _ front copy)
    · exact endsIn_of_settle _ s s _ _ rfl (doReject_some some ▸ kept_finishOldest_copy p false _ front copy)
    · exact endsIn_of_settle _ s s _ _ rfl (kept_finishOldest_copy p false _ front copy)
  · rintro p ok x t r v named rfl
    rw [answerCopy_some named]
    exact ⟨settleCopies_underWay, fun complete => ⟨fun accepted => settleCopies_launched accepted complete,
      settleCopies_rejected⟩⟩
  · rintro p s t rfl
    refine ⟨?_, fun v => ⟨failIfDue_early, fun e rest front due => ?_⟩⟩
    · rw [← countAnswers_eq]
      rfl
    · rw [failIfDue_due front due]
      rfl

end Sys2Proof.UnitAnswers
end

section
/-! SUPPORT. REPORTs: what is stored, and Table 1-7 row by row (R2, R9 to R11, R16, R39 to R41, R160). -/

namespace Sys2Proof.UnitReports

open Machine PathSupervision Commands

theorem onSup_path (p : PathId) (f : Supervisor → Supervisor) (s : State) :
    (onSup p f s).paths[p] = { s.paths[p] with sup := f s.paths[p].sup } := onSup_same p f s

/-! ## What is stored (R2, R16) -/

/-- A REPORT in range is stored (R2). -/
def reported (p : PathId) (margin profile unit : Byte) (s : State) : State :=
  onSup p (fun y => { y with
      margin := margin, unitProfile := profile.toNat
      unitState := if unit = 0 then .ready else if unit = 1 then .tuning else .fault
      ownMask := if p = 4 then y.ownMask
        else if margin < 8 then 0 else if margin < 16 then 1 else if margin < 24 then 3 else if margin < 32 then 7
        else if margin < 42 then 15 else if margin < 52 then 31 else 63 }) s

theorem maskOfMargin_eq : ∀ margin : Byte, maskOfMargin margin
    = if margin < 8 then 0 else if margin < 16 then 1 else if margin < 24 then 3 else if margin < 32 then 7
      else if margin < 42 then 15 else if margin < 52 then 31 else 63 := by
  decide +kernel

theorem maskOfMargin_zero : ∀ margin : Byte, maskOfMargin margin = 0 ↔ margin < 8 := by
  decide +kernel

theorem unitState_ofCode : ∀ unit : Byte, unit.toNat ≤ 2 →
    UnitState.ofCode unit.toNat = if unit = 0 then .ready else if unit = 1 then .tuning else .fault := by
  decide +kernel

theorem storeReport_eq (p : PathId) (margin profile : Byte) {unit : Byte} (s : State) (known : unit.toNat ≤ 2) :
    storeReport p margin profile.toNat (UnitState.ofCode unit.toNat) s = reported p margin profile unit s := by
  rw [storeReport, reported, unitState_ofCode unit known]
  refine onSup_congr p _ _ s ?_
  rw [← maskOfMargin_eq]
  by_cases ground : p = 4
  · simp only [if_pos ground, if_neg (mt (isAir_iff p).mp (not_not.mpr ground))]
  · simp only [if_neg ground, if_pos ((isAir_iff p).mpr ground)]

theorem doReport_air {p : PathId} {margin profile unit : Byte} {s : State} (air : p ≠ 4) (low : profile.toNat ≤ 6)
    (known : unit.toNat ≤ 2) :
    doReport p margin profile unit s = actOnReport p (reported p margin profile unit s) := by
  rw [doReport, if_pos (by simp [reportInRange, low, known]), takeReport, if_pos ((isAir_iff p).mpr air),
    storeReport_eq p margin profile s known]

theorem doReport_ground {p : PathId} {margin profile unit : Byte} {s : State} (ground : p = 4) (low : profile.toNat ≤ 6)
    (known : unit.toNat ≤ 2) :
    doReport p margin profile unit s = actOnGroundReport p (reported p margin profile unit s) := by
  rw [doReport, if_pos (by simp [reportInRange, low, known]), takeReport,
    if_neg (mt (isAir_iff p).mp (not_not.mpr ground)), storeReport_eq p margin profile s known]

theorem doReport_outOfRange {p : PathId} {margin profile unit : Byte} {s : State}
    (out : 6 < profile.toNat ∨ 2 < unit.toNat) : doReport p margin profile unit s = discardMessage p s :=
  if_neg (by rw [reportInRange]; simp only [Bool.and_eq_true, decide_eq_true_eq]; omega)

/-! ## What a stored REPORT does (Table 1-7) -/

theorem actOnReport_quiet {p : PathId} {t : State} (quiet : t.paths[p].sup.state = .disabled ∨ t.paths[p].sup.state = .down
    ∨ t.paths[p].sup.state = .held) : actOnReport p t = t := by
  rw [actOnReport]
  rcases quiet with h | h | h <;> simp only [h]

theorem actOnReport_fails {p : PathId} {t : State} (hears : t.paths[p].sup.state = .training ∨ t.paths[p].sup.state = .retune
    ∨ t.paths[p].sup.state = .up ∨ t.paths[p].sup.state = .fading) (fails : reportFails t.paths[p].sup = true) :
    actOnReport p t = heldFrom p t := by
  rw [← enterHeld_eq p t (by rcases hears with h | h | h | h <;> rw [h] <;> decide), actOnReport]
  rcases hears with h | h | h | h <;> simp only [h, fails, if_true]

theorem actOnReport_tuning {p : PathId} {t : State} (tunes : t.paths[p].sup.state = .training ∨ t.paths[p].sup.state = .retune)
    (passes : reportFails t.paths[p].sup = false) (waits : reportConfirms t.paths[p].sup = false) : actOnReport p t = t := by
  rw [actOnReport]
  rcases tunes with h | h <;> simp only [h, passes, waits, Bool.false_eq_true, if_false]

theorem actOnReport_training {p : PathId} {t : State} (state : t.paths[p].sup.state = .training)
    (passes : reportFails t.paths[p].sup = false) (confirms : reportConfirms t.paths[p].sup = true) :
    actOnReport p t = confirm p t := by
  simp only [actOnReport, state, passes, confirms, Bool.false_eq_true, if_false, if_true]

theorem actOnReport_retune {p : PathId} {t : State} (state : t.paths[p].sup.state = .retune)
    (passes : reportFails t.paths[p].sup = false) (confirms : reportConfirms t.paths[p].sup = true) :
    actOnReport p t = confirmRetune p t := by
  simp only [actOnReport, state, passes, confirms, Bool.false_eq_true, if_false, if_true]

theorem actOnReport_service {p : PathId} {t : State} (serves : t.paths[p].sup.state = .up ∨ t.paths[p].sup.state = .fading)
    (passes : reportFails t.paths[p].sup = false) :
    actOnReport p t = if stepDownDue t.paths[p].sup then stepDown p t else reportInService p t := by
  rw [actOnReport]
  rcases serves with h | h <;> simp only [h, passes, Bool.false_eq_true, if_false]

theorem stepDownDue_iff (u : Supervisor) :
    stepDownDue u = true ↔ 2 ≤ u.contract ∧ u.contract ≤ 6 ∧ u.margin.toNat < Config.holdThreshold u.contract := by
  simp [stepDownDue, and_assoc]

theorem supportsStepUp_iff (u : Supervisor) :
    supportsStepUp u = true ↔ 1 ≤ u.contract ∧ u.contract ≤ 5 ∧ Config.holdThreshold (u.contract + 1) + 8 ≤ u.margin.toNat := by
  simp [supportsStepUp, and_assoc]

theorem guardRuns_iff (x : Path) : guardRuns x = true ↔ x.setup.holdMode = .narrow ∧ x.holdHigh.run = true := by
  rw [guardRuns, Bool.and_eq_true, beq_iff_eq]

/-! ### Confirmation (R9, R40, R42) -/

/-- The target is confirmed as contract profile `k` (R9, R42). -/
def confirmed (p : PathId) (k : Nat) (role : Role) (t : State) : State :=
  onSup p (fun y => { y with contract := k, target := none, pending := if role = .lead then false else y.pending }) t

theorem confirm_eq {p : PathId} {k : Nat} {t : State} (target : t.paths[p].sup.target = some k) :
    confirm p t = confirmed p k t.paths[p].setup.role t := by
  rw [confirm, confirmed]
  refine onSup_congr p _ _ t ?_
  simp only [target, Option.getD_some, beq_iff_eq]

theorem confirmed_path (p : PathId) (k : Nat) (role : Role) (t : State) : (confirmed p k role t).paths[p]
    = { t.paths[p] with sup := { t.paths[p].sup with
        contract := k, target := none, pending := if role = .lead then false else t.paths[p].sup.pending } } :=
  onSup_path ..

theorem runGuard_wide {p : PathId} {t : State} (wide : t.paths[p].setup.holdMode = .wide) : runGuard p t = t := by
  have same : runGuard p t = onPath p (fun x => x) t := by
    refine StatusRecords.onPath_congr p _ _ t ?_
    simp only [wide]
  rw [same, onPath]
  simp

theorem runGuard_narrow {p : PathId} {t : State} (narrow : t.paths[p].setup.holdMode = .narrow) :
    runGuard p t = onPath p (fun y => { y with
      holdHigh := ⟨y.setup.guardReload, true, y.setup.guardReload, none, y.setup.holdTap⟩ }) t := by
  refine StatusRecords.onPath_congr p _ _ t ?_
  simp only [narrow, presetGuard]
  rfl

/-- Confirmation in RETUNE without a guard to run. -/
theorem confirmRetune_free {p : PathId} {k : Nat} {t : State} (state : t.paths[p].sup.state = .retune)
    (target : t.paths[p].sup.target = some k)
    (free : t.paths[p].sup.contract ≤ k ∨ t.paths[p].setup.holdMode = .wide) :
    confirmRetune p t = serviceFrom p (confirmed p k t.paths[p].setup.role t) := by
  have guard : (if (confirmed p k t.paths[p].setup.role t).paths[p].sup.contract < t.paths[p].sup.contract then
      runGuard p (confirmed p k t.paths[p].setup.role t) else confirmed p k t.paths[p].setup.role t)
      = confirmed p k t.paths[p].setup.role t := by
    rcases free with up | wide
    · exact if_neg (by rw [confirmed_path]; exact Nat.not_lt.mpr up)
    · rw [runGuard_wide (by rw [confirmed_path]; exact wide), ite_self]
  simp only [confirmRetune, confirm_eq target, guard]
  exact enterService_eq p _ (.inr (.inl (by rw [confirmed_path]; exact state)))

/-- Confirmation of a lower profile in RETUNE runs the guard (R40). -/
theorem confirmRetune_guarded {p : PathId} {k : Nat} {t : State} (state : t.paths[p].sup.state = .retune)
    (target : t.paths[p].sup.target = some k) (down : k < t.paths[p].sup.contract)
    (narrow : t.paths[p].setup.holdMode = .narrow) :
    confirmRetune p t = serviceFrom p (onPath p (fun y => { y with
      holdHigh := ⟨y.setup.guardReload, true, y.setup.guardReload, none, y.setup.holdTap⟩ })
      (confirmed p k t.paths[p].setup.role t)) := by
  have lower : (confirmed p k t.paths[p].setup.role t).paths[p].sup.contract < t.paths[p].sup.contract := by
    rw [confirmed_path]; exact down
  simp only [confirmRetune, confirm_eq target, if_pos lower]
  rw [runGuard_narrow (by rw [confirmed_path]; exact narrow)]
  refine enterService_eq p _ (.inr (.inl ?_))
  rw [show ∀ (f : Path → Path) (v : State), (onPath p f v).paths[p] = f v.paths[p] from fun f v => onPath_paths_same p f v]
  simp only [confirmed_path]
  exact state

/-! ### Step-down (R38, R39) -/

theorem commonNow_eq {u : Supervisor} {h : Nat}
    (top : HighestOf (match u.farMask with | some m => u.ownMask &&& m | none => u.ownMask) h) : commonNow u = h := by
  rw [commonNow]
  cases far : u.farMask with
  | none => rw [far] at top; exact ((highest_iff _ _).mp top).symm
  | some m => rw [far] at top; exact ((highest_iff _ _).mp top).symm

theorem stepDown_follow {p : PathId} {t : State} (role : t.paths[p].setup.role = .follow)
    (state : t.paths[p].sup.state ≠ .retune) : stepDown p t = offered p (retuneFrom p none t) := by
  simp only [stepDown, role]
  rw [enterRetune_eq p none t state, sendOffer_eq]

theorem stepDown_lead {p : PathId} {t : State} (role : t.paths[p].setup.role = .lead)
    (state : t.paths[p].sup.state ≠ .retune) (some : commonNow t.paths[p].sup ≠ 0) :
    stepDown p t = granted p 0 (commonNow t.paths[p].sup)
      (onSup p (fun y => { y with pending := true }) (retuneFrom p (.some (commonNow t.paths[p].sup)) t)) := by
  simp only [stepDown, role]
  rw [if_neg some, enterRetune_eq p _ t state, sendNewGrant_eq]

theorem stepDown_mismatch {p : PathId} {t : State} (role : t.paths[p].setup.role = .lead)
    (state : t.paths[p].sup.state ≠ .retune) (none : commonNow t.paths[p].sup = 0) :
    stepDown p t = mismatched p (granted p 0 0 (retuneFrom p .none t)) := by
  simp only [stepDown, role]
  rw [if_pos none, enterRetune_eq p _ t state, sendNewGrant_eq, takeMismatch_eq]

/-! ### The step-up run (R30, R40, R41) -/

theorem countSupport_supports {p : PathId} {t : State} (supports : supportsStepUp t.paths[p].sup = true) :
    countSupport p t = onSup p (fun y => { y with stepRun := min 8 (y.stepRun + 1) }) t := by
  rw [countSupport]
  refine onSup_congr p _ _ t ?_
  simp only [if_pos supports]

theorem countSupport_clears {p : PathId} {t : State} (lacks : ¬ supportsStepUp t.paths[p].sup = true) :
    countSupport p t = onSup p (fun y => { y with
      stepRun := 0, pending := if t.paths[p].setup.role = .follow then false else y.pending }) t := by
  rw [countSupport]
  refine onSup_congr p _ _ t ?_
  simp only [if_neg lacks, beq_iff_eq]

/-- The count leaves all but the step-up run and pending. -/
theorem countSupport_path (p : PathId) (t : State) : ∃ run pending, (countSupport p t).paths[p]
    = { t.paths[p] with sup := { t.paths[p].sup with stepRun := run, pending := pending } }
    ∧ (run = 8 ↔ supportsStepUp t.paths[p].sup = true ∧ 7 ≤ t.paths[p].sup.stepRun) := by
  by_cases supports : supportsStepUp t.paths[p].sup = true
  · rw [countSupport_supports supports]
    refine ⟨_, t.paths[p].sup.pending, onSup_path .., ?_⟩
    simp only [supports, true_and]
    omega
  · rw [countSupport_clears supports]
    exact ⟨0, _, onSup_path .., fun full => absurd full (by decide), fun due => absurd due.1 supports⟩

/-- A step-up is due when the run reaches 8 and no guard runs (R40). -/
theorem stepUpDue_counted (p : PathId) (t : State) : stepUpDue (countSupport p t).paths[p] = true
    ↔ supportsStepUp t.paths[p].sup = true ∧ 7 ≤ t.paths[p].sup.stepRun
      ∧ ¬ (t.paths[p].setup.holdMode = .narrow ∧ t.paths[p].holdHigh.run = true) := by
  obtain ⟨run, pending, path, full⟩ := countSupport_path p t
  have same : supportsStepUp { t.paths[p].sup with stepRun := run, pending := pending } = supportsStepUp t.paths[p].sup := rfl
  rw [path, stepUpDue, Bool.and_eq_true, Bool.and_eq_true, Bool.not_eq_true', ← Bool.not_eq_true, guardRuns_iff, beq_iff_eq,
    same]
  simp only [full]
  tauto

theorem offContract_iff (u : Supervisor) :
    offContract u = true ↔ u.unitState = .tuning ∨ (u.unitState = .ready ∧ u.unitProfile ≠ u.contract) := by
  simp [offContract]

/-- A unit off its contract profile is retuned (R11). -/
theorem reportInService_off {p : PathId} {t : State} (state : t.paths[p].sup.state ≠ .retune)
    (off : offContract t.paths[p].sup = true) :
    reportInService p t = retuneFrom p (some t.paths[p].sup.contract) (countSupport p t) := by
  obtain ⟨run, pending, path, -⟩ := countSupport_path p t
  simp only [reportInService, path]
  rw [if_pos (by exact off)]
  exact enterRetune_eq p _ _ (by rw [path]; exact state)

/-- A unit on its contract profile: the step-up request when one is due, and the fade conditions (R10, R41). -/
theorem reportInService_on {p : PathId} {t : State} (on : ¬ offContract t.paths[p].sup = true) :
    reportInService p t = fadeJudged p (if stepUpDue (countSupport p t).paths[p] = true then
      onSup p (fun u => { u with stepRun := 0 }) (offered p (countSupport p t)) else countSupport p t) := by
  obtain ⟨run, pending, path, -⟩ := countSupport_path p t
  have same : ¬ offContract (countSupport p t).paths[p].sup = true := by rw [path]; exact on
  rw [reportInService, if_neg same, evaluateFade_eq, requestStepUp, sendOffer_eq]

/-! ## The stored REPORT, field by field -/

section
variable (p : PathId) (margin profile unit : Byte) (s : State)

theorem reported_path : (reported p margin profile unit s).paths[p] = { s.paths[p] with sup := { s.paths[p].sup with
      margin := margin, unitProfile := profile.toNat
      unitState := if unit = 0 then .ready else if unit = 1 then .tuning else .fault
      ownMask := if p = 4 then s.paths[p].sup.ownMask else maskOfMargin margin } } := by
  rw [reported, onSup_path, maskOfMargin_eq]

theorem reported_state : (reported p margin profile unit s).paths[p].sup.state = s.paths[p].sup.state := by rw [reported_path]

theorem reported_contract : (reported p margin profile unit s).paths[p].sup.contract = s.paths[p].sup.contract := by
  rw [reported_path]

theorem reported_target : (reported p margin profile unit s).paths[p].sup.target = s.paths[p].sup.target := by
  rw [reported_path]

theorem reported_farMask : (reported p margin profile unit s).paths[p].sup.farMask = s.paths[p].sup.farMask := by
  rw [reported_path]

theorem reported_stepRun : (reported p margin profile unit s).paths[p].sup.stepRun = s.paths[p].sup.stepRun := by
  rw [reported_path]

theorem reported_margin : (reported p margin profile unit s).paths[p].sup.margin = margin := by rw [reported_path]

theorem reported_setup : (reported p margin profile unit s).paths[p].setup = s.paths[p].setup := by rw [reported_path]

theorem reported_holdHigh : (reported p margin profile unit s).paths[p].holdHigh = s.paths[p].holdHigh := by rw [reported_path]

end

theorem unit_cases : ∀ unit : Byte, unit.toNat ≤ 2 → unit = 0 ∨ unit = 1 ∨ unit = 2 := by
  decide +kernel

section
variable {p : PathId} {margin profile unit : Byte} {s : State}

theorem reported_fault_iff (known : unit.toNat ≤ 2) :
    (reported p margin profile unit s).paths[p].sup.unitState = .fault ↔ unit = 2 := by
  have code : ∀ unit : Byte, unit.toNat ≤ 2 →
      ((if unit = 0 then UnitState.ready else if unit = 1 then .tuning else .fault) = .fault ↔ unit = 2) := by
    decide +kernel
  rw [reported_path]
  exact code unit known

theorem reported_fails_iff (air : p ≠ 4) (known : unit.toNat ≤ 2) :
    reportFails (reported p margin profile unit s).paths[p].sup = true ↔ unit = 2 ∨ margin < 8 := by
  have mask : (reported p margin profile unit s).paths[p].sup.ownMask = maskOfMargin margin := by
    rw [reported_path]
    exact if_neg air
  rw [reportFails, Bool.or_eq_true, beq_iff_eq, beq_iff_eq, reported_fault_iff known, mask, maskOfMargin_zero]

theorem reported_passes (air : p ≠ 4) (known : unit.toNat ≤ 2) (sound : unit ≠ 2) (hears : 8 ≤ margin.toNat) :
    reportFails (reported p margin profile unit s).paths[p].sup = false := by
  rw [← Bool.not_eq_true, reported_fails_iff air known]
  exact not_or.mpr ⟨sound, fun low => absurd (BitVec.lt_def.mp low) (Nat.not_lt.mpr hears)⟩

theorem reported_confirms_iff : reportConfirms (reported p margin profile unit s).paths[p].sup = true
    ↔ unit = 0 ∧ s.paths[p].sup.target = some profile.toNat := by
  have ready : (if unit = 0 then UnitState.ready else if unit = 1 then .tuning else .fault) = .ready ↔ unit = 0 := by
    split
    · simp_all
    · split <;> simp_all
  rw [reportConfirms, Bool.and_eq_true, beq_iff_eq, beq_iff_eq, reported_path]
  exact and_congr ready Iff.rfl

theorem reported_off (off : unit = 1 ∨ unit = 0 ∧ profile.toNat ≠ s.paths[p].sup.contract) :
    offContract (reported p margin profile unit s).paths[p].sup = true := by
  rw [offContract_iff, reported_path]
  rcases off with rfl | ⟨rfl, other⟩
  · exact .inl rfl
  · exact .inr ⟨rfl, other⟩

theorem reported_on (ready : unit = 0) (same : profile.toNat = s.paths[p].sup.contract) :
    ¬ offContract (reported p margin profile unit s).paths[p].sup = true := by
  subst ready
  rw [offContract_iff, reported_path]
  rintro (tuning | ⟨-, other⟩)
  · cases tuning
  · exact other same

theorem reported_stepDownDue_iff : stepDownDue (reported p margin profile unit s).paths[p].sup = true
    ↔ 2 ≤ s.paths[p].sup.contract ∧ s.paths[p].sup.contract ≤ 6
      ∧ margin.toNat < Config.holdThreshold s.paths[p].sup.contract := by
  rw [stepDownDue_iff, reported_contract, reported_margin]

theorem reported_supports_iff : supportsStepUp (reported p margin profile unit s).paths[p].sup = true
    ↔ 1 ≤ s.paths[p].sup.contract ∧ s.paths[p].sup.contract ≤ 5
      ∧ Config.holdThreshold (s.paths[p].sup.contract + 1) + 8 ≤ margin.toNat := by
  rw [supportsStepUp_iff, reported_contract, reported_margin]

theorem settles_report {v : State} (does : doReport p margin profile unit s = v) :
    Settles (.report p margin profile unit) s v := by
  subst does
  rfl

/-- A REPORT that an air path acts on. -/
theorem settles_air {v : State} (air : p ≠ 4) (low : profile.toNat ≤ 6) (known : unit.toNat ≤ 2)
    (acts : actOnReport p (reported p margin profile unit s) = v) : Settles (.report p margin profile unit) s v :=
  settles_report ((doReport_air air low known).trans acts)

theorem actOnGroundReport_kept {p : PathId} {t : State}
    (kept : ¬ (t.paths[p].sup.state = .up ∧ t.paths[p].sup.unitState = .fault)) : actOnGroundReport p t = t :=
  if_neg (by rw [Bool.and_eq_true, beq_iff_eq, beq_iff_eq]; exact kept)

theorem actOnGroundReport_held {p : PathId} {t : State} (up : t.paths[p].sup.state = .up)
    (fault : t.paths[p].sup.unitState = .fault) : actOnGroundReport p t = heldFrom p t :=
  (if_pos (by rw [Bool.and_eq_true, beq_iff_eq, beq_iff_eq]; exact ⟨up, fault⟩)).trans
    (enterHeld_eq p t (by rw [up]; decide))

end

/-- Settles O45: the rows of Table 1-7 for the record as the REPORT leaves it. -/
theorem reportsAreStoredAndActedOn : Obligations.ReportsAreStoredAndActedOn := by
  rintro p margin profile unit s u c x k role rises guarded rfl rfl rfl stored rising guard counts clears
  obtain rfl : u = reported p margin profile unit s := stored
  have counted : c = countSupport p (reported p margin profile unit s) := by
    by_cases rise : rises
    · rw [counts rise, countSupport_supports (reported_supports_iff.mpr (rising.mp rise))]
    · rw [clears rise, countSupport_clears (fun up => rise (rising.mpr (reported_supports_iff.mp up))), reported_setup]
  subst counted
  have state := reported_state p margin profile unit s
  have role := reported_setup p margin profile unit s
  refine ⟨fun out => settles_report (doReport_outOfRange out), fun low known => ⟨fun quiet => ?_, fun ground up fault => ?_,
    fun ground up sound => ?_, fun air hears fails => ?_, fun air sound strong => ?_⟩⟩
  · by_cases ground : p = 4
    · refine settles_report ((doReport_ground ground low known).trans (actOnGroundReport_kept ?_))
      rw [state]
      rintro ⟨up, -⟩
      rcases quiet with h | h | h <;> exact absurd (h.symm.trans up) (by decide)
    · exact settles_air ground low known (actOnReport_quiet (state ▸ quiet))
  · exact settles_report ((doReport_ground ground low known).trans
      (actOnGroundReport_held (state.trans up) ((reported_fault_iff known).mpr fault)))
  · exact settles_report ((doReport_ground ground low known).trans
      (actOnGroundReport_kept fun held => sound ((reported_fault_iff known).mp held.2)))
  · exact settles_air air low known (actOnReport_fails (state ▸ hears) ((reported_fails_iff air known).mpr fails))
  · have passes := reported_passes (s := s) (profile := profile) air known sound strong
    have ready : unit = 0 ∨ unit = 1 := by
      rcases unit_cases unit known with h | h | h
      · exact .inl h
      · exact .inr h
      · exact absurd h sound
    refine ⟨fun tunes waits => ?_, fun v ready target same => ?_, fun serves least most below => ?_, fun serves stays => ?_⟩
    · refine settles_air air low known (actOnReport_tuning (state ▸ tunes) passes ?_)
      rw [← Bool.not_eq_true, reported_confirms_iff]
      rintro ⟨zero, aim⟩
      rcases waits with one | other
      · exact absurd (zero.symm.trans one) (by decide)
      · exact other aim
    · have confirms := (reported_confirms_iff (margin := margin)).mpr ⟨ready, target⟩
      have aim := (reported_target p margin profile unit s).trans target
      obtain rfl : v = confirmed p profile.toNat (reported p margin profile unit s).paths[p].setup.role
          (reported p margin profile unit s) := by rw [role]; exact same
      refine ⟨fun training => ?_, fun retune free => ?_, fun retune lower narrow => ?_⟩
      · exact settles_air air low known
          ((actOnReport_training (state.trans training) passes confirms).trans (confirm_eq aim))
      · refine settles_air air low known ((actOnReport_retune (state.trans retune) passes confirms).trans
          (confirmRetune_free (state.trans retune) aim ?_))
        rw [reported_contract, role]
        exact free
      · refine settles_air air low known ((actOnReport_retune (state.trans retune) passes confirms).trans
          (confirmRetune_guarded (state.trans retune) aim ?_ ?_))
        · rw [reported_contract]
          exact lower
        · rw [role]
          exact narrow
    · have due := (reported_stepDownDue_iff (profile := profile) (unit := unit)).mpr ⟨least, most, below⟩
      have steps : actOnReport p (reported p margin profile unit s) = stepDown p (reported p margin profile unit s) :=
        (actOnReport_service (state ▸ serves) passes).trans (if_pos due)
      have leaves : (reported p margin profile unit s).paths[p].sup.state ≠ .retune := by
        rw [state]
        rcases serves with h | h <;> rw [h] <;> decide
      refine ⟨fun follow => settles_air air low known (steps.trans (stepDown_follow (role ▸ follow) leaves)),
        fun h lead top => ?_⟩
      have common : commonNow (reported p margin profile unit s).paths[p].sup = h :=
        commonNow_eq (by rw [reported_farMask]; exact top)
      subst common
      exact ⟨fun some => settles_air air low known (steps.trans (stepDown_lead (role ▸ lead) leaves some)),
        fun none => settles_air air low known (steps.trans (stepDown_mismatch (role ▸ lead) leaves none))⟩
    · have keeps : actOnReport p (reported p margin profile unit s) = reportInService p (reported p margin profile unit s) :=
        (actOnReport_service (state ▸ serves) passes).trans (if_neg fun due => stays (reported_stepDownDue_iff.mp due))
      have leaves : (reported p margin profile unit s).paths[p].sup.state ≠ .retune := by
        rw [state]
        rcases serves with h | h <;> rw [h] <;> decide
      refine ⟨fun off => ?_, fun zero same => ?_⟩
      · rw [← reported_contract p margin profile unit s]
        refine settles_air air low known (keeps.trans (reportInService_off leaves (reported_off ?_)))
        rcases off with one | other
        · exact .inl one
        · exact ready.symm.imp_right fun zero => ⟨zero, other⟩
      · have judged := keeps.trans (reportInService_on (reported_on zero same))
        have step : stepUpDue (countSupport p (reported p margin profile unit s)).paths[p] = true
            ↔ rises ∧ 7 ≤ s.paths[p].sup.stepRun ∧ ¬ guarded := by
          rw [stepUpDue_counted, reported_supports_iff, reported_stepRun, role, reported_holdHigh, rising, guard]
        exact ⟨fun due => settles_air air low known (judged.trans (by rw [if_pos (step.mpr due)])),
          fun calm => settles_air air low known (judged.trans (by rw [if_neg (mt step.mp calm)]))⟩

end Sys2Proof.UnitReports
end

section
/-! SUPPORT. Messages and frames from a unit up to the sorting, and the inbound one-way estimate (R14, R15, R23, R160 to R164). -/

namespace Sys2Proof.FramesReceived

open Machine PathSupervision Commands UnitReports

theorem onPath_self (p : PathId) (f : Path → Path) (s : State) : (onPath p f s).paths[p] = f s.paths[p] :=
  onPath_paths_same p f s

theorem onPort_sup (p : PathId) (f : Port → Port) (s : State) : (onPort p f s).paths[p].sup = s.paths[p].sup := by
  rw [onPort, onPath_self]

/-! ## Messages the port takes (R160) -/

theorem takenUnitMessage_iff (b0 b1 b2 b3 : Byte) : takenUnitMessage b0 b1 b2 b3 = true
    ↔ (b0 = 3 ∧ 16 ≤ b1.toNat ∧ b1.toNat ≤ 68) ∨ b0 = 4 ∨ b0 = 5 ∨ (b0 = 6 ∧ b2.toNat ≤ 6 ∧ b3.toNat ≤ 2) := by
  have code : ∀ k : Byte, b0 = k ↔ b0.toNat = k.toNat := fun k => BitVec.toNat_inj.symm
  have three : b0 = 3 ↔ b0.toNat = 3 := code 3
  have four : b0 = 4 ↔ b0.toNat = 4 := code 4
  have five : b0 = 5 ↔ b0.toNat = 5 := code 5
  have six : b0 = 6 ↔ b0.toNat = 6 := code 6
  rw [takenUnitMessage, three, four, five, six]
  split
  next carry => simp [carryInRange, carry]
  next accept => simp [accept]
  next reject => simp [reject]
  next report => simp [reportInRange, report]
  next notCarry notAccept notReject notReport =>
    have none : ¬ (b0.toNat = 3 ∨ b0.toNat = 4 ∨ b0.toNat = 5 ∨ b0.toNat = 6) := by tauto
    simp only [Bool.false_eq_true, false_iff]
    tauto

theorem settles_unknown {p : PathId} {b0 b1 b2 b3 : Byte} {s : State} (unknown : takenUnitMessage b0 b1 b2 b3 = false) :
    Settles (.unknownUnitMessage p b0 b1 b2 b3) s (discardMessage p s) := by
  have does : doUnknownUnitMessage p b0 b1 b2 b3 s = discardMessage p s :=
    if_pos (by rw [unknown]; rfl)
  rw [← does]
  rfl

/-! ## A CARRY is taken (R161, R163, R164) -/

theorem settles_carry {p : PathId} {condition : Byte} {bytes : List Byte} {s v : State}
    (does : doCarry p condition bytes s = v) : Settles (.carry p condition bytes) s v := by
  subst does
  rfl

theorem carryInRange_iff (n : Nat) : carryInRange n = true ↔ 16 ≤ n ∧ n ≤ 68 := by
  rw [carryInRange, Bool.and_eq_true, decide_eq_true_iff, decide_eq_true_iff]

theorem doCarry_outOfRange {p : PathId} {condition : Byte} {bytes : List Byte} {s : State}
    (out : bytes.length < 16 ∨ 68 < bytes.length) : doCarry p condition bytes s = discardMessage p s := by
  refine if_pos ?_
  rw [Bool.not_eq_true', ← Bool.not_eq_true, carryInRange_iff]
  omega

theorem doCarry_disabled {p : PathId} {condition : Byte} {bytes : List Byte} {s : State}
    (least : 16 ≤ bytes.length) (most : bytes.length ≤ 68) (disabled : s.paths[p].sup.state = .disabled) :
    doCarry p condition bytes s = s := by
  rw [doCarry, if_neg (by simp [(carryInRange_iff _).mpr ⟨least, most⟩]), disabled]
  rfl

theorem doCarry_received {p : PathId} {condition : Byte} {bytes : List Byte} {s : State}
    (least : 16 ≤ bytes.length) (most : bytes.length ≤ 68) (enabled : s.paths[p].sup.state ≠ .disabled) :
    doCarry p condition bytes s = receiveFrame p condition bytes s := by
  rw [doCarry, if_neg (by simp [(carryInRange_iff _).mpr ⟨least, most⟩]), if_neg (by rw [beq_iff_eq]; exact enabled)]

theorem errored_eq (condition : Byte) : (!(condition == 0)) = decide (condition ≠ 0) := by
  rw [beq_eq_decide, ← decide_not]

theorem receiveFrame_bad {p : PathId} {condition : Byte} {bytes : List Byte} {s : State}
    (bad : judgeFrame p s.paths[p].setup.check (decide (condition ≠ 0)) bytes = none) :
    receiveFrame p condition bytes s = frameMarked p false (onPort p (fun q => { q with received := satInc q.received }) s) := by
  rw [receiveFrame, errored_eq, bad]
  exact enterMark_eq p false _

theorem receiveFrame_good {p : PathId} {condition : Byte} {bytes payload : List Byte} {h : FrameHeader} {s : State}
    (good : judgeFrame p s.paths[p].setup.check (decide (condition ≠ 0)) bytes = some (h, payload)) :
    receiveFrame p condition bytes s
      = goodFrame p h payload (stampNow s) (onPort p (fun q => { q with received := satInc q.received }) s) := by
  rw [receiveFrame, errored_eq, good]

/-! ### The state a frame's mark leaves a path in (R10, R164) -/

theorem rerank_paths (t : State) : (rerank t).paths = t.paths := by
  unfold rerank
  dsimp only
  split <;> split <;> rfl

/-- A judgement leaves a path that is not in service as it was. -/
theorem fadeJudged_idle {p : PathId} {s : State} (idle : ¬ (s.paths[p].sup.state = .up ∨ s.paths[p].sup.state = .fading)) :
    fadeJudged p s = s :=
  if_neg fun serves => idle serves.2

theorem fadeState_serves {p : PathId} {s : State} (serves : s.paths[p].sup.state = .up ∨ s.paths[p].sup.state = .fading) :
    (fadeState p s).paths[p].sup.state = .up ∨ (fadeState p s).paths[p].sup.state = .fading := by
  rw [fadeState]
  by_cases same : s.paths[p].sup.state = if Fading s.paths[p] then .fading else .up
  · rw [if_pos same]
    exact serves
  · rw [if_neg same]
    simp only [raiseCause_paths, onSup_self]
    split
    · exact .inr rfl
    · exact .inl rfl

theorem fadeJudged_serves {p : PathId} {s : State} (serves : s.paths[p].sup.state = .up ∨ s.paths[p].sup.state = .fading) :
    (fadeJudged p s).paths[p].sup.state = .up ∨ (fadeJudged p s).paths[p].sup.state = .fading := by
  have paths : (fadeJudged p s).paths = (fadeState p s).paths ∨ fadeJudged p s = s := by
    unfold fadeJudged
    dsimp only
    split
    · left
      split <;> simp only [markRecord_paths, rerank_paths]
    · exact .inr rfl
  rcases paths with same | same
  · simp only [same]
    exact fadeState_serves serves
  · rw [same]
    exact serves

theorem frameMarked_state {p : PathId} {good : Bool} {s : State} {x : PathState} (notUp : x ≠ .up) (notFading : x ≠ .fading) :
    (frameMarked p good s).paths[p].sup.state = x ↔ s.paths[p].sup.state = x := by
  rw [frameMarked]
  generalize marked : onPort p (fun q => { q with
    history := pushed 16 q.history good
    checkFailures := if good then q.checkFailures else satInc q.checkFailures }) s = t
  have same : t.paths[p].sup.state = s.paths[p].sup.state := by
    rw [← marked]
    rw [onPort_sup]
  rw [← same]
  by_cases serves : t.paths[p].sup.state = .up ∨ t.paths[p].sup.state = .fading
  · have after := fadeJudged_serves serves
    constructor
    · intro is
      rw [is] at after
      exact absurd after (not_or.mpr ⟨notUp, notFading⟩)
    · intro is
      rw [is] at serves
      exact absurd serves (not_or.mpr ⟨notUp, notFading⟩)
  · rw [fadeJudged_idle serves]

theorem hears_iff (x : PathState) : x.hears = true ↔ x ≠ .disabled ∧ x ≠ .down ∧ x ≠ .held := by
  cases x <;> decide

theorem takesFrames_iff (x : PathState) : x.takesFrames = true ↔ x ≠ .disabled ∧ x ≠ .held := by
  cases x <;> decide

/-- A good frame restarts silence where it runs (R14). -/
theorem goodFrame_eq {p : PathId} {h : FrameHeader} {payload : List Byte} {st : Stamp} {g : State}
    (enabled : g.paths[p].sup.state ≠ .disabled) : goodFrame p h payload st g = sortFrame p h payload st
      (if g.paths[p].sup.state = .down ∨ g.paths[p].sup.state = .held then frameMarked p true g
        else silenceRestarted p (frameMarked p true g)) := by
  have disabled := frameMarked_state (p := p) (good := true) (s := g) (x := .disabled) (by decide) (by decide)
  have down := frameMarked_state (p := p) (good := true) (s := g) (x := .down) (by decide) (by decide)
  have held := frameMarked_state (p := p) (good := true) (s := g) (x := .held) (by decide) (by decide)
  rw [goodFrame, enterMark_eq]
  refine congrArg (sortFrame p h payload st) ?_
  by_cases silent : g.paths[p].sup.state = .down ∨ g.paths[p].sup.state = .held
  · rw [if_pos silent]
    refine if_neg ?_
    rw [hears_iff]
    rintro ⟨-, notDown, notHeld⟩
    rcases silent with h | h
    · exact notDown (down.mpr h)
    · exact notHeld (held.mpr h)
  · obtain ⟨notDown, notHeld⟩ := not_or.mp silent
    rw [if_neg silent]
    exact if_pos ((hears_iff _).mpr ⟨mt disabled.mp enabled, mt down.mp notDown, mt held.mp notHeld⟩)

theorem silenceRestarted_state (p : PathId) (s : State) : (silenceRestarted p s).paths[p].sup.state = s.paths[p].sup.state := by
  rw [silenceRestarted, onPath_self]

/-- The state in which a good frame finds its path. -/
theorem restarted_state_iff {p : PathId} {g : State} {x : PathState} (notUp : x ≠ .up) (notFading : x ≠ .fading) :
    (if g.paths[p].sup.state = .down ∨ g.paths[p].sup.state = .held then frameMarked p true g
      else silenceRestarted p (frameMarked p true g)).paths[p].sup.state = x ↔ g.paths[p].sup.state = x := by
  split
  · exact frameMarked_state notUp notFading
  · rw [silenceRestarted_state]
    exact frameMarked_state notUp notFading

theorem sortFrame_data {p : PathId} {h : FrameHeader} {payload : List Byte} {st : Stamp} {v : State} (data : h.kind = .data) :
    sortFrame p h payload st v = mergeFrame p h payload st (takeInbound p h st v) := by
  rw [sortFrame, data]

theorem sortFrame_control {p : PathId} {h : FrameHeader} {payload : List Byte} {st : Stamp} {v : State} (control : h.kind ≠ .data) :
    sortFrame p h payload st v = takeControl p h payload st v := by
  rw [sortFrame]
  split
  next data => exact absurd data control
  next => rfl

theorem takeControl_handled {p : PathId} {h : FrameHeader} {payload : List Byte} {st : Stamp} {v : State}
    (enabled : v.paths[p].sup.state ≠ .disabled) (notHeld : v.paths[p].sup.state ≠ .held) :
    takeControl p h payload st v = handleControl p h payload st v :=
  if_pos ((takesFrames_iff _).mpr ⟨enabled, notHeld⟩)

theorem takeControl_held {p : PathId} {h : FrameHeader} {payload : List Byte} {st : Stamp} {v : State}
    (held : v.paths[p].sup.state = .held) : takeControl p h payload st v = v :=
  if_neg fun takes => ((takesFrames_iff _).mp takes).2 held

/-! ## The inbound one-way estimate (R23) -/

theorem takeInbound_idle {p : PathId} {h : FrameHeader} {st : Stamp} {t : State}
    (idle : t.paths[p].sup.state = .disabled ∨ t.paths[p].sup.state = .held) : takeInbound p h st t = t := by
  rw [takeInbound]
  refine if_pos ?_
  rw [Bool.not_eq_true', ← Bool.not_eq_true, takesFrames_iff]
  exact fun takes => idle.elim takes.1 takes.2

theorem takeInbound_takes {p : PathId} {h : FrameHeader} {st : Stamp} {t : State}
    (enabled : t.paths[p].sup.state ≠ .disabled) (notHeld : t.paths[p].sup.state ≠ .held) :
    takeInbound p h st t = if h.quality = .locked ∧ st.quality = .locked then
      if h.sent ≤ st.time then
        { onSup p (fun u => { u with
            inbound := some (inboundAfter t.paths[p].sup.inbound (st.time - h.sent) t.freeValues) }) t with
          freeValues := t.freeValues + 1 }
      else t
    else onSup p (fun u => { u with inbound := none }) t := by
  rw [takeInbound, if_neg (by rw [Bool.not_eq_true', Bool.not_eq_false, takesFrames_iff]; exact ⟨enabled, notHeld⟩)]
  exact if_congr (by rw [Bool.and_eq_true, beq_iff_eq, beq_iff_eq]) rfl rfl

theorem inboundAfter_none {sample k : Nat} (fits : sample ≤ 4294967295) : (inboundAfter none sample k).toNat = sample := by
  have first : inboundAfter none sample k = BitVec.ofNat 32 sample := if_pos fits
  rw [first, BitVec.toNat_ofNat]
  omega

/-- The estimate moves by one eighth and stays within 32 bits. -/
theorem inboundAfter_some {o : BitVec 32} {sample k : Nat} (fits : sample ≤ 4294967295) :
    ((inboundAfter (some o) sample k).toNat : Int) = o.toNat + ((sample : Int) - o.toNat).tdiv 8 := by
  have moved := bits32_eighth o sample fits
  have small := (bits32 (eighth o.toNat sample)).isLt
  have within : eighth o.toNat sample ≤ Config.maxNs := by
    have value : eighth o.toNat sample = (bits32 (eighth o.toNat sample)).toNat := moved.symm
    rw [value]
    exact Int.ofNat_le.mpr (Nat.le_of_lt_succ small)
  have stays : inboundAfter (some o) sample k = bits32 (eighth o.toNat sample) := if_pos within
  rw [stays, moved]

theorem takeInbound_sampled {p : PathId} {h : FrameHeader} {st : Stamp} {t : State}
    (enabled : t.paths[p].sup.state ≠ .disabled) (notHeld : t.paths[p].sup.state ≠ .held)
    (sentLocked : h.quality = .locked) (cameLocked : st.quality = .locked) (order : h.sent ≤ st.time) :
    ∃ e : BitVec 32, takeInbound p h st t
        = { onSup p (fun u => { u with inbound := some e }) t with freeValues := t.freeValues + 1 }
      ∧ (st.time - h.sent ≤ 4294967295 →
        (t.paths[p].sup.inbound = none → e.toNat = st.time - h.sent)
        ∧ ∀ o, t.paths[p].sup.inbound = some o →
          (e.toNat : Int) = o.toNat + ((st.time - h.sent : Nat) - (o.toNat : Int)).tdiv 8) := by
  refine ⟨inboundAfter t.paths[p].sup.inbound (st.time - h.sent) t.freeValues, ?_, fun fits => ⟨fun none => ?_, fun o old => ?_⟩⟩
  · rw [takeInbound_takes enabled notHeld, if_pos ⟨sentLocked, cameLocked⟩, if_pos order]
  · rw [none]
    exact inboundAfter_none fits
  · rw [old]
    exact inboundAfter_some fits

end Sys2Proof.FramesReceived
end

section
/-! SUPPORT. Control frames: PROBE, ECHO, QUERY and ANSWER (R18, R19, R21, R31, R44, R45). -/

namespace Sys2Proof.ControlFrames

open Machine PathSupervision Commands UnitReports FramesReceived

/-! ## The role clash falls (R31) -/

/-- A frame of the other role clears the role clash of its path (R31). -/
def unclashed (p : PathId) (h : FrameHeader) (t : State) : State :=
  if h.role = t.paths[p].setup.role then t else onSup p (fun x => { x with roleClash := false }) t

theorem clearClash_eq (p : PathId) (h : FrameHeader) (t : State) : clearClash p h.role t = unclashed p h t :=
  if_congr beq_iff_eq rfl rfl

/-- Only the role clash falls. -/
theorem unclashed_path (p : PathId) (h : FrameHeader) (t : State) : ∃ clash,
    (unclashed p h t).paths[p] = { t.paths[p] with sup := { t.paths[p].sup with roleClash := clash } } := by
  rw [unclashed]
  split
  · exact ⟨t.paths[p].sup.roleClash, rfl⟩
  · exact ⟨false, onSup_path ..⟩

theorem unclashed_state (p : PathId) (h : FrameHeader) (t : State) :
    (unclashed p h t).paths[p].sup.state = t.paths[p].sup.state := by
  obtain ⟨clash, path⟩ := unclashed_path p h t
  rw [path]

theorem unclashed_setup (p : PathId) (h : FrameHeader) (t : State) :
    (unclashed p h t).paths[p].setup = t.paths[p].setup := by
  obtain ⟨clash, path⟩ := unclashed_path p h t
  rw [path]

theorem unclashed_lastQuery (p : PathId) (h : FrameHeader) (t : State) :
    (unclashed p h t).paths[p].sup.lastQuery = t.paths[p].sup.lastQuery := by
  obtain ⟨clash, path⟩ := unclashed_path p h t
  rw [path]

theorem unclashed_probeList (p : PathId) (h : FrameHeader) (t : State) :
    (unclashed p h t).paths[p].sup.probeList = t.paths[p].sup.probeList := by
  obtain ⟨clash, path⟩ := unclashed_path p h t
  rw [path]

theorem unclashed_rest (p : PathId) (h : FrameHeader) (t : State) : (unclashed p h t).ranking = t.ranking
    ∧ (unclashed p h t).time = t.time ∧ (unclashed p h t).sel = t.sel := by
  rw [unclashed]
  split
  · exact ⟨rfl, rfl, rfl⟩
  · exact ⟨rfl, rfl, rfl⟩

/-! ## PROBE, QUERY and ANSWER (R18, R44, R45) -/

section
variable {p : PathId} {h : FrameHeader} {bs : List Byte} {st : Stamp} {t : State}

theorem handleControl_probe (kind : h.kind = .probe) : handleControl p h bs st t
    = insertFrame p (.echo (BitVec.ofNat 8 h.sequence.toNat) ⟨h.sent, h.quality⟩ st) (unclashed p h t) := by
  simp only [handleControl, kind, clearClash_eq]

/-- The bits of an ANSWER are those of the state the QUERY finds (R44). -/
theorem answerBits_eq (p : PathId) (h : FrameHeader) (t : State) : answerBits (unclashed p h t) p = BitVec.ofNat 32 (
    (if t.paths[p].sup.state = .fading then 1 else 0) + (if t.ranking.fallback = true then 2 else 0)
    + (if t.time.state = .holdover ∨ t.time.state = .free then 4 else 0)
    + (if t.sel.rainFlag = true ∨ t.sel.rainInput = true then 8 else 0)) := by
  obtain ⟨ranking, time, sel⟩ := unclashed_rest p h t
  have weight : ∀ b : Bool, bit b = if b = true then 1 else 0 := fun _ => rfl
  rw [answerBits, rainAlert, unclashed_state, ranking, time, sel]
  simp only [weight, mul_ite, mul_one, mul_zero, Bool.or_eq_true, beq_iff_eq]

theorem handleControl_query (kind : h.kind = .query) : handleControl p h bs st t
    = insertFrame p (.answer (bs.getD 0 0) (t.paths[p].setup.statusBytes ||| BitVec.ofNat 32 (
        (if t.paths[p].sup.state = .fading then 1 else 0) + (if t.ranking.fallback = true then 2 else 0)
        + (if t.time.state = .holdover ∨ t.time.state = .free then 4 else 0)
        + (if t.sel.rainFlag = true ∨ t.sel.rainInput = true then 8 else 0)))) (unclashed p h t) := by
  simp only [handleControl, kind, clearClash_eq, takeQuery, byteOf, answerBits_eq, unclashed_setup]

theorem handleControl_answer (kind : h.kind = .answer) : handleControl p h bs st t
    = if bs.getD 0 0 = t.paths[p].sup.lastQuery ∧ t.paths[p].sup.lastQuery ≠ 0 then
        onSup p (fun x => { x with farStatus := some (BitVec.ofNat 32 (bytesAt bs 4 4)) }) (unclashed p h t)
      else unclashed p h t := by
  simp only [handleControl, kind, clearClash_eq, takeAnswer, byteOf, unclashed_lastQuery]
  exact if_congr (by rw [Bool.and_eq_true, Bool.not_eq_true', beq_iff_eq, beq_eq_false_iff_ne]) rfl rfl

/-! ## ECHO (R19, R21, R22) -/

theorem handleControl_echo (kind : h.kind = .echo) : handleControl p h bs st t
    = takeEcho p (bs.getD 0 0) (bytesAt bs 4 4 * 1000000000 + bytesAt bs 8 4)
        ⟨bytesAt bs 12 4 * 1000000000 + bytesAt bs 16 4, Quality.ofCode (byteAt bs 2)⟩
        (bytesAt bs 8 4 ≤ 999999999 && bytesAt bs 16 4 ≤ 999999999) h.sent st.time (unclashed p h t) := by
  simp only [handleControl, kind, clearClash_eq]
  rfl

/-- The ECHO answers entry `e` of the probe list (R19). -/
def answers (number : Byte) (sent : Time) (e : ProbeEntry) : Bool := e.number == number && e.sent.time == sent

theorem answers_iff (number : Byte) (sent : Time) (e : ProbeEntry) :
    answers number sent e = true ↔ e.number = number ∧ e.sent.time = sent := by
  rw [answers, Bool.and_eq_true, beq_iff_eq, beq_iff_eq]

theorem takeEcho_missed {number : Byte} {sent : Time} {far : Stamp} {good : Bool} {echoSent came : Time} {c : State}
    (missed : ∀ e ∈ c.paths[p].sup.probeList, answers number sent e = false) :
    takeEcho p number sent far good echoSent came c = c := by
  have none : c.paths[p].sup.probeList.find? (answers number sent) = .none :=
    List.find?_eq_none.mpr fun e listed => by rw [missed e listed]; exact Bool.false_ne_true
  unfold takeEcho
  change (match c.paths[p].sup.probeList.find? (answers number sent) with | some e => _ | .none => c) = c
  rw [none]

theorem takeEcho_refused {number : Byte} {sent : Time} {far : Stamp} {echoSent came : Time} {c : State} :
    takeEcho p number sent far false echoSent came c = c := by
  rw [takeEcho]
  dsimp only
  split
  next => exact if_neg Bool.false_ne_true
  next => rfl

theorem takeWhile_of_split {older newer : List ProbeEntry} {e : ProbeEntry} {number : Byte} {sent : Time}
    (missed : ∀ x ∈ older, answers number sent x = false) (hit : answers number sent e = true) :
    (older ++ e :: newer).takeWhile (fun x => !answers number sent x) = older := by
  rw [List.takeWhile_append_of_pos (fun x listed => by rw [missed x listed]; rfl),
    List.takeWhile_cons_of_neg (by rw [hit]; decide), List.append_nil]

theorem takeEcho_hit {number : Byte} {sent : Time} {far : Stamp} {echoSent came : Time} {c : State}
    {older newer : List ProbeEntry} {e : ProbeEntry} (list : c.paths[p].sup.probeList = older ++ e :: newer)
    (missed : ∀ x ∈ older, answers number sent x = false) (hit : answers number sent e = true) :
    takeEcho p number sent far true echoSent came c = matchProbe p e far echoSent came older.length c := by
  have found : c.paths[p].sup.probeList.find? (answers number sent) = some e :=
    find_of_split _ _ older newer e list hit missed
  have before : (c.paths[p].sup.probeList.takeWhile (fun x => !answers number sent x)).length = older.length := by
    rw [list, takeWhile_of_split missed hit]
  unfold takeEcho
  change (match c.paths[p].sup.probeList.find? (answers number sent) with
    | some e => if true = true then matchProbe p e far echoSent came
        (c.paths[p].sup.probeList.takeWhile (fun x => !answers number sent x)).length c else c
    | .none => c) = _
  rw [found, before]
  exact if_pos rfl

/-- As many probes are lost as the list says, whatever they are. -/
theorem foldl_loseOldest (p : PathId) (older : List ProbeEntry) (c : State) :
    (List.range older.length).foldl (fun s _ => loseOldest p s) c = older.foldl (fun x _ => probeJudged p false x) c := by
  have const : ∀ (l : List Nat) (older : List ProbeEntry) (c : State), l.length = older.length →
      l.foldl (fun s _ => loseOldest p s) c = older.foldl (fun x _ => probeJudged p false x) c := by
    intro l older
    induction older generalizing l with
    | nil =>
      intro c empty
      rw [List.length_eq_zero_iff.mp empty]
      rfl
    | cons e older ih =>
      intro c long
      obtain ⟨n, l, rfl⟩ := List.exists_cons_of_length_eq_add_one long
      rw [List.foldl_cons, List.foldl_cons, loseOldest_eq]
      exact ih l _ (Nat.succ.inj long)
  exact const _ older c List.length_range

theorem latencySample_eq (e far : Stamp) (echoSent came : Time) : latencySample e far echoSent came
    = if e.quality = .locked ∧ far.quality = .locked ∧ e.time ≤ far.time then
        (min (far.time - e.time) 4294967295, .oneWay)
      else (min (((came : Int) - e.time - (echoSent - far.time)).tdiv 2).toNat 4294967295, .halfRtt) := by
  have order : (0 : Int) ≤ (far.time : Int) - e.time ↔ e.time ≤ far.time :=
    Int.sub_nonneg.trans Int.ofNat_le
  have direct : ((far.time : Int) - e.time).toNat = far.time - e.time := Int.toNat_sub far.time e.time
  simp only [latencySample, clampNs, order, direct]
  rfl

/-- The states that a matched ECHO takes to service (R9, R16, R19). -/
theorem echoEnters_iff (p : PathId) (u : Supervisor) : echoEnters p u = true
    ↔ (p ≠ 4 ∧ u.state = .training ∧ u.contract ≠ 0 ∧ u.target = none) ∨ (p = 4 ∧ u.state = .down) := by
  by_cases ground : p = 4
  · rw [echoEnters, if_neg (mt (isAir_iff p).mp (not_not.mpr ground))]
    simp [ground]
  · rw [echoEnters, if_pos ((isAir_iff p).mpr ground)]
    simp [ground, and_assoc]

theorem matchProbe_eq (p : PathId) (e : ProbeEntry) (far : Stamp) (echoSent came : Time) (older : List ProbeEntry) (c w : State)
    (taken : w = takeSample p (latencySample e.sent far echoSent came)
      (probeJudged p true (older.foldl (fun x _ => probeJudged p false x) c))) :
    matchProbe p e far echoSent came older.length c
      = if (p ≠ 4 ∧ w.paths[p].sup.state = .training ∧ w.paths[p].sup.contract ≠ 0 ∧ w.paths[p].sup.target = none)
          ∨ (p = 4 ∧ w.paths[p].sup.state = .down) then serviceFrom p w else w := by
  have moved : matchProbe p e far echoSent came older.length c = if echoEnters p w.paths[p].sup then enterService p w else w := by
    rw [taken, ← foldl_loseOldest, ← matched_eq]
    rfl
  rw [moved]
  by_cases enters : (p ≠ 4 ∧ w.paths[p].sup.state = .training ∧ w.paths[p].sup.contract ≠ 0 ∧ w.paths[p].sup.target = none)
      ∨ (p = 4 ∧ w.paths[p].sup.state = .down)
  · rw [if_pos enters, if_pos ((echoEnters_iff p _).mpr enters)]
    refine enterService_eq p w ?_
    rcases enters with ⟨-, training, -⟩ | ⟨-, down⟩
    · exact .inl training
    · exact .inr (.inr down)
  · rw [if_neg enters, if_neg (mt (echoEnters_iff p _).mp enters)]

end

end Sys2Proof.ControlFrames
end

section
/-! SUPPORT. OFFERs and GRANTs received (R28 to R37), and the frames of a unit as a whole. -/

namespace Sys2Proof.ContractFrames

open Machine PathSupervision Commands UnitReports FramesReceived ControlFrames

/-! ## The role check (R31) -/

theorem clashes_iff (own header : Role) (grant : Bool) :
    clashes own header grant = true ↔ header = own ∨ (grant = true ∧ own = .lead) := by
  rw [clashes, Bool.or_eq_true, Bool.and_eq_true, beq_iff_eq, beq_iff_eq]

section
variable {p : PathId} {header : Role} {grant : Bool} {k : State → State} {t : State}

theorem roleCheck_clashes (clash : header = t.paths[p].setup.role ∨ (grant = true ∧ t.paths[p].setup.role = .lead)) :
    roleCheck p header grant k t = onSup p (fun x => { x with roleClash := true })
      (if t.paths[p].sup.roleClash = true then t else raiseCause 17 t) :=
  if_pos ((clashes_iff ..).mpr clash)

theorem roleCheck_clears (agrees : ¬ (header = t.paths[p].setup.role ∨ (grant = true ∧ t.paths[p].setup.role = .lead)))
    (was : t.paths[p].sup.roleClash = true) :
    roleCheck p header grant k t = onSup p (fun x => { x with roleClash := false }) t :=
  (if_neg (mt (clashes_iff ..).mp agrees)).trans (if_pos was)

theorem roleCheck_passes (agrees : ¬ (header = t.paths[p].setup.role ∨ (grant = true ∧ t.paths[p].setup.role = .lead)))
    (was : t.paths[p].sup.roleClash = false) : roleCheck p header grant k t = k t :=
  (if_neg (mt (clashes_iff ..).mp agrees)).trans (if_neg (by rw [was]; exact Bool.false_ne_true))

end

/-! ## Frames placed and targets aimed leave the path's state -/

theorem answered_state (p : PathId) (u : Supervisor) (number : Byte) (mask : ProfileMask) (g : Nat) (s : State) :
    (answered p u number mask g s).paths[p].sup.state = s.paths[p].sup.state := by
  rw [answered]
  split
  · rw [grantedAgain, insertFrame, onPort_sup, onSup_self]
  · rw [granted, insertFrame, onPort_sup, onSup_self]

theorem aimed_state (p : PathId) (k : Nat) (s : State) : (aimed p k s).paths[p].sup.state = s.paths[p].sup.state := by
  rw [aimed, onPath_self]

theorem decided_state (p : PathId) (k : Nat) (s : State) : (decided p k s).paths[p].sup.state = s.paths[p].sup.state := by
  rw [decided, aimed_state, onSup_self]

/-! ## An OFFER at a LEAD (R29, R33, R34, Table 2-3) -/

/-- The profile aimed at in TRAINING: the target, else the contract profile. -/
theorem aimedAt_iff (u : Supervisor) (g : Nat) :
    (some g == (match u.target with | some k => some k | none => some u.contract)) = true ↔ u.target.getD u.contract = g := by
  cases u.target with
  | none => rw [beq_iff_eq, Option.some_inj]; exact eq_comm
  | some k => rw [beq_iff_eq, Option.some_inj]; exact eq_comm

section
variable {p : PathId} {was : Supervisor} {number : Byte} {mask : ProfileMask} {g : Nat} {v : State}

theorem leadTakesOffer_eq (top : HighestOf (v.paths[p].sup.ownMask &&& mask) g) : leadTakesOffer p was number mask v
    = if g = 0 then mismatched p (answered p was number mask g v)
      else match v.paths[p].sup.state with
        | .down => enterTraining p (decided p g (answered p was number mask g v))
        | .training => if v.paths[p].sup.target.getD v.paths[p].sup.contract = g then answered p was number mask g v
          else decided p g (answered p was number mask g v)
        | .up | .fading => if g = v.paths[p].sup.contract then answered p was number mask g v
          else answered p was number mask g (onSup p (fun x => { x with pending := true }) (enterRetune p (some g) v))
        | .retune => if v.paths[p].sup.target = some g then answered p was number mask g v
          else decided p g (answered p was number mask g v)
        | .disabled | .held => v := by
  have same : common v.paths[p].sup.ownMask mask = g := ((highest_iff _ _).mp top).symm
  rw [leadTakesOffer, same]
  simp only [answerOffer_eq, takeMismatch_eq, decideProfile_eq]
  refine if_congr Iff.rfl rfl ?_
  cases state : v.paths[p].sup.state with
  | disabled => rfl
  | down => rfl
  | training => exact if_congr (aimedAt_iff ..) rfl rfl
  | up => rfl
  | fading => rfl
  | retune => exact if_congr beq_iff_eq rfl rfl
  | held => rfl

variable (top : HighestOf (v.paths[p].sup.ownMask &&& mask) g)
include top

theorem leadTakesOffer_none (none : g = 0) :
    leadTakesOffer p was number mask v = mismatched p (answered p was number mask g v) :=
  (leadTakesOffer_eq top).trans (if_pos none)

theorem leadTakesOffer_down (some : g ≠ 0) (state : v.paths[p].sup.state = .down) :
    leadTakesOffer p was number mask v = trainingFrom p (decided p g (answered p was number mask g v)) := by
  rw [leadTakesOffer_eq top, if_neg some, state]
  refine enterTraining_eq p _ ?_
  rw [decided_state, answered_state, state]
  decide

theorem leadTakesOffer_training (some : g ≠ 0) (state : v.paths[p].sup.state = .training) :
    leadTakesOffer p was number mask v = if v.paths[p].sup.target.getD v.paths[p].sup.contract = g then
      answered p was number mask g v else decided p g (answered p was number mask g v) := by
  rw [leadTakesOffer_eq top, if_neg some, state]

theorem leadTakesOffer_retune (some : g ≠ 0) (state : v.paths[p].sup.state = .retune) :
    leadTakesOffer p was number mask v = if v.paths[p].sup.target = .some g then
      answered p was number mask g v else decided p g (answered p was number mask g v) := by
  rw [leadTakesOffer_eq top, if_neg some, state]

theorem leadTakesOffer_service (some : g ≠ 0) (state : v.paths[p].sup.state = .up ∨ v.paths[p].sup.state = .fading) :
    leadTakesOffer p was number mask v = if v.paths[p].sup.contract = g then answered p was number mask g v
      else answered p was number mask g (onSup p (fun x => { x with pending := true }) (retuneFrom p (.some g) v)) := by
  have leaves : v.paths[p].sup.state ≠ .retune := by rcases state with h | h <;> rw [h] <;> decide
  rw [leadTakesOffer_eq top, if_neg some, ← enterRetune_eq p _ v leaves]
  rcases state with h | h
  · rw [h]
    exact if_congr eq_comm rfl rfl
  · rw [h]
    exact if_congr eq_comm rfl rfl

end

/-! ## A GRANT at a FOLLOW (R35, R36, Table 2-4) -/

section
variable {p : PathId} {k : Nat} {w : State}

theorem followGrant_down (state : w.paths[p].sup.state = .down) : followGrant p k w = trainingFrom p (aimed p k w) := by
  simp only [followGrant, state, aimAt_eq]
  refine enterTraining_eq p _ ?_
  rw [aimed_state, state]
  decide

theorem followGrant_training (state : w.paths[p].sup.state = .training) :
    followGrant p k w = if w.paths[p].sup.target.getD w.paths[p].sup.contract = k then w else aimed p k w := by
  simp only [followGrant, state, aimAt_eq]
  exact if_congr (aimedAt_iff ..) rfl rfl

theorem followGrant_retune (state : w.paths[p].sup.state = .retune) :
    followGrant p k w = if w.paths[p].sup.target = some k then w else aimed p k w := by
  simp only [followGrant, state, aimAt_eq]
  exact if_congr beq_iff_eq rfl rfl

theorem followGrant_service (state : w.paths[p].sup.state = .up ∨ w.paths[p].sup.state = .fading) :
    followGrant p k w = if w.paths[p].sup.contract = k then w else retuneFrom p (some k) w := by
  have leaves : w.paths[p].sup.state ≠ .retune := by rcases state with h | h <;> rw [h] <;> decide
  rw [← enterRetune_eq p _ w leaves]
  rcases state with h | h
  · simp only [followGrant, h]
    exact if_congr eq_comm rfl rfl
  · simp only [followGrant, h]
    exact if_congr eq_comm rfl rfl

variable {number offer : Byte} {none0 : Bool} {t : State}

theorem takeGrant_discards (bad : 6 < k ∨ (offer = 0 ∧ t.paths[p].sup.pending = true)
    ∨ (offer ≠ 0 ∧ (offer ≠ t.paths[p].sup.lastOfferSent ∨ t.paths[p].sup.lastOffered = none))) :
    takeGrant p number offer k none0 t = discardGrant p t := by
  rw [takeGrant]
  by_cases beyond : 6 < k
  · exact if_pos beyond
  · rw [if_neg beyond]
    by_cases zero : offer = 0
    · have pending : t.paths[p].sup.pending = true := by
        rcases bad with h | ⟨-, h⟩ | ⟨h, -⟩
        · exact absurd h beyond
        · exact h
        · exact absurd zero h
      rw [if_pos (beq_iff_eq.mpr zero), if_pos pending]
    · rw [if_neg (mt beq_iff_eq.mp zero)]
      refine if_pos ?_
      rw [Bool.or_eq_true, Bool.not_eq_true', beq_eq_false_iff_ne, Option.isNone_iff_eq_none]
      rcases bad with h | ⟨h, -⟩ | ⟨-, h⟩
      · exact absurd h beyond
      · exact absurd h zero
      · exact h

theorem takeGrant_applies (low : k ≤ 6) (asked : (offer = 0 ∧ t.paths[p].sup.pending = false)
    ∨ (offer ≠ 0 ∧ offer = t.paths[p].sup.lastOfferSent ∧ t.paths[p].sup.lastOffered ≠ none)) :
    takeGrant p number offer k none0 t = applyGrant p number offer k none0 t := by
  rw [takeGrant]
  rw [if_neg (Nat.not_lt.mpr low)]
  rcases asked with ⟨zero, calm⟩ | ⟨some, same, sent⟩
  · rw [if_pos (beq_iff_eq.mpr zero), if_neg (by rw [calm]; exact Bool.false_ne_true)]
  · rw [if_neg (mt beq_iff_eq.mp some)]
    refine if_neg ?_
    rw [Bool.or_eq_true, Bool.not_eq_true', beq_eq_false_iff_ne, Option.isNone_iff_eq_none]
    exact not_or.mpr ⟨not_not.mpr same, sent⟩

/-- A FOLLOW stores the GRANT (R36). -/
def grantStored (p : PathId) (number offer : Byte) (k : Nat) (none0 : Bool) (t : State) : State :=
  onSup p (fun x => { x with lastGrant := number, lastGranted := k, grantAnswered := offer, grantMismatch := none0 }) t

/-- A GRANT of a profile clears pending and mismatch (R36, R37). -/
def grantCleared (p : PathId) (v : State) : State := onSup p (fun x => { x with pending := false, mismatch := false }) v

theorem applyGrant_none (none : k = 0 ∨ none0 = true) :
    applyGrant p number offer k none0 t = mismatched p (grantStored p number offer k none0 t) := by
  rw [← takeMismatch_eq]
  exact if_pos (by rw [Bool.or_eq_true, decide_eq_true_iff]; exact none)

theorem applyGrant_some (least : 1 ≤ k) (some : none0 = false) : applyGrant p number offer k none0 t
    = if t.paths[p].sup.ownMask.getLsbD (k - 1) = true then
        followGrant p k (grantCleared p (grantStored p number offer k none0 t))
      else offered p (grantCleared p (grantStored p number offer k none0 t)) := by
  have test : ¬ (decide (k = 0) || none0) = true := by
    rw [Bool.or_eq_true, decide_eq_true_iff, some]
    exact not_or.mpr ⟨Nat.one_le_iff_ne_zero.mp least, Bool.false_ne_true⟩
  have inside : ∀ m : ProfileMask, inMask m k = true ↔ m.getLsbD (k - 1) = true := by
    intro m
    rw [inMask, Bool.and_eq_true, decide_eq_true_iff]
    exact and_iff_right least
  have mask : (grantStored p number offer k none0 t).paths[p].sup.ownMask = t.paths[p].sup.ownMask := by
    rw [grantStored, onSup_self]
  rw [← sendOffer_eq, ← mask]
  exact (if_neg test).trans (if_congr (inside _) rfl rfl)

theorem granted_path (number offer : Byte) (k : Nat) (none0 : Bool) (t : State) :
    (grantCleared p (grantStored p number offer k none0 t)).paths[p] = { t.paths[p] with sup := { t.paths[p].sup with
      lastGrant := number, lastGranted := k, grantAnswered := offer, grantMismatch := none0, pending := false
      mismatch := false } } := by
  rw [grantCleared, onSup_path, grantStored, onSup_path]

end

/-! ## OFFERs and GRANTs handed to the supervisor (R15, R31) -/

section
variable {p : PathId} {h : FrameHeader} {bs : List Byte} {st : Stamp} {t : State}

theorem handleControl_offer (kind : h.kind = .offer) (air : p ≠ 4) : handleControl p h bs st t
    = roleCheck p h.role false (takeOffer p (bs.getD 0 0) ((bs.getD 1 0).extractLsb' 0 6) (byteAt bs 2)) t := by
  simp only [handleControl, kind]
  exact if_pos ((isAir_iff p).mpr air)

theorem handleControl_grant (kind : h.kind = .grant) (air : p ≠ 4) : handleControl p h bs st t
    = roleCheck p h.role true
        (takeGrant p (bs.getD 0 0) (bs.getD 1 0) (byteAt bs 2) ((bs.getD 3 0).getLsbD 0)) t := by
  simp only [handleControl, kind]
  exact if_pos ((isAir_iff p).mpr air)

theorem handleControl_contract_ground (kind : h.kind = .offer ∨ h.kind = .grant) (ground : p = 4) :
    handleControl p h bs st t = t := by
  have notAir : ¬ isAir p = true := mt (isAir_iff p).mp (not_not.mpr ground)
  rcases kind with offer | grant
  · simp only [handleControl, offer]
    exact if_neg notAir
  · simp only [handleControl, grant]
    exact if_neg notAir

/-- An OFFER or GRANT of an air path goes through the role check. -/
theorem handleControl_contract (kind : h.kind = .offer ∨ h.kind = .grant) (air : p ≠ 4) :
    ∃ (grant : Bool) (k : State → State), (grant = true ↔ h.kind = .grant) ∧ handleControl p h bs st t = roleCheck p h.role grant k t := by
  rcases kind with offer | grant
  · exact ⟨false, _, by rw [offer]; decide, handleControl_offer offer air⟩
  · exact ⟨true, _, by rw [grant]; decide, handleControl_grant grant air⟩

theorem takeOffer_follow {number : Byte} {mask : ProfileMask} {contract : Nat} (follow : t.paths[p].setup.role = .follow) :
    takeOffer p number mask contract t = offered p (onSup p (fun x => { x with
      farMask := some mask, farContract := some (if contract ≤ 6 then contract else 0), lastOfferReceived := number }) t) := by
  rw [← sendOffer_eq, takeOffer, follow]

theorem takeOffer_lead {number : Byte} {mask : ProfileMask} {contract : Nat} (lead : t.paths[p].setup.role = .lead) :
    takeOffer p number mask contract t = leadTakesOffer p t.paths[p].sup number mask (onSup p (fun x => { x with
      farMask := some mask, farContract := some (if contract ≤ 6 then contract else 0), lastOfferReceived := number }) t) := by
  rw [takeOffer, lead]

end

/-! ## Each kind of frame as a whole -/

section
variable {p : PathId} {h : FrameHeader} {bs : List Byte} {st : Stamp} {t : State}

theorem echo_handled (kind : h.kind = .echo) {hit : ProbeEntry → Prop} {far : Time}
    (hits : ∀ e, hit e ↔ e.number = bs.getD 0 0 ∧ e.sent.time = bytesAt bs 4 4 * 1000000000 + bytesAt bs 8 4)
    (same : far = bytesAt bs 12 4 * 1000000000 + bytesAt bs 16 4) :
    ((∀ e ∈ t.paths[p].sup.probeList, ¬ hit e) → handleControl p h bs st t = unclashed p h t)
    ∧ ((999999999 < bytesAt bs 8 4 ∨ 999999999 < bytesAt bs 16 4) → handleControl p h bs st t = unclashed p h t)
    ∧ ∀ (older newer : List ProbeEntry) (e : ProbeEntry) (sample : Nat × LatencyKind) (w : State) (y : Supervisor),
      bytesAt bs 8 4 ≤ 999999999 → bytesAt bs 16 4 ≤ 999999999 → t.paths[p].sup.probeList = older ++ e :: newer →
      (∀ x ∈ older, ¬ hit x) → hit e →
      sample = (if e.sent.quality = .locked ∧ Quality.ofCode (byteAt bs 2) = .locked ∧ e.sent.time ≤ far then
          (min (far - e.sent.time) 4294967295, .oneWay)
        else (min (((st.time : Int) - e.sent.time - (h.sent - far)).tdiv 2).toNat 4294967295, .halfRtt)) →
      w = takeSample p sample
        (probeJudged p true (older.foldl (fun x _ => probeJudged p false x) (unclashed p h t))) → y = w.paths[p].sup →
      handleControl p h bs st t =
        if (p ≠ 4 ∧ y.state = .training ∧ y.contract ≠ 0 ∧ y.target = none) ∨ (p = 4 ∧ y.state = .down) then serviceFrom p w
        else w := by
  subst same
  have test : ∀ e, answers (bs.getD 0 0) (bytesAt bs 4 4 * 1000000000 + bytesAt bs 8 4) e = true ↔ hit e :=
    fun e => (answers_iff ..).trans (hits e).symm
  have miss : ∀ e, ¬ hit e → answers (bs.getD 0 0) (bytesAt bs 4 4 * 1000000000 + bytesAt bs 8 4) e = false :=
    fun e other => Bool.eq_false_iff.mpr (mt (test e).mp other)
  rw [handleControl_echo kind]
  refine ⟨fun missed => ?_, fun wrong => ?_, ?_⟩
  · refine takeEcho_missed fun e listed => ?_
    rw [unclashed_probeList] at listed
    exact miss e (missed e listed)
  · have bad : (decide (bytesAt bs 8 4 ≤ 999999999) && decide (bytesAt bs 16 4 ≤ 999999999)) = false := by
      rw [← Bool.not_eq_true, Bool.and_eq_true, decide_eq_true_iff, decide_eq_true_iff]
      omega
    rw [bad]
    exact takeEcho_refused
  · rintro older newer e sample w y sentNs farNs list before found taken last rfl
    have good : (decide (bytesAt bs 8 4 ≤ 999999999) && decide (bytesAt bs 16 4 ≤ 999999999)) = true := by
      rw [Bool.and_eq_true, decide_eq_true_iff, decide_eq_true_iff]
      exact ⟨sentNs, farNs⟩
    rw [good, takeEcho_hit ((unclashed_probeList p h t).trans list) (fun x listed => miss x (before x listed)) ((test e).mpr found)]
    refine matchProbe_eq p e _ _ _ older _ w ?_
    rw [last, taken, latencySample_eq]

theorem contract_checked (kind : h.kind = .offer ∨ h.kind = .grant) :
    (p = 4 → handleControl p h bs st t = t)
    ∧ (p ≠ 4 → (h.role = t.paths[p].setup.role ∨ (h.kind = .grant ∧ t.paths[p].setup.role = .lead)) →
      handleControl p h bs st t
        = onSup p (fun x => { x with roleClash := true }) (if t.paths[p].sup.roleClash = true then t else raiseCause 17 t))
    ∧ (p ≠ 4 → ¬ (h.role = t.paths[p].setup.role ∨ (h.kind = .grant ∧ t.paths[p].setup.role = .lead)) →
      t.paths[p].sup.roleClash = true → handleControl p h bs st t = onSup p (fun x => { x with roleClash := false }) t) := by
  refine ⟨handleControl_contract_ground kind, fun air clash => ?_, fun air agrees was => ?_⟩
  · obtain ⟨grant, k, is, checked⟩ := handleControl_contract (bs := bs) (st := st) (t := t) kind air
    rw [checked]
    exact roleCheck_clashes (by rwa [is])
  · obtain ⟨grant, k, is, checked⟩ := handleControl_contract (bs := bs) (st := st) (t := t) kind air
    rw [checked]
    exact roleCheck_clears (by rwa [is]) was

/-- An OFFER stored (R32). -/
def offerStored (p : PathId) (bs : List Byte) (t : State) : State := onSup p (fun x => { x with
  farMask := some ((bs.getD 1 0).extractLsb' 0 6), farContract := some (if byteAt bs 2 ≤ 6 then byteAt bs 2 else 0)
  lastOfferReceived := bs.getD 0 0 }) t

theorem offerStored_path (p : PathId) (bs : List Byte) (t : State) :
    (offerStored p bs t).paths[p] = { t.paths[p] with sup := { t.paths[p].sup with
      farMask := some ((bs.getD 1 0).extractLsb' 0 6), farContract := some (if byteAt bs 2 ≤ 6 then byteAt bs 2 else 0)
      lastOfferReceived := bs.getD 0 0 } } := onSup_path ..

theorem offer_handled (kind : h.kind = .offer) (air : p ≠ 4) (other : h.role ≠ t.paths[p].setup.role)
    (calm : t.paths[p].sup.roleClash = false) {g : Nat}
    (top : HighestOf (t.paths[p].sup.ownMask &&& (bs.getD 1 0).extractLsb' 0 6) g) :
    let u := t.paths[p].sup
    let v := offerStored p bs t
    let answer := answered p u (bs.getD 0 0) ((bs.getD 1 0).extractLsb' 0 6) g
    (t.paths[p].setup.role = .follow → handleControl p h bs st t = offered p v)
    ∧ (t.paths[p].setup.role = .lead → g = 0 → handleControl p h bs st t = mismatched p (answer v))
    ∧ (t.paths[p].setup.role = .lead → g ≠ 0 →
      (u.state = .down → handleControl p h bs st t = trainingFrom p (decided p g (answer v)))
      ∧ (u.state = .training → handleControl p h bs st t
        = if u.target.getD u.contract = g then answer v else decided p g (answer v))
      ∧ (u.state = .retune → handleControl p h bs st t
        = if u.target = some g then answer v else decided p g (answer v))
      ∧ ((u.state = .up ∨ u.state = .fading) → handleControl p h bs st t
        = if u.contract = g then answer v
          else answer (onSup p (fun x => { x with pending := true }) (retuneFrom p (some g) v)))) := by
  intro u v answer
  have taken : handleControl p h bs st t = takeOffer p (bs.getD 0 0) ((bs.getD 1 0).extractLsb' 0 6) (byteAt bs 2) t :=
    (handleControl_offer kind air).trans (roleCheck_passes
      (fun clash => clash.elim other fun grant => Bool.false_ne_true grant.1) calm)
  have path : v.paths[p] = _ := offerStored_path p bs t
  have here : HighestOf (v.paths[p].sup.ownMask &&& (bs.getD 1 0).extractLsb' 0 6) g := by rw [path]; exact top
  have state : v.paths[p].sup.state = u.state := by rw [path]
  have target : v.paths[p].sup.target = u.target := by rw [path]
  have contract : v.paths[p].sup.contract = u.contract := by rw [path]
  refine ⟨fun follow => taken.trans (takeOffer_follow follow), fun lead none => ?_, fun lead some => ⟨fun down => ?_,
    fun training => ?_, fun retune => ?_, fun serves => ?_⟩⟩
  · exact taken.trans ((takeOffer_lead lead).trans (leadTakesOffer_none here none))
  · exact taken.trans ((takeOffer_lead lead).trans (leadTakesOffer_down here some (state.trans down)))
  · rw [← target, ← contract]
    exact taken.trans ((takeOffer_lead lead).trans (leadTakesOffer_training here some (state.trans training)))
  · rw [← target]
    exact taken.trans ((takeOffer_lead lead).trans (leadTakesOffer_retune here some (state.trans retune)))
  · rw [← contract]
    exact taken.trans ((takeOffer_lead lead).trans (leadTakesOffer_service here some (state ▸ serves)))

theorem grant_handled (kind : h.kind = .grant) (air : p ≠ 4) (lead : h.role = .lead) (follow : t.paths[p].setup.role = .follow)
    (calm : t.paths[p].sup.roleClash = false) :
    let u := t.paths[p].sup
    let number := bs.getD 0 0
    let offer := bs.getD 1 0
    let k := byteAt bs 2
    let none0 := (bs.getD 3 0).getLsbD 0
    let v := grantStored p number offer k none0 t
    let w := grantCleared p v
    ((6 < k ∨ (offer = 0 ∧ u.pending = true) ∨ (offer ≠ 0 ∧ (offer ≠ u.lastOfferSent ∨ u.lastOffered = none))) →
      handleControl p h bs st t = onSup p (fun x => { x with discardedGrants := satInc x.discardedGrants }) t)
    ∧ (k ≤ 6 → ((offer = 0 ∧ u.pending = false) ∨ (offer ≠ 0 ∧ offer = u.lastOfferSent ∧ u.lastOffered ≠ none)) →
      ((k = 0 ∨ none0 = true) → handleControl p h bs st t = mismatched p v)
      ∧ (1 ≤ k → none0 = false →
        (u.ownMask.getLsbD (k - 1) = false → handleControl p h bs st t = offered p w)
        ∧ (u.ownMask.getLsbD (k - 1) = true →
          (u.state = .down → handleControl p h bs st t = trainingFrom p (aimed p k w))
          ∧ (u.state = .training → handleControl p h bs st t
            = if u.target.getD u.contract = k then w else aimed p k w)
          ∧ (u.state = .retune → handleControl p h bs st t = if u.target = some k then w else aimed p k w)
          ∧ ((u.state = .up ∨ u.state = .fading) → handleControl p h bs st t
            = if u.contract = k then w else retuneFrom p (some k) w)))) := by
  intro u number offer k none0 v w
  have agrees : ¬ (h.role = t.paths[p].setup.role ∨ (true = true ∧ t.paths[p].setup.role = .lead)) := by
    rw [lead, follow]
    decide
  have taken : handleControl p h bs st t = takeGrant p number offer k none0 t :=
    (handleControl_grant kind air).trans (roleCheck_passes agrees calm)
  have path : w.paths[p] = _ := granted_path number offer k none0 t
  have state : w.paths[p].sup.state = u.state := by rw [path]
  have target : w.paths[p].sup.target = u.target := by rw [path]
  have contract : w.paths[p].sup.contract = u.contract := by rw [path]
  refine ⟨fun bad => taken.trans (takeGrant_discards bad), fun low asked => ⟨fun none => ?_, fun least some =>
    ⟨fun outside => ?_, fun inside => ?_⟩⟩⟩
  · exact taken.trans ((takeGrant_applies low asked).trans (applyGrant_none none))
  · exact taken.trans ((takeGrant_applies low asked).trans ((applyGrant_some least some).trans
      (if_neg (by rw [outside]; exact Bool.false_ne_true))))
  · have follows : handleControl p h bs st t = followGrant p k w :=
      taken.trans ((takeGrant_applies low asked).trans ((applyGrant_some least some).trans (if_pos inside)))
    rw [follows, ← target, ← contract, ← state]
    exact ⟨followGrant_down, followGrant_training, followGrant_retune, followGrant_service⟩

end

/-- Settles O46: a case per length, kind of frame, role and state of the path. -/
theorem framesFromTheUnit : Obligations.FramesFromTheUnit := by
  refine ⟨takenUnitMessage_iff, ?_, ?_, ?_⟩
  · rintro p condition b0 b1 b2 b3 bytes s g rfl
    refine ⟨settles_unknown, fun out => settles_carry (doCarry_outOfRange out), fun least most =>
      ⟨fun disabled => settles_carry (doCarry_disabled least most disabled), fun enabled => ⟨fun bad => ?_, ?_⟩⟩⟩
    · exact settles_carry ((doCarry_received least most enabled).trans (receiveFrame_bad bad))
    · rintro h payload st v good rfl rfl
      have sup := onPort_sup p (fun q => { q with received := satInc q.received }) s
      have sorted : doCarry p condition bytes s = _ := (doCarry_received least most enabled).trans
        ((receiveFrame_good good).trans (goodFrame_eq (by rw [sup]; exact enabled)))
      have still := fun x => restarted_state_iff (p := p) (x := x)
        (g := onPort p (fun q => { q with received := satInc q.received }) s)
      simp only [sup] at sorted still
      have alive := mt (still .disabled (by decide) (by decide)).mp enabled
      have halts := still .held (by decide) (by decide)
      refine ⟨fun data => settles_carry (sorted.trans (sortFrame_data data)), fun control notHeld => ?_, fun control held => ?_⟩
      · exact settles_carry (sorted.trans ((sortFrame_control control).trans (takeControl_handled alive (mt halts.mp notHeld))))
      · exact settles_carry (sorted.trans ((sortFrame_control control).trans (takeControl_held (halts.mpr held))))
  · intro p h st t
    refine ⟨takeInbound_idle, fun enabled notHeld => ⟨fun free => ?_, fun sent came => ⟨fun late => ?_, ?_⟩⟩⟩
    · rw [takeInbound_takes enabled notHeld, if_neg (fun locked => free.elim (· locked.1) (· locked.2))]
    · rw [takeInbound_takes enabled notHeld, if_pos ⟨sent, came⟩, if_neg (Nat.not_le.mpr late)]
    · exact takeInbound_sampled enabled notHeld sent came
  · rintro p h bs st t c u own rfl rfl rfl
    refine ⟨handleControl_probe, handleControl_query, handleControl_answer, fun kind hit far hits same => ?_, fun kind => ?_,
      fun kind air other calm => ?_, fun kind air lead follow calm => ?_⟩
    · exact echo_handled kind hits same
    · exact contract_checked kind
    · rintro mask g v answer rfl top rfl rfl
      exact offer_handled kind air other calm top
    · rintro number offer k none0 v w rfl rfl rfl rfl rfl rfl
      exact grant_handled kind air lead follow calm

end Sys2Proof.ContractFrames
end

section
/-! SUPPORT. Delivery records: the deposit, the words of a slot, the divert filters and arrivals (R136 to R141, R145, R147, R149). -/

namespace Sys2Proof.Deliveries

open Machine PathSupervision Commands

/-! ## The deposit for a ring (R147, R151) -/

theorem handRecord_stopped {rec : Delivery} {s : State} {n : RingId} (stopped : s.inRings[n].state ≠ .active) :
    handRecord rec s n = dropRecord n .stopped s := by
  rw [handRecord]
  dsimp only
  split
  next active _ _ => exact absurd active stopped
  next => rfl

theorem handRecord_active {rec : Delivery} {s : State} {n : RingId} {slots : Nat} {e : Fin 15}
    (active : s.inRings[n].state = .active) (ring : s.inRings[n].slotCount = some slots)
    (window : windowOf s .inbound n = some e) : handRecord rec s n
    = if (s.inRings[n].assigned - s.inRings[n].release).toNat = slots then dropRecord n .full s
      else if 16 ≤ depositCount s then dropRecord n .queue s
      else onInRing n (fun r => { r with assigned := r.assigned + 1 })
        (enqueue ⟨.delivery n, e, deliveryWords (s.mem.windows[e].base + 8 * (s.inRings[n].assigned.toNat % slots))
          (s.inRings[n].assigned.toNat / slots % 256) rec⟩ s) := by
  rw [handRecord]
  simp only [active, ring, window, beq_iff_eq]

/-! ## The words of an inbound slot (R149, Table 12-5) -/

/-- A byte of a payload word is the byte of the payload, 0 beyond its end. -/
theorem payloadWord_byte (bs : List Byte) (k j : Nat) (low : j < 8) :
    (payloadWord bs k).extractLsb' (8 * j) 8 = bs.getD (8 * k + j) 0 := by
  apply BitVec.eq_of_getLsbD_eq
  intro i small
  have place : (8 * j + i) / 8 = j := by omega
  have offset : (8 * j + i) % 8 = i := by omega
  have inside : 8 * j + i < 64 := by omega
  have byte : ((bs.drop (8 * k)).take 8).getD j 0 = bs.getD (8 * k + j) 0 := by
    simp only [List.getD_eq_getElem?_getD, List.getElem?_take, if_pos low, List.getElem?_drop]
  rw [BitVec.getLsbD_extractLsb', payloadWord, BitVec.getLsbD_ofNat, bytesAt, leValue_testBit, place, offset, byte]
  simp [small, inside]

theorem deliveryHeader_fields {lap : Nat} {r : Delivery} (small : lap < 256) (short : r.payload.length ≤ 48) :
    ((deliveryHeader lap r).extractLsb' 0 8).toNat = lap ∧ ((deliveryHeader lap r).extractLsb' 8 8).toNat = r.payload.length
    ∧ ((deliveryHeader lap r).extractLsb' 16 4).toNat = r.stream.val
    ∧ ((deliveryHeader lap r).extractLsb' 20 3).toNat = (match r.path with | some p => p.val | none => 7)
    ∧ (deliveryHeader lap r).getLsbD 23 = false
    ∧ (deliveryHeader lap r).getLsbD 24 = r.flags.lateFill ∧ (deliveryHeader lap r).getLsbD 25 = r.flags.resync
    ∧ (deliveryHeader lap r).getLsbD 26 = r.flags.skipped ∧ (deliveryHeader lap r).getLsbD 27 = r.flags.lost
    ∧ (deliveryHeader lap r).getLsbD 28 = r.flags.diverted ∧ (deliveryHeader lap r).getLsbD 29 = r.flags.timeSuspect
    ∧ (deliveryHeader lap r).extractLsb' 30 2 = 0 ∧ (deliveryHeader lap r).extractLsb' 32 32 = r.sequence := by
  have length : r.payload.length < 2 ^ 8 := by omega
  have path : (match r.path with | some p => p.val | none => 7) < 2 ^ 3 := by
    cases r.path with
    | none => decide
    | some p => exact Nat.lt_trans p.isLt (by decide)
  have flag : ∀ b : Bool, bit b < 2 ^ 1 := by decide
  have fit : ∀ x ∈ [(0, 8, lap), (8, 8, r.payload.length), (16, 4, r.stream.val),
      (20, 3, match r.path with | some p => p.val | none => 7), (24, 1, bit r.flags.lateFill), (25, 1, bit r.flags.resync),
      (26, 1, bit r.flags.skipped), (27, 1, bit r.flags.lost), (28, 1, bit r.flags.diverted), (29, 1, bit r.flags.timeSuspect),
      (32, 32, r.sequence.toNat)], x.2.2 < 2 ^ x.2.1 := by
    simpa only [List.forall_mem_cons, List.not_mem_nil, false_implies, implies_true, and_true] using
      ⟨small, length, r.stream.isLt, path, flag _, flag _, flag _, flag _, flag _, flag _, r.sequence.isLt⟩
  have fields := packWord_fields _ fit (by simp)
  have spare := packWord_unassigned _ fit 23 1 (by simp)
  have top := packWord_unassigned _ fit 30 2 (by simp)
  simp only [List.forall_mem_cons] at fields
  obtain ⟨f0, f1, f2, f3, f4, f5, f6, f7, f8, f9, f10, -⟩ := fields
  refine ⟨field_toNat small (f0 (by decide)), field_toNat length (f1 (by decide)), field_toNat (n := 4) r.stream.isLt (f2 (by decide)),
    field_toNat path (f3 (by decide)), ?_, field_getLsbD (f4 (by decide)), field_getLsbD (f5 (by decide)),
    field_getLsbD (f6 (by decide)), field_getLsbD (f7 (by decide)), field_getLsbD (f8 (by decide)), field_getLsbD (f9 (by decide)),
    top, ?_⟩
  · exact field_getLsbD (b := false) spare
  · exact (f10 (by decide)).trans (BitVec.ofNat_toNat ..)

/-! ## The divert filters (R145) -/

theorem deliver_none {rec : Delivery} {s : State} (none : ∀ f : Fin 8, s.filters[f].matches rec = false) :
    deliver rec s = handRecord rec s s.streams[rec.stream].ring := by
  have found : ((List.finRange 8).find? fun i => s.filters[i].matches rec) = .none :=
    List.find?_eq_none.mpr fun f _ => by rw [none f]; exact Bool.false_ne_true
  rw [deliver]
  simp only [found]

/-- The first filter that matches counts a hit, and its action is taken. -/
theorem deliver_first {rec : Delivery} {s : State} {f : Fin 8} (hit : s.filters[f].matches rec = true)
    (first : ∀ j : Fin 8, j < f → s.filters[j].matches rec = false) : deliver rec s
    = (match s.filters[f].action with
      | .divert => handRecord (if s.filters[f].target == s.streams[rec.stream].ring then rec else rec.divertedTo)
          (onFilter f (fun y => { y with hits := satInc y.hits }) s) s.filters[f].target
      | .copy => if s.filters[f].target == s.streams[rec.stream].ring then
            handRecord rec (onFilter f (fun y => { y with hits := satInc y.hits }) s) s.streams[rec.stream].ring
          else handRecord rec.divertedTo (handRecord rec (onFilter f (fun y => { y with hits := satInc y.hits }) s)
            s.streams[rec.stream].ring) s.filters[f].target
      | .discard => onFilter f (fun y => { y with hits := satInc y.hits }) s) := by
  obtain ⟨before, after, split, lower⟩ := finRange_split 8 f
  have found : ((List.finRange 8).find? fun i => s.filters[i].matches rec) = some f :=
    find_of_split _ _ before after f split hit fun j listed => first j (lower j listed)
  rw [deliver]
  simp only [found] <;> rfl

/-! ## Arrivals (R136 to R141) -/

theorem arrivalCase_first {x : Machine.Stream} {q : BitVec 32} (idle : x.tracking = false) : arrivalCase x q = .first :=
  if_pos (by rw [idle]; rfl)

section
variable {x : Machine.Stream} {q : BitVec 32} (tracking : x.tracking = true)
include tracking

theorem arrivalCase_following (next : (q - x.highest).toInt = 1) : arrivalCase x q = .following := by
  rw [arrivalCase, tracking, if_neg (by decide), if_pos next]

theorem arrivalCase_skip (least : 2 ≤ (q - x.highest).toInt) (most : (q - x.highest).toInt ≤ 4096) :
    arrivalCase x q = .skip ((q - x.highest).toInt.toNat - 1) := by
  rw [arrivalCase, tracking, if_neg (by decide), if_neg (by omega), if_pos ⟨least, most⟩]

theorem arrivalCase_resync (far : 4096 < (q - x.highest).toInt ∨ (q - x.highest).toInt < -4096) : arrivalCase x q = .resync := by
  rw [arrivalCase, tracking, if_neg (by decide), if_neg (by omega), if_neg (by omega), if_pos far]

variable (least : -4096 ≤ (q - x.highest).toInt) (most : (q - x.highest).toInt ≤ 0)
include least most

theorem arrivalCase_lateFill (gap : ∃ g ∈ x.gaps, g.sequence = q) : arrivalCase x q = .lateFill := by
  rw [arrivalCase_old x q tracking least most]
  exact if_pos (by simpa only [List.any_eq_true, beq_iff_eq] using gap)

variable (noGap : ∀ g ∈ x.gaps, g.sequence ≠ q)
include noGap

theorem arrivalCase_tooLate (unseen : ∀ e ∈ x.recent, e.sequence ≠ q) : arrivalCase x q = .tooLate := by
  have none : x.recent.find? (fun e => e.sequence == q) = .none :=
    List.find?_eq_none.mpr fun e listed => by rw [beq_iff_eq]; exact unseen e listed
  rw [arrivalCase_old x q tracking least most, if_neg (by
    simp only [List.any_eq_true, beq_iff_eq, not_exists, not_and]; exact noGap), none]

theorem arrivalCase_duplicate {older newer : List Recent} {e : Recent} (list : x.recent = older ++ e :: newer)
    (before : ∀ y ∈ older, y.sequence ≠ q) (same : e.sequence = q) : arrivalCase x q = .duplicate e := by
  have found : x.recent.find? (fun e => e.sequence == q) = some e :=
    find_of_split _ _ older newer e list (beq_iff_eq.mpr same) fun y listed => beq_eq_false_iff_ne.mpr (before y listed)
  rw [arrivalCase_old x q tracking least most, if_neg (by
    simp only [List.any_eq_true, beq_iff_eq, not_exists, not_and]; exact noGap), found]

end

theorem onStream_congr (i : StreamId) (f g : Machine.Stream → Machine.Stream) (s : State) (same : f s.streams[i] = g s.streams[i]) :
    onStream i f s = onStream i g s := by
  rw [onStream, same]
  rfl

theorem onStream_onStream (i : StreamId) (f g : Machine.Stream → Machine.Stream) (s : State) :
    onStream i f (onStream i g s) = onStream i (fun x => f (g x)) s := by
  simp [onStream]

/-- A cause raised between two changes of a stream may as well be raised after both. -/
theorem onStream_raising (i : StreamId) (f g : Machine.Stream → Machine.Stream) (calm : Prop) [Decidable calm] (c : CauseId)
    (s : State) : onStream i f (if calm then onStream i g s else raiseCause c (onStream i g s))
      = if calm then onStream i (fun x => f (g x)) s else raiseCause c (onStream i (fun x => f (g x)) s) := by
  by_cases quiet : calm
  · rw [if_pos quiet, if_pos quiet, onStream_onStream]
  · rw [if_neg quiet, if_neg quiet, ← onStream_onStream i f g]
    rfl

/-- What an accepted sequence does to the recent list (R137, R140). -/
def keeps (q : BitVec 32) (p : PathId) (st : Stamp) (y : Machine.Stream) : Machine.Stream :=
  { y with accepted := satInc y.accepted, recent := pushed 32 y.recent ⟨q, p, st⟩ }

theorem accept_eq (y : Machine.Stream) (q : BitVec 32) (p : PathId) (st : Stamp) : y.accept q p st = keeps q p st y := by
  rw [Stream.accept, joinRecent_eq, keeps]

theorem plainFlags_eq (st : Stamp) : plainFlags st = ⟨false, false, false, false, false, decide (st.quality ≠ .locked)⟩ := by
  rw [plainFlags, beq_eq_decide, ← decide_not]

/-! ### Each case of an arrival -/

section
variable {i : StreamId} {p : PathId} {q : BitVec 32} {st : Stamp} {bs : List Byte} {s : State}

/-- An accepted arrival in order. -/
theorem arrival_next (case : arrivalCase s.streams[i] q = .first ∨ arrivalCase s.streams[i] q = .following) :
    arrival i p q st bs s = deliver (arrivalRecord i p q st bs)
      (onStream i (fun y => { keeps q p st y with tracking := true, highest := q }) s) := by
  simp only [← accept_eq]
  rw [arrival]
  rcases case with first | following
  · simp only [first]
    rfl
  · simp only [following]
    rfl

theorem skipEntries_length (x : Machine.Stream) (n : Nat) (st : Stamp) : (skipEntries x n st).length = min n (16 - x.gaps.length) := by
  rw [skipEntries, List.length_map, List.length_range]

theorem arrival_skip {n : Nat} (tracking : s.streams[i].tracking = true) (case : arrivalCase s.streams[i] q = .skip n)
    {opened unheld : Nat} (opens : opened = min n (16 - s.streams[i].gaps.length)) (lost : unheld = n - opened) :
    arrival i p q st bs s = deliver
      { arrivalRecord i p q st bs with flags := { (arrivalRecord i p q st bs).flags with skipped := decide (unheld ≠ 0) } }
      (if unheld = 0 then onStream i (fun y => { keeps q p st y with
          highest := q, lost := satAdd y.lost unheld
          gaps := y.gaps ++ (List.range opened).map (fun k => ⟨s.streams[i].highest + BitVec.ofNat 32 (k + 1), st,
            ⟨st.time + s.streams[i].gapWindow.toNat * 1000, st.quality⟩⟩) }) s
        else raiseCause 12 (onStream i (fun y => { keeps q p st y with
          highest := q, lost := satAdd y.lost unheld
          gaps := y.gaps ++ (List.range opened).map (fun k => ⟨s.streams[i].highest + BitVec.ofNat 32 (k + 1), st,
            ⟨st.time + s.streams[i].gapWindow.toNat * 1000, st.quality⟩⟩) }) s)) := by
  have flag : (unheld != 0) = decide (unheld ≠ 0) := by rw [bne, beq_eq_decide, ← decide_not]
  rw [arrival]
  simp only [case, skipEntries_length, ← opens, ← lost, flag, beq_iff_eq, acceptArrival, onStream_raising]
  congr 1
  refine if_congr Iff.rfl ?_ (congrArg (raiseCause 12) ?_)
  all_goals
    refine onStream_congr i _ _ s ?_
    simp only [Stream.accept, joinRecent_eq, keeps, skipEntries, ← opens, tracking]

theorem arrival_resync (tracking : s.streams[i].tracking = true) (case : arrivalCase s.streams[i] q = .resync) :
    arrival i p q st bs s = deliver
      { arrivalRecord i p q st bs with flags := { (arrivalRecord i p q st bs).flags with resync := true } }
      (if s.streams[i].gaps = [] then onStream i (fun y => { keeps q p st { y with recent := [] } with
          highest := q, gaps := [], lost := satAdd y.lost y.gaps.length, resyncs := satInc y.resyncs }) s
        else raiseCause 12 (onStream i (fun y => { keeps q p st { y with recent := [] } with
          highest := q, gaps := [], lost := satAdd y.lost y.gaps.length, resyncs := satInc y.resyncs }) s)) := by
  rw [arrival]
  simp only [case, List.isEmpty_iff, acceptArrival, onStream_raising]
  congr 1
  refine if_congr Iff.rfl ?_ (congrArg (raiseCause 12) ?_)
  all_goals
    refine onStream_congr i _ _ s ?_
    simp only [Stream.accept, Stream.clear, joinRecent_eq, keeps, tracking]

theorem arrival_lateFill (case : arrivalCase s.streams[i] q = .lateFill) : arrival i p q st bs s = deliver
    { arrivalRecord i p q st bs with flags := { (arrivalRecord i p q st bs).flags with lateFill := true } }
    (onStream i (fun y => { keeps q p st y with
      gaps := y.gaps.filter (fun g => decide (g.sequence ≠ q)), lateFills := satInc y.lateFills }) s) := by
  have other : ∀ l : List Gap, l.filter (fun g => !(g.sequence == q)) = l.filter (fun g => decide (g.sequence ≠ q)) :=
    fun l => List.filter_congr fun g _ => by rw [beq_eq_decide, ← decide_not]
  rw [arrival]
  simp only [case, accept_eq, other]

theorem arrival_tooLate (case : arrivalCase s.streams[i] q = .tooLate) :
    arrival i p q st bs s = onStream i (fun y => { y with tooLate := satInc y.tooLate }) s := by
  rw [arrival]
  simp only [case]

theorem arrival_duplicate {e : Recent} (case : arrivalCase s.streams[i] q = .duplicate e) : arrival i p q st bs s
    = if e.path = p then onStream i (fun y => { y with duplicates := satInc y.duplicates }) s
      else creditRace e.path (st.time - e.stamp.time) (onStream i (fun y => { y with duplicates := satInc y.duplicates }) s) := by
  rw [arrival]
  simp only [case, beq_iff_eq]

end

/-- The lead margin after a race: the margin of the first one, then an eighth of the way to each (R141). -/
theorem creditRace_eq (r : PathId) (sample : Nat) (t : State) : ∃ m : BitVec 32,
    (m.toNat : Int) = (match t.paths[r].leadMargin with
      | none => (min sample 4294967295 : Nat)
      | some o => o.toNat + ((min sample 4294967295 : Nat) - (o.toNat : Int)).tdiv 8)
    ∧ creditRace r sample t = onPath r (fun y => { y with wins := satInc y.wins, leadMargin := some m }) t := by
  have top : min sample Config.maxNs ≤ 4294967295 := Nat.min_le_right ..
  rw [creditRace]
  cases margin : t.paths[r].leadMargin with
  | none =>
    refine ⟨BitVec.ofNat 32 (min sample Config.maxNs), ?_, ?_⟩
    · rw [BitVec.toNat_ofNat, Nat.mod_eq_of_lt (Nat.lt_succ_of_le top)]
      rfl
    · exact StatusRecords.onPath_congr r _ _ t (by simp only [margin])
  | some o =>
    refine ⟨bits32 (eighth o.toNat (min sample Config.maxNs : Nat)), bits32_eighth o _ top, ?_⟩
    exact StatusRecords.onPath_congr r _ _ t (by simp only [margin])

/-- Settles O47: the deposit, the slot's words, the filters and the cases of Table 8-3, each from its own lemma. -/
theorem deliveredRecordsAreQueuedOrDropped : Obligations.DeliveredRecordsAreQueuedOrDropped := by
  refine ⟨?_, ?_, ?_, ?_⟩
  · rintro rec s n r rfl
    refine ⟨handRecord_stopped, ?_⟩
    rintro slots base c e active ring window rfl rfl
    rw [handRecord_active active ring window]
    refine ⟨fun full => if_pos full, fun room long => (if_neg room).trans (if_pos long),
      fun room short => (if_neg room).trans ((if_neg (Nat.not_le.mpr short)).trans rfl)⟩
  · intro base lap rec small short
    refine ⟨deliveryHeader lap rec, fun k => payloadWord rec.payload k.val, rfl, fun k j => payloadWord_byte _ _ _ j.isLt, ?_⟩
    exact deliveryHeader_fields small short
  · rintro rec s mapped type hit rfl rfl hits
    have test : ∀ f, s.filters[f].matches rec = true ↔ hit f := fun f => (matches_iff _ _).trans (hits f).symm
    have miss : ∀ f, ¬ hit f → s.filters[f].matches rec = false := fun f other => Bool.eq_false_iff.mpr (mt (test f).mp other)
    refine ⟨fun none => deliver_none fun f => miss f (none f), ?_⟩
    rintro f target marked t found first rfl rfl rfl
    rw [deliver_first ((test f).mpr found) fun j lower => miss j (first j lower)]
    refine ⟨fun discard => ?_, fun sends same => ?_, fun divert other => ?_, fun copy other => ?_⟩
    · rw [discard]
    · cases action : s.filters[f].action with
      | divert => simp only [same, beq_self_eq_true, if_true]
      | copy => simp only [same, beq_self_eq_true, if_true]
      | discard => exact absurd action sends
    · simp only [divert, beq_eq_false_iff_ne.mpr other, Bool.false_eq_true, if_false]
      rfl
    · simp only [copy, beq_eq_false_iff_ne.mpr other, Bool.false_eq_true, if_false]
      rfl
  · rintro p h bs st s i x q d rec kept number rfl rfl rfl recorded rfl
    obtain rfl : rec = arrivalRecord i p h.sequence st bs := by rw [recorded, arrivalRecord, plainFlags_eq]
    have stream : Fin.ofNat 16 h.stream = i := Fin.ext (by
      rw [Fin.val_ofNat, ← number, Nat.mod_eq_of_lt i.isLt])
    refine ⟨fun off => ?_, fun on => ?_⟩
    · rw [mergeFrame]
      simp only [stream]
      exact if_neg (by rw [off]; exact Bool.false_ne_true)
    · have arrives : mergeFrame p h bs st s = arrival i p h.sequence st bs s := by
        rw [mergeFrame]
        simp only [stream]
        exact if_pos on
      rw [arrives]
      refine ⟨fun next => ?_, fun tracking => ⟨?_, ?_, fun least most => ⟨fun gap => ?_, fun noGap => ⟨fun unseen => ?_, ?_⟩⟩⟩⟩
      · refine arrival_next ?_
        by_cases idle : s.streams[i].tracking = false
        · exact .inl (arrivalCase_first idle)
        · exact .inr (arrivalCase_following (Bool.eq_true_of_not_eq_false idle) (next.resolve_left idle))
      · rintro opened unheld least most opens lost t rfl
        exact arrival_skip tracking (arrivalCase_skip tracking least most) opens lost
      · rintro far t rfl
        exact arrival_resync tracking (arrivalCase_resync tracking far)
      · exact arrival_lateFill (arrivalCase_lateFill tracking least most gap)
      · exact arrival_tooLate (arrivalCase_tooLate tracking least most noGap unseen)
      · rintro older newer e t list before same rfl
        have case := arrivalCase_duplicate tracking least most noGap list before same
        refine ⟨fun own => (arrival_duplicate case).trans (if_pos own), fun other => ?_⟩
        obtain ⟨m, value, credited⟩ := creditRace_eq e.path (st.time - e.stamp.time)
          (onStream i (fun y => { y with duplicates := satInc y.duplicates }) s)
        exact ⟨m, value, (arrival_duplicate case).trans ((if_neg other).trans credited)⟩

end Sys2Proof.Deliveries
end

section
/-! SUPPORT. The choice of the frame to send, SEND_START and the other link messages (R17, R127 to R129, R156, R157). -/

namespace Sys2Proof.Sending

open Machine PathSupervision Commands UnitReports FramesReceived

/-! ## The frame chosen (R128) -/

theorem inService_iff (x : PathState) : x.inService = true ↔ x = .up ∨ x = .fading := by
  cases x <;> decide

section
variable {x : Path}

theorem frontCopy_service {y : RecordName} {rest : List RecordName} (serves : x.sup.state = .up ∨ x.sup.state = .fading)
    (front : x.port.transmit = y :: rest) : frontCopy x = some (.copy y) := by
  rw [frontCopy, if_pos ((inService_iff _).mpr serves), front]
  rfl

theorem frontCopy_none (none : x.port.transmit = [] ∨ (x.sup.state ≠ .up ∧ x.sup.state ≠ .fading)) : frontCopy x = .none := by
  rw [frontCopy]
  rcases none with empty | ⟨notUp, notFading⟩
  · rw [empty]
    exact ite_self _
  · exact if_neg fun serves => ((inService_iff _).mp serves).elim notUp notFading

theorem frontInsert_cons {f : InsertFrame} {rest : List InsertFrame} (front : x.port.insert = f :: rest) :
    frontInsert x.port = some (.control f.frame) := by
  rw [frontInsert, front]
  rfl

theorem frontInsert_nil (empty : x.port.insert = []) : frontInsert x.port = none := by
  rw [frontInsert, empty]
  rfl

theorem frontPassedFour_cons {f : InsertFrame} {rest : List InsertFrame} (front : x.port.insert = f :: rest) :
    frontPassedFour x.port = (f.passed == 4) := by
  rw [frontPassedFour, front]

theorem frontPassedFour_nil (empty : x.port.insert = []) : frontPassedFour x.port = false := by
  rw [frontPassedFour, empty]

theorem chooseFrame_takes (notHeld : x.sup.state ≠ .held) (enabled : x.sup.state ≠ .disabled) : chooseFrame x
    = (match x.setup.priority with
      | .above => (frontInsert x.port).orElse fun _ => frontCopy x
      | .below => if frontPassedFour x.port then frontInsert x.port else (frontCopy x).orElse fun _ => frontInsert x.port) := by
  rw [chooseFrame, (takesFrames_iff _).mpr ⟨enabled, notHeld⟩]
  rfl

/-- The front insert frame goes before the front copy, or there is no copy. -/
theorem chooseFrame_insert {f : InsertFrame} {rest : List InsertFrame} (notHeld : x.sup.state ≠ .held)
    (enabled : x.sup.state ≠ .disabled) (front : x.port.insert = f :: rest)
    (first : x.setup.priority = .above ∨ f.passed = 4 ∨ x.port.transmit = [] ∨ (x.sup.state ≠ .up ∧ x.sup.state ≠ .fading)) :
    chooseFrame x = some (.control f.frame) := by
  rw [chooseFrame_takes notHeld enabled, frontInsert_cons front, frontPassedFour_cons front]
  cases priority : x.setup.priority with
  | above => rfl
  | below =>
    dsimp only
    by_cases passed : f.passed = 4
    · exact if_pos (beq_iff_eq.mpr passed)
    · rw [if_neg (mt beq_iff_eq.mp passed)]
      rcases first with h | h | h
      · rw [priority] at h
        cases h
      · exact absurd h passed
      · rw [frontCopy_none h]
        rfl

/-- The front copy goes before the front insert frame, or there is no such frame. -/
theorem chooseFrame_copy {y : RecordName} {rest : List RecordName} (serves : x.sup.state = .up ∨ x.sup.state = .fading)
    (front : x.port.transmit = y :: rest)
    (first : x.port.insert = [] ∨ (x.setup.priority = .below ∧ ∀ f more, x.port.insert = f :: more → f.passed ≠ 4)) :
    chooseFrame x = some (.copy y) := by
  have notHeld : x.sup.state ≠ .held := by rcases serves with h | h <;> rw [h] <;> decide
  have enabled : x.sup.state ≠ .disabled := by rcases serves with h | h <;> rw [h] <;> decide
  rw [chooseFrame_takes notHeld enabled, frontCopy_service serves front]
  rcases first with empty | ⟨below, passed⟩
  · rw [frontInsert_nil empty, frontPassedFour_nil empty]
    cases x.setup.priority with
    | above => rfl
    | below => rfl
  · rw [below]
    refine if_neg ?_
    cases insert : x.port.insert with
    | nil => rw [frontPassedFour_nil insert]; exact Bool.false_ne_true
    | cons f more => rw [frontPassedFour_cons insert, beq_iff_eq]; exact passed f more insert

theorem chooseFrame_silent (silent : x.sup.state = .held ∨ x.sup.state = .disabled) : chooseFrame x = none := by
  refine if_pos ?_
  rcases silent with h | h <;> rw [h] <;> rfl

theorem chooseFrame_empty (empty : x.port.insert = [])
    (none : x.port.transmit = [] ∨ (x.sup.state ≠ .up ∧ x.sup.state ≠ .fading)) : chooseFrame x = .none := by
  by_cases silent : x.sup.state = .held ∨ x.sup.state = .disabled
  · exact chooseFrame_silent silent
  · obtain ⟨notHeld, enabled⟩ := not_or.mp silent
    rw [chooseFrame_takes notHeld enabled, frontCopy_none none, frontInsert_nil empty, frontPassedFour_nil empty]
    cases x.setup.priority with
    | above => rfl
    | below => rfl

end

/-! ## SEND_START (R156, R157) -/

theorem onPort_onPort (p : PathId) (f g : Port → Port) (s : State) :
    onPort p f (onPort p g s) = onPort p (fun q => f (g q)) s := by
  rw [onPort, onPort, onPath_onPath]
  rfl

theorem onPort_congr (p : PathId) (f g : Port → Port) (s : State) (same : f s.paths[p].port = g s.paths[p].port) :
    onPort p f s = onPort p g s := by
  rw [onPort, onPort]
  exact StatusRecords.onPath_congr p _ _ s (by simp only [same])

theorem mayStart_iff (q : Port) : mayStart q = true ↔ q.link = .free ∧ q.pendingTune = none ∧ q.awaiting.length < 4 := by
  rw [mayStart, Bool.and_eq_true, Bool.and_eq_true, beq_iff_eq, Option.isNone_iff_eq_none, decide_eq_true_iff, and_assoc]

section
variable {p : PathId} {s : State}

theorem settles_sendStart {v : State} (does : doSendStart p s = v) : Settles (.sendStart p) s v := by
  subst does
  rfl

theorem doSendStart_idle (idle : dueSend s p = none) : doSendStart p s = s := by
  rw [doSendStart, idle]

theorem dueSend_blocked (blocked : ¬ (s.paths[p].port.link = .free ∧ s.paths[p].port.pendingTune = none
    ∧ s.paths[p].port.awaiting.length < 4)) : dueSend s p = none :=
  if_neg (mt (mayStart_iff _).mp blocked)

theorem dueSend_none (none : chooseFrame s.paths[p] = .none) : dueSend s p = .none := by
  rw [dueSend, none]
  exact ite_self _

variable (free : s.paths[p].port.link = .free) (noTune : s.paths[p].port.pendingTune = none)
  (room : s.paths[p].port.awaiting.length < 4)
include free noTune room

theorem doSendStart_control {f : ControlFrame} (chosen : chooseFrame s.paths[p] = some (.control f)) :
    doSendStart p s = sendControl p f s := by
  have due : dueSend s p = some (.control f, none) := by
    rw [dueSend, if_pos ((mayStart_iff _).mpr ⟨free, noTune, room⟩), chosen]
  rw [doSendStart, due]

theorem doSendStart_copy {x : RecordName} {r : LaunchRecord} (chosen : chooseFrame s.paths[p] = some (.copy x))
    (named : recordNamed s x = some r) : doSendStart p s = sendCopy p r s := by
  have due : dueSend s p = some (.copy x, some r) := by
    rw [dueSend, if_pos ((mayStart_iff _).mpr ⟨free, noTune, room⟩), chosen]
    simp only [named, Option.map_some]
  rw [doSendStart, due]

end

section
variable {p : PathId} {s : State}

/-- The link takes the front insert frame (R157). -/
theorem handOver_insert {f : InsertFrame} {rest : List InsertFrame} (front : s.paths[p].port.insert = f :: rest)
    (frame : List Byte) (e : AwaitEntry) :
    handOver p frame e (onPort p (fun q => { q with insert := q.insert.drop 1 }) s) = onPort p (fun q => { q with
      insert := rest, link := .sending ([1, BitVec.ofNat 8 frame.length, 0, 0] ++ frame), sent := satInc q.sent
      awaiting := q.awaiting ++ [e] }) s := by
  rw [handOver, onPort_onPort]
  refine onPort_congr p _ _ s ?_
  simp only [front, List.drop_succ_cons, List.drop_zero, sendMessage]

theorem sendControl_plain {f : InsertFrame} {rest : List InsertFrame} (front : s.paths[p].port.insert = f :: rest)
    (plain : f.frame.kind ≠ .probe) {frame : List Byte}
    (spelled : frame = frameBytes s.paths[p].setup.check (controlHeader s p f.frame) f.frame.payload) :
    sendControl p f.frame s = onPort p (fun q => { q with
      insert := rest, link := .sending ([1, BitVec.ofNat 8 frame.length, 0, 0] ++ frame), sent := satInc q.sent
      awaiting := q.awaiting ++ [⟨f.frame.kind, none, 0, 0⟩] }) s := by
  rw [← handOver_insert front, spelled, sendControl]
  exact fun n probe => plain (by rw [probe]; rfl)

theorem sendControl_probe {f : InsertFrame} {rest : List InsertFrame} (front : s.paths[p].port.insert = f :: rest) {n : Byte}
    (probe : f.frame = .probe n) {frame : List Byte}
    (spelled : frame = frameBytes s.paths[p].setup.check (controlHeader s p f.frame) f.frame.payload) :
    sendControl p f.frame s = startProbe p n (stampNow s) (onPort p (fun q => { q with
      insert := rest, link := .sending ([1, BitVec.ofNat 8 frame.length, 0, 0] ++ frame), sent := satInc q.sent
      awaiting := q.awaiting ++ [⟨.probe, none, n, 0⟩] }) s) := by
  rw [← handOver_insert front, spelled, probe]
  rfl

/-- The fifth probe out makes the oldest a lost one (R17). -/
theorem startProbe_eq (n : Byte) (st : Stamp) {u : State} (same : u.paths[p].sup = s.paths[p].sup) :
    startProbe p n st u = onSup p (fun x => { x with probeList := x.probeList ++ [⟨n, st⟩] })
      (if s.paths[p].sup.probeList.length < 4 then u else probeJudged p false u) := by
  rw [startProbe, same, loseOldest_eq]

theorem recordNamed_name {x : RecordName} {r : LaunchRecord} (named : recordNamed s x = some r) : r.name = x := by
  have found : s.sel.held.find? (fun y => y.name == x) = some r := named
  have hit := List.find?_some found
  exact beq_iff_eq.mp hit

/-- The launch of a copy (R129): its frame is handed over and every insert frame passed. -/
theorem sendCopy_eq {x : RecordName} {rest : List RecordName} {r : LaunchRecord} {frame : List Byte}
    (front : s.paths[p].port.transmit = x :: rest) (named : recordNamed s x = some r)
    (spelled : frame = frameBytes s.paths[p].setup.check (dataHeader s p r) r.payload) :
    sendCopy p r s = onPort p (fun q => { q with
      transmit := rest, link := .sending ([1, BitVec.ofNat 8 frame.length, 0, 0] ++ frame), sent := satInc q.sent
      insert := q.insert.map (fun f => { f with passed := min 4 (f.passed + 1) })
      awaiting := q.awaiting ++ [⟨.data, some x, 0, 0⟩] })
      (putRecord { r with copies := r.copies.map fun c => if c.path = p ∧ c.state = .queued then
        { c with state := .sent, launch := some ⟨s.time.value, s.time.state⟩ } else c } s) := by
  have launched : r.copies.map (fun c => c.launched p (stampNow s)) = r.copies.map fun c => if c.path = p ∧ c.state = .queued then
      { c with state := .sent, launch := some ⟨s.time.value, s.time.state⟩ } else c :=
    List.map_congr_left fun c _ => if_congr (by rw [Bool.and_eq_true, beq_iff_eq, beq_iff_eq]) rfl rfl
  rw [sendCopy, ← spelled, launched, handOver, onPort_onPort, recordNamed_name named]
  refine onPort_congr p _ _ _ ?_
  have same : ∀ v : LaunchRecord, (putRecord v s).paths = s.paths := fun _ => rfl
  simp only [same, front, List.drop_succ_cons, List.drop_zero, sendMessage]

/-! ## SEND_END, TUNE_START and TUNE_END (R156) -/

theorem doSendEnd_sending {b : List Byte} (sending : s.paths[p].port.link = .sending b) :
    doSendEnd p s = onPort p (fun q => { q with link := .free }) s := by
  rw [doSendEnd, sending]

theorem doTuneEnd_tuning {b : List Byte} (tuning : s.paths[p].port.link = .tuning b) :
    doTuneEnd p s = onPort p (fun q => { q with link := .free }) s := by
  rw [doTuneEnd, tuning]

theorem doTuneStart_free {k : Nat} (free : s.paths[p].port.link = .free) (due : s.paths[p].port.pendingTune = some k) :
    doTuneStart p s = onPort p (fun q => { q with link := .tuning [2, BitVec.ofNat 8 k, 0, 0], pendingTune := none }) s := by
  rw [doTuneStart, tuneDue, if_pos (beq_iff_eq.mpr free), due]
  rfl

theorem doTuneStart_idle (idle : s.paths[p].port.link ≠ .free ∨ s.paths[p].port.pendingTune = none) : doTuneStart p s = s := by
  have none : tuneDue s.paths[p].port = .none := by
    rw [tuneDue]
    rcases idle with busy | none
    · exact if_neg (mt beq_iff_eq.mp busy)
    · rw [none]
      exact ite_self _
  rw [doTuneStart, none]

theorem settles_of_do {c : Instr} {u v : State} (row : Settles c s u) (does : u = v) : Settles c s v := does ▸ row

end

end Sys2Proof.Sending
end

section
/-! SUPPORT. The bytes of a frame: header, control payloads and frame check (R157, R162, R184, Tables 12-1 and 12-2). -/

namespace Sys2Proof.FrameBytes

open Machine PathSupervision Commands UnitReports FramesReceived Sending

/-! ## Header and payloads (Tables 12-1 and 12-2) -/

/-- The bytes of a 32-bit number, least significant first (R184). -/
def littleEndian (v : BitVec 32) : List Byte :=
  [v.extractLsb' 0 8, v.extractLsb' 8 8, v.extractLsb' 16 8, v.extractLsb' 24 8]

theorem leBytes_eq (v : Nat) : leBytes 4 v = littleEndian (BitVec.ofNat 32 v) := leBytes_four v

theorem leBytes_toNat (v : BitVec 32) : leBytes 4 v.toNat = littleEndian v := by
  rw [leBytes_eq, BitVec.ofNat_toNat, BitVec.setWidth_eq]

theorem echo_payload (n : Byte) (sent arrival : Stamp) : (ControlFrame.echo n sent arrival).payload
    = [n, BitVec.ofNat 8 sent.quality.code, BitVec.ofNat 8 arrival.quality.code, 0]
      ++ littleEndian (BitVec.ofNat 32 (sent.time / 1000000000)) ++ littleEndian (BitVec.ofNat 32 (sent.time % 1000000000))
      ++ littleEndian (BitVec.ofNat 32 (arrival.time / 1000000000))
      ++ littleEndian (BitVec.ofNat 32 (arrival.time % 1000000000)) := by
  simp only [← leBytes_eq]
  rfl

theorem grant_payload (n answered : Byte) (profile : Nat) (mismatch : Bool) : (ControlFrame.grant n answered profile mismatch).payload
    = [n, answered, BitVec.ofNat 8 profile, if mismatch then 1 else 0] := by
  cases mismatch with
  | false => rfl
  | true => rfl

theorem answer_payload (n : Byte) (status : BitVec 32) :
    (ControlFrame.answer n status).payload = [n, 0, 0, 0] ++ littleEndian status := by
  rw [← leBytes_toNat]
  rfl

theorem header_first {kind path role : Nat} (k : kind < 16) (p : path < 8) (r : role < 2) :
    ((BitVec.ofNat 8 (kind + 16 * path + 128 * role)).extractLsb' 0 4).toNat = kind
    ∧ ((BitVec.ofNat 8 (kind + 16 * path + 128 * role)).extractLsb' 4 3).toNat = path
    ∧ (BitVec.ofNat 8 (kind + 16 * path + 128 * role)).getLsbD 7 = decide (role = 1) := by
  have fits : kind + 16 * path + 128 * role < 256 := by omega
  refine ⟨?_, ?_, ?_⟩
  · rw [BitVec.extractLsb'_toNat, BitVec.toNat_ofNat, Nat.mod_eq_of_lt fits, Nat.shiftRight_zero]
    omega
  · rw [BitVec.extractLsb'_toNat, BitVec.toNat_ofNat, Nat.mod_eq_of_lt fits, Nat.shiftRight_eq_div_pow]
    omega
  · rw [BitVec.getLsbD_ofNat, Nat.testBit_eq_decide_div_mod_eq]
    have top : (kind + 16 * path + 128 * role) / 2 ^ 7 = role := by omega
    rw [top, Nat.mod_eq_of_lt r]
    rfl

theorem header_second {quality stream : Nat} (q : quality < 4) (s : stream < 16) :
    ((BitVec.ofNat 8 (quality + 4 * stream)).extractLsb' 0 2).toNat = quality
    ∧ ((BitVec.ofNat 8 (quality + 4 * stream)).extractLsb' 2 4).toNat = stream
    ∧ (BitVec.ofNat 8 (quality + 4 * stream)).extractLsb' 6 2 = 0 := by
  have fits : quality + 4 * stream < 256 := by omega
  refine ⟨?_, ?_, BitVec.eq_of_toNat_eq ?_⟩
  · rw [BitVec.extractLsb'_toNat, BitVec.toNat_ofNat, Nat.mod_eq_of_lt fits, Nat.shiftRight_zero]
    omega
  · rw [BitVec.extractLsb'_toNat, BitVec.toNat_ofNat, Nat.mod_eq_of_lt fits, Nat.shiftRight_eq_div_pow]
    omega
  · rw [BitVec.extractLsb'_toNat, BitVec.toNat_ofNat, Nat.mod_eq_of_lt fits, Nat.shiftRight_eq_div_pow]
    change (quality + 4 * stream) / 2 ^ 6 % 2 ^ 2 = 0
    omega

theorem headerBytes_eq (h : FrameHeader) : headerBytes h
    = [BitVec.ofNat 8 (h.kind.code + 16 * h.path + 128 * h.role.code), BitVec.ofNat 8 (h.quality.code + 4 * h.stream),
        BitVec.ofNat 8 h.length, 0]
      ++ littleEndian h.sequence ++ littleEndian (BitVec.ofNat 32 (h.sent / 1000000000))
      ++ littleEndian (BitVec.ofNat 32 (h.sent % 1000000000)) := by
  rw [← leBytes_toNat, ← leBytes_eq, ← leBytes_eq]
  rfl

theorem frameBytes_eq (check : Bool) (h : FrameHeader) (payload : List Byte) : frameBytes check h payload
    = headerBytes h ++ payload ++ (if check then littleEndian (crc32 (headerBytes h ++ payload)) else []) := by
  cases check with
  | false => exact (List.append_nil _).symm
  | true => rw [← leBytes_toNat]; rfl

theorem role_code_follow (r : Role) : decide (r.code = 1) = decide (r = .follow) := by
  cases r <;> rfl

theorem kind_code_lt (k : FrameKind) : k.code < 16 := by
  cases k <;> decide

theorem role_code_lt (r : Role) : r.code < 2 := by
  cases r <;> decide

theorem quality_code_lt (q : Quality) : q.code < 4 := by
  cases q <;> decide

/-! ## The frame check (R162) -/

theorem xor_none (v : BitVec 32) : v ^^^ 0 = v := BitVec.xor_zero

/-- The register takes a bit of the frame: shifted, and moved by the polynomial when it and the bit disagree. -/
def takeBit (poly r : BitVec 32) (b : Bool) : BitVec 32 := (r >>> 1) ^^^ (if r.getLsbD 0 ≠ b then poly else 0)

/-- One step of the byte-wise check is a bit of the serial one: the bits still to come stand in the register. -/
theorem crcBit_eq (r bits : BitVec 32) :
    crcBit (r ^^^ bits) = takeBit 0xEDB88320 r (bits.getLsbD 0) ^^^ (bits >>> 1) := by
  have shift : (r ^^^ bits) >>> 1 = (r >>> 1) ^^^ (bits >>> 1) := BitVec.ushiftRight_xor_distrib ..
  have low : (r ^^^ bits).getLsbD 0 = true ↔ r.getLsbD 0 ≠ bits.getLsbD 0 := by
    rw [BitVec.getLsbD_xor, Bool.xor_iff_ne]
  rw [crcBit, takeBit, shift]
  by_cases differ : r.getLsbD 0 ≠ bits.getLsbD 0
  · rw [if_pos (low.mpr differ), if_pos differ, BitVec.xor_assoc, BitVec.xor_comm (bits >>> 1),
      ← BitVec.xor_assoc]
  · rw [if_neg (mt low.mp differ), if_neg differ, xor_none]

/-- The steps of a byte follow a register that takes its bits one after another. -/
theorem crcSteps_eq (reg : Nat → BitVec 32) (b : Byte) (n : Nat)
    (steps : ∀ i, i < n → reg (i + 1) = takeBit 0xEDB88320 (reg i) (b.getLsbD i)) (small : n ≤ 8) :
    (List.range n).foldl (fun r _ => crcBit r) (reg 0 ^^^ b.zeroExtend 32) = reg n ^^^ (b.zeroExtend 32 >>> n) := by
  induction n with
  | zero => simp
  | succ n ih =>
    have bit : (b.zeroExtend 32 >>> n).getLsbD 0 = b.getLsbD n := by
      have inside : n < 32 := by omega
      simp [inside]
    rw [List.range_succ, List.foldl_append, ih (fun i lower => steps i (Nat.lt_succ_of_lt lower)) (Nat.le_of_succ_le small),
      List.foldl_cons, List.foldl_nil, crcBit_eq, bit, ← steps n (Nat.lt_succ_self n), BitVec.shiftRight_add]

theorem crcByte_eq (reg : Nat → BitVec 32) (b : Byte)
    (steps : ∀ i, i < 8 → reg (i + 1) = takeBit 0xEDB88320 (reg i) (b.getLsbD i)) : crcByte (reg 0) b = reg 8 := by
  have out : b.zeroExtend 32 >>> 8 = 0 := by
    apply BitVec.eq_of_getLsbD_eq
    intro i small
    rw [BitVec.getLsbD_ushiftRight, BitVec.getLsbD_setWidth, BitVec.getLsbD_of_ge b _ (by omega)]
    simp
  rw [crcByte, crcSteps_eq reg b 8 steps (Nat.le_refl 8), out, xor_none]

/-- The check of a frame is that of a register which takes the bytes bit by bit, each least significant bit first. -/
theorem foldl_crcByte (bytes : List Byte) (reg : Nat → BitVec 32)
    (steps : ∀ k, k < 8 * bytes.length → reg (k + 1) = takeBit 0xEDB88320 (reg k) ((bytes.getD (k / 8) 0).getLsbD (k % 8))) :
    bytes.foldl crcByte (reg 0) = reg (8 * bytes.length) := by
  induction bytes generalizing reg with
  | nil => rfl
  | cons b bytes ih =>
    have first : crcByte (reg 0) b = reg 8 := crcByte_eq reg b fun i low => by
      have step := steps i (by rw [List.length_cons]; omega)
      rwa [Nat.div_eq_of_lt low, Nat.mod_eq_of_lt low] at step
    have rest := ih (fun k => reg (8 + k)) fun k low => by
      have step := steps (8 + k) (by rw [List.length_cons]; omega)
      rwa [Nat.add_div_left k (by decide), Nat.add_mod_left, List.getD_cons_succ] at step
    rw [List.foldl_cons, first]
    exact rest.trans (congrArg reg (by rw [List.length_cons]; omega))

/-- The reflected polynomial of the check. -/
theorem polynomial_eq {poly : BitVec 32} (reflected : ∀ i : Fin 32, poly.getLsbD i.val = (0x04C11DB7 : BitVec 32).getLsbD (31 - i.val)) :
    poly = 0xEDB88320 := by
  have mirror : ∀ i : Fin 32, (0x04C11DB7 : BitVec 32).getLsbD (31 - i.val) = (0xEDB88320 : BitVec 32).getLsbD i.val := by decide
  exact BitVec.eq_of_getLsbD_eq fun i small => (reflected ⟨i, small⟩).trans (mirror ⟨i, small⟩)

/-- Settles O48: the choice of the frame, then the bytes of its message. -/
theorem messagesToTheUnit : Obligations.MessagesToTheUnit := by
  refine ⟨fun p s => ⟨?_, ?_, ?_, ?_, ?_, ?_, ?_⟩, ?_, ?_⟩
  · intro f rest frame free noTune room notHeld enabled front first spelled
    have sends := doSendStart_control free noTune room (chooseFrame_insert notHeld enabled front first)
    refine ⟨fun plain => settles_sendStart (sends.trans (sendControl_plain front plain spelled)), ?_⟩
    rintro n u probe rfl
    refine settles_sendStart (sends.trans ((sendControl_probe front probe spelled).trans ?_))
    exact startProbe_eq n _ (onPort_sup ..)
  · intro x rest r frame free noTune room serves front first named spelled
    exact settles_sendStart ((doSendStart_copy free noTune room (chooseFrame_copy serves front first) named).trans
      (sendCopy_eq front named spelled))
  · intro idle
    refine settles_sendStart (doSendStart_idle ?_)
    by_cases starts : s.paths[p].port.link = .free ∧ s.paths[p].port.pendingTune = none ∧ s.paths[p].port.awaiting.length < 4
    · obtain ⟨free, noTune, room⟩ := starts
      refine dueSend_none ?_
      rcases idle with h | h | h | held | disabled | ⟨empty, none⟩
      · exact absurd free h
      · exact absurd noTune h
      · exact absurd room (Nat.not_lt.mpr h)
      · exact chooseFrame_silent (.inl held)
      · exact chooseFrame_silent (.inr disabled)
      · exact chooseFrame_empty empty none
    · exact dueSend_blocked starts
  · exact fun idle => settles_of_do (c := .tuneStart p) (u := doTuneStart p s) rfl (doTuneStart_idle idle)
  · exact fun b sending => settles_of_do (c := .sendEnd p) (u := doSendEnd p s) rfl (doSendEnd_sending sending)
  · exact fun k free due => settles_of_do (c := .tuneStart p) (u := doTuneStart p s) rfl (doTuneStart_free free due)
  · exact fun b tuning => settles_of_do (c := .tuneEnd p) (u := doTuneEnd p s) rfl (doTuneEnd_tuning tuning)
  · intro le seconds nanoseconds bytes secondsOf nanosecondsOf
    obtain rfl : le = littleEndian := funext bytes
    obtain rfl : seconds = fun v : Time => BitVec.ofNat 32 (v / 1000000000) := funext secondsOf
    obtain rfl : nanoseconds = fun v : Time => BitVec.ofNat 32 (v % 1000000000) := funext nanosecondsOf
    refine ⟨?_, fun check h payload path stream => ?_⟩
    · rintro f k n content (⟨rfl, rfl, rfl⟩ | ⟨sent, arrival, rfl, rfl, rfl⟩ | ⟨mask, contract, rfl, rfl, rfl⟩
        | ⟨answered, profile, mismatch, rfl, rfl, rfl⟩ | ⟨rfl, rfl, rfl⟩ | ⟨status, rfl, rfl, rfl⟩)
      · exact ⟨rfl, rfl, rfl⟩
      · exact ⟨rfl, rfl, echo_payload n sent arrival⟩
      · exact ⟨rfl, rfl, rfl⟩
      · exact ⟨rfl, rfl, grant_payload n answered profile mismatch⟩
      · exact ⟨rfl, rfl, rfl⟩
      · exact ⟨rfl, rfl, answer_payload n status⟩
    · obtain ⟨kind, place, role⟩ := header_first (kind_code_lt h.kind) path (role_code_lt h.role)
      obtain ⟨quality, number, spare⟩ := header_second (quality_code_lt h.quality) stream
      exact ⟨_, _, headerBytes h, headerBytes_eq h, frameBytes_eq check h payload, kind, place,
        role.trans (role_code_follow h.role), quality, number, spare⟩
  · intro bytes poly reg reflected start steps
    obtain rfl := polynomial_eq reflected
    have serial := foldl_crcByte bytes reg steps
    rw [start] at serial
    rw [crc32, serial]

end Sys2Proof.FrameBytes
end

section
/-! SUPPORT. GAP_EXPIRY and AGEING (R76, R125, R142). -/

namespace Sys2Proof.Deadlines

open Machine PathSupervision Commands

/-! ## The state brought to the deadline -/

/-- The state with the time value just past deadline `d`, unless it has passed it already. -/
def brought (d now : Time) (s : State) : State :=
  if d < s.time.value then s else { s with
    time := { s.time with value := now, fraction := 0 }
    pulses := if s.time.value / 1000000000 < now / 1000000000 then { s.pulses with ppsOut := some 0 } else s.pulses }

section
variable {s : State} {d now : Time} (when : now = if d < s.time.value then s.time.value else d + 1)

theorem brought_keeps (d now : Time) (s : State) : (brought d now s).sel = s.sel ∧ (brought d now s).streams = s.streams
    ∧ (brought d now s).time.state = s.time.state := by
  rw [brought]
  split
  · exact ⟨rfl, rfl, rfl⟩
  · exact ⟨rfl, rfl, rfl⟩

include when

theorem brought_value : (brought d now s).time.value = now := by
  rw [brought]
  by_cases passed : d < s.time.value
  · rw [if_pos passed, when, if_pos passed]
  · rw [if_neg passed]

/-- PPS_OUT is produced when the seconds increase (R76). -/
theorem brought_ppsOut : (brought d now s).pulses.ppsOut
    = if s.time.value / 1000000000 < now / 1000000000 then some 0 else s.pulses.ppsOut := by
  rw [brought]
  by_cases passed : d < s.time.value
  · have still : now = s.time.value := when.trans (if_pos passed)
    rw [if_pos passed, still, if_neg (Nat.lt_irrefl _)]
  · rw [if_neg passed]
    by_cases second : s.time.value / 1000000000 < now / 1000000000
    · simp only [if_pos second]
    · simp only [if_neg second]

theorem passTime_brought (inside : now ≤ 4294967295 * 1000000000 + 999999999) : passTime d s = passDeadlines (brought d now s) :=
  passTime_eq s _ d now when inside rfl

end

/-! ## Gap entries (R142) -/

/-- One gap entry of stream `i` expires at `st`, with a loss marker when markers are on (R142). -/
def lostGap (i : StreamId) (markers : Bool) (st : Stamp) (t : State) (g : Gap) : State :=
  let lost := raiseCause 12 (onStream i (fun x => { x with lost := satInc x.lost }) t)
  if markers then deliver ⟨i, none, g.sequence, st, [], ⟨false, false, false, true, false, decide (st.quality ≠ .locked)⟩⟩ lost
  else lost

theorem onStream_self (i : StreamId) (f : Machine.Stream → Machine.Stream) (s : State) :
    (onStream i f s).streams[i] = f s.streams[i] := onStream_streams_same i f s

theorem foldl_expireGap (i : StreamId) (l : List Gap) (s : State) :
    l.foldl (expireGap i) s = l.foldl (lostGap i s.streams[i].markers ⟨s.time.value, s.time.state⟩) s := by
  have one : ∀ (g : Gap) (t : State), expireGap i t g = lostGap i t.streams[i].markers ⟨t.time.value, t.time.state⟩ t g :=
    fun g t => expireGaps_eq t.time.value t.time.state i [g] t rfl rfl
  induction l generalizing s with
  | nil => rfl
  | cons g l ih =>
    obtain ⟨time, streams⟩ := expireGap_keeps i g s
    rw [List.foldl_cons, List.foldl_cons, ih, time, (streams i).2, one]

theorem expireStream_eq (i : StreamId) (t : State) : expireStream t i
    = (t.streams[i].gaps.filter (fun g => decide (g.expiry.time < t.time.value))).foldl
        (lostGap i t.streams[i].markers ⟨t.time.value, t.time.state⟩)
        (onStream i (fun x => { x with gaps := x.gaps.filter (fun g => decide (t.time.value ≤ g.expiry.time)) }) t) := by
  have ahead : (fun g : Gap => !g.isPast t.time.value) = fun g => decide (t.time.value ≤ g.expiry.time) := by
    funext g
    rw [Gap.isPast, ← decide_not]
    exact decide_eq_decide.mpr Nat.not_lt
  have markers : ∀ f : List Gap → List Gap,
      (onStream i (fun x => { x with gaps := f x.gaps }) t).streams[i].markers = t.streams[i].markers := fun f => by
    rw [onStream_self]
  rw [expireStream, foldl_expireGap, markers fun l => l.filter fun g => !g.isPast t.time.value, ahead]
  rfl

theorem doGapExpiry_eq {i : StreamId} {s : State} {d : Time} (front : ∃ g ∈ s.streams[i].gaps, g.expiry.time = d)
    (least : ∀ g ∈ s.streams[i].gaps, d ≤ g.expiry.time) : doGapExpiry i s = passTime d s := by
  have first : earliest (s.streams[i].gaps.map (·.expiry.time)) = some d :=
    earliest_of_least _ d (List.mem_map.mpr front) (List.forall_mem_map.mpr least)
  rw [doGapExpiry, first]

/-! ## Queued records (R125) -/

theorem deadline_iff (r : LaunchRecord) (d : Time) : r.deadline = some d ↔ ∃ us, r.ageLimit = some us ∧ r.capture.time + us * 1000 = d := by
  rw [LaunchRecord.deadline, Option.map_eq_some_iff]

theorem doAgeing_eq {s : State} {d : Time}
    (front : ∃ x ∈ s.sel.urgent.names ++ s.sel.normal.names, ∃ r us, recordNamed s x = some r ∧ r.ageLimit = some us
      ∧ r.capture.time + us * 1000 = d)
    (least : ∀ x ∈ s.sel.urgent.names ++ s.sel.normal.names, ∀ r us, recordNamed s x = some r → r.ageLimit = some us →
      d ≤ r.capture.time + us * 1000) : doAgeing s = passTime d s := by
  have first : earliest (((s.sel.urgent.names ++ s.sel.normal.names).filterMap (recordNamed s)).filterMap (·.deadline)) = some d := by
    refine earliest_of_least _ d ?_ fun e listed => ?_
    · obtain ⟨x, queued, r, us, named, limit, deadline⟩ := front
      exact List.mem_filterMap.mpr ⟨r, List.mem_filterMap.mpr ⟨x, queued, named⟩, (deadline_iff r d).mpr ⟨us, limit, deadline⟩⟩
    · obtain ⟨r, listed, deadline⟩ := List.mem_filterMap.mp listed
      obtain ⟨x, queued, named⟩ := List.mem_filterMap.mp listed
      obtain ⟨us, limit, rfl⟩ := (deadline_iff r e).mp deadline
      exact least x queued r us named limit
  rw [doAgeing, first]

theorem ageOne_streams (s : State) (x : RecordName) : (ageOne s x).streams = s.streams := by
  rw [ageOne]
  split
  next r _ =>
    split
    · rw [requestOutcome_eq]
    · rfl
  next => rfl

theorem ageRecords_streams (s : State) : (ageRecords s).streams = s.streams := by
  rw [ageRecords]
  generalize s.sel.urgent.names ++ s.sel.normal.names = names
  induction names generalizing s with
  | nil => rfl
  | cons x names ih => rw [List.foldl_cons, ih, ageOne_streams]

/-- Without a passed gap entry passing the deadlines is the ageing of the queued records. -/
theorem passDeadlines_records {s : State} (ahead : ∀ j : StreamId, ∀ g ∈ s.streams[j].gaps, s.time.value ≤ g.expiry.time) :
    passDeadlines s = ageRecords s := by
  have time : (ageRecords s).time = s.time := (ageOnes_eq _ _ s rfl).2
  have still : ∀ l : List StreamId, l.foldl expireStream (ageRecords s) = ageRecords s := by
    intro l
    induction l with
    | nil => rfl
    | cons i l ih =>
      have first : expireStream (ageRecords s) i = ageRecords s := expireStream_ahead _ i (by
        rw [ageRecords_streams, time]
        exact ahead i)
      rw [List.foldl_cons, first, ih]
  exact still _

/-- Settles O49: the row brings its deadline about, and only what it names has been passed. -/
theorem deadlinesExpireGapsAndAgeRecords : Obligations.DeadlinesExpireGapsAndAgeRecords := by
  rintro s u d now names when inside is rfl
  obtain rfl : u = brought d now s := is
  obtain ⟨sel, streams, state⟩ := brought_keeps d now s
  have value : (brought d now s).time.value = now := brought_value when
  have named : ∀ x, recordNamed (brought d now s) x = recordNamed s x := fun x => by rw [recordNamed, recordNamed, sel]
  have pulse := brought_ppsOut when
  refine ⟨fun i front least records others => ?_, fun front least gaps => ?_⟩
  · have young : ageRecords (brought d now s) = brought d now s := ageRecords_ahead _ (by
      simp only [sel, value, named]
      exact records)
    have passes : doGapExpiry i s = passDeadlines (brought d now s) :=
      (doGapExpiry_eq front least).trans (passTime_brought when inside)
    have expires : doGapExpiry i s = expireStream (brought d now s) i :=
      passes.trans (passDeadlines_one i _ young (by simp only [streams, value]; exact others))
    refine ⟨endsIn_of_settle _ s s _ _ rfl (congrArg kept (expires.trans ?_)), _, rfl, ?_⟩
    · rw [expireStream_eq, streams, value, state]
      rfl
    · rw [settle_ppsOut, passes, passDeadlines_pulses, pulse]
  · have passes : doAgeing s = passDeadlines (brought d now s) := (doAgeing_eq front least).trans (passTime_brought when inside)
    have ages : doAgeing s = ageRecords (brought d now s) :=
      passes.trans (passDeadlines_records (by simp only [streams, value]; exact gaps))
    refine ⟨endsIn_of_settle _ s s _ _ rfl (congrArg kept (ages.trans ?_)), _, rfl, ?_⟩
    · rw [ageRecords, (ageOnes_eq now _ _ value).1, sel]
      rfl
    · rw [settle_ppsOut, passes, passDeadlines_pulses, pulse]

end Sys2Proof.Deadlines
end

section
/-! SUPPORT. SELECTION (R117 to R124) and the request of an outcome (R108, R109, R111, R131). -/

namespace Sys2Proof.Selections

open Machine PathSupervision Commands

/-! ## What a selection does with a record (R119 to R123) -/

section
variable {s : State} {r : LaunchRecord}

theorem choose_fastest (mode : r.mode = .fastest) (noFlag : s.sel.rainFlag = false) (noInput : s.sel.rainInput = false) :
    choose s r = chooseFastest s := by
  rw [choose, mode]
  exact if_neg (by rw [rainAlert, noFlag, noInput]; decide)

theorem choose_asDual {rain : Bool} (way : (r.mode = .dual ∧ rain = false)
    ∨ (r.mode = .fastest ∧ (s.sel.rainFlag = true ∨ s.sel.rainInput = true) ∧ rain = true)) : choose s r = chooseDual s rain := by
  rw [choose]
  rcases way with ⟨mode, rfl⟩ | ⟨mode, alert, rfl⟩
  · rw [mode]
  · rw [mode]
    exact if_pos ((rainAlert_iff s).mpr alert)

theorem choose_pinned {p : PathId} (mode : r.mode = .pinned) (pinned : r.pinned = some p) : choose s r = choosePinned s p := by
  rw [choose, mode]
  simp only [pinned]

theorem choose_ground (mode : r.mode = .ground) : choose s r = chooseGround s := by
  rw [choose, mode]

theorem chooseFastest_head {h : PathId} {rest : List PathId} (list : fastList s = h :: rest) (room : Room s h) :
    chooseFastest s = .place [h] false false false := by
  rw [chooseFastest, candidates_fast, list]
  exact if_pos ((hasRoom_iff s h).mpr room)

/-- The first candidate with room behind a full head (R120). -/
theorem chooseFastest_spill {h p : PathId} {full more : List PathId} (list : fastList s = h :: (full ++ p :: more))
    (crowded : ¬ Room s h) (spill : s.sel.spill = true) (filled : ∀ q ∈ full, ¬ Room s q) (room : Room s p) :
    chooseFastest s = .place [p] true false false := by
  have found : (full ++ p :: more).find? (hasRoom s) = some p :=
    find_of_split _ _ full more p rfl ((hasRoom_iff s p).mpr room) fun q listed => (hasRoom_false s q).mpr (filled q listed)
  rw [chooseFastest, candidates_fast, list]
  refine (if_neg (mt (hasRoom_iff s h).mp crowded)).trans ((if_pos spill).trans ?_)
  rw [found]

theorem chooseDual_single {p : PathId} {rain : Bool} (list : dualList s = [p]) (room : Room s p) :
    chooseDual s rain = .place [p] false true rain := by
  rw [chooseDual, candidates_dual, list]
  exact if_pos ((hasRoom_iff s p).mpr room)

/-- The two first candidates with room (R121). -/
theorem chooseDual_two {p q : PathId} {rest : List PathId} {rain : Bool}
    (roomy : (dualList s).filter (fun x => decide (Room s x)) = p :: q :: rest) :
    chooseDual s rain = .place [p, q] false false rain := by
  have room : hasRoom s = fun x => decide (Room s x) := funext (hasRoom_eq s)
  rw [chooseDual, candidates_dual, room]
  cases list : dualList s with
  | nil =>
    rw [list] at roomy
    cases roomy
  | cons a others =>
    cases others with
    | nil =>
      have short := List.length_filter_le (fun x => decide (Room s x)) [a]
      rw [list] at roomy
      rw [roomy] at short
      exact absurd short (by rw [List.length_cons, List.length_cons, List.length_singleton]; omega)
    | cons b others =>
      rw [list] at roomy
      simp only [roomy]

theorem choosePinned_down {p : PathId} (unlisted : ¬ Listed s p) : choosePinned s p = .pinDown :=
  if_pos (by rw [Bool.not_eq_true', ← Bool.not_eq_true, listedSelectable_iff]; exact unlisted)

theorem choosePinned_place {p : PathId} (listed : Listed s p) (room : Room s p) :
    choosePinned s p = .place [p] false false false :=
  (if_neg (by rw [Bool.not_eq_true', Bool.not_eq_false, listedSelectable_iff]; exact listed)).trans
    (if_pos ((hasRoom_iff s p).mpr room))

theorem chooseGround_place (listed : Listed s 4) (room : Room s 4) : chooseGround s = .place [4] false false false :=
  if_pos (by rw [Bool.and_eq_true, listedSelectable_iff, hasRoom_iff]; exact ⟨listed, room⟩)

/-! ## SELECTION (R118) -/

theorem nextSelection_none (none : s.sel.launchHold = true
    ∨ ((∀ r, ¬ Fronts s .urgent r ∨ MustWait s r) ∧ ∀ r, ¬ Fronts s .normal r ∨ MustWait s r)) : nextSelection s = .none := by
  rw [nextSelection]
  rcases none with held | ⟨urgent, normal⟩
  · exact if_pos held
  · rw [(frontChoice_none s .urgent).mpr urgent, (frontChoice_none s .normal).mpr normal]
    exact ite_self _

/-- The front record whose turn it is (R118). -/
def Turn (s : State) (r : LaunchRecord) : Prop :=
  s.sel.launchHold = false ∧ Fronts s r.cls r ∧ (r.cls = .normal → ∀ y, Fronts s .urgent y → MustWait s y)

theorem nextSelection_turn (turn : Turn s r) (goes : choose s r ≠ .wait) : nextSelection s = some (r, choose s r) := by
  obtain ⟨free, front, first⟩ := turn
  exact nextSelection_front s r free front first fun waits => goes ((choose_wait s r).mpr waits)

theorem endsIn_placed {ps : List PathId} {spill single rain : Bool} (turn : Turn s r)
    (places : choose s r = .place ps spill single rain) : EndsIn .selection s (placed r ps spill single rain s) := by
  have next := nextSelection_turn turn (by rw [places]; exact Choice.noConfusion)
  refine endsIn_of_settle _ s s _ _ rfl ?_
  rw [doSelection, next, places]
  exact placeCopies_kept r ps spill single rain s

theorem endsIn_pinDown (turn : Turn s r) (down : choose s r = .pinDown) :
    EndsIn .selection s (requestOutcome r .pinDown s) := by
  have next := nextSelection_turn turn (by rw [down]; exact Choice.noConfusion)
  refine endsIn_of_settle _ s s _ _ rfl ?_
  rw [doSelection, next, down]

end

/-- Settles O50: the mode of the front record decides what a selection does with it. -/
theorem selectionPlacesTheFrontRecord : Obligations.SelectionPlacesTheFrontRecord := by
  refine ⟨fun s none => endsIn_of_settle _ s s _ _ rfl (by rw [doSelection, nextSelection_none none]),
    fun s r free front first => ?_⟩
  have turn : Turn s r := ⟨free, front, first⟩
  refine ⟨fun mode noFlag noInput => ⟨fun h rest list room => ?_, fun h p full more list crowded spill filled room => ?_⟩,
    fun rain way => ⟨fun p list room => ?_, fun p q rest roomy => ?_⟩, fun p mode pinned => ⟨fun unlisted => ?_,
    fun listed room => ?_⟩, fun mode listed room => ?_⟩
  · exact endsIn_placed turn ((choose_fastest mode noFlag noInput).trans (chooseFastest_head list room))
  · exact endsIn_placed turn ((choose_fastest mode noFlag noInput).trans (chooseFastest_spill list crowded spill filled room))
  · exact endsIn_placed turn ((choose_asDual way).trans (chooseDual_single list room))
  · exact endsIn_placed turn ((choose_asDual way).trans (chooseDual_two roomy))
  · exact endsIn_pinDown turn ((choose_pinned mode pinned).trans (choosePinned_down unlisted))
  · exact endsIn_placed turn ((choose_pinned mode pinned).trans (choosePinned_place listed room))
  · exact endsIn_placed turn ((choose_ground mode).trans (chooseGround_place listed room))

/-! ## The request of an outcome (R108, R109, R111, R131) -/

theorem without_eq (q : ClassQueue) (x : RecordName) : q.without x
    = ⟨q.front.filter (fun y => decide (y ≠ x)), q.back.filter (fun y => decide (y ≠ x))⟩ := by
  have other : ∀ l : List RecordName, l.filter (fun y => !(y == x)) = l.filter (fun y => decide (y ≠ x)) :=
    fun l => List.filter_congr fun y _ => by rw [beq_eq_decide, ← decide_not]
  rw [ClassQueue.without, other, other]

/-- A record that has left a class queue stands nowhere in it. -/
theorem ne_of_mem_without {q : ClassQueue} {x y : RecordName} (listed : y ∈ (q.without x).front ++ (q.without x).back) : y ≠ x := by
  rw [without_eq, ← List.filter_append] at listed
  exact of_decide_eq_true (List.mem_filter.mp listed).2

theorem pathSet_getLsbD (l : List PathId) (i : PathId) : (pathSet l).getLsbD i.val = decide (i ∈ l) := by
  have one : ∀ p i : PathId, (BitVec.ofNat 5 (1 <<< p.val)).getLsbD i.val = decide (i = p) := by decide
  have fold : ∀ (l : List PathId) (m : BitVec 5), (l.foldl (fun m p => m ||| BitVec.ofNat 5 (1 <<< p.val)) m).getLsbD i.val
      = (m.getLsbD i.val || decide (i ∈ l)) := by
    intro l
    induction l with
    | nil => exact fun m => (Bool.or_false _).symm
    | cons p l ih =>
      intro m
      rw [List.foldl_cons, ih, BitVec.getLsbD_or, one, Bool.or_assoc, ← Bool.decide_or]
      simp only [List.mem_cons]
  have zero : (0 : BitVec 5).getLsbD i.val = false := BitVec.getLsbD_zero
  rw [pathSet, fold, zero, Bool.false_or]

/-- The counters after a result is requested (R111). -/
theorem count_eq (c : SelectorCounters) (res : OutcomeResult) : c.count res = (match res with
    | .launched => { c with launched := satInc c.launched }
    | .rejected => { c with rejected := satInc c.rejected }
    | .stale => { c with stale := satInc c.stale }
    | .pinDown => { c with pinDown := satInc c.pinDown }
    | .flushed => { c with flushed := satInc c.flushed }
    | .refusedFull | .badHeader => c) := by
  cases res <;> rfl

theorem outRings_set_same (s : State) (n : RingId) (x : OutRing) : (s.outRings.set n.val x n.isLt)[n] = x :=
  Vector.getElem_set_self ..

theorem outRings_set_other (s : State) {n m : RingId} (x : OutRing) (other : m ≠ n) :
    (s.outRings.set n.val x n.isLt)[m] = s.outRings[m] :=
  Vector.getElem_set_ne _ _ fun same => other (Fin.ext same.symm)

theorem counters_set_same (s : State) (n : RingId) (x : SelectorCounters) : (s.sel.counters.set n.val x n.isLt)[n] = x :=
  Vector.getElem_set_self ..

theorem counters_set_other (s : State) {n m : RingId} (x : SelectorCounters) (other : m ≠ n) :
    (s.sel.counters.set n.val x n.isLt)[m] = s.sel.counters[m] :=
  Vector.getElem_set_ne _ _ fun same => other (Fin.ext same.symm)

/-- Settles O51: each part of the state as `requestOutcome_eq` spells it. -/
theorem requestedOutcomesJoinTheirList : Obligations.RequestedOutcomesJoinTheirList := by
  rintro r res s t rfl
  rw [requestOutcome_eq]
  refine ⟨rfl, fun y listed urgent => ?_, fun y listed normal => ?_, rfl, rfl, ?_, pathSet_getLsbD, ?_, ?_, ?_, fun n other => ⟨?_, ?_⟩,
    ?_, rfl, rfl⟩
  · simp only [if_pos urgent] at listed
    exact ne_of_mem_without listed
  · simp only [if_pos normal] at listed
    exact ne_of_mem_without listed
  · simp only [outRings_set_same]
    rfl
  · simp only [without_eq]
  · simp only [without_eq]
  · simp only [counters_set_same]
    exact count_eq _ res
  · exact counters_set_other s _ other
  · exact outRings_set_other s _ other
  · simp only [outRings_set_same]

end Sys2Proof.Selections
end

section
/-! SUPPORT. The timer channels: their rows, the insert queue and their ticks (R7, R12, R13, R16, R38, R127, R167, R170, R171). -/

namespace Sys2Proof.TimerChannels

open Machine PathSupervision Commands UnitReports FramesReceived

/-! ## The probe channel (R7, R16, R38) -/

/-- The probe channel of path `p` is reloaded and runs (R167). -/
def probeReloaded (p : PathId) (s : State) : State :=
  onPath p (fun x => { x with probe := ⟨x.setup.probeReload, true, x.setup.probeReload, none, x.setup.probeTap⟩ }) s

section
variable {p : PathId} {s : State}

theorem probeReloaded_path (p : PathId) (s : State) : (probeReloaded p s).paths[p]
    = { s.paths[p] with
        probe := ⟨s.paths[p].setup.probeReload, true, s.paths[p].setup.probeReload, none, s.paths[p].setup.probeTap⟩ } :=
  onPath_self ..

theorem doProbeChannelUnderflow_runs (runs : s.paths[p].probe.run = true) :
    doProbeChannelUnderflow p s = probeUnderflow p (probeReloaded p s) := by
  have reload : onPath p presetProbe s = probeReloaded p s :=
    StatusRecords.onPath_congr p _ _ s (by rw [presetProbe, Channel.preset, runs])
  rw [doProbeChannelUnderflow, if_pos runs, reload]

theorem probeUnderflow_offers {v : State} (air : p ≠ 4) (state : v.paths[p].sup.state = .down) :
    probeUnderflow p v = offered p v := by
  simp only [probeUnderflow, state]
  rw [if_pos ((isAir_iff p).mpr air), sendOffer_eq]

theorem probeUnderflow_probes {v : State} (state : (p = 4 ∧ v.paths[p].sup.state = .down) ∨ v.paths[p].sup.state = .up
    ∨ v.paths[p].sup.state = .fading
    ∨ (v.paths[p].sup.state = .training ∧ v.paths[p].sup.target = none ∧ v.paths[p].sup.contract ≠ 0)) :
    probeUnderflow p v = probed p v := by
  rw [← sendProbe_eq, probeUnderflow]
  rcases state with ⟨ground, down⟩ | up | fading | ⟨training, target, contract⟩
  · simp only [down]
    exact if_neg (mt (isAir_iff p).mp (not_not.mpr ground))
  · simp only [up]
  · simp only [fading]
  · simp only [training, target, Option.isSome_none, Bool.false_or, beq_iff_eq]
    exact if_neg contract

theorem probeUnderflow_resends {v : State} (state : v.paths[p].sup.state = .retune
    ∨ (v.paths[p].sup.state = .training ∧ (v.paths[p].sup.target ≠ none ∨ v.paths[p].sup.contract = 0))) :
    probeUnderflow p v = resend p v := by
  rw [probeUnderflow]
  rcases state with retune | ⟨training, waits⟩
  · simp only [retune]
  · simp only [training]
    refine if_pos ?_
    rw [Bool.or_eq_true, beq_iff_eq, Option.isSome_iff_ne_none]
    exact waits

/-- The contract frame of a resend (R38). -/
def resent (p : PathId) (h : Nat) (v : State) : State :=
  if v.paths[p].setup.role = .follow then offered p v
  else if h = 0 then mismatched p (granted p 0 0 v)
  else if h = v.paths[p].sup.lastGranted then grantedAgain p v
  else decided p h (granted p 0 h v)

theorem onPath_unchanged (p : PathId) (w : State) : onPath p (fun y => y) w = w := by
  rw [onPath]
  simp

/-- A TUNE of the target is ordered where there is one. -/
theorem tuneOrdered_eq (p : PathId) (w : State) : (match w.paths[p].sup.target with | some k => orderTune p k w | none => w)
    = onPort p (fun q => { q with
        pendingTune := match w.paths[p].sup.target with | some k => some k | none => q.pendingTune }) w := by
  cases w.paths[p].sup.target with
  | some k => rfl
  | none => exact (onPath_unchanged p w).symm

theorem resend_eq {h : Nat} {v : State} (top : commonNow v.paths[p].sup = h) : resend p v
    = onPort p (fun q => { q with
        pendingTune := match (resent p h v).paths[p].sup.target with | some k => some k | none => q.pendingTune }) (resent p h v) := by
  have frame : (match v.paths[p].setup.role with | .follow => sendOffer p v | .lead => leadResends p v) = resent p h v := by
    rw [resent]
    cases role : v.paths[p].setup.role with
    | follow => rw [if_pos rfl, sendOffer_eq]
    | lead => simp only [leadResends, top, if_neg (show ¬ Role.lead = .follow by decide), sendNewGrant_eq, takeMismatch_eq,
        repeatGrant_eq, decideProfile_eq]
  rw [← tuneOrdered_eq, ← frame]
  rfl

/-! ## Silence, hold and guard (R12, R13, R167, R170, R171) -/

theorem doSilenceUnderflow_hears (runs : s.paths[p].silence.run = true) (hears : s.paths[p].sup.state = .training
    ∨ s.paths[p].sup.state = .up ∨ s.paths[p].sup.state = .fading ∨ s.paths[p].sup.state = .retune) :
    doSilenceUnderflow p s = heldFrom p (onPath p (fun x => { x with
      silence := ⟨x.setup.silenceReload, false, x.setup.silenceReload, none, x.setup.silenceTap⟩ }) s) := by
  have stopped : stopSilence p (onPath p presetSilence s) = onPath p (fun x => { x with
      silence := ⟨x.setup.silenceReload, false, x.setup.silenceReload, none, x.setup.silenceTap⟩ }) s := by
    rw [stopSilence, onPath_onPath]
    rfl
  have state : (onPath p (fun x => { x with
      silence := ⟨x.setup.silenceReload, false, x.setup.silenceReload, none, x.setup.silenceTap⟩ }) s).paths[p].sup.state
      = s.paths[p].sup.state := by rw [onPath_self]
  have alive : s.paths[p].sup.state.hears = true := by rcases hears with h | h | h | h <;> rw [h] <;> rfl
  have notHeld : s.paths[p].sup.state ≠ .held := by rcases hears with h | h | h | h <;> rw [h] <;> decide
  rw [doSilenceUnderflow, if_pos runs, stopped, silenceEnds, if_pos (by rw [state]; exact alive),
    enterHeld_eq p _ (by rw [state]; exact notHeld)]

theorem holdValue_eq (x : Path) : holdValue x
    = (if x.setup.holdMode = .wide then 256 * x.holdHigh.counter.toNat else 0) + x.holdLow.counter.toNat := by
  rw [holdValue]
  cases x.setup.holdMode with
  | wide => rw [if_pos rfl, Nat.mul_comm]
  | narrow => rw [if_neg (by decide), Nat.zero_add]

theorem low_byte (c : BitVec 16) : BitVec.ofNat 8 c.toNat = c.extractLsb' 0 8 := by
  apply BitVec.eq_of_toNat_eq
  rw [BitVec.toNat_ofNat, BitVec.extractLsb'_toNat, Nat.shiftRight_zero]

theorem high_byte (c : BitVec 16) : BitVec.ofNat 8 (c.toNat / 256) = c.extractLsb' 8 8 := by
  apply BitVec.eq_of_toNat_eq
  rw [BitVec.toNat_ofNat, BitVec.extractLsb'_toNat, Nat.shiftRight_eq_div_pow]

/-- The hold counter takes the compare's value. -/
theorem setHoldValue_compare (c : BitVec 16) (x : Path) : setHoldValue c.toNat x = { x with
    holdLow := { x.holdLow with counter := c.extractLsb' 0 8 }
    holdHigh := { x.holdHigh with
      counter := if decide (x.setup.holdMode = .wide) = true then c.extractLsb' 8 8 else x.holdHigh.counter } } := by
  rw [setHoldValue]
  cases mode : x.setup.holdMode with
  | wide => simp only [low_byte, high_byte, decide_true, if_true]
  | narrow => simp only [low_byte, show decide (HoldMode.narrow = .wide) = false from rfl, Bool.false_eq_true, if_false]

theorem doHoldCompareMatch_above {c : BitVec 16} (runs : s.paths[p].holdLow.run = true)
    (compare : s.paths[p].holdLow.loadedCompare = some c) (above : c.toNat < holdValue s.paths[p]) :
    doHoldCompareMatch p s = holdMatches p (onPath p (setHoldValue c.toNat) s) := by
  simp only [doHoldCompareMatch, compare]
  exact if_pos (by rw [runs, Bool.true_and, decide_eq_true_iff]; exact above)

theorem holdMatches_held {u : State} (held : u.paths[p].sup.state = .held) : holdMatches p u = downFrom p u := by
  rw [← enterDown_eq p u (by rw [held]; decide)]
  exact if_pos (beq_iff_eq.mpr held)

theorem holdMatches_other {u : State} (other : u.paths[p].sup.state ≠ .held) : holdMatches p u = u :=
  if_neg (mt beq_iff_eq.mp other)

/-- The hold counter is reloaded and stopped, and the path has not recently failed any more (R13, R170, R171). -/
def holdOver (p : PathId) (s : State) : State := onPath p (fun x => { x with
  sup := { x.sup with recentlyFailed := false }
  holdLow := match x.setup.holdMode with
    | .wide => ⟨x.setup.wideReload.extractLsb' 0 8, false, x.setup.wideReload.extractLsb' 0 8, some x.setup.wideCompare,
        x.setup.holdTap⟩
    | .narrow => ⟨x.setup.narrowReload, false, x.setup.narrowReload, some (x.setup.narrowCompare.zeroExtend 16),
        x.setup.holdTap⟩
  holdHigh := match x.setup.holdMode with
    | .wide => ⟨x.setup.wideReload.extractLsb' 8 8, x.holdHigh.run, x.setup.wideReload.extractLsb' 8 8, none,
        x.setup.holdTap⟩
    | .narrow => x.holdHigh }) s

theorem stopHold_over (p : PathId) (s : State) :
    onSup p (fun u => { u with recentlyFailed := false }) (onPath p stopHold s) = holdOver p s := by
  rw [onSup, onPath_onPath, holdOver]
  refine StatusRecords.onPath_congr p _ _ s ?_
  simp only [stopHold, presetHold]
  cases s.paths[p].setup.holdMode with
  | wide => rfl
  | narrow => rfl

theorem stopHold_state (p : PathId) (s : State) : (onPath p stopHold s).paths[p].sup.state = s.paths[p].sup.state := by
  rw [onPath_self]
  simp only [stopHold, presetHold]
  cases s.paths[p].setup.holdMode with
  | wide => rfl
  | narrow => rfl

theorem holdOver_state (p : PathId) (s : State) : (holdOver p s).paths[p].sup.state = s.paths[p].sup.state := by
  rw [holdOver, onPath_self]

theorem doHoldUnderflow_runs (runs : s.paths[p].holdLow.run = true) : doHoldUnderflow p s
    = if s.paths[p].sup.state = .held then enterDown p (holdOver p s) else holdOver p s := by
  rw [doHoldUnderflow, if_pos runs, holdEnds, stopHold_state, stopHold_over]
  exact if_congr beq_iff_eq rfl rfl

theorem doGuardUnderflow_runs (narrow : s.paths[p].setup.holdMode = .narrow) (runs : s.paths[p].holdHigh.run = true) :
    doGuardUnderflow p s = onPath p (fun x => { x with
      holdHigh := ⟨x.setup.guardReload, false, x.setup.guardReload, none, x.setup.holdTap⟩ }) s := by
  rw [doGuardUnderflow, if_pos ((guardRuns_iff _).mpr ⟨narrow, runs⟩)]
  refine StatusRecords.onPath_congr p _ _ s ?_
  simp only [stopGuard, presetGuard, narrow]
  rfl

/-! ## The insert queue (R127) -/

theorem insertFrame_room {f : ControlFrame} (room : s.paths[p].port.insert.length < 4) :
    insertFrame p f s = onPort p (fun q => { q with insert := q.insert ++ [⟨f, 0⟩] }) s := by
  rw [insertFrame]
  exact Sending.onPort_congr p _ _ s (if_pos room)

theorem insertFrame_full {f : ControlFrame} (full : 4 ≤ s.paths[p].port.insert.length) :
    insertFrame p f s = onPort p (fun q => { q with
      insert := q.insert.drop 1 ++ [⟨f, 0⟩], insertDiscards := satInc q.insertDiscards }) s := by
  rw [insertFrame]
  exact Sending.onPort_congr p _ _ s (if_neg (Nat.not_lt.mpr full))

/-! ## Ticks (R167, R170, R171) -/

/-- A running channel counts a tick of its loaded tap now. -/
def Ticks (s : State) (c : Channel) : Prop := c.run = true ∧ s.time.reference % c.loadedTap.period = 0

theorem still_iff (s : State) (c : Channel) : (!c.run || !tapTicks s c.loadedTap) = true ↔ ¬ Ticks s c := by
  rw [Ticks, tapTicks, Bool.or_eq_true, Bool.not_eq_true', Bool.not_eq_true', ← Bool.not_eq_true, ← Bool.not_eq_true, beq_iff_eq]
  exact not_and_or.symm

theorem tickProbe_eq (p : PathId) (s : State) [Decidable (Ticks s s.paths[p].probe)] : tickProbe p s
    = if ¬ Ticks s s.paths[p].probe then s
      else if s.paths[p].probe.counter = 0 then settle (reloadProbe p s) (doProbeChannelUnderflow p s)
      else onPath p (fun y => { y with probe := { y.probe with counter := y.probe.counter - 1 } }) s :=
  if_congr (still_iff ..) rfl (if_congr beq_iff_eq rfl rfl)

theorem tickSilence_eq (p : PathId) (s : State) [Decidable (Ticks s s.paths[p].silence)] : tickSilence p s
    = if ¬ Ticks s s.paths[p].silence then s
      else if s.paths[p].silence.counter = 0 then settle s (doSilenceUnderflow p s)
      else onPath p (fun y => { y with silence := { y.silence with counter := y.silence.counter - 1 } }) s :=
  if_congr (still_iff ..) rfl (if_congr beq_iff_eq rfl rfl)

theorem tickHold_eq (p : PathId) (s : State) [Decidable (Ticks s s.paths[p].holdLow)] : tickHold p s
    = if ¬ Ticks s s.paths[p].holdLow then s
      else if holdValue s.paths[p] = 0 then settle s (doHoldUnderflow p s)
      else if s.paths[p].holdLow.loadedCompare = some (BitVec.ofNat 16 (holdValue s.paths[p] - 1)) then
        settle (reachCompare p s) (doHoldCompareMatch p s)
      else lowerHold p s :=
  if_congr (still_iff ..) rfl (if_congr Iff.rfl rfl (if_congr beq_iff_eq rfl rfl))

theorem tickGuard_eq (p : PathId) (s : State) [Decidable (s.paths[p].setup.holdMode = .narrow ∧ Ticks s s.paths[p].holdHigh)] :
    tickGuard p s = if ¬ (s.paths[p].setup.holdMode = .narrow ∧ Ticks s s.paths[p].holdHigh) then s
      else if s.paths[p].holdHigh.counter = 0 then settle s (doGuardUnderflow p s)
      else onPath p (fun y => { y with holdHigh := { y.holdHigh with counter := y.holdHigh.counter - 1 } }) s := by
  have still : (!guardRuns s.paths[p] || !tapTicks s s.paths[p].holdHigh.loadedTap) = true
      ↔ ¬ (s.paths[p].setup.holdMode = .narrow ∧ Ticks s s.paths[p].holdHigh) := by
    rw [Ticks, tapTicks, ← and_assoc, ← guardRuns_iff, Bool.or_eq_true, Bool.not_eq_true', Bool.not_eq_true', ← Bool.not_eq_true,
      ← Bool.not_eq_true, beq_iff_eq]
    exact not_and_or.symm
  exact if_congr still rfl (if_congr beq_iff_eq rfl rfl)

theorem holdValue_lt (x : Path) : holdValue x < 65536 := by
  have low := x.holdLow.counter.isLt
  have high := x.holdHigh.counter.isLt
  rw [holdValue_eq]
  split <;> omega

/-- A compare one below the hold value is what the next tick reaches. -/
theorem compare_below_iff (x : Path) (c : BitVec 16) :
    c = BitVec.ofNat 16 (holdValue x - 1) ↔ c.toNat = holdValue x - 1 := by
  have small := holdValue_lt x
  rw [← BitVec.toNat_inj, BitVec.toNat_ofNat, Nat.mod_eq_of_lt (by omega)]

theorem low_byte_lower (h l : Byte) (some : 256 * h.toNat + l.toNat ≠ 0) :
    BitVec.ofNat 8 (256 * h.toNat + l.toNat - 1) = l - 1 := by
  have small := l.isLt
  apply BitVec.eq_of_toNat_eq
  rw [BitVec.toNat_ofNat, BitVec.toNat_sub]
  change (256 * h.toNat + l.toNat - 1) % 256 = (256 - 1 + l.toNat) % 256
  omega

/-- The high byte is lowered when the low byte has none to give. -/
theorem high_byte_lower (h l : Byte) (some : 256 * h.toNat + l.toNat ≠ 0) :
    BitVec.ofNat 8 ((256 * h.toNat + l.toNat - 1) / 256) = if l = 0 then h - 1 else h := by
  have small := l.isLt
  have fits := h.isLt
  apply BitVec.eq_of_toNat_eq
  rw [BitVec.toNat_ofNat]
  by_cases zero : l = 0
  · rw [if_pos zero, BitVec.toNat_sub]
    have none : l.toNat = 0 := congrArg BitVec.toNat zero
    change (256 * h.toNat + l.toNat - 1) / 256 % 256 = (256 - 1 + h.toNat) % 256
    omega
  · have least : l.toNat ≠ 0 := fun none => zero (BitVec.eq_of_toNat_eq none)
    rw [if_neg zero]
    change (256 * h.toNat + l.toNat - 1) / 256 % 256 = h.toNat
    omega

/-- The hold counter one lower, byte by byte. -/
theorem lowerHold_eq {p : PathId} {s : State} (some : holdValue s.paths[p] ≠ 0) : lowerHold p s = onPath p (fun y => { y with
    holdLow := { y.holdLow with counter := y.holdLow.counter - 1 }
    holdHigh := if y.setup.holdMode = .wide ∧ y.holdLow.counter = 0 then
      { y.holdHigh with counter := y.holdHigh.counter - 1 } else y.holdHigh }) s := by
  rw [lowerHold]
  refine StatusRecords.onPath_congr p _ _ s ?_
  generalize s.paths[p] = x at some
  rw [holdValue_eq] at some ⊢
  rw [setHoldValue]
  cases mode : x.setup.holdMode with
  | wide =>
    rw [mode, if_pos rfl] at some
    simp only [if_true, true_and, low_byte_lower _ _ some, high_byte_lower _ _ some]
    split
    · rfl
    · rfl
  | narrow =>
    rw [mode, if_neg (by decide), Nat.zero_add] at some
    have lower := low_byte_lower 0 x.holdLow.counter (by simpa using some)
    have value : 256 * (0 : Byte).toNat + x.holdLow.counter.toNat = x.holdLow.counter.toNat := Nat.zero_add _
    rw [value] at lower
    simp only [show ¬ (HoldMode.narrow = .wide) by decide, if_false, false_and, Nat.zero_add, lower]

end

/-- Settles O52: each row by the state of its path, then the ticks that bring the rows about. -/
theorem channelEventsMoveThePath : Obligations.ChannelEventsMoveThePath := by
  classical
  refine ⟨fun p s v => ⟨?_, ?_, ?_, ?_, ?_⟩, fun p f t => ⟨insertFrame_room, insertFrame_full⟩, ?_⟩
  · rintro runs reloaded
    obtain rfl : v = probeReloaded p s := reloaded
    have path := probeReloaded_path p s
    have underflow := doProbeChannelUnderflow_runs runs
    refine ⟨fun air down => ?_, fun probes => ?_, ?_⟩
    · exact endsIn_of_settle _ s _ _ _ rfl (congrArg kept (underflow.trans (probeUnderflow_offers air (by rw [path]; exact down))))
    · exact endsIn_of_settle _ s _ _ _ rfl (congrArg kept (underflow.trans (probeUnderflow_probes (by rw [path]; exact probes))))
    · rintro h w resends top is
      have common : commonNow (probeReloaded p s).paths[p].sup = h := commonNow_eq (by rw [path]; exact top)
      obtain rfl : w = resent p h (probeReloaded p s) := by rw [is, resent, path]
      exact endsIn_of_settle _ s _ _ _ rfl (congrArg kept (underflow.trans
        ((probeUnderflow_resends (by rw [path]; exact resends)).trans (resend_eq common))))
  · exact fun runs hears => endsIn_of_settle _ s _ _ _ rfl (congrArg kept (doSilenceUnderflow_hears runs hears))
  · rintro c wide u runs compare rfl above is
    have set : onPath p (setHoldValue c.toNat) s = u :=
      (StatusRecords.onPath_congr p _ _ s (setHoldValue_compare c s.paths[p])).trans is.symm
    have state : u.paths[p].sup.state = s.paths[p].sup.state := by rw [is, onPath_self]
    have reaches : doHoldCompareMatch p s = holdMatches p u := set ▸ doHoldCompareMatch_above runs compare (by
      rw [holdValue_eq]
      simpa only [decide_eq_true_iff] using above)
    refine ⟨fun held => ?_, fun other => ?_⟩
    · exact endsIn_of_settle _ s _ _ _ rfl (congrArg kept (reaches.trans (holdMatches_held (state.trans held))))
    · exact endsIn_of_settle _ s _ _ _ rfl (congrArg kept (reaches.trans (holdMatches_other (by rw [state]; exact other))))
  · rintro runs u is
    obtain rfl : u = holdOver p s := is
    have ends := doHoldUnderflow_runs runs
    refine ⟨fun held => ?_, fun other => ?_⟩
    · refine endsIn_of_settle _ s _ _ _ rfl (congrArg kept (ends.trans ((if_pos held).trans (enterDown_eq p _ ?_))))
      rw [holdOver_state, held]
      decide
    · exact endsIn_of_settle _ s _ _ _ rfl (congrArg kept (ends.trans (if_neg other)))
  · exact fun narrow runs => endsIn_of_settle _ s _ _ _ rfl (congrArg kept (doGuardUnderflow_runs narrow runs))
  · rintro p s x ticks value rfl counts is
    have ticking : ∀ c, ticks c ↔ Ticks s c := fun c => (counts c).trans (by
      rw [Ticks]
      cases c.loadedTap <;> rfl)
    have held : value = holdValue s.paths[p] := by
      rw [is, holdValue_eq]
      split
      · rfl
      · rw [Nat.zero_add]
    simp only [ticking, held]
    refine ⟨fun still => ?_, fun tick some => ?_, fun tick none => ?_, fun still => ?_, fun tick some => ?_, fun tick none => ?_,
      fun still => ?_, fun tick none => ?_, fun tick some => ⟨fun c compare below => ?_, fun other => ?_⟩, fun idle => ?_,
      fun narrow tick => ⟨fun some => ?_, fun none => ?_⟩, rfl⟩
    · rw [tickProbe_eq, if_pos still]
    · rw [tickProbe_eq, if_neg (not_not.mpr tick), if_neg some]
    · rw [tickProbe_eq, if_neg (not_not.mpr tick), if_pos none]
      rfl
    · rw [tickSilence_eq, if_pos still]
    · rw [tickSilence_eq, if_neg (not_not.mpr tick), if_neg some]
    · rw [tickSilence_eq, if_neg (not_not.mpr tick), if_pos none]
      rfl
    · rw [tickHold_eq, if_pos still]
    · rw [tickHold_eq, if_neg (not_not.mpr tick), if_pos none]
      rfl
    · rw [tickHold_eq, if_neg (not_not.mpr tick), if_neg some,
        if_pos (compare.trans (congrArg _ ((compare_below_iff _ c).mpr below)))]
      rfl
    · rw [tickHold_eq, if_neg (not_not.mpr tick), if_neg some, if_neg, lowerHold_eq some]
      exact fun compare => other _ compare ((compare_below_iff _ _).mp rfl)
    · rw [tickGuard_eq, if_pos]
      rintro ⟨narrow, tick⟩
      rcases idle with wide | still
      · rw [narrow] at wide
        cases wide
      · exact still tick
    · rw [tickGuard_eq, if_neg (not_not.mpr ⟨narrow, tick⟩), if_neg some]
    · rw [tickGuard_eq, if_neg (not_not.mpr ⟨narrow, tick⟩), if_pos none]
      rfl

end Sys2Proof.TimerChannels
end

section
/-! SUPPORT. Lines: what they drive, pin changes and filter ends without a pulse, and the ends of pulses (R173, R174). -/

namespace Sys2Proof.Lines

open Machine PathSupervision Commands

/-! ## Levels (R173, Table 10-5) -/

theorem drives_iff (s : State) (x : Line) : drives s x = true
    ↔ x.event.isOutput = true ∧ (x.openDrain = false ∨ ¬ asserted s x.event ≠ x.activeLow) := by
  rw [drives, Bool.and_eq_true, Bool.or_eq_true, Bool.not_eq_true', Bool.not_eq_true', ← Bool.not_eq_true (shownLevel s x), shownLevel,
    bne_iff_ne]

theorem isOutput_iff (e : LineEvent) : e.isOutput = true
    ↔ ∀ d ∈ [LineEvent.none, .ppsIn, .forceFallback, .launchHold, .rainAlert], e ≠ d := by
  cases e <;> simp [LineEvent.isOutput]

/-! ## A change of a line that no input sees -/

theorem onLine_self (l : LineId) (f : Line → Line) (s : State) : (onLine l f s).lines[l] = f s.lines[l] := onLine_lines_same ..

theorem onLine_onLine (l : LineId) (f g : Line → Line) (s : State) : onLine l f (onLine l g s) = onLine l (fun x => f (g x)) s := by
  simp [onLine]

section
variable {l : LineId} {f : Line → Line} {s : State}

/-- The inputs are read off the input lines, which are as they were. -/
theorem inputActive_elsewhere (settled : Settled s) (output : s.lines[l].event.isOutput = true)
    (event : (f s.lines[l]).event = s.lines[l].event) {e : LineEvent} (input : e.isOutput = false) :
    inputActive { onLine l f s with lines := followed (onLine l f s) } e = inputActive s e := by
  rw [Bool.eq_iff_iff, inputActive_iff, inputActive_iff]
  refine exists_congr fun k => ?_
  change ((followed (onLine l f s))[k].event == e && (followed (onLine l f s))[k].isActive) = true ↔ _
  rw [followed_get, followPin_event]
  by_cases own : k = l
  · have other : s.lines[l].event ≠ e := fun same => by rw [same, input] at output; cases output
    rw [own, onLine_self, event, beq_false_of_ne other, Bool.false_and, Bool.false_and]
  · rw [onLine_lines_other l k f s own]
    by_cases same : s.lines[k].event = e
    · have outside : s.lines[k].event.isOutput = false := same ▸ input
      have keeps := followPin_keeps s s.lines[k] (settled.1 k)
      have low : ∀ pin, (followPin pin s.lines[k]).activeLow = s.lines[k].activeLow := by
        intro pin
        unfold followPin
        split <;> [rfl; split <;> rfl]
      rw [pinLevel_input s _ outside] at keeps
      rw [pinLevel_input _ _ outside, Line.isActive, keeps, low]
      rfl
    · rw [beq_false_of_ne same, Bool.false_and, Bool.false_and]

/-- Between events a change of an output line alone brings nothing with it. -/
theorem unannounced (settled : Settled s) (output : s.lines[l].event.isOutput = true)
    (event : (f s.lines[l]).event = s.lines[l].event) : refreshAlarm (rerank (beforeRanking s (onLine l f s)))
      = { onLine l f s with lines := followed (onLine l f s) } := by
  obtain ⟨-, forced, hold, rain, -, -, -, alarm, critical⟩ := id settled
  have inputs : takeInputs (refreshLines (onLine l f s)) = { onLine l f s with lines := followed (onLine l f s) } := by
    rw [refreshLines_eq, takeInputs, inputActive_elsewhere settled output event rfl, inputActive_elsewhere settled output event rfl,
      inputActive_elsewhere settled output event rfl, ← forced, ← hold, ← rain]
    rfl
  have calm : beforeRanking s (onLine l f s) = { onLine l f s with lines := followed (onLine l f s) } := by
    rw [beforeRanking, inputs]
    exact if_pos (beq_self_eq_true _)
  have still : rerank { onLine l f s with lines := followed (onLine l f s) }
      = { onLine l f s with lines := followed (onLine l f s) } := rerank_same s _ settled rfl rfl
  rw [calm, still, refreshAlarm]
  have on : criticalActive (onLine l f s).alarm = (onLine l f s).alarm.inService := critical.symm
  have level : alarmLevel (onLine l f s).alarm = (onLine l f s).alarm.alarm := alarm.symm
  simp only [on, level, Bool.and_not_self, Bool.false_eq_true, if_false]

/-- The line itself follows its pin, which shows what it showed. -/
theorem settle_output_line (settled : Settled s) (output : s.lines[l].event.isOutput = true)
    (event : (f s.lines[l]).event = s.lines[l].event) :
    (settle s (onLine l f s)).lines[l] = followPin (pinLevel s (f s.lines[l])) (f s.lines[l]) := by
  obtain ⟨v, a, r, n, parts⟩ := settle_parts s (onLine l f s)
  have pin : ∀ (w : Vector Line 8) (x : Line), pinLevel { onLine l f s with lines := w } x = pinLevel s x := fun _ _ => rfl
  rw [parts, unannounced settled output event]
  change (followed { onLine l f s with lines := followed (onLine l f s) })[l] = _
  rw [followed_get, pin]
  change followPin (pinLevel s (followed (onLine l f s))[l]) (followed (onLine l f s))[l] = _
  have here : pinLevel (onLine l f s) (f s.lines[l]) = pinLevel s (f s.lines[l]) := rfl
  rw [followed_get, onLine_self, here, pinLevel_follow, followPin_twice]

theorem settle_line (known : (f s.lines[l]).event.isOutput = false ∨ (Settled s ∧ s.lines[l].event.isOutput = true
    ∧ (f s.lines[l]).event = s.lines[l].event)) :
    (settle s (onLine l f s)).lines[l] = followPin (pinLevel s (f s.lines[l])) (f s.lines[l]) := by
  rcases known with input | ⟨settled, output, event⟩
  · have line := settle_line_input s (onLine l f s) l (by rw [onLine_self]; exact input)
    rw [line, onLine_self, pinLevel_input _ _ input]
  · exact settle_output_line settled output event

end

/-! ## A filter follows its pin (R174) -/

theorem followPin_filtered_zero (pin : Bool) {x : Line} (width : x.width = 0) : (followPin pin x).filtered = pin := by
  rw [followPin]
  by_cases same : x.filtered = pin
  · rw [if_pos (beq_iff_eq.mpr same)]
    exact same
  · rw [if_neg (mt beq_iff_eq.mp same), if_pos (beq_iff_eq.mpr width)]

theorem followPin_filtered_width (pin : Bool) {x : Line} (width : x.width ≠ 0) : (followPin pin x).filtered = x.filtered := by
  rw [followPin]
  split
  · rfl
  · rw [if_neg (mt beq_iff_eq.mp width)]

theorem followPin_count_same {pin : Bool} {x : Line} (same : x.filtered = pin) : (followPin pin x).count = none := by
  rw [followPin, if_pos (beq_iff_eq.mpr same)]

theorem followPin_count_starts {pin : Bool} {x : Line} (width : x.width ≠ 0) (differs : x.filtered ≠ pin) (idle : x.count = none) :
    (followPin pin x).count = some 0 := by
  rw [followPin, if_neg (mt beq_iff_eq.mp differs), if_neg (mt beq_iff_eq.mp width), idle]
  rfl

theorem followPin_rest (pin : Bool) (x : Line) : (followPin pin x).activeLow = x.activeLow := by
  unfold followPin
  split <;> [rfl; split <;> rfl]

/-! ## PIN_CHANGE (R174) -/

/-- The line with its pin's outside level changed. -/
def outsideAt (high : Bool) (x : Line) : Line := { x with outside := high }

section
variable {l : LineId} {high : Bool} {s : State}

/-- The pin change and what the filter makes of it. -/
theorem refreshed_eq (l : LineId) (high : Bool) (s : State) : refreshLine (onLine l (fun x => { x with outside := high }) s) l
    = onLine l (fun x => followPin (pinLevel s (outsideAt high s.lines[l])) (outsideAt high x)) s := by
  have here : pinLevel (onLine l (fun x => { x with outside := high }) s) (outsideAt high s.lines[l])
      = pinLevel s (outsideAt high s.lines[l]) := rfl
  rw [refreshLine, onLine_self, onLine_onLine, ← here]
  rfl

theorem pulseOnEdge_none {before : Bool} {t : State} (none : t.lines[l].event ≠ .ppsIn ∨ before = true ∨ t.lines[l].isActive = false) :
    pulseOnEdge l before t = t := by
  refine if_neg ?_
  rw [Bool.and_eq_true, Bool.and_eq_true, beq_iff_eq, Bool.not_eq_true']
  rintro ⟨⟨pps, was⟩, is⟩
  rcases none with h | h | h
  · exact h pps
  · rw [h] at was
    cases was
  · rw [h] at is
    cases is

/-- A pin change after which the line has not become active. -/
theorem doPinChange_none (none : s.lines[l].event ≠ .ppsIn ∨ s.lines[l].isActive = true
    ∨ (followPin (pinLevel s (outsideAt high s.lines[l])) (outsideAt high s.lines[l])).isActive = false) :
    doPinChange l high s = onLine l (fun x => followPin (pinLevel s (outsideAt high s.lines[l])) (outsideAt high x)) s := by
  rw [doPinChange, refreshed_eq]
  refine pulseOnEdge_none ?_
  rw [onLine_self, followPin_event]
  exact none

theorem kept_doPinChange (does : doPinChange l high s
    = onLine l (fun x => followPin (pinLevel s (outsideAt high s.lines[l])) (outsideAt high x)) s) (o : State) :
    kept (settle o (doPinChange l high s)) = kept (onLine l (fun x => { x with outside := high }) s) := by
  rw [kept_settle, does, ← refreshed_eq, kept_refreshLine]

/-- The line after its pin change and what the event brings with it. -/
theorem settle_pinChange (known : s.lines[l].event.isOutput = false ∨ Settled s) (does : doPinChange l high s
    = onLine l (fun x => followPin (pinLevel s (outsideAt high s.lines[l])) (outsideAt high x)) s) :
    (settle s (doPinChange l high s)).lines[l]
      = followPin (pinLevel s (outsideAt high s.lines[l])) (outsideAt high s.lines[l]) := by
  rw [does, settle_line, pinLevel_follow, followPin_twice]
  rw [followPin_event]
  cases kind : s.lines[l].event.isOutput with
  | false => exact .inl kind
  | true => exact .inr ⟨known.resolve_left (by rw [kind]; decide), rfl, rfl⟩

theorem pinLevel_released {x : Line} (released : x.event.isOutput = false ∨ drives s x = false) : pinLevel s x = x.outside := by
  rcases released with input | free
  · exact pinLevel_input s x input
  · exact if_neg (by rw [free]; exact Bool.false_ne_true)

theorem drives_outsideAt (x : Line) : drives s (outsideAt high x) = drives s x := rfl

end

/-! ## FILTER_EXPIRY (R174) -/

section
variable {l : LineId} {s : State}

/-- The line with its filtered level set and no count. -/
def filteredAt (pin : Bool) (x : Line) : Line := { x with filtered := pin, count := none }

theorem doFilterExpiry_count (counts : s.lines[l].count ≠ none) : doFilterExpiry l s
    = pulseOnEdge l s.lines[l].isActive (onLine l (filteredAt (pinLevel s s.lines[l])) s) := by
  rw [doFilterExpiry]
  cases count : s.lines[l].count with
  | none => exact absurd count counts
  | some c => rfl

theorem doFilterExpiry_none (counts : s.lines[l].count ≠ none) (none : s.lines[l].event ≠ .ppsIn ∨ s.lines[l].isActive = true
    ∨ (filteredAt (pinLevel s s.lines[l]) s.lines[l]).isActive = false) :
    doFilterExpiry l s = onLine l (filteredAt (pinLevel s s.lines[l])) s := by
  rw [doFilterExpiry_count counts]
  refine pulseOnEdge_none ?_
  rw [onLine_self]
  exact none

theorem kept_filteredAt (pin : Bool) : kept (onLine l (filteredAt pin) s) = kept s := by
  simp only [kept, onLine]
  rw [keptLines_set]
  rfl

theorem settle_filterExpiry {pin : Bool} (same : pinLevel s s.lines[l] = pin) (known : s.lines[l].event.isOutput = false ∨ Settled s) :
    (settle s (onLine l (filteredAt pin) s)).lines[l] = filteredAt pin s.lines[l] := by
  have level : pinLevel s (filteredAt pin s.lines[l]) = pin := same
  rw [settle_line, level]
  · exact if_pos (beq_self_eq_true pin)
  · cases kind : s.lines[l].event.isOutput with
    | false => exact .inl kind
    | true => exact .inr ⟨known.resolve_left (by rw [kind]; decide), rfl, rfl⟩

end

/-! ## Ticks of filters and pulses (R173, R174) -/

theorem tickFilter_none {s : State} {l : LineId} (idle : s.lines[l].count = none) : tickFilter s l = s := by
  rw [tickFilter, idle]

theorem tickFilter_some {s : State} {l : LineId} {c : Nat} (count : s.lines[l].count = some c) : tickFilter s l
    = if s.lines[l].width * 1000 ≤ c then settle s (doFilterExpiry l s) else s := by
  rw [tickFilter, count]

theorem pulseTick_eq (c : Option Nat) : pulseTick c = if c = some 0 then some 1 else none := by
  cases c with
  | none => rfl
  | some k =>
    cases k with
    | zero => rfl
    | succ k => simp [pulseTick]

/-- A pulse ends at its tick exactly when it has counted one. -/
theorem pulseTick_ends (c : Option Nat) : (c.isSome != (pulseTick c).isSome) = true ↔ ∃ k, c = some k ∧ 1 ≤ k := by
  rw [pulseTick_eq]
  cases c with
  | none => simp
  | some k =>
    cases k with
    | zero => simp
    | succ k => simp

theorem tickPulses_eq (s : State) : tickPulses s = if (∃ k, s.pulses.critical = some k ∧ 1 ≤ k)
      ∨ (∃ k, s.pulses.pathSwitch = some k ∧ 1 ≤ k) ∨ (∃ k, s.pulses.ppsOut = some k ∧ 1 ≤ k)
    then settle s { s with
      pulses := ⟨pulseTick s.pulses.critical, pulseTick s.pulses.pathSwitch, pulseTick s.pulses.ppsOut⟩ }
    else { s with pulses := ⟨pulseTick s.pulses.critical, pulseTick s.pulses.pathSwitch, pulseTick s.pulses.ppsOut⟩ } := by
  rw [tickPulses]
  refine if_congr ?_ rfl rfl
  rw [Bool.or_eq_true, Bool.or_eq_true, pulseTick_ends, pulseTick_ends, pulseTick_ends, or_assoc]

/-! ## The obligation's parts -/

theorem levels_spelled (s : State) (x : Line) (p : PathId) {low high drive : Prop}
    (highIs : high ↔ asserted s x.event ≠ x.activeLow) (lowIs : low ↔ ¬ high)
    (driveIs : drive ↔ x.event.isOutput = true ∧ (x.openDrain = false ∨ low)) :
    (drives s x = true ↔ drive) ∧ (drive → (pinLevel s x = true ↔ high)) ∧ (¬ drive → pinLevel s x = x.outside)
    ∧ (x.event.isOutput = true ↔ ∀ e ∈ [LineEvent.none, .ppsIn, .forceFallback, .launchHold, .rainAlert], x.event ≠ e)
    ∧ (asserted s .alarm = true ↔ s.alarm.alarm = true) ∧ (asserted s .critical = true ↔ s.pulses.critical ≠ none)
    ∧ (asserted s .fallback = true ↔ s.ranking.fallback = true) ∧ (asserted s .pathSwitch = true ↔ s.pulses.pathSwitch ≠ none)
    ∧ (asserted s .timeLocked = true ↔ s.time.state = .locked) ∧ (asserted s .ppsOut = true ↔ s.pulses.ppsOut ≠ none)
    ∧ (asserted s (.pathUp p) = true ↔ s.paths[p].sup.state = .up ∨ s.paths[p].sup.state = .fading)
    ∧ (asserted s .launchHeld = true ↔ s.sel.launchHold = true) := by
  have driven : drives s x = true ↔ drive := by rw [drives_iff, driveIs, lowIs, highIs]
  refine ⟨driven, fun drives => ?_, fun free => ?_, isOutput_iff _, Iff.rfl, Option.isSome_iff_ne_none, Iff.rfl,
    Option.isSome_iff_ne_none, beq_iff_eq, Option.isSome_iff_ne_none, Sending.inService_iff _, Iff.rfl⟩
  · rw [pinLevel, if_pos (driven.mpr drives), shownLevel, bne_iff_ne, highIs]
  · rw [pinLevel, if_neg (mt driven.mp free)]

/-- PIN_CHANGE at a line that drives nothing. -/
theorem pinChange_released {s : State} {l : LineId} {high : Bool}
    (released : s.lines[l].event.isOutput = false ∨ (Settled s ∧ drives s s.lines[l] = false))
    (none : s.lines[l].event ≠ .ppsIn ∨ s.lines[l].width ≠ 0 ∨ high = s.lines[l].activeLow
      ∨ s.lines[l].filtered ≠ s.lines[l].activeLow) :
    ∃ t, exec (.pinChange l high) s = .next t ∧ kept t = kept (onLine l (fun x => { x with outside := high }) s)
      ∧ (s.lines[l].width = 0 → t.lines[l].filtered = high)
      ∧ (s.lines[l].width ≠ 0 → t.lines[l].filtered = s.lines[l].filtered)
      ∧ (s.lines[l].filtered = high → t.lines[l].count = .none)
      ∧ (s.lines[l].width ≠ 0 → s.lines[l].filtered ≠ high → s.lines[l].count = .none → t.lines[l].count = some 0) := by
  have level : pinLevel s (outsideAt high s.lines[l]) = high := pinLevel_released (released.imp id fun free => free.2)
  have calm : s.lines[l].event ≠ .ppsIn ∨ s.lines[l].isActive = true
      ∨ (followPin (pinLevel s (outsideAt high s.lines[l])) (outsideAt high s.lines[l])).isActive = false := by
    rw [level, Line.isActive, Line.isActive, followPin_rest, bne_iff_ne, bne_eq_false_iff_eq]
    by_cases width : s.lines[l].width = 0
    · rw [followPin_filtered_zero (x := outsideAt high s.lines[l]) high width]
      rcases none with event | wide | inactive | active
      · exact .inl event
      · exact absurd width wide
      · exact .inr (.inr inactive)
      · exact .inr (.inl active)
    · rw [followPin_filtered_width (x := outsideAt high s.lines[l]) high width]
      by_cases active : s.lines[l].filtered = s.lines[l].activeLow
      · exact .inr (.inr active)
      · exact .inr (.inl active)
  have does := doPinChange_none calm
  have line := settle_pinChange (released.imp id And.left) does
  rw [level] at line
  refine ⟨_, rfl, kept_doPinChange does s, fun zero => ?_, fun wide => ?_, fun same => ?_, fun wide differs idle => ?_⟩
  · rw [line]
    exact followPin_filtered_zero high zero
  · rw [line]
    exact followPin_filtered_width high wide
  · rw [line]
    exact followPin_count_same same
  · rw [line]
    exact followPin_count_starts wide differs idle

/-- FILTER_EXPIRY at a line that drives nothing. -/
theorem filterExpiry_released {s : State} {l : LineId}
    (released : s.lines[l].event.isOutput = false ∨ (Settled s ∧ drives s s.lines[l] = false))
    (counts : s.lines[l].count ≠ none) (none : s.lines[l].event ≠ .ppsIn ∨ s.lines[l].outside = s.lines[l].activeLow
      ∨ s.lines[l].filtered ≠ s.lines[l].activeLow) :
    ∃ t, exec (.filterExpiry l) s = .next t ∧ kept t = kept s ∧ t.lines[l].filtered = s.lines[l].outside
      ∧ t.lines[l].count = .none := by
  have level : pinLevel s s.lines[l] = s.lines[l].outside := pinLevel_released (released.imp id And.right)
  have calm : s.lines[l].event ≠ .ppsIn ∨ s.lines[l].isActive = true
      ∨ (filteredAt (pinLevel s s.lines[l]) s.lines[l]).isActive = false := by
    rw [level, Line.isActive, Line.isActive, bne_iff_ne, bne_eq_false_iff_eq, filteredAt]
    rcases none with event | inactive | active
    · exact .inl event
    · exact .inr (.inr inactive)
    · exact .inr (.inl active)
  have does := doFilterExpiry_none counts calm
  have line := settle_filterExpiry rfl (released.imp id And.left)
  rw [← does, level] at line
  refine ⟨_, rfl, by rw [kept_settle, does, kept_filteredAt], ?_, ?_⟩
  · rw [line]
    rfl
  · rw [line]
    rfl

/-- A line that drives its pin does not see the outside. -/
theorem pinChange_driven {s : State} {l : LineId} {high : Bool} (settled : Settled s) (driven : drives s s.lines[l] = true) :
    ∃ t, exec (.pinChange l high) s = .next t ∧ kept t = kept (onLine l (fun x => { x with outside := high }) s)
      ∧ t.lines[l].filtered = s.lines[l].filtered ∧ (s.lines[l].count = none → t.lines[l].count = none) := by
  have output : s.lines[l].event.isOutput = true := ((drives_iff _ _).mp driven).1
  have level : pinLevel s (outsideAt high s.lines[l]) = pinLevel s s.lines[l] := by
    rw [pinLevel, pinLevel, drives_outsideAt, if_pos driven, if_pos driven]
    rfl
  have does := doPinChange_none (high := high) (.inl fun pps => by rw [pps] at output; cases output)
  have line := settle_pinChange (.inr settled) does
  have follows : lineFollows s (outsideAt high s.lines[l]) := (settled.1 l).imp (fun same => same.trans level.symm) id
  refine ⟨_, rfl, kept_doPinChange does s, ?_, fun idle => ?_⟩
  · rw [line, followPin_keeps s _ follows]
    rfl
  · rw [line]
    refine followPin_count_same ((follows.resolve_right ?_))
    rintro ⟨counts, -⟩
    rw [outsideAt, idle] at counts
    cases counts

/-- PULSE_END between events (R173). -/
theorem pulseEnd_alone {s : State} (settled : Settled s) (e : PulseEvent) :
    ∃ t, exec (.pulseEnd e) s = .next t ∧ kept t = kept s ∧ t.pulses = (doPulseEnd e s).pulses :=
  ⟨_, rfl, kept_settle s _, settle_pulses_same s _ settled rfl rfl rfl rfl rfl⟩

/-- Settles O53: levels, rows and ticks, each from its own lemma. -/
theorem pinsFiltersAndPulses : Obligations.PinsFiltersAndPulses := by
  classical
  refine ⟨fun s x p low high drive => levels_spelled s x p, fun s => ⟨fun l high released => ⟨pinChange_released released,
    filterExpiry_released released⟩, fun l high => pinChange_driven, fun settled => ⟨pulseEnd_alone settled .critical,
    pulseEnd_alone settled .pathSwitch, pulseEnd_alone settled .ppsOut⟩, fun l => ⟨tickFilter_none, fun c count =>
    ⟨fun short => ?_, fun long => ?_⟩⟩, ?_⟩⟩
  · exact (tickFilter_some count).trans (if_neg (Nat.not_le.mpr short))
  · rw [tickFilter_some count, if_pos long]
    rfl
  · rintro counted u counts rfl
    obtain rfl : counted = pulseTick := funext fun c => (counts c).trans (pulseTick_eq c).symm
    refine ⟨fun young => ?_, ?_⟩
    · rw [tickPulses_eq, if_neg]
      rintro (⟨k, is, old⟩ | ⟨k, is, old⟩ | ⟨k, is, old⟩)
      · exact absurd (young _ k (.inl rfl) is) (by omega)
      · exact absurd (young _ k (.inr (.inl rfl)) is) (by omega)
      · exact absurd (young _ k (.inr (.inr rfl)) is) (by omega)
    · rintro ⟨c, k, rfl | rfl | rfl, is, old⟩
      · rw [tickPulses_eq, if_pos (.inl ⟨k, is, old⟩)]
      · rw [tickPulses_eq, if_pos (.inr (.inl ⟨k, is, old⟩))]
      · rw [tickPulses_eq, if_pos (.inr (.inr ⟨k, is, old⟩))]

end Sys2Proof.Lines
end

section
/-! SUPPORT. Pulses at PPS_IN: the offset, the trim and Table 4-3 (R66 to R69, R71, R76). -/

namespace Sys2Proof.PulseDiscipline

open Machine PathSupervision Commands TimeAndRain Lines TimeBaseAndStamps

/-! ## States that differ in line filters and marks only -/

/-- The status writer without the marks of its records. -/
def unmarked (v : StatusWriter) : StatusWriter := { v with records := keptMarks v.records, since := none }

/-- State `t` is `s` but for the filters of its lines and the marks of its status records. -/
def Near (s t : State) : Prop :=
  ∃ v y, t = beside s.cmd v y s ∧ keptLines y = keptLines s.lines ∧ unmarked v = unmarked s.status

theorem Near.refl (s : State) : Near s s := ⟨s.status, s.lines, rfl, rfl, rfl⟩

theorem Near.trans {s t u : State} (first : Near s t) (second : Near t u) : Near s u := by
  obtain ⟨v, y, rfl, lines, status⟩ := first
  obtain ⟨w, z, rfl, moreLines, moreStatus⟩ := second
  exact ⟨w, z, rfl, moreLines.trans lines, moreStatus.trans status⟩

theorem Near.kept_eq {s t : State} (near : Near s t) : kept t = kept s := by
  obtain ⟨v, y, rfl, lines, status⟩ := near
  have same : ∀ (L : Vector Line 8) (V : StatusWriter), keptLines L = keptLines s.lines → unmarked V = unmarked s.status →
      kept (beside s.cmd V L s) = { kept s with lines := keptLines L, status := unmarked V } := fun _ _ _ _ => rfl
  rw [same y v lines status, lines, status]
  rfl

theorem Near.pulses_eq {s t : State} (near : Near s t) : t.pulses = s.pulses := by
  obtain ⟨v, y, rfl, -, -⟩ := near
  rfl

theorem Near.time_eq {s t : State} (near : Near s t) : t.time = s.time := by
  obtain ⟨v, y, rfl, -, -⟩ := near
  rfl

/-- What is aside keeps states near. -/
theorem Near.through {f : State → State} (aside : Aside f) {s t : State} (near : Near s t) : Near (f s) (f t) := by
  obtain ⟨v, y, rfl, lines, status⟩ := near
  have own : f s = beside s.cmd s.status s.lines (f s) := aside s.cmd s.status s.lines s
  have sameCmd : (f s).cmd = s.cmd := by rw [own]; rfl
  have sameLines : (f s).lines = s.lines := by rw [own]; rfl
  have sameStatus : (f s).status = s.status := by rw [own]; rfl
  refine ⟨v, y, ?_, ?_, ?_⟩
  · rw [sameCmd]
    exact aside ..
  · rw [sameLines]
    exact lines
  · rw [sameStatus]
    exact status

theorem near_markTime (s : State) : Near s (markTime s) := by
  refine ⟨(markTime s).status, s.lines, rfl, rfl, ?_⟩
  have marks : keptMarks (markTime s).status.records = keptMarks s.status.records := keptMarks_set _ 6 _ rfl
  rw [unmarked, marks]
  rfl

theorem near_onLine {l : LineId} {f : Line → Line} {s : State} (same : { f s.lines[l] with filtered := false, count := none }
    = ({ s.lines[l] with filtered := false, count := none } : Line)) : Near s (onLine l f s) :=
  ⟨s.status, (onLine l f s).lines, rfl, keptLines_set _ l _ same, rfl⟩

/-! ## The moves of the time base are aside -/

theorem aside_setLockRun (n : Nat) : Aside (setLockRun n) := fun _ _ _ _ => rfl

theorem aside_clearInbound : Aside clearInbound := fun c v y s => aside_foldl (fun _ _ _ _ _ => rfl) (List.finRange 5) c v y s

theorem aside_setDiscipline (q : Quality) : Aside (setDiscipline q) := by
  intro c v y s
  have announced : raiseCause 7 { beside c v y s with time := { s.time with state := q } }
      = beside c v y (raiseCause 7 { s with time := { s.time with state := q } }) := rfl
  have state : (beside c v y s).time.state = s.time.state := rfl
  rw [setDiscipline, setDiscipline, state]
  change (if (s.time.state == q) = true then beside c v y s
    else if (s.time.state == .locked) = true then
        clearInbound (raiseCause 7 { beside c v y s with time := { s.time with state := q } })
      else raiseCause 7 { beside c v y s with time := { s.time with state := q } }) = _
  rw [announced, aside_clearInbound, apply_ite (beside c v y), apply_ite (beside c v y)]

/-- The slew in progress is replaced. -/
def slewed (w : Option Slew) (s : State) : State := { s with time := { s.time with slew := w } }

/-- The start of a slew is its slew, and a mark. -/
theorem near_startSlew {s t : State} (near : Near s t) (amount : Int) : Near (slewed (slewOf amount) s) (startSlew amount t) := by
  have set : Near (slewed (slewOf amount) s) (slewed (slewOf amount) t) := near.through fun _ _ _ _ => rfl
  rw [startSlew_eq]
  split
  · exact set.trans (near_markTime _)
  · exact set

theorem clearInbound_eq (s : State) :
    clearInbound s = { s with paths := s.paths.map fun x => { x with sup := { x.sup with inbound := none } } } := by
  have places : List.finRange 5 = [0, 1, 2, 3, 4] := by decide
  rw [clearInbound, places]
  simp only [List.foldl_cons, List.foldl_nil, onSup, onPath]
  congr 1
  refine Vector.ext fun i small => ?_
  interval_cases i <;> simp

theorem setDiscipline_locked {q : Quality} {s : State} (was : s.time.state = .locked) (other : q ≠ .locked) :
    setDiscipline q s = raiseCause 7 { s with
      time := { s.time with state := q }
      paths := s.paths.map fun x => { x with sup := { x.sup with inbound := none } } } := by
  rw [setDiscipline, if_neg (by rw [was, beq_iff_eq]; exact other.symm)]
  refine (if_pos (beq_iff_eq.mpr was)).trans ?_
  rw [clearInbound_eq]
  rfl

theorem setDiscipline_other {q : Quality} {s : State} (was : s.time.state ≠ .locked) (other : s.time.state ≠ q) :
    setDiscipline q s = raiseCause 7 { s with time := { s.time with state := q } } := by
  rw [setDiscipline, if_neg (mt beq_iff_eq.mp other)]
  exact if_neg (mt beq_iff_eq.mp was)

theorem slewOf_neg (off : Int) : slewOf (-off) = if off = 0 then none else some ⟨decide (off < 0), off.natAbs * 1000000000⟩ := by
  have zero : -off = 0 ↔ off = 0 := Int.neg_eq_zero
  have sign : decide (0 < -off) = decide (off < 0) := decide_eq_decide.mpr (by omega)
  rw [slewOf, sign, Int.natAbs_neg]
  exact if_congr zero rfl rfl

/-! ## The offset and the trim (R66, R67, R69) -/

theorem pulseAccepted_iff (t : TimeBase) : pulseAccepted t = true ↔ t.pulseAge = none ∨ ∃ a, t.pulseAge = some a ∧ 900 ≤ a := by
  rw [pulseAccepted]
  cases t.pulseAge with
  | none => simp
  | some a => simp

theorem trimMoves_iff (t : TimeBase) (off : Int) : trimMoves t off = true
    ↔ (t.state = .acquire ∨ t.state = .locked) ∧ t.slew = none ∧ t.trimHold = false ∧ off.natAbs ≤ 4000000 := by
  rw [trimMoves, Bool.and_eq_true, Bool.and_eq_true, Bool.and_eq_true, Bool.or_eq_true, beq_iff_eq, beq_iff_eq,
    Option.isNone_iff_eq_none, Bool.not_eq_true', decide_eq_true_iff, and_assoc, and_assoc]

theorem withinThreshold_iff (t : TimeBase) (off : Int) : withinThreshold t off = true ↔ off.natAbs ≤ t.lockThreshold :=
  decide_eq_true_iff

/-- The time base that an accepted pulse of offset `off` leaves (R66, R69). -/
def pulsed (off : Int) (t : TimeBase) : TimeBase :=
  { t with
    pulsesAccepted := satInc t.pulsesAccepted, pulseAge := some 0, lastOffset := some off, trimHold := false
    trim := if (t.state = .acquire ∨ t.state = .locked) ∧ t.slew = none ∧ t.trimHold = false ∧ off.natAbs ≤ 4000000
      then max (-500000) (min 500000 (t.trim - off.tdiv 8)) else t.trim }

theorem takePulse_accepted {width : Nat} {s : State} (accepted : pulseAccepted s.time = true) {off : Int}
    (is : off = pulseOffset (captured s.time width)) :
    takePulse width s = pulseByState off (markTime { s with time := pulsed off s.time }) := by
  have trim : (if trimMoves s.time off then clampTrim (s.time.trim - off.tdiv 8) else s.time.trim) = (pulsed off s.time).trim :=
    if_congr (trimMoves_iff ..) rfl rfl
  rw [takePulse, if_pos accepted, ← is]
  simp only [trim]
  rfl

theorem takePulse_rejected {width : Nat} {s : State} (rejected : ¬ pulseAccepted s.time = true) :
    takePulse width s = markTime { s with time := { s.time with pulsesRejected := satInc s.time.pulsesRejected } } :=
  if_neg rejected

/-! ## Table 4-3, row by row -/

/-- ACQUIRE is entered from FREE or HOLDOVER. -/
def entered (s : State) : State :=
  setDiscipline .acquire (setLockRun 0 { s with time := { s.time with holdoverElapsed := 0, holdoverMs := 0 } })

theorem aside_entered : Aside entered := by
  intro c v y s
  rw [entered, entered, ← aside_setDiscipline, ← aside_setLockRun]
  rfl

section
variable {off : Int} {s : State}

theorem pulseByState_idle (state : s.time.state = .free ∨ s.time.state = .holdover) : pulseByState off s
    = if off.natAbs ≤ s.time.lockThreshold then startSlew (-off) (entered s) else acquireBeyond off (entered s) := by
  rw [pulseByState, entered]
  rcases state with free | holdover
  · simp only [free, withinThreshold_iff]
  · simp only [holdover, withinThreshold_iff]

theorem pulseByState_acquire (state : s.time.state = .acquire) : pulseByState off s
    = if off.natAbs ≤ s.time.lockThreshold then acquireWithin off s else acquireBeyond off s := by
  rw [pulseByState]
  simp only [state, withinThreshold_iff]

theorem pulseByState_locked (state : s.time.state = .locked) : pulseByState off s
    = if off.natAbs ≤ s.time.lockThreshold then startSlew (-off) s else acquireBeyond off (setDiscipline .acquire s) := by
  rw [pulseByState]
  simp only [state, withinThreshold_iff]

end

section
variable {off : Int} {s t : State} (near : Near s t)
include near

theorem near_acquireWithin (short : s.time.lockRun < 3) :
    Near (slewed (slewOf (-off)) (setLockRun (s.time.lockRun + 1) s)) (acquireWithin off t) := by
  have run : min 4 (t.time.lockRun + 1) = s.time.lockRun + 1 := by rw [near.time_eq]; omega
  rw [acquireWithin]
  simp only [run]
  rw [if_neg (by omega)]
  exact near_startSlew (near.through (aside_setLockRun _)) _

theorem near_acquireWithin_locks (full : s.time.lockRun = 3) :
    Near (setDiscipline .locked (slewed (slewOf (-off)) (setLockRun 4 s))) (acquireWithin off t) := by
  have run : min 4 (t.time.lockRun + 1) = 4 := by rw [near.time_eq]; omega
  rw [acquireWithin]
  simp only [run, if_true]
  exact (near_startSlew (near.through (aside_setLockRun _)) _).through (aside_setDiscipline _)

/-- A step is counted, and the lock run ends. -/
def stepCounted (s : State) : State :=
  let t := setLockRun 0 s
  { t with time := { t.time with steps := satInc t.time.steps } }

omit near in
theorem acquireBeyond_behind (behind : off < 0) : acquireBeyond off t
    = moveTime (atMost ((markTime (startSlew 0 (stepCounted t))).time.value + off.natAbs))
        (markTime (startSlew 0 (stepCounted t))) := by
  rw [acquireBeyond, if_pos behind, stepCounted]

/-- A pulse behind, beyond the threshold: the time value steps forward. -/
theorem near_acquireBeyond_behind (behind : off < 0) :
    Near (moveTime (atMost (s.time.value + off.natAbs)) (slewed none (stepCounted s))) (acquireBeyond off t) := by
  have count : Near (stepCounted s) (stepCounted t) := near.through fun _ _ _ _ => rfl
  have step : Near (slewed none (stepCounted s)) (markTime (startSlew 0 (stepCounted t))) :=
    (near_startSlew count 0).trans (near_markTime _)
  have value : (markTime (startSlew 0 (stepCounted t))).time.value = s.time.value := by
    rw [step.time_eq]
    rfl
  rw [acquireBeyond_behind behind, value]
  exact step.through (aside_moveTime _)

/-- A pulse ahead, beyond the threshold: a slew back. -/
theorem near_acquireBeyond_ahead (ahead : 0 ≤ off) :
    Near (slewed (slewOf (-off)) (setLockRun 0 s)) (acquireBeyond off t) := by
  rw [acquireBeyond, if_neg (Int.not_lt.mpr ahead)]
  exact near_startSlew (near.through (aside_setLockRun 0)) _

end

/-! ## The rows that bring a pulse (R66, R174) -/

/-- The state in which a row finds its pulse: `v` but for the filter of the line. -/
theorem row_pulses {l : LineId} {active : Bool} {c : Instr} {s v : State} (event : s.lines[l].event = .ppsIn)
    (rest : s.lines[l].filtered = s.lines[l].activeLow) (turned : active = !s.lines[l].activeLow)
    (row : (c = .pinChange l active ∧ s.lines[l].width = 0 ∧ v = onLine l (fun x => { x with outside := active }) s)
      ∨ (c = .filterExpiry l ∧ s.lines[l].count ≠ none ∧ s.lines[l].outside = active ∧ v = s)) :
    ∃ u, Near v u ∧ u.mem.burst = s.mem.burst ∧ exec c s = .next (settle s (takePulse s.lines[l].width u)) := by
  have input : s.lines[l].event.isOutput = false := by rw [event]; rfl
  have asleep : s.lines[l].isActive = false := by rw [Line.isActive, rest, bne_self_eq_false]
  have awake : (active != s.lines[l].activeLow) = true := by
    rw [turned]
    cases s.lines[l].activeLow <;> rfl
  have edge : ∀ u : State, u.lines[l].event = .ppsIn → u.lines[l].isActive = true →
      pulseOnEdge l s.lines[l].isActive u = takePulse u.lines[l].width u := by
    intro u pps rises
    refine if_pos ?_
    rw [pps, rises, asleep]
    rfl
  rcases row with ⟨rfl, width, rfl⟩ | ⟨rfl, counts, outside, rfl⟩
  · have level : pinLevel s (outsideAt active s.lines[l]) = active := pinLevel_input s _ input
    have refreshed := refreshed_eq l active s
    rw [level] at refreshed
    have line : (onLine l (fun x => followPin active (outsideAt active x)) s).lines[l] = followPin active (outsideAt active s.lines[l]) :=
      onLine_self ..
    have wide : (followPin active (outsideAt active s.lines[l])).width = s.lines[l].width := by
      unfold followPin
      split <;> [rfl; split <;> rfl]
    have rises : (followPin active (outsideAt active s.lines[l])).isActive = true := by
      rw [Line.isActive, followPin_filtered_zero (x := outsideAt active s.lines[l]) active width, followPin_rest]
      exact awake
    refine ⟨onLine l (fun x => followPin active (outsideAt active x)) s, ?_, rfl, ?_⟩
    · rw [← refreshed]
      refine near_onLine ?_
      unfold followPin
      split <;> [rfl; split <;> rfl]
    · have pulse := edge (onLine l (fun x => followPin active (outsideAt active x)) s) (by rw [line, followPin_event]; exact event)
        (by rw [line]; exact rises)
      rw [line, wide, ← refreshed] at pulse
      rw [← refreshed, ← pulse]
      rfl
  · have level : pinLevel v v.lines[l] = active := (pinLevel_input v _ input).trans outside
    have line : (onLine l (filteredAt active) v).lines[l] = filteredAt active v.lines[l] := onLine_self ..
    refine ⟨onLine l (filteredAt active) v, near_onLine rfl, rfl, ?_⟩
    have pulse := edge (onLine l (filteredAt active) v) (by rw [line]; exact event) (by rw [line]; exact awake)
    rw [line] at pulse
    have ends := doFilterExpiry_count counts
    rw [level, pulse] at ends
    change _ = _ at ends
    rw [show (filteredAt active v.lines[l]).width = v.lines[l].width from rfl] at ends
    rw [← ends]
    rfl

/-! ## The last offset (R67) -/

theorem setDiscipline_lastOffset (q : Quality) (s : State) : (setDiscipline q s).time.lastOffset = s.time.lastOffset := by
  by_cases same : s.time.state = q
  · rw [setDiscipline, if_pos (beq_iff_eq.mpr same)]
  · by_cases was : s.time.state = .locked
    · rw [setDiscipline_locked was (was ▸ Ne.symm same)]
      rfl
    · rw [setDiscipline_other was same]
      rfl

theorem startSlew_lastOffset (amount : Int) (s : State) : (startSlew amount s).time.lastOffset = s.time.lastOffset := by
  rw [(near_startSlew (Near.refl s) amount).time_eq]
  rfl

theorem acquireBeyond_lastOffset (off : Int) (s : State) : (acquireBeyond off s).time.lastOffset = s.time.lastOffset := by
  by_cases behind : off < 0
  · rw [(near_acquireBeyond_behind (Near.refl s) behind).time_eq, moveTime_time]
    rfl
  · rw [(near_acquireBeyond_ahead (Near.refl s) (Int.not_lt.mp behind)).time_eq]
    rfl

theorem acquireWithin_lastOffset (off : Int) (s : State) : (acquireWithin off s).time.lastOffset = s.time.lastOffset := by
  rw [acquireWithin, apply_ite State.time, apply_ite TimeBase.lastOffset, setDiscipline_lastOffset, startSlew_lastOffset, ite_self]
  rfl

theorem entered_lastOffset (s : State) : (entered s).time.lastOffset = s.time.lastOffset := setDiscipline_lastOffset ..

theorem pulseByState_lastOffset (off : Int) (s : State) : (pulseByState off s).time.lastOffset = s.time.lastOffset := by
  cases state : s.time.state with
  | free =>
    rw [pulseByState_idle (.inl state), apply_ite State.time, apply_ite TimeBase.lastOffset, startSlew_lastOffset,
      acquireBeyond_lastOffset, ite_self, entered_lastOffset]
  | acquire =>
    rw [pulseByState_acquire state, apply_ite State.time, apply_ite TimeBase.lastOffset, acquireWithin_lastOffset,
      acquireBeyond_lastOffset, ite_self]
  | locked =>
    rw [pulseByState_locked state, apply_ite State.time, apply_ite TimeBase.lastOffset, startSlew_lastOffset,
      acquireBeyond_lastOffset, setDiscipline_lastOffset, ite_self]
  | holdover =>
    rw [pulseByState_idle (.inr state), apply_ite State.time, apply_ite TimeBase.lastOffset, startSlew_lastOffset,
      acquireBeyond_lastOffset, ite_self, entered_lastOffset]

theorem takePulse_lastOffset {width : Nat} {s : State} (accepted : pulseAccepted s.time = true) :
    (takePulse width s).time.lastOffset = some (pulseOffset (captured s.time width)) := by
  rw [takePulse_accepted accepted rfl, pulseByState_lastOffset]
  rfl

/-- Settles O54: the offset is the remainder of the captured second, less one second where it is half a second or more, and no row
of Table 4-3 touches the last offset after that. -/
theorem pulseOffsetFromTheNearestSecond : Obligations.PulseOffsetFromTheNearestSecond := by
  intro width s n off remainder offset accepted
  have is : off = pulseOffset (captured s.time width) := by
    rw [pulseOffset, captured, Nat.cast_mul, Nat.cast_ofNat, offset, remainder]
    exact if_congr (by omega) rfl rfl
  refine ⟨by omega, by omega, ?_, ?_, ?_, withinThreshold_iff ..⟩
  · split at offset <;> omega
  · split at offset <;> omega
  · rw [is]
    exact takePulse_lastOffset ((pulseAccepted_iff _).mpr accepted)

/-! ## A pulse beyond the threshold finds ACQUIRE -/

/-- ACQUIRE, entered unless it is the state. -/
def acquiring (s : State) : State :=
  if s.time.state = .acquire then s else if s.time.state = .locked then setDiscipline .acquire s else entered s

theorem acquiring_acquire {s : State} (state : s.time.state = .acquire) : acquiring s = s := if_pos state

theorem acquiring_locked {s : State} (state : s.time.state = .locked) : acquiring s = raiseCause 7 { s with
    time := { s.time with state := .acquire }
    paths := s.paths.map fun x => { x with sup := { x.sup with inbound := none } } } := by
  rw [acquiring, if_neg (by rw [state]; decide), if_pos state, setDiscipline_locked state (by decide)]

theorem entered_idle {s : State} (state : s.time.state = .free ∨ s.time.state = .holdover) : entered s = raiseCause 7 { s with
    time := { s.time with state := .acquire, lockRun := 0, holdoverElapsed := 0, holdoverMs := 0 } } := by
  refine setDiscipline_other (s := setLockRun 0 { s with time := { s.time with holdoverElapsed := 0, holdoverMs := 0 } })
    (q := .acquire) ?_ ?_
  · change s.time.state ≠ .locked
    rcases state with state | state <;> rw [state] <;> decide
  · change s.time.state ≠ .acquire
    rcases state with state | state <;> rw [state] <;> decide

theorem acquiring_idle {s : State} (state : s.time.state = .free ∨ s.time.state = .holdover) : acquiring s = entered s := by
  rcases state with state | state <;> rw [acquiring, if_neg (by rw [state]; decide), if_neg (by rw [state]; decide)]

theorem state_cases (s : State) : s.time.state = .acquire ∨ s.time.state = .locked ∨ s.time.state = .free ∨ s.time.state = .holdover := by
  cases s.time.state <;> decide

theorem aside_acquiring : Aside acquiring := by
  intro c v y s
  have state : (beside c v y s).time.state = s.time.state := rfl
  rw [acquiring, acquiring, state, aside_setDiscipline, aside_entered, apply_ite (beside c v y), apply_ite (beside c v y)]

/-- Entering ACQUIRE leaves the value, the count of steps and the pulses. -/
theorem acquiring_keeps (s : State) : (acquiring s).time.value = s.time.value ∧ (acquiring s).time.steps = s.time.steps
    ∧ (acquiring s).pulses = s.pulses := by
  rcases state_cases s with state | state | state
  · rw [acquiring_acquire state]
    exact ⟨rfl, rfl, rfl⟩
  · rw [acquiring_locked state]
    exact ⟨rfl, rfl, rfl⟩
  · rw [acquiring_idle state, entered_idle state]
    exact ⟨rfl, rfl, rfl⟩

theorem pulseByState_beyond {off : Int} {s : State} (far : s.time.lockThreshold < off.natAbs) :
    pulseByState off s = acquireBeyond off (acquiring s) := by
  have apart : ¬ off.natAbs ≤ s.time.lockThreshold := by omega
  rcases state_cases s with state | state | state
  · rw [pulseByState_acquire state, if_neg apart, acquiring_acquire state]
  · rw [pulseByState_locked state, if_neg apart, acquiring, if_neg (by rw [state]; decide), if_pos state]
  · rw [pulseByState_idle state, if_neg apart, acquiring_idle state]

/-- The lock run restarts in ACQUIRE: the state from which a step or a slew starts. -/
theorem setLockRun_acquiring {s : State} : setLockRun 0 (acquiring s) =
    if s.time.state = .acquire then { s with time := { s.time with lockRun := 0 } }
    else if s.time.state = .locked then raiseCause 7 { s with
      time := { s.time with state := .acquire, lockRun := 0 }
      paths := s.paths.map fun x => { x with sup := { x.sup with inbound := none } } }
    else raiseCause 7 { s with
      time := { s.time with state := .acquire, lockRun := 0, holdoverElapsed := 0, holdoverMs := 0 } } := by
  rcases state_cases s with state | state | state
  · rw [acquiring_acquire state, if_pos state]
    rfl
  · rw [acquiring_locked state, if_neg (by rw [state]; decide), if_pos state]
    rfl
  · have other : s.time.state ≠ .acquire ∧ s.time.state ≠ .locked := by
      rcases state with state | state <;> rw [state] <;> decide
    rw [acquiring_idle state, entered_idle state, if_neg other.1, if_neg other.2]
    rfl

theorem setLockRun_entered {s : State} (state : s.time.state = .free ∨ s.time.state = .holdover) : setLockRun 0 (entered s) = entered s := by
  rw [entered_idle state]
  rfl

/-! ## The rows with a pulse end -/

/-- A row that settles a state near `u` ends in `u`. -/
theorem endsIn_of_near {c : Instr} {s u w : State} (runs : exec c s = .next (settle s w)) (near : Near u w) : EndsIn c s u :=
  endsIn_of_settle c s s u w runs near.kept_eq

section
variable {c : Instr} {s u m : State} {off : Int} (runs : exec c s = .next (settle s (pulseByState off m))) (near : Near u m)
include runs near

theorem endsIn_within_idle (close : off.natAbs ≤ u.time.lockThreshold) (state : u.time.state = .free ∨ u.time.state = .holdover) :
    EndsIn c s (slewed (slewOf (-off)) (entered u)) := by
  refine endsIn_of_near runs ?_
  rw [pulseByState_idle (by rw [near.time_eq]; exact state), if_pos (by rw [near.time_eq]; exact close)]
  exact near_startSlew (near.through aside_entered) _

theorem endsIn_within_acquire (close : off.natAbs ≤ u.time.lockThreshold) (state : u.time.state = .acquire) (short : u.time.lockRun < 3) :
    EndsIn c s (slewed (slewOf (-off)) (setLockRun (u.time.lockRun + 1) u)) := by
  refine endsIn_of_near runs ?_
  rw [pulseByState_acquire (by rw [near.time_eq]; exact state), if_pos (by rw [near.time_eq]; exact close)]
  exact near_acquireWithin near short

theorem endsIn_within_locks (close : off.natAbs ≤ u.time.lockThreshold) (state : u.time.state = .acquire) (full : u.time.lockRun = 3) :
    EndsIn c s (setDiscipline .locked (slewed (slewOf (-off)) (setLockRun 4 u))) := by
  refine endsIn_of_near runs ?_
  rw [pulseByState_acquire (by rw [near.time_eq]; exact state), if_pos (by rw [near.time_eq]; exact close)]
  exact near_acquireWithin_locks near full

theorem endsIn_within_locked (close : off.natAbs ≤ u.time.lockThreshold) (state : u.time.state = .locked) :
    EndsIn c s (slewed (slewOf (-off)) u) := by
  refine endsIn_of_near runs ?_
  rw [pulseByState_locked (by rw [near.time_eq]; exact state), if_pos (by rw [near.time_eq]; exact close)]
  exact near_startSlew near _

variable (far : u.time.lockThreshold < off.natAbs)
include far

theorem endsIn_beyond_ahead (ahead : 0 ≤ off) : EndsIn c s (slewed (slewOf (-off)) (setLockRun 0 (acquiring u))) := by
  refine endsIn_of_near runs ?_
  rw [pulseByState_beyond (by rw [near.time_eq]; exact far)]
  exact near_acquireBeyond_ahead (near.through aside_acquiring) ahead

/-- A pulse behind, beyond the threshold: the step, and PPS_OUT when the seconds increase (R76). -/
theorem steps_beyond_behind (behind : off < 0) {y : Time} (value : y = min (4294967295 * 1000000000 + 999999999) (u.time.value + off.natAbs))
    {z : State} (is : z = moveTime y (slewed none (stepCounted (acquiring u)))) :
    z.time.value = y ∧ EndsIn c s z ∧ ∃ t, exec c s = .next t
      ∧ t.pulses.ppsOut = if u.time.value / 1000000000 < y / 1000000000 then some 0 else u.pulses.ppsOut := by
  obtain ⟨sameValue, -, samePulses⟩ := acquiring_keeps u
  have reached : Near z (pulseByState off m) := by
    have step := near_acquireBeyond_behind (near.through aside_acquiring) behind
    rw [sameValue, atMost, min_comm] at step
    rw [pulseByState_beyond (by rw [near.time_eq]; exact far), is, value]
    exact step
  refine ⟨by rw [is, moveTime_time], endsIn_of_near runs reached, _, runs, ?_⟩
  rw [settle_ppsOut, reached.pulses_eq, is, moveTime_pulses, apply_ite Pulses.ppsOut]
  change (if (acquiring u).time.value / _ < _ then _ else (acquiring u).pulses.ppsOut) = _
  rw [sameValue, samePulses]

end

/-- Settles O55: a row that brings a pulse runs `takePulse` (`row_pulses`), whose moves act on the time base as Table 4-3 says and
add marks only (`Near`). -/
theorem pulsesActByDisciplineState : Obligations.PulsesActByDisciplineState := by
  intro l active c s v off u a event rest turned row offset isU isA
  obtain ⟨u₀, near, burst, runs⟩ := row_pulses event rest turned row
  have same : v.time = s.time ∧ v.pulses = s.pulses ∧ v.paths = s.paths := by
    rcases row with ⟨-, -, rfl⟩ | ⟨-, -, -, rfl⟩ <;> exact ⟨rfl, rfl, rfl⟩
  obtain ⟨sameTime, samePulses, samePaths⟩ := same
  have time : u₀.time = s.time := near.time_eq.trans sameTime
  have width : captured u₀.time s.lines[l].width = (s.time.value : Int) - (s.lines[l].width * 1000 : Nat) := by rw [captured, time]
  have accepts : (s.time.pulseAge = none ∨ ∃ k, s.time.pulseAge = some k ∧ 900 ≤ k) →
      exec c s = .next (settle s (pulseByState off (markTime { u₀ with time := pulsed off u₀.time }))) := by
    intro age
    rw [runs, takePulse_accepted (by rw [time]; exact (pulseAccepted_iff _).mpr age) (offset.trans (by rw [width]))]
  have isPulsed : u = { v with time := pulsed off v.time } := by rw [sameTime]; exact isU
  have nearU : Near u (markTime { u₀ with time := pulsed off u₀.time }) := by
    rw [isPulsed]
    exact (near.through (f := fun w => { w with time := pulsed off w.time }) fun _ _ _ _ => rfl).trans (near_markTime _)
  have timeU : u.time = pulsed off s.time := by rw [isU]; rfl
  have isAcquiring : a = setLockRun 0 (acquiring u) := by
    have paths : u.paths = s.paths := by rw [isU]; exact samePaths
    have state : u.time.state = s.time.state := by rw [timeU]; rfl
    rw [isA, setLockRun_acquiring, paths, state]
  obtain ⟨marksBurst, marked, again⟩ := takePulse_marks s.lines[l].width u₀
  refine ⟨⟨_, runs, (keepsMarks_settle _ _ 6).1 marked, fun b writes source => (keepsMarks_settle _ _ 6).2
    (again b (burst.trans writes) source)⟩, ?_, fun age => ⟨fun close w isW => ?_, fun far => ⟨fun behind y z isY isZ => ?_, fun ahead => ?_⟩⟩⟩
  · rintro ⟨k, young, short⟩
    have rejected : ¬ pulseAccepted u₀.time = true := by
      rw [time, pulseAccepted, young, decide_eq_true_iff]
      omega
    rw [takePulse_rejected rejected] at runs
    rw [← sameTime]
    exact endsIn_of_near runs ((near.through
      (f := fun w => { w with time := { w.time with pulsesRejected := satInc w.time.pulsesRejected } })
      fun _ _ _ _ => rfl).trans (near_markTime _))
  · have rate : w = slewOf (-off) := isW.trans (slewOf_neg off).symm
    have closeU : off.natAbs ≤ u.time.lockThreshold := by rw [timeU]; exact close
    refine ⟨fun state => ?_, fun state short => ?_, fun state full => ?_, fun state => ?_⟩
    · have stateU : u.time.state = .free ∨ u.time.state = .holdover := by rw [timeU]; exact state
      rw [isAcquiring, acquiring_idle stateU, setLockRun_entered stateU, rate]
      exact endsIn_within_idle (accepts age) nearU closeU stateU
    · have run : u.time.lockRun = s.time.lockRun := by rw [timeU]; rfl
      rw [rate, ← run]
      exact endsIn_within_acquire (accepts age) nearU closeU (by rw [timeU]; exact state) (by rw [run]; exact short)
    · have locks := endsIn_within_locks (accepts age) nearU closeU (by rw [timeU]; exact state) (by rw [timeU]; exact full)
      have stateU : u.time.state = .acquire := by rw [timeU]; exact state
      rw [setDiscipline_other (s := slewed (slewOf (-off)) (setLockRun 4 u)) (stateU.trans_ne (by decide)) (stateU.trans_ne (by decide))]
        at locks
      rw [rate]
      exact locks
    · rw [rate]
      exact endsIn_within_locked (accepts age) nearU closeU (by rw [timeU]; exact state)
  · have farU : u.time.lockThreshold < off.natAbs := by rw [timeU]; exact far
    have value : u.time.value = s.time.value := by rw [timeU]; rfl
    have steps : (acquiring u).time.steps = s.time.steps := (acquiring_keeps u).2.1.trans (by rw [timeU]; rfl)
    have pulses : u.pulses.ppsOut = s.pulses.ppsOut := by rw [isPulsed]; exact congrArg _ samePulses
    rw [← value, ← pulses]
    refine steps_beyond_behind (accepts age) nearU farU behind (by rw [value]; exact isY) ?_
    rw [isZ, isAcquiring, ← steps]
    rfl
  · have farU : u.time.lockThreshold < off.natAbs := by rw [timeU]; exact far
    have rate : slewOf (-off) = some ⟨false, off.natAbs * 1000000000⟩ := by
      rw [slewOf_neg, if_neg (by omega), decide_eq_false (Int.not_lt.mpr ahead)]
    have slews := endsIn_beyond_ahead (accepts age) nearU farU ahead
    rw [rate, ← isAcquiring] at slews
    exact slews

end Sys2Proof.PulseDiscipline
end

section
/-! SUPPORT. The watchdog, the holdover limit, the end of a slew and the advance of the time value (R61 to R63, R70, R76). -/

namespace Sys2Proof.TimeValue

open Machine TimeAndRain PulseDiscipline

/-! ## The watchdog and the holdover limit (R70) -/

section
variable {s : State}

/-- The watched pulse age is brought to 1,500 ms. -/
def aged (s : State) : State := { s with time := { s.time with pulseAge := some (max 1500 (s.time.pulseAge.getD 0)) } }

theorem doPulseWatchdog_watched (watched : (s.time.state == .acquire || s.time.state == .locked) = true) :
    doPulseWatchdog s = watchdogFires (aged s) := if_pos watched

theorem watchdogFires_locked (state : s.time.state = .locked) : watchdogFires s
    = setDiscipline .holdover { s with time := { s.time with holdoverElapsed := 0, holdoverMs := 0 } } := by
  rw [watchdogFires, state]

theorem watchdogFires_acquire (state : s.time.state = .acquire) : watchdogFires s = setDiscipline .free (setLockRun 0 s) := by
  rw [watchdogFires, state]

theorem doPulseWatchdog_locked (state : s.time.state = .locked) : doPulseWatchdog s = raiseCause 7 { s with
    time := { s.time with
      state := .holdover, holdoverElapsed := 0, holdoverMs := 0, pulseAge := some (max 1500 (s.time.pulseAge.getD 0)) }
    paths := s.paths.map fun x => { x with sup := { x.sup with inbound := none } } } := by
  rw [doPulseWatchdog_watched (by rw [state]; rfl), watchdogFires_locked (s := aged s) state]
  exact setDiscipline_locked (s := { aged s with time := { (aged s).time with holdoverElapsed := 0, holdoverMs := 0 } }) state
    (by decide)

theorem doPulseWatchdog_acquire (state : s.time.state = .acquire) : doPulseWatchdog s = raiseCause 7 { s with
    time := { s.time with state := .free, lockRun := 0, pulseAge := some (max 1500 (s.time.pulseAge.getD 0)) } } := by
  rw [doPulseWatchdog_watched (by rw [state]; rfl), watchdogFires_acquire (s := aged s) state]
  exact setDiscipline_other (s := setLockRun 0 (aged s)) (state.trans_ne (by decide)) (state.trans_ne (by decide))

theorem limitReached_holdover (state : s.time.state = .holdover) (limit : s.time.holdoverLimit ≤ s.time.holdoverElapsed) :
    limitReached s = raiseCause 7 { s with time := { s.time with state := .free } } := by
  rw [limitReached, if_pos (by rw [state, decide_eq_true limit]; rfl),
    setDiscipline_other (state.trans_ne (by decide)) (state.trans_ne (by decide))]

theorem limitReached_early (early : s.time.holdoverElapsed < s.time.holdoverLimit) : limitReached s = s := by
  rw [limitReached, decide_eq_false (Nat.not_le.mpr early), Bool.and_false, if_neg Bool.false_ne_true]

theorem doHoldoverLimit_holdover (state : s.time.state = .holdover) : doHoldoverLimit s = raiseCause 7 { s with
    time := { s.time with state := .free, holdoverElapsed := max s.time.holdoverLimit s.time.holdoverElapsed } } := by
  rw [doHoldoverLimit, if_pos (beq_iff_eq.mpr state)]
  exact limitReached_holdover (s := { s with time := { s.time with
    holdoverElapsed := max s.time.holdoverLimit s.time.holdoverElapsed } }) state (Nat.le_max_left ..)

end

/-! ## The advance of the time value (R62, R63) -/

/-- The value that `b` billionths of a nanosecond more make of the time base, and what is left of the slew. -/
def carried (t : TimeBase) (b : Int) (w : Option Slew) : Time × Nat × Option Slew :=
  (min Config.maxTime (t.value + (t.fraction + b.toNat) / 1000000000),
    if Config.maxTime ≤ t.value + (t.fraction + b.toNat) / 1000000000 then 0 else (t.fraction + b.toNat) % 1000000000, w)

theorem carried_eq (t : TimeBase) (b : Int) (w : Option Slew) : carried t b w
    = if Config.maxTime ≤ t.value + (t.fraction + b.toNat) / 1000000000 then (Config.maxTime, 0, w)
      else (t.value + (t.fraction + b.toNat) / 1000000000, (t.fraction + b.toNat) % 1000000000, w) := by
  rw [carried]
  split
  · next full => rw [min_eq_left full]
  · next room => rw [min_eq_right (Nat.le_of_not_le room)]

section
variable {t : TimeBase} (n : Nat)

theorem advanced_none (still : t.slew = none) : advanced t n = carried t (n * (1000000000 + t.trim)) none := by
  rw [carried_eq, advanced, still]

variable {w : Slew} (slews : t.slew = some w)
include slews

theorem advanced_ends (shrinks : slewShrink w t.trim ≠ 0) (ends : w.rest ≤ n * slewShrink w t.trim) : advanced t n
    = carried t (n * (1000000000 + t.trim) + (if w.forward then (w.rest : Int) else -(w.rest : Int))) none := by
  rw [carried_eq, advanced, slews]
  simp only
  rw [if_pos ⟨shrinks, ends⟩]

theorem advanced_goesOn (left : ¬ (slewShrink w t.trim ≠ 0 ∧ w.rest ≤ n * slewShrink w t.trim)) : advanced t n
    = carried t (n * (1000000000 + slewRate w)) (some { w with rest := w.rest - n * slewShrink w t.trim }) := by
  rw [carried_eq, advanced, slews]
  simp only
  rw [if_neg left]

end

/-- What an advance makes of `z`: its value, its part below a nanosecond and its slew. -/
def advancedTo (a : Time × Nat × Option Slew) (z : State) : State :=
  moveTime a.1 { z with time := { z.time with fraction := a.2.1, slew := a.2.2 } }

theorem advanceTime_full {n : Nat} {s : State} (full : s.time.value = Config.maxTime) : advanceTime n s = s := by
  rw [advanceTime, if_pos full]

theorem markTime_setTime (t : TimeBase) (s : State) : markTime { s with time := t } = { markTime s with time := t } := rfl

theorem advanceTime_room {n : Nat} {s : State} (room : s.time.value ≠ Config.maxTime) : advanceTime n s
    = advancedTo (advanced s.time n) (if s.time.slew.isSome && (advanced s.time n).2.2.isNone then markTime s else s) := by
  rw [advanceTime, if_neg room, advancedTo]
  generalize advanced s.time n = a
  by_cases ended : (s.time.slew.isSome && a.2.2.isNone) = true
  · simp only [ended, if_true, markTime_setTime]
    exact congrArg (moveTime a.1) rfl
  · simp only [ended, if_neg Bool.false_ne_true]

theorem advanceTime_room_still {n : Nat} {s : State} (room : s.time.value ≠ Config.maxTime) (still : s.time.slew = none) :
    advanceTime n s = advancedTo (carried s.time (n * (1000000000 + s.time.trim)) none) s := by
  rw [advanceTime_room room, still, advanced_none n still]
  rfl

theorem advanceTime_room_ends {n : Nat} {s : State} {w : Slew} (room : s.time.value ≠ Config.maxTime) (slews : s.time.slew = some w)
    (shrinks : slewShrink w s.time.trim ≠ 0) (ends : w.rest ≤ n * slewShrink w s.time.trim) : advanceTime n s
    = advancedTo (carried s.time (n * (1000000000 + s.time.trim) + (if w.forward then (w.rest : Int) else -(w.rest : Int))) none)
        (markTime s) := by
  rw [advanceTime_room room, slews, advanced_ends n slews shrinks ends]
  rfl

theorem advanceTime_room_goesOn {n : Nat} {s : State} {w : Slew} (room : s.time.value ≠ Config.maxTime) (slews : s.time.slew = some w)
    (left : ¬ (slewShrink w s.time.trim ≠ 0 ∧ w.rest ≤ n * slewShrink w s.time.trim)) : advanceTime n s
    = advancedTo (carried s.time (n * (1000000000 + slewRate w)) (some { w with rest := w.rest - n * slewShrink w s.time.trim })) s := by
  rw [advanceTime_room room, slews, advanced_goesOn n slews left]
  rfl

theorem advancedTo_time (a : Time × Nat × Option Slew) (z : State) :
    (advancedTo a z).time = { z.time with value := a.1, fraction := a.2.1, slew := a.2.2 } := by
  rw [advancedTo, moveTime_time]

theorem slewShrink_eq (w : Slew) (trim : Int) : slewShrink w trim = (if w.forward then 500000 - trim else 500000 + trim).toNat := by
  rw [slewShrink, apply_ite Int.toNat]

/-- The advance leaves the reference clock. -/
theorem advanceTime_reference (n : Nat) (s : State) : (advanceTime n s).time.reference = s.time.reference := by
  by_cases full : s.time.value = Config.maxTime
  · rw [advanceTime_full full]
  · rw [advanceTime_room full, advancedTo_time]
    split <;> rfl

/-! ## The end of a slew, and PPS_OUT (R63, R76) -/

section
variable {s : State}

theorem doSlewEnd_ends {w : Slew} {n : Nat} (room : s.time.value ≠ Config.maxTime) (slews : s.time.slew = some w)
    (shrinks : 0 < slewShrink w s.time.trim) (is : n = (w.rest + (slewShrink w s.time.trim - 1)) / slewShrink w s.time.trim) :
    doSlewEnd s = advancedTo
      (carried s.time (n * (1000000000 + s.time.trim) + (if w.forward then (w.rest : Int) else -(w.rest : Int))) none) (markTime s) := by
  have left : slewLeft s.time = some n := by
    rw [slewLeft, slews]
    simp only
    rw [if_neg shrinks.ne', is]
  have ends : w.rest ≤ n * slewShrink w s.time.trim := by
    have above := Nat.lt_div_mul_add (a := w.rest + (slewShrink w s.time.trim - 1)) shrinks
    rw [← is] at above
    omega
  rw [doSlewEnd, left]
  exact advanceTime_room_ends room slews shrinks.ne' ends

theorem kept_time (t : State) : (kept t).time = t.time := rfl

theorem settle_time (o t : State) : (settle o t).time = t.time := by
  rw [← kept_time, kept_settle, kept_time]

theorem slewEnd_ends {w : Slew} {n shrink : Nat} {b : Int} (slews : s.time.slew = some w) (room : s.time.value < Config.maxTime)
    (rate : shrink = (if w.forward then 500000 - s.time.trim else 500000 + s.time.trim).toNat) (shrinks : 0 < shrink)
    (is : n = (w.rest + (shrink - 1)) / shrink)
    (moves : b = n * (1000000000 + s.time.trim) + (if w.forward then (w.rest : Int) else -(w.rest : Int))) :
    ∃ t, exec .slewEnd s = .next t ∧ t.time.slew = none
      ∧ t.time.value = min Config.maxTime (s.time.value + (s.time.fraction + b.toNat) / 1000000000) := by
  rw [← slewShrink_eq] at rate
  subst rate
  have ends := doSlewEnd_ends room.ne slews shrinks is
  rw [← moves] at ends
  refine ⟨settle s (doSlewEnd s), rfl, ?_, ?_⟩
  · rw [settle_time, ends, advancedTo_time]
    rfl
  · rw [settle_time, ends, advancedTo_time]
    rfl

theorem ppsOut_produces {v : Time} (is : v = (s.time.value / 1000000000 + 1) * 1000000000) (fits : v ≤ Config.maxTime) :
    ∃ t, exec .ppsOut s = .next t ∧ t.time.value = v ∧ t.pulses.ppsOut = some 0 := by
  have does : doPpsOut s = moveTime v { s with time := { s.time with fraction := 0 } } := by
    rw [doPpsOut, show Config.second = 1000000000 from rfl, ← is]
    exact if_pos fits
  have later : s.time.value / 1000000000 < v / 1000000000 := by
    rw [is, Nat.mul_div_cancel _ (by decide)]
    exact Nat.lt_succ_self _
  refine ⟨settle s (doPpsOut s), rfl, ?_, ?_⟩
  · rw [settle_time, does, moveTime_time]
  · rw [settle_ppsOut, does, moveTime_pulses, if_pos later]

end

/-! ## One millisecond (R61, R70) -/

section
variable {s : State}

theorem tickHoldover_other (state : s.time.state ≠ .holdover) : tickHoldover s = s := if_neg (mt beq_iff_eq.mp state)

theorem tickHoldover_counts (state : s.time.state = .holdover) (within : s.time.holdoverMs < 999) :
    tickHoldover s = { s with time := { s.time with holdoverMs := s.time.holdoverMs + 1 } } := by
  rw [tickHoldover, if_pos (beq_iff_eq.mpr state), if_neg (by omega)]

theorem tickHoldover_second (state : s.time.state = .holdover) (full : 999 ≤ s.time.holdoverMs) : tickHoldover s
    = settle s (limitReached { s with time := { s.time with
        holdoverMs := 0, holdoverElapsed := min 65535 (s.time.holdoverElapsed + 1) } }) := by
  rw [tickHoldover, if_pos (beq_iff_eq.mpr state), if_pos full]

theorem tickAge_none (never : s.time.pulseAge = none) : tickAge s = s := by rw [tickAge, never]

theorem tickAge_some {a : Nat} (age : s.time.pulseAge = some a) {u : State}
    (is : u = { s with time := { s.time with pulseAge := some (min 65535000 (a + 1)) } }) : tickAge s
    = if (s.time.state == .acquire || s.time.state == .locked) && 1500 ≤ a + 1 then settle u (watchdogFires u) else u := by
  rw [tickAge, age, is]

/-- The watchdog's age is not brought to 1,500 ms when it is there. -/
theorem pulseWatchdog_aged {a : Nat} (age : s.time.pulseAge = some a) (old : 1500 ≤ a)
    (watched : (s.time.state == .acquire || s.time.state == .locked) = true) : doPulseWatchdog s = watchdogFires s := by
  have same : max 1500 (s.time.pulseAge.getD 0) = a := by
    rw [age]
    exact Nat.max_eq_right old
  rw [doPulseWatchdog_watched watched, aged, same, ← age]

theorem tickAge_fires {a : Nat} (age : s.time.pulseAge = some a) {u : State}
    (is : u = { s with time := { s.time with pulseAge := some (min 65535000 (a + 1)) } }) (old : 1500 ≤ a + 1)
    (watched : s.time.state = .acquire ∨ s.time.state = .locked) : exec .pulseWatchdog u = .next (tickAge s) := by
  have watching : (s.time.state == .acquire || s.time.state == .locked) = true := by
    rw [Bool.or_eq_true, beq_iff_eq, beq_iff_eq]
    exact watched
  have ageU : u.time.pulseAge = some (min 65535000 (a + 1)) := by rw [is]
  rw [tickAge_some age is, watching, decide_eq_true old, Bool.and_true, if_pos rfl,
    ← pulseWatchdog_aged ageU (by omega) (by rw [is]; exact watching)]
  rfl

end

end Sys2Proof.TimeValue
end

section
/-! SUPPORT. What a step does: the front command, or on an empty queue the first of the block's own events, or one nanosecond of the
reference clock (entries 1, 3 and 30). -/

namespace Sys2Proof.EventLoop

open Machine PulseDiscipline TimeValue

/-- Settles O1: `step` matches on the queue of commands. -/
theorem stepTakesTheFrontCommand : Obligations.StepTakesTheFrontCommand := fun _ _ _ => rfl

section
variable {s : State}

/-! ## The block's own events, in their order -/

/-- The events that can be the block's own. -/
theorem due_cases {c : Instr} (due : Due s c) : c = .selection ∨ (∃ p, c = .tuneStart p) ∨ (∃ p, c = .sendStart p)
    ∨ c = .faultEntrySubmit ∨ c = .outcomeSubmit ∨ c = .statusSubmit ∨ c = .passingAccessIssue ∨ c = .burstStart := by
  unfold Due at due
  split at due
  case h_1 => exact .inl rfl
  case h_2 => exact .inr (.inl ⟨_, rfl⟩)
  case h_3 => exact .inr (.inr (.inl ⟨_, rfl⟩))
  case h_4 => exact .inr (.inr (.inr (.inl rfl)))
  case h_5 => exact .inr (.inr (.inr (.inr (.inl rfl))))
  case h_6 => exact .inr (.inr (.inr (.inr (.inr (.inl rfl)))))
  case h_7 => exact .inr (.inr (.inr (.inr (.inr (.inr (.inl rfl))))))
  case h_8 => exact .inr (.inr (.inr (.inr (.inr (.inr (.inr rfl))))))
  case h_9 => exact due.elim

/-- A search along the paths finds the lowest that answers. -/
theorem find_of_least {f : PathId → Bool} {P : PathId → Prop} (is : ∀ p, f p = true ↔ P p) {p : PathId} (holds : P p)
    (least : ∀ q, q < p → ¬ P q) : (List.finRange 5).find? f = some p :=
  ((find_first f).1 p).mpr ⟨(is p).mpr holds, fun q lower => Bool.eq_false_iff.mpr (mt (is q).mp (least q lower))⟩

theorem find_of_none {f : PathId → Bool} {P : PathId → Prop} (is : ∀ p, f p = true ↔ P p) (none : ∀ p, ¬ P p) :
    (List.finRange 5).find? f = .none :=
  (find_first f).2.mpr fun p => Bool.eq_false_iff.mpr (mt (is p).mp (none p))

theorem ownEvent_selection (due : Due s .selection) : ownEvent s = some (doSelection s) := by
  rw [ownEvent, if_pos ((nextSelection_iff s).mpr due)]

section
variable (noSelection : ¬ Due s .selection)
include noSelection

theorem ownEvent_tune {p : PathId} (due : Due s (.tuneStart p)) (least : ∀ q, q < p → ¬ Due s (.tuneStart q)) :
    ownEvent s = some (doTuneStart p s) := by
  rw [ownEvent, if_neg (mt (nextSelection_iff s).mp noSelection), find_of_least (tuneDue_iff s) due least]

variable (noTune : ∀ p, ¬ Due s (.tuneStart p))
include noTune

theorem ownEvent_send {p : PathId} (due : Due s (.sendStart p)) (least : ∀ q, q < p → ¬ Due s (.sendStart q)) :
    ownEvent s = some (doSendStart p s) := by
  rw [ownEvent, if_neg (mt (nextSelection_iff s).mp noSelection), find_of_none (tuneDue_iff s) noTune]
  simp only [find_of_least (dueSend_iff s) due least]

variable (noSend : ∀ p, ¬ Due s (.sendStart p))
include noSend

theorem ownEvent_unported : ownEvent s = match nextSubmission s with
    | some t => some t
    | none => if passingNext s then some (doPassingAccessIssue s) else if burstNext s then some (doBurstStart s) else none := by
  rw [ownEvent, if_neg (mt (nextSelection_iff s).mp noSelection), find_of_none (tuneDue_iff s) noTune]
  simp only [find_of_none (dueSend_iff s) noSend] <;> rfl

theorem ownEvent_submission {t : State} (next : nextSubmission s = some t) : ownEvent s = some t := by
  rw [ownEvent_unported noSelection noTune noSend, next]

variable (noSubmission : nextSubmission s = none)
include noSubmission

theorem ownEvent_passing (due : Due s .passingAccessIssue) : ownEvent s = some (doPassingAccessIssue s) := by
  rw [ownEvent_unported noSelection noTune noSend, noSubmission]
  exact if_pos ((passingNext_iff s).mpr due)

variable (noPassing : ¬ Due s .passingAccessIssue)
include noPassing

theorem ownEvent_burst (due : Due s .burstStart) : ownEvent s = some (doBurstStart s) := by
  rw [ownEvent_unported noSelection noTune noSend, noSubmission]
  exact (if_neg (mt (passingNext_iff s).mp noPassing)).trans (if_pos ((burstNext_iff s).mpr due))

theorem ownEvent_none (noBurst : ¬ Due s .burstStart) : ownEvent s = none := by
  rw [ownEvent_unported noSelection noTune noSend, noSubmission]
  exact (if_neg (mt (passingNext_iff s).mp noPassing)).trans (if_neg (mt (burstNext_iff s).mp noBurst))

end

/-! ## The submission that the next free place goes to (R94) -/

theorem nextSubmission_fault (due : Due s .faultEntrySubmit) : nextSubmission s = some (doFaultEntrySubmit s) :=
  if_pos ((faultWins_due s).mpr due)

theorem nextSubmission_outcome (noFault : ¬ Due s .faultEntrySubmit) (due : Due s .outcomeSubmit) :
    nextSubmission s = some (doOutcomeSubmit s) :=
  (if_neg (mt (faultWins_due s).mp noFault)).trans (if_pos ((outcomeWins_due s).mpr due))

theorem nextSubmission_status (noFault : ¬ Due s .faultEntrySubmit) (noOutcome : ¬ Due s .outcomeSubmit) (due : Due s .statusSubmit) :
    nextSubmission s = some (doStatusSubmit s) :=
  (if_neg (mt (faultWins_due s).mp noFault)).trans
    ((if_neg (mt (outcomeWins_due s).mp noOutcome)).trans (if_pos ((statusWins_due s).mpr due)))

theorem nextSubmission_absent (noFault : ¬ Due s .faultEntrySubmit) (noOutcome : ¬ Due s .outcomeSubmit) (noStatus : ¬ Due s .statusSubmit) :
    nextSubmission s = none :=
  (nextSubmission_none s).mpr ⟨Bool.eq_false_iff.mpr (mt (faultWins_due s).mp noFault),
    Bool.eq_false_iff.mpr (mt (outcomeWins_due s).mp noOutcome), Bool.eq_false_iff.mpr (mt (statusWins_due s).mp noStatus)⟩

/-! ## A step on an empty queue -/

theorem step_own (empty : s.pending = []) {t : State} (own : ownEvent s = some t) : step s = .next (settle s t) := by
  rw [step, empty]
  simp only [idle, own]

theorem step_tick (empty : s.pending = []) (still : ownEvent s = none) : step s = .next (tick s) := by
  rw [step, empty]
  simp only [idle, still]

/-- Due event `c` comes first of those due. -/
def Foremost (rank : Instr → Nat) (s : State) (c : Instr) : Prop := Due s c ∧ ∀ d, Due s d → rank c ≤ rank d

theorem Foremost.before {rank : Instr → Nat} {c d : Instr} (first : Foremost rank s c) (lower : rank d < rank c) : ¬ Due s d :=
  fun due => Nat.not_le.mpr lower (first.2 d due)

/-- The order of the block's own events (entry 3). -/
structure Ordered (rank : Instr → Nat) : Prop where
  selection : rank .selection = 0
  ports : ∀ p : PathId, rank (.tuneStart p) = 1 + p.val ∧ rank (.sendStart p) = 6 + p.val
  fault : rank .faultEntrySubmit = 11
  outcome : rank .outcomeSubmit = 12
  status : rank .statusSubmit = 13
  passing : rank .passingAccessIssue = 14
  burst : rank .burstStart = 15

section
variable {rank : Instr → Nat} (order : Ordered rank) {c : Instr} (first : Foremost rank s c)
include order first

theorem Foremost.noSelection (after : 0 < rank c) : ¬ Due s .selection := first.before (by rw [order.selection]; exact after)

theorem Foremost.noTune (after : 5 < rank c) (p : PathId) : ¬ Due s (.tuneStart p) :=
  first.before (by rw [(order.ports p).1]; omega)

theorem Foremost.noSend (after : 10 < rank c) (p : PathId) : ¬ Due s (.sendStart p) :=
  first.before (by rw [(order.ports p).2]; omega)

theorem Foremost.noFault (after : 11 < rank c) : ¬ Due s .faultEntrySubmit := first.before (by rw [order.fault]; exact after)

theorem Foremost.noOutcome (after : 12 < rank c) : ¬ Due s .outcomeSubmit := first.before (by rw [order.outcome]; exact after)

theorem Foremost.noStatus (after : 13 < rank c) : ¬ Due s .statusSubmit := first.before (by rw [order.status]; exact after)

theorem Foremost.noSubmission (after : 13 < rank c) : nextSubmission s = none :=
  nextSubmission_absent (first.noFault order (by omega)) (first.noOutcome order (by omega)) (first.noStatus order after)

/-- The state that the foremost event's row leaves before it settles is that of the block's own event. -/
theorem Foremost.own : ∃ t, ownEvent s = some t ∧ exec c s = .next (settle s t) := by
  rcases due_cases first.1 with rfl | ⟨p, rfl⟩ | ⟨p, rfl⟩ | rfl | rfl | rfl | rfl | rfl
  · exact ⟨_, ownEvent_selection first.1, rfl⟩
  · have ranked := (order.ports p).1
    exact ⟨_, ownEvent_tune (first.noSelection order (by omega)) first.1
      fun q lower => first.before (by rw [ranked, (order.ports q).1]; exact Nat.add_lt_add_left lower 1), rfl⟩
  · have ranked := (order.ports p).2
    exact ⟨_, ownEvent_send (first.noSelection order (by omega)) (first.noTune order (by omega)) first.1
      fun q lower => first.before (by rw [ranked, (order.ports q).2]; exact Nat.add_lt_add_left lower 6), rfl⟩
  · have ranked := order.fault
    exact ⟨_, ownEvent_submission (first.noSelection order (by omega)) (first.noTune order (by omega)) (first.noSend order (by omega))
      (nextSubmission_fault first.1), rfl⟩
  · have ranked := order.outcome
    exact ⟨_, ownEvent_submission (first.noSelection order (by omega)) (first.noTune order (by omega)) (first.noSend order (by omega))
      (nextSubmission_outcome (first.noFault order (by omega)) first.1), rfl⟩
  · have ranked := order.status
    exact ⟨_, ownEvent_submission (first.noSelection order (by omega)) (first.noTune order (by omega)) (first.noSend order (by omega))
      (nextSubmission_status (first.noFault order (by omega)) (first.noOutcome order (by omega)) first.1), rfl⟩
  · have ranked := order.passing
    exact ⟨_, ownEvent_passing (first.noSelection order (by omega)) (first.noTune order (by omega)) (first.noSend order (by omega))
      (first.noSubmission order (by omega)) first.1, rfl⟩
  · have ranked := order.burst
    exact ⟨_, ownEvent_burst (first.noSelection order (by omega)) (first.noTune order (by omega)) (first.noSend order (by omega))
      (first.noSubmission order (by omega)) (first.before (by rw [order.passing]; omega)) first.1, rfl⟩

end

theorem ownEvent_idle (idle : ∀ c, ¬ Due s c) : ownEvent s = none :=
  ownEvent_none (idle _) (fun _ => idle _) (fun _ => idle _) (nextSubmission_absent (idle _) (idle _) (idle _)) (idle _) (idle _)

/-! ## One nanosecond (R62, R77) -/

theorem tickPulses_reference (t : State) : (tickPulses t).time.reference = t.time.reference := by
  rw [tickPulses]
  simp only
  split
  · rw [settle_time]
  · rfl

theorem startNanosecond_eq {u : State} (is : u = { s with
      lines := s.lines.map (fun x => { x with count := x.count.map (fun c => c + 1) })
      time := { s.time with reference := s.time.reference + 1 } }) :
    startNanosecond s = if (s.time.reference + 1) % 1000 = 0 then tickPulses u else u := by
  rw [is]
  rfl

theorem startNanosecond_reference : (startNanosecond s).time.reference = s.time.reference + 1 := by
  rw [startNanosecond_eq rfl, apply_ite State.time, apply_ite TimeBase.reference, tickPulses_reference, ite_self]

/-- The state in which the nanosecond's taps tick. -/
def nanosecondPassed (s : State) : State := settle (startNanosecond s) (advanceTime 1 (startNanosecond s))

theorem nanosecondPassed_reference : (nanosecondPassed s).time.reference = s.time.reference + 1 := by
  rw [nanosecondPassed, settle_time, advanceTime_reference, startNanosecond_reference]

theorem tick_eq : tick s = if (s.time.reference + 1) % 1000 = 0 then tickMicro (nanosecondPassed s) else nanosecondPassed s := by
  rw [← nanosecondPassed_reference]
  rfl

end

/-! ## The statement's parts -/

/-- The advance in one nanosecond, as `advance` says it. -/
theorem advanceTime_one (s : State) (advance : Int → Option Slew → State → State)
    (does : ∀ b w z, advance b w z = advancedTo (carried s.time b w) z) :
    (s.time.value = Config.maxTime → advanceTime 1 s = s)
    ∧ (s.time.value ≠ Config.maxTime →
      (s.time.slew = none → advanceTime 1 s = advance (1000000000 + s.time.trim) none s)
      ∧ ∀ (w : Slew) (shrink : Nat), s.time.slew = some w →
        shrink = (if w.forward then 500000 - s.time.trim else 500000 + s.time.trim).toNat →
        ((shrink = 0 ∨ shrink < w.rest) → advanceTime 1 s
          = advance (1000000000 + if w.forward then 500000 else -500000) (some { w with rest := w.rest - shrink }) s)
        ∧ (0 < shrink → w.rest ≤ shrink → advanceTime 1 s
          = advance (1000000000 + s.time.trim + if w.forward then (w.rest : Int) else -(w.rest : Int)) none (markRecord 6 s))) := by
  refine ⟨advanceTime_full, fun room => ⟨fun still => ?_, fun w shrink slews rate => ?_⟩⟩
  · rw [advanceTime_room_still room still, Nat.cast_one, one_mul, does]
  · rw [← slewShrink_eq] at rate
    subst rate
    refine ⟨fun left => ?_, fun shrinks ends => ?_⟩
    · rw [advanceTime_room_goesOn room slews (by omega), Nat.cast_one, one_mul, one_mul, does, slewRate]
    · rw [advanceTime_room_ends room slews shrinks.ne' (by omega), Nat.cast_one, one_mul, does, markTime]

theorem tickHoldover_second_room {s u : State} {e : Nat} (elapsed : e = min 65535 (s.time.holdoverElapsed + 1))
    (is : u = { s with time := { s.time with holdoverMs := 0, holdoverElapsed := e } }) (state : s.time.state = .holdover)
    (full : 999 ≤ s.time.holdoverMs) :
    (e < s.time.holdoverLimit → tickHoldover s = settle s u)
    ∧ (s.time.holdoverLimit ≤ e → tickHoldover s = settle s (raiseCause 7 { u with time := { u.time with state := .free } })) := by
  have ticks := tickHoldover_second state full
  rw [← elapsed, ← is] at ticks
  have elapsedU : u.time.holdoverElapsed = e := by rw [is]
  have limitU : u.time.holdoverLimit = s.time.holdoverLimit := by rw [is]
  refine ⟨fun early => ?_, fun late => ?_⟩
  · rw [ticks, limitReached_early (by rw [elapsedU, limitU]; exact early)]
  · rw [ticks, limitReached_holdover (by rw [is]; exact state) (by rw [elapsedU, limitU]; exact late)]

theorem tickAge_counts {s u : State} {a : Nat} (age : s.time.pulseAge = some a)
    (is : u = { s with time := { s.time with pulseAge := some (min 65535000 (a + 1)) } })
    (calm : a + 1 < 1500 ∨ s.time.state = .free ∨ s.time.state = .holdover) : tickAge s = u := by
  rw [tickAge_some age is]
  refine if_neg ?_
  rw [Bool.and_eq_true, Bool.or_eq_true, beq_iff_eq, beq_iff_eq, decide_eq_true_iff]
  rintro ⟨watched, old⟩
  rcases calm with young | free | holdover
  · omega
  · rw [free] at watched
    exact absurd watched (by decide)
  · rw [holdover] at watched
    exact absurd watched (by decide)

/-- Settles O56: a row's condition is brought about and then acts as the clock's own tick does; every move of the time value is one
`moveTime`, and on an empty queue the foremost due event is the one `ownEvent` finds. -/
theorem timeBaseEvents : Obligations.TimeBaseEvents := by
  refine ⟨fun s => ⟨fun state => ?_, fun state => ?_, fun state => ?_, fun w n shrink b slews room rate shrinks is moves => ?_,
    fun v is fits => ppsOut_produces is fits⟩, fun s most advance isMost does => ?_, fun s u e elapsed is => ?_,
    fun s => ⟨tickAge_none, fun a u age is => ⟨tickAge_counts age is, tickAge_fires age is⟩⟩,
    fun v s t u => moveTime_spelled v s t u, fun s rank empty selection ports fault outcome status passing burst => ⟨?_, ?_⟩⟩
  · exact endsIn_of_settle _ s s _ _ rfl (congrArg kept (doPulseWatchdog_locked state))
  · exact endsIn_of_settle _ s s _ _ rfl (congrArg kept (doPulseWatchdog_acquire state))
  · exact endsIn_of_settle _ s s _ _ rfl (congrArg kept (doHoldoverLimit_holdover state))
  · exact slewEnd_ends slews room rate shrinks is moves
  · obtain rfl : most = Config.maxTime := isMost
    exact advanceTime_one s advance fun b w z => does b w z _ _ rfl rfl
  · exact ⟨tickHoldover_other, fun state => ⟨tickHoldover_counts state, fun full => (tickHoldover_second_room elapsed is state full).1,
      fun full => (tickHoldover_second_room elapsed is state full).2⟩⟩
  · intro c due least
    have first : Foremost rank s c := ⟨due, least⟩
    obtain ⟨t, own, row⟩ := first.own ⟨selection, ports, fault, outcome, status, passing, burst⟩
    rw [row, step_own empty own]
  · intro still u v w t isU isV isW
    rw [← startNanosecond_eq isU] at isV
    rw [isV] at isW
    obtain rfl : w = nanosecondPassed s := isW
    refine ⟨nanosecondPassed_reference, fun between => ?_, fun tap isT => ?_⟩
    · rw [step_tick empty (ownEvent_idle still), tick_eq, if_neg between]
    · rw [step_tick empty (ownEvent_idle still), tick_eq, if_pos tap, isT]
      rfl

end Sys2Proof.EventLoop
end

section
/-! SUPPORT. The submissions to the report part of the own-write queue, the words of an outcome record, and the dates of the offers
(R90, R94, R110, R178). -/

namespace Sys2Proof.ReportPart

open Machine TimeValue StatusRecords

/-! ## The place goes to one source (R94) -/

section
variable {s : State}

theorem wins_of_full (full : ¬ PlaceFree s) : faultWins s = false ∧ outcomeWins s = false ∧ statusWins s = false := by
  rw [← reportFree_iff] at full
  exact ⟨Bool.eq_false_iff.mpr fun wins => full ((faultWins_iff s).mp wins).1,
    Bool.eq_false_iff.mpr fun wins => full ((outcomeWins_iff s).mp wins).1,
    Bool.eq_false_iff.mpr fun wins => full ((statusWins_iff s).mp wins).1⟩

theorem doStatusSubmit_loses (loses : statusWins s = false) : doStatusSubmit s = s := by
  rw [doStatusSubmit, loses]
  cases statusCandidate s <;> rfl

theorem doOutcomeSubmit_loses (loses : outcomeWins s = false) : doOutcomeSubmit s = s := by
  rw [doOutcomeSubmit, loses]
  cases outcomeCandidate s <;> rfl

theorem doFaultEntrySubmit_loses (loses : faultWins s = false) : doFaultEntrySubmit s = s := by
  rw [doFaultEntrySubmit, loses, if_neg Bool.false_ne_true]

variable (free : PlaceFree s) {k : Nat}
include free

theorem doStatusSubmit_wins {r : RecordId} (offer : StatusOffer s r k) (fault : ∀ j, FaultOffer s j → k < j)
    (outcome : ∀ n j, OutcomeOffer s n j → k < j) : doStatusSubmit s = submitRecord r (microNow s) s := by
  have wins : statusWins s = true := (statusWins_iff s).mpr ⟨(reportFree_iff s).mpr free, r, k, offer, fault, outcome⟩
  rw [doStatusSubmit, ((statusOffer_iff s r k).mp offer).1, wins]
  rfl

theorem doOutcomeSubmit_wins {n : RingId} {o : OutcomeEntry} {rest : List OutcomeEntry} {e : Fin 15} (offer : OutcomeOffer s n k)
    (fault : ∀ j, FaultOffer s j → k < j) (status : ∀ r j, StatusOffer s r j → k ≤ j) (window : windowOf s .outcome n = some e)
    (front : s.outRings[n].outcomes = o :: rest) : doOutcomeSubmit s = submitOutcome n o e s := by
  have wins : outcomeWins s = true := (outcomeWins_iff s).mpr ⟨(reportFree_iff s).mpr free, n, k, offer, fault, status⟩
  rw [doOutcomeSubmit, ((outcomeOffer_iff s n k).mp offer).1, wins]
  simp only [front, window, List.head?_cons, if_true]

theorem doFaultEntrySubmit_wins {f : FaultEntry} {e : Fin 15} (offer : FaultOffer s k) (outcome : ∀ n j, OutcomeOffer s n j → k ≤ j)
    (status : ∀ r j, StatusOffer s r j → k ≤ j) (window : windowOf s .faultLog 0 = some e) (waits : faultWaiting s = some f) :
    doFaultEntrySubmit s = { s with
      log := { s.log with outstanding := markSubmitted s.log.outstanding, since := none }
      mem := { s.mem with queue := s.mem.queue ++ [⟨.fault, e, [(f.address, f.word0), (f.address + 1, f.word1)]⟩] } } := by
  have wins : faultWins s = true := (faultWins_iff s).mpr ⟨(reportFree_iff s).mpr free, k, offer, outcome, status⟩
  rw [doFaultEntrySubmit, if_pos wins, waits, window]
  rfl

end

/-! ## What each submission leaves -/

/-- The marks and the dates are the model's: a record that differs in these alone is kept as the same. -/
theorem kept_onMark (r : RecordId) (f g : StatusMark → StatusMark) (s : State)
    (same : { f s.status.records[r] with changed := false, again := false, since := none }
      = { g s.status.records[r] with changed := false, again := false, since := none }) :
    kept (onMark r f s) = kept (onMark r g s) := by
  have marks : keptMarks (onMark r f s).status.records = keptMarks (onMark r g s).status.records := by
    refine Vector.ext fun i hi => ?_
    by_cases own : r.val = i
    · subst own
      simpa [keptMarks, onMark] using same
    · simp [keptMarks, onMark, own]
  simp only [kept, marks]
  rfl

theorem submitRecord_window {r : RecordId} {tick : Nat} {s : State} {e : Fin 15} (window : windowOf s .status 0 = some e) :
    submitRecord r tick s = onMark r (fun m => { m with updates := m.updates + 1, submitted := some tick, since := none })
      { s with mem := { s.mem with queue := s.mem.queue ++ [⟨.status r, e,
        (List.range (recordLength r)).map fun i => (s.mem.windows[e].base + recordOffset r + i, 0)⟩] } } := by
  rw [submitRecord, window]
  rfl

theorem onMark_self (r : RecordId) (f : StatusMark → StatusMark) (s : State) :
    (onMark r f s).status.records[r] = f s.status.records[r] := Vector.getElem_set_self _

theorem keptMarks_get (v : Vector StatusMark 36) (r : RecordId) :
    (keptMarks v)[r] = { v[r] with changed := false, again := false, since := none } := Vector.getElem_map ..

theorem kept_records (s : State) : (kept s).status.records = keptMarks s.status.records := rfl

/-- What every event brings with it counts no submission. -/
theorem settle_submission (o s : State) (r : RecordId) :
    (settle o s).status.records[r].updates = s.status.records[r].updates
    ∧ (settle o s).status.records[r].submitted = s.status.records[r].submitted := by
  have same : (keptMarks (settle o s).status.records)[r] = (keptMarks s.status.records)[r] := by
    rw [← kept_records, kept_settle, kept_records]
  rw [keptMarks_get, keptMarks_get] at same
  generalize (settle o s).status.records[r] = mark at same ⊢
  rw [StatusMark.mk.injEq] at same
  obtain ⟨-, -, updates, submitted, -⟩ := same
  exact ⟨updates, submitted⟩

theorem markSubmitted_first {f : FaultEntry} {old new : List FaultEntry} (submitted : ∀ x ∈ old, x.submitted = true)
    (waits : f.submitted = false) : markSubmitted (old ++ f :: new) = old ++ { f with submitted := true } :: new := by
  induction old with
  | nil => rw [List.nil_append, markSubmitted, if_neg (by rw [waits]; exact Bool.false_ne_true), List.nil_append]
  | cons x old ih =>
    rw [List.cons_append, markSubmitted, if_pos (submitted x List.mem_cons_self),
      ih fun y inside => submitted y (List.mem_cons_of_mem x inside), List.cons_append]

theorem faultWaiting_first {s : State} {f : FaultEntry} {old new : List FaultEntry} (list : s.log.outstanding = old ++ f :: new)
    (submitted : ∀ x ∈ old, x.submitted = true) (waits : f.submitted = false) : faultWaiting s = some f := by
  rw [faultWaiting, list, List.find?_append, List.find?_eq_none.mpr fun x inside => by rw [submitted x inside]; exact Bool.false_ne_true,
    Option.none_or, List.find?_cons_of_pos (by rw [waits]; rfl)]

section
variable {s : State} {e : Fin 15} {k : Nat} (free : PlaceFree s)
include free

theorem statusSubmit_joins {r : RecordId} (offer : StatusOffer s r k) (fault : ∀ j, FaultOffer s j → k < j)
    (outcome : ∀ n j, OutcomeOffer s n j → k < j) (window : windowOf s .status 0 = some e) :
    EndsIn .statusSubmit s (onMark r (fun k => { k with
        updates := k.updates + 1, submitted := some (s.time.reference / 1000) })
      { s with mem := { s.mem with queue := s.mem.queue ++ [⟨.status r, e,
        (List.range (recordLength r)).map fun i => (s.mem.windows[e].base + recordOffset r + i, 0)⟩] } })
    ∧ ∃ t, exec .statusSubmit s = .next t ∧ t.status.records[r].updates = s.status.records[r].updates + 1
      ∧ t.status.records[r].submitted = some (s.time.reference / 1000) := by
  have does : exec .statusSubmit s = .next (settle s (submitRecord r (microNow s) s)) := by
    rw [← doStatusSubmit_wins free offer fault outcome]
    rfl
  refine ⟨endsIn_of_settle _ s s _ _ does ?_, _, does, ?_, ?_⟩
  · rw [submitRecord_window window]
    exact kept_onMark r _ _ _ rfl
  · rw [(settle_submission ..).1, submitRecord_window window, onMark_self]
  · rw [(settle_submission ..).2, submitRecord_window window, onMark_self]
    rfl

theorem outcomeSubmit_joins {n : RingId} {o : OutcomeEntry} {rest : List OutcomeEntry} (offer : OutcomeOffer s n k)
    (fault : ∀ j, FaultOffer s j → k < j) (status : ∀ r j, StatusOffer s r j → k ≤ j) (window : windowOf s .outcome n = some e)
    (front : s.outRings[n].outcomes = o :: rest) :
    EndsIn .outcomeSubmit s (onOutRing n (fun r => { r with assigned := r.assigned + 1, outcomes := rest })
      { s with mem := { s.mem with queue := s.mem.queue ++ [⟨.outcome n o, e, outcomeWords
        (s.mem.windows[e].base + 4 * (s.outRings[n].assigned.toNat % (s.mem.windows[e].length / 4)))
        (s.outRings[n].assigned.toNat / (s.mem.windows[e].length / 4) % 256) o⟩] } }) := by
  refine endsIn_of_settle _ s s _ _ (congrArg (fun t => Host.Outcome.next (settle s t))
    (doOutcomeSubmit_wins free offer fault status window front)) ?_
  rw [submitOutcome]
  refine WindowTable.kept_onOutRing n _ _ _ ?_
  have others : rest = s.outRings[n].outcomes.drop 1 := by rw [front, List.drop_one, List.tail_cons]
  rw [others]
  rfl

theorem faultEntrySubmit_joins {f : FaultEntry} {old new : List FaultEntry} (offer : FaultOffer s k)
    (outcome : ∀ n j, OutcomeOffer s n j → k ≤ j) (status : ∀ r j, StatusOffer s r j → k ≤ j) (window : windowOf s .faultLog 0 = some e)
    (list : s.log.outstanding = old ++ f :: new) (submitted : ∀ x ∈ old, x.submitted = true) (waits : f.submitted = false) :
    EndsIn .faultEntrySubmit s { s with
      log := { s.log with outstanding := old ++ { f with submitted := true } :: new }
      mem := { s.mem with queue := s.mem.queue ++ [⟨.fault, e, [(f.address, f.word0), (f.address + 1, f.word1)]⟩] } } := by
  refine endsIn_of_settle _ s s _ _ (congrArg (fun t => Host.Outcome.next (settle s t))
    (doFaultEntrySubmit_wins free offer outcome status window (faultWaiting_first list submitted waits))) ?_
  rw [list, markSubmitted_first submitted waits]
  rfl

end

/-! ## The words of an outcome record (Table 12-6) -/

/-- The set of at most two paths that a paths code names. -/
def pathSet (code : Fin 16) : BitVec 5 :=
  ([0, 1, 2, 4, 8, 16, 1 + 2, 1 + 4, 1 + 8, 1 + 16, 2 + 4, 2 + 8, 2 + 16, 4 + 8, 4 + 16, 8 + 16].getD code.val 0 : BitVec 5)

theorem pathsCode_pathSet : ∀ code : Fin 16, pathsCode (pathSet code) = code.val := by decide

/-- Word 0 of an outcome record. -/
def outcomeHeader (lap : Nat) (o : OutcomeEntry) : Word :=
  packWord [(0, lap), (8, o.slot), (18, o.result.code), (21, o.stream.val), (25, bit o.spill), (26, bit o.single), (27, bit o.rain),
    (28, pathsCode o.paths), (32, o.sequence.toNat)]

theorem outcomeWords_eq (base lap : Nat) (o : OutcomeEntry) : outcomeWords base lap o = [(base, outcomeHeader lap o),
    (base + 1, stampWord o.capture), (base + 2, match o.launch with | some st => stampWord st | none => 0), (base + 3, o.tag)] := by
  rw [outcomeWords, outcomeHeader]
  cases o.launch <;> rfl

theorem outcomeHeader_fields {lap : Nat} {o : OutcomeEntry} {code : Fin 16} (small : lap < 256) (slot : o.slot < 1024)
    (paths : o.paths = pathSet code) :
    ((outcomeHeader lap o).extractLsb' 0 8).toNat = lap ∧ ((outcomeHeader lap o).extractLsb' 8 10).toNat = o.slot
    ∧ ((outcomeHeader lap o).extractLsb' 18 3).toNat = o.result.code ∧ ((outcomeHeader lap o).extractLsb' 21 4).toNat = o.stream.val
    ∧ (outcomeHeader lap o).getLsbD 25 = o.spill ∧ (outcomeHeader lap o).getLsbD 26 = o.single
    ∧ (outcomeHeader lap o).getLsbD 27 = o.rain ∧ ((outcomeHeader lap o).extractLsb' 28 4).toNat = code.val
    ∧ (outcomeHeader lap o).extractLsb' 32 32 = o.sequence := by
  have result : o.result.code < 2 ^ 3 := by cases o.result <;> decide
  have named : pathsCode o.paths = code.val := by rw [paths, pathsCode_pathSet]
  have set : pathsCode o.paths < 2 ^ 4 := by rw [named]; exact code.isLt
  have flag : ∀ b : Bool, bit b < 2 ^ 1 := by decide
  have fit : ∀ x ∈ [(0, 8, lap), (8, 10, o.slot), (18, 3, o.result.code), (21, 4, o.stream.val), (25, 1, bit o.spill),
      (26, 1, bit o.single), (27, 1, bit o.rain), (28, 4, pathsCode o.paths), (32, 32, o.sequence.toNat)], x.2.2 < 2 ^ x.2.1 := by
    simpa only [List.forall_mem_cons, List.not_mem_nil, false_implies, implies_true, and_true] using
      ⟨small, slot, result, o.stream.isLt, flag _, flag _, flag _, set, o.sequence.isLt⟩
  have fields := packWord_fields _ fit (by simp)
  simp only [List.forall_mem_cons] at fields
  obtain ⟨f0, f1, f2, f3, f4, f5, f6, f7, f8, -⟩ := fields
  exact ⟨field_toNat small (f0 (by decide)), field_toNat slot (f1 (by decide)), field_toNat result (f2 (by decide)),
    field_toNat (n := 4) o.stream.isLt (f3 (by decide)), field_getLsbD (f4 (by decide)), field_getLsbD (f5 (by decide)),
    field_getLsbD (f6 (by decide)), (field_toNat set (f7 (by decide))).trans named,
    (f8 (by decide)).trans (BitVec.ofNat_toNat ..)⟩

/-! ## The dates of the offers (R94, entry 24) -/

/-- What the dates of the offers are made of, the marks of the records apart. -/
def sources (s : State) : MemoryPath × FaultLog × Vector OutRing 4 × Identity × Nat × TimeBase × Option Nat × Bool
    × Vector (Option Nat × Option Nat) 36 :=
  (s.mem, s.log, s.outRings, s.identity, s.events, s.time, s.status.since, s.status.running,
    s.status.records.map fun m => (m.since, m.submitted))

theorem sources_markRecord (r : RecordId) (s : State) : sources (markRecord r s) = sources s := by
  have records : (markRecord r s).status.records.map (fun m => (m.since, m.submitted))
      = s.status.records.map fun m => (m.since, m.submitted) := by
    refine Vector.ext fun i small => ?_
    by_cases own : r.val = i
    · subst own
      simp [markRecord, onMark]
    · simp [markRecord, onMark, own]
  rw [sources, records]
  rfl

theorem sources_markChanges (o s : State) : sources (markChanges o s) = sources s := by
  rw [markChanges]
  generalize (List.finRange 36).filter _ = changed
  induction changed generalizing s with
  | nil => rfl
  | cons r changed ih => exact (ih _).trans (sources_markRecord r s)

theorem sources_beforeRanking (o s : State) : sources (beforeRanking o s) = sources s := by
  obtain ⟨alarm, announced⟩ := announceRain_eq o (takeInputs (refreshLines s))
  rw [beforeRanking, announced, refreshLines_eq]
  rfl

theorem sources_rerank (s : State) : sources (rerank s) = sources s := by
  obtain ⟨ranking, alarm, pulses, ranked, -⟩ := rerank_eq s
  rw [ranked]
  rfl

theorem sources_alarm (l : Vector Line 8) (s : State) : sources { refreshAlarm s with lines := l } = sources s := rfl

/-- The event as it stands when the offers are dated. -/
def beforeDates (o s : State) : State := markChanges o (refreshLines (refreshAlarm (rerank (beforeRanking o s))))

theorem sources_beforeDates (o s : State) : sources (beforeDates o s) = sources s := by
  rw [beforeDates, sources_markChanges, refreshLines_eq, sources_alarm, sources_rerank, sources_beforeRanking]

theorem settle_dates (o s : State) :
    settle o s = { dateOffers (beforeDates o s) with events := (dateOffers (beforeDates o s)).events + 1 } := by
  have stages : consequences o s = dateOffers (beforeDates o s) := rfl
  rw [settle_eq, stages]

theorem date_eq (s : State) (holds : Bool) (old : Option Nat) {P : Prop} [Decidable P] (is : holds = true ↔ P) :
    date s holds old = if P then some (old.getD s.events) else none := if_congr is rfl rfl

section
variable (s : State)

theorem writerReady_iff : writerReady s = true ↔ s.status.running = true ∧ windowOf s .status 0 ≠ none := by
  rw [writerReady, Bool.and_eq_true, Option.isSome_iff_ne_none]

theorem faultWaiting_iff : (faultWaiting s).isSome = true ↔ ∃ f ∈ s.log.outstanding, f.submitted = false := by
  rw [faultWaiting, List.find?_isSome]
  simp only [Bool.not_eq_true']

theorem ready_iff (n : RingId) : outcomeReady s n = true
    ↔ s.outRings[n].state = .capturing ∧ windowOf s .outcome n ≠ none ∧ s.outRings[n].outcomes ≠ [] := by
  rw [outcomeReady, Bool.and_eq_true, Bool.and_eq_true, beq_iff_eq, Option.isSome_iff_ne_none, Bool.not_eq_true', List.isEmpty_eq_false_iff,
    and_assoc]

theorem recordBusy_iff (r : RecordId) : (!recordBusy s r) = true
    ↔ (∀ e ∈ s.mem.queue, e.source ≠ .status r) ∧ ∀ e, s.mem.burst = some e → e.source ≠ .status r := by
  rw [recordBusy, queuedOrBurst, Bool.not_eq_true', Bool.or_eq_false_iff, List.any_eq_false]
  refine and_congr (by simp only [beq_iff_eq]) ?_
  cases s.mem.burst with
  | none => simp
  | some b => simp

theorem intervalPassed_iff (r : RecordId) : intervalPassed s r = true ↔ r = 35 ∨ s.status.records[r].submitted = none
    ∨ ∃ k, s.status.records[r].submitted = some k ∧ k + s.identity.interval ≤ s.time.reference / 1000 := by
  rw [intervalPassed, Bool.or_eq_true, beq_iff_eq, Fin.ext_iff]
  refine or_congr Iff.rfl ?_
  cases s.status.records[r].submitted with
  | none => simp
  | some k =>
    refine Iff.trans (b := k + s.identity.interval ≤ s.time.reference / 1000) decide_eq_true_iff ?_
    simp

theorem eligible_iff (r : RecordId) : eligible s r = true ↔ s.status.records[r].changed = true
    ∧ (∀ e ∈ s.mem.queue, e.source ≠ .status r) ∧ (∀ e, s.mem.burst = some e → e.source ≠ .status r)
    ∧ (r = 35 ∨ s.status.records[r].submitted = none
      ∨ ∃ k, s.status.records[r].submitted = some k ∧ k + s.identity.interval ≤ s.time.reference / 1000) := by
  rw [eligible, Bool.and_eq_true, Bool.and_eq_true, recordBusy_iff, intervalPassed_iff, and_assoc, and_assoc]

end

theorem dateOffers_record (s : State) (r : RecordId) : (dateOffers s).status.records[r]
    = { s.status.records[r] with since := date s (eligible s r) s.status.records[r].since } := Vector.getElem_ofFn _

theorem dateOffers_ring (s : State) (n : RingId) : (dateOffers s).outRings[n]
    = { s.outRings[n] with since := date s (outcomeReady s n) s.outRings[n].since } := Vector.getElem_ofFn _

theorem windowOf_congr {s x : State} (mem : x.mem = s.mem) (k : WindowKind) (n : RingId) : windowOf x k n = windowOf s k n := by
  rw [windowOf, windowOf, mem]

section
variable {o s t : State} (is : t = settle o s)
include is

/-- The offers are dated from a state that has the sources of `s`. -/
theorem dated_by : ∃ x, sources x = sources s ∧ t = { dateOffers x with events := (dateOffers x).events + 1 } :=
  ⟨beforeDates o s, sources_beforeDates o s, is.trans (settle_dates o s)⟩

theorem dated_writer : t.status.since = (if s.status.running = true ∧ windowOf s .status 0 ≠ none
    then some (s.status.since.getD s.events) else none) := by
  obtain ⟨x, same, rfl⟩ := dated_by is
  simp only [sources, Prod.mk.injEq] at same
  obtain ⟨mem, -, -, -, events, -, since, running, -⟩ := same
  rw [← since, ← running, ← events, ← windowOf_congr mem]
  exact date_eq x _ _ (writerReady_iff x)

theorem dated_log : t.log.since = (if ∃ f ∈ s.log.outstanding, f.submitted = false then some (s.log.since.getD s.events) else none) := by
  obtain ⟨x, same, rfl⟩ := dated_by is
  simp only [sources, Prod.mk.injEq] at same
  obtain ⟨-, log, -, -, events, -⟩ := same
  rw [← log, ← events]
  exact date_eq x _ _ (faultWaiting_iff x)

theorem dated_ring (n : RingId) : t.outRings[n].since
    = if s.outRings[n].state = .capturing ∧ windowOf s .outcome n ≠ none ∧ s.outRings[n].outcomes ≠ []
      then some (s.outRings[n].since.getD s.events) else none := by
  obtain ⟨x, same, rfl⟩ := dated_by is
  simp only [sources, Prod.mk.injEq] at same
  obtain ⟨mem, -, rings, -, events, -⟩ := same
  rw [← rings, ← events, ← windowOf_congr mem]
  exact (congrArg OutRing.since (dateOffers_ring x n)).trans (date_eq x _ _ (ready_iff x n))

theorem dated_record (r : RecordId) {eligible : Prop} (means : eligible ↔ t.status.records[r].changed = true
      ∧ (∀ e ∈ s.mem.queue, e.source ≠ .status r) ∧ (∀ e, s.mem.burst = some e → e.source ≠ .status r)
      ∧ (r = 35 ∨ s.status.records[r].submitted = none
        ∨ ∃ k, s.status.records[r].submitted = some k ∧ k + s.identity.interval ≤ s.time.reference / 1000)) :
    (eligible → t.status.records[r].since = some (s.status.records[r].since.getD s.events))
    ∧ (¬ eligible → t.status.records[r].since = none) := by
  obtain ⟨x, same, rfl⟩ := dated_by is
  simp only [sources, Prod.mk.injEq] at same
  obtain ⟨mem, -, -, identity, events, time, -, -, records⟩ := same
  have record : (x.status.records[r].since, x.status.records[r].submitted)
      = (s.status.records[r].since, s.status.records[r].submitted) := by
    have mapped := congrArg (fun v => v[r]) records
    simpa only [Fin.getElem_fin, Vector.getElem_map] using mapped
  obtain ⟨since, submitted⟩ := Prod.mk.inj record
  have dated : (dateOffers x).status.records[r] = _ := dateOffers_record x r
  change (eligible ↔ (dateOffers x).status.records[r].changed = true ∧ _) at means
  change (eligible → (dateOffers x).status.records[r].since = _) ∧ (¬ eligible → (dateOffers x).status.records[r].since = none)
  rw [dated, ← mem, ← submitted, ← identity, ← time] at means
  rw [dated, ← since, ← events]
  have counts := means.trans (eligible_iff x r).symm
  exact ⟨fun holds => if_pos (counts.mp holds), fun fails => if_neg (mt counts.mpr fails)⟩

end

/-- Settles O57: each submission's row is its source's own entry at the queue's end where the place is its own (`_wins`), and
nothing where it is not (`_loses`); the dates are those of the state in which the event dates them (`dated_by`). -/
theorem submissionsJoinTheReportPart : Obligations.SubmissionsJoinTheReportPart := by
  refine ⟨fun s free isFree => ⟨fun full => ?_, fun r e at0 place offer fault outcome window => ?_,
    fun n e o rest c slots at0 place offer fault status window front isC isSlots => ?_,
    fun e f old new at0 place offer outcome status window list submitted waits => ?_⟩, rfl,
    fun base lap o code small slot paths => ⟨outcomeHeader lap o, outcomeWords_eq base lap o, outcomeHeader_fields small slot paths⟩,
    fun o s t is => ⟨dated_writer is, fun r eligible means => dated_record is r means, dated_log is, dated_ring is⟩⟩
  · obtain ⟨fault, outcome, status⟩ := wins_of_full (s := s) (mt isFree.mpr full)
    exact ⟨endsIn_of_settle _ s s _ _ rfl (congrArg kept (doStatusSubmit_loses status)),
      endsIn_of_settle _ s s _ _ rfl (congrArg kept (doOutcomeSubmit_loses outcome)),
      endsIn_of_settle _ s s _ _ rfl (congrArg kept (doFaultEntrySubmit_loses fault))⟩
  · exact statusSubmit_joins (isFree.mp place) offer fault outcome window
  · rw [isC, isSlots]
    exact outcomeSubmit_joins (isFree.mp place) offer fault status window front
  · exact faultEntrySubmit_joins (isFree.mp place) offer outcome status window list submitted waits

end Sys2Proof.ReportPart
end

section
/-! SUPPORT. The arbiter of the M-port (R96), and what a burst's end and its error release (R97, R84). -/

namespace Sys2Proof.Arbiter

open Machine

section
variable {s : State}

theorem doPassingAccessIssue_waits (waits : ¬ Due s .passingAccessIssue) : doPassingAccessIssue s = s := by
  rw [doPassingAccessIssue, if_neg (mt (passingNext_iff s).mp waits)]

theorem doPassingAccessIssue_issues {x : Access} {rest : List Access} (due : Due s .passingAccessIssue) (front : s.mem.passing = x :: rest) :
    doPassingAccessIssue s = { s with mem := { s.mem with
      passing := rest, runCount := min 4 (s.mem.runCount + 1), answered := some ⟨x, .asMemory⟩ } } := by
  rw [doPassingAccessIssue, if_pos ((passingNext_iff s).mpr due), front]
  rfl

theorem doBurstStart_waits (waits : ¬ Due s .burstStart) : doBurstStart s = s := by
  have idle : burstNext s = false := Bool.eq_false_iff.mpr (mt (burstNext_iff s).mp waits)
  rw [doBurstStart]
  simp only [idle, if_neg Bool.false_ne_true]
  cases s.mem.queue <;> rfl

theorem doBurstStart_starts {e : WriteEntry} {rest : List WriteEntry} (due : Due s .burstStart) (front : s.mem.queue = e :: rest) :
    doBurstStart s = { s with mem := { s.mem with queue := rest, burst := some { e with words := burstWords s e } } } := by
  have next : burstNext s = true := (burstNext_iff s).mpr due
  rw [doBurstStart, front]
  simp only [next, if_true]

/-! ## The M-port is free after a burst -/

/-- What a burst's end or its error releases: the run count returns to 0, and the reads that waited pass in order (R96, R97). -/
theorem released_of_drain {v : State} (line : v.mem.line = s.mem.line) (burst : v.mem.burst = none) (count : v.mem.runCount = 0)
    (passing : v.mem.passing = s.mem.passing) (reads : ∀ x ∈ s.mem.line, x.write = false) :
    (drainLine v).mem.burst = none ∧ (drainLine v).mem.runCount = 0 ∧ (drainLine v).mem.line = []
      ∧ (drainLine v).mem.passing = s.mem.passing ++ s.mem.line := by
  have released := released_reads s.mem.line { v with mem := { v.mem with line := [] } } reads burst rfl
  rw [← line] at released
  change (drainLine v).mem = _ at released
  rw [released, ← passing, ← line]
  exact ⟨burst, count, rfl, rfl⟩

end

theorem burstWritten_mem (e : WriteEntry) (s : State) : (burstWritten e s).mem = s.mem := by
  rw [burstWritten]
  split
  · exact stopDone_mem ..
  · rw [outcomeWritten, flushProgress_mem]
    split <;> rfl
  · exact snapshotProgress_mem ..
  · exact logResetProgress_mem _

/-- The M-port's state without its queue. -/
def unqueuedPort (s : State) : MemoryPath := { s.mem with queue := [] }

theorem unqueuedPort_of_mem {s t : State} (mem : s.mem = t.mem) : unqueuedPort s = unqueuedPort t := by
  rw [unqueuedPort, unqueuedPort, mem]

theorem unqueuedPort_unqueue (f : WriteEntry → Bool) (s : State) : unqueuedPort (unqueue f s) = unqueuedPort s := rfl

/-- An error in a burst takes entries from the queue, and touches nothing else of the M-port. -/
theorem unqueuedPort_burstFailed (e : WriteEntry) (a : Nat) (s : State) : unqueuedPort (burstFailed e a s) = unqueuedPort s := by
  rw [burstFailed]
  split
  · rw [depositFailed, unqueuedPort_of_mem (stopDone_mem ..), unqueuedPort_of_mem (onInRing_mem ..), dropQueued,
      unqueuedPort_of_mem (dropRecords_mem ..), unqueuedPort_unqueue, unqueuedPort_of_mem (dropRecord_mem ..),
      unqueuedPort_of_mem (onInRing_mem ..), unqueuedPort_of_mem (abort_mem ..)]
  · rw [outcomeFailed, unqueuedPort_of_mem (flushHalts_mem ..), unqueuedPort_of_mem (onOutRing_mem ..), unqueuedPort_unqueue,
      unqueuedPort_of_mem (abort_mem ..)]
  · rw [statusFailed, unqueuedPort_of_mem (snapshotLoses_mem ..), unqueuedPort_of_mem (onMark_mem ..)]
    exact (unqueuedPort_unqueue (·.isStatus) _).trans (unqueuedPort_of_mem (abort_mem ..))
  · rw [faultFailed, unqueuedPort_of_mem (logResetProgress_mem _),
      unqueuedPort_of_mem (foldl_mem _ (fun t _ => countLost_mem t) _ _), unqueuedPort_unqueue]
    rfl

section
variable {s : State} {b : WriteEntry} (burst : s.mem.burst = some b) (reads : ∀ x ∈ s.mem.line, x.write = false)
include burst reads

theorem burstEnd_releases : ∃ t, exec .burstEnd s = .next t ∧ t.mem.burst = none ∧ t.mem.runCount = 0 ∧ t.mem.line = []
    ∧ t.mem.passing = s.mem.passing ++ s.mem.line := by
  have mem : (settle s (doBurstEnd s)).mem = (clearBurst s).mem := by
    rw [settle_mem, doBurstEnd, burst, burstWritten_mem]
  refine ⟨drainLine (settle s (doBurstEnd s)), rfl, released_of_drain ?_ ?_ ?_ ?_ reads⟩
  all_goals rw [mem]; rfl

theorem burstError_releases {k : Fin 64} (inside : k.val < b.words.length) : ∃ t, exec (.burstError k) s = .next t
    ∧ t.mem.burst = none ∧ t.mem.runCount = 0 ∧ t.mem.line = [] ∧ t.mem.passing = s.mem.passing ++ s.mem.line := by
  have port : unqueuedPort (settle s (doBurstError k s)) = unqueuedPort (clearBurst s) := by
    rw [unqueuedPort_of_mem (settle_mem ..), doBurstError, burst]
    simp only [List.getElem?_eq_getElem inside]
    exact unqueuedPort_burstFailed ..
  rw [unqueuedPort, unqueuedPort, MemoryPath.mk.injEq] at port
  obtain ⟨-, -, -, -, -, -, none, passing, line, count, -⟩ := port
  refine ⟨drainLine (settle s (doBurstError k s)), rfl, ?_⟩
  generalize settle s (doBurstError k s) = v at line none count passing ⊢
  exact released_of_drain line none count passing reads

end

/-- Settles O58: a row of the arbiter acts exactly when it is due, and a burst's end or error leaves the M-port free for the reads
that waited. -/
theorem arbiterChoosesTheNextUse : Obligations.ArbiterChoosesTheNextUse := by
  intro s
  refine ⟨fun b burst => ⟨?_, ?_⟩, fun x rest free front turn => ?_, fun e rest free front turn => ⟨?_, fun waits => ?_⟩,
    fun x rest e more passing queue run => ?_, fun b burst reads released means => ⟨?_, fun k inside => ?_⟩⟩
  · exact endsIn_of_settle _ s s _ _ rfl (congrArg kept (doPassingAccessIssue_waits fun due => by
      rw [due.1] at burst
      cases burst))
  · exact endsIn_of_settle _ s s _ _ rfl (congrArg kept (doBurstStart_waits fun due => by
      rw [due.1] at burst
      cases burst))
  · exact endsIn_of_settle _ s s _ _ rfl (congrArg kept
      (doPassingAccessIssue_issues ⟨free, front.trans_ne (List.cons_ne_nil _ _), turn⟩ front))
  · refine endsIn_of_settle _ s s _ _ rfl (congrArg kept
      ((doBurstStart_starts ⟨free, front.trans_ne (List.cons_ne_nil _ _), turn⟩ front).trans ?_))
    obtain ⟨source, window, words⟩ := e
    cases source <;> rfl
  · refine endsIn_of_settle _ s s _ _ rfl (congrArg kept (doPassingAccessIssue_waits ?_))
    rintro ⟨-, -, empty | short⟩
    · rw [front] at empty
      cases empty
    · exact turn.elim (Nat.not_le.mpr short) waits
  · refine endsIn_of_settle _ s s _ _ rfl (congrArg kept (doBurstStart_waits ?_))
    rintro ⟨-, -, full | empty⟩
    · exact Nat.not_le.mpr run full
    · rw [passing] at empty
      cases empty
  · obtain ⟨t, ends, free⟩ := burstEnd_releases burst reads
    exact ⟨t, ends, (means t).mpr free⟩
  · obtain ⟨t, ends, free⟩ := burstError_releases burst reads inside
    exact ⟨t, ends, (means t).mpr free⟩

end Sys2Proof.Arbiter
end

section
/-! SUPPORT. A burst without error tells its source (R95, R112, R149, R178, R92), and the command that waits for it (R133, R153, R180,
R93). -/

namespace Sys2Proof.BurstsWritten

open Machine ReportPart

/-! ## The command that waits -/

section
variable {s : State}

theorem waiting_busy {c : Busy} (busy : s.cmd.busy = some c) : waiting s = c.waits := by rw [waiting, busy]

theorem waiting_idle (idle : s.cmd.busy = none) : waiting s = .nothing := by rw [waiting, idle]

theorem complete_idle {r : CommandResult} (idle : s.cmd.busy = none) : complete r s = s := by rw [complete, completeWith, idle]

theorem waitFor_busy {c : Busy} (w : Wait) (busy : s.cmd.busy = some c) : waitFor w s = busyWith c.code c.number w s := by
  rw [waitFor, busy]
  rfl

end

/-- The command in progress at `s`, if `f` says so of what it waits for, completes in `v`. -/
def ending (s : State) (r : CommandResult) (f : Wait → Bool) (v : State) : State :=
  match s.cmd.busy with
  | some c => if f c.waits = true then finished c.code c.number r v else v
  | none => v

section
variable {s v : State} {r : CommandResult} {f : Wait → Bool}

theorem ending_idle (idle : s.cmd.busy = none) : ending s r f v = v := by rw [ending, idle]

theorem ending_busy {c : Busy} (busy : s.cmd.busy = some c) : ending s r f v = if f c.waits = true then finished c.code c.number r v else v := by
  rw [ending, busy]

/-- A completion under a condition on what the command waits for is its end. -/
theorem kept_ending (same : v.cmd = s.cmd) : kept (if f (waiting v) = true then complete r v else v) = kept (ending s r f v) := by
  cases busy : s.cmd.busy with
  | none =>
    have idle : v.cmd.busy = none := by rw [same, busy]
    rw [ending_idle busy, complete_idle idle, ite_self]
  | some c =>
    have busyV : v.cmd.busy = some c := by rw [same, busy]
    rw [ending_busy busy, waiting_busy busyV, apply_ite kept, apply_ite kept, kept_complete r busyV]

theorem ending_onMark (q : RecordId) (g : StatusMark → StatusMark) : ending s r f (onMark q g v) = onMark q g (ending s r f v) := by
  rw [ending, ending]
  split
  · split <;> rfl
  · rfl

end

/-! ## What a burst's end leaves -/

section
variable {s : State} {b : WriteEntry} (burst : s.mem.burst = some b)
include burst

theorem doBurstEnd_writes : doBurstEnd s = burstWritten b (clearBurst s) := by rw [doBurstEnd, burst]

theorem endsAndReleases_burstEnd {t : State} (same : kept (burstWritten b (clearBurst s)) = kept t) : EndsAndReleases .burstEnd s t := by
  refine endsAndReleases_of_drain (v := settle s (doBurstEnd s)) rfl ?_ ?_
  · rw [settle_mem, doBurstEnd_line]
  · rw [kept_settle, doBurstEnd_writes burst, same]

/-- A delivery is counted (R149), and a RING_STOP that waits for it completes (R153). -/
theorem delivery_ends {n : RingId} (source : b.source = .delivery n) : EndsAndReleases .burstEnd s
    (ending s .done (fun w => w == .ringBurst n) (onInRing n (fun r => { r with deposit := r.deposit + 1 }) (clearBurst s))) := by
  refine endsAndReleases_burstEnd burst ?_
  rw [burstWritten, source]
  exact kept_ending (f := fun w => w == .ringBurst n) rfl

end

/-! ## Outcomes (R112, R133) -/

/-- The outcome is counted, and its slot is FREE again if the slot table is still its own (R112, R100). -/
def outcomeTold (n : RingId) (o : OutcomeEntry) (s : State) : State :=
  if o.generation = s.outRings[n].generation then
    onSlot n o.slot (fun x => if o.refusal then { x with refusal := none } else { x with captured := false })
      (onOutRing n (fun r => { r with outcomeCount := r.outcomeCount + 1, written := satInc r.written }) s)
  else onOutRing n (fun r => { r with outcomeCount := r.outcomeCount + 1, written := satInc r.written }) s

theorem outcomeWritten_eq (n : RingId) (o : OutcomeEntry) (s : State) : outcomeWritten n o s = flushProgress n o (outcomeTold n o s) := by
  have current : (s.outRings[n].generation == o.generation) = true ↔ o.generation = s.outRings[n].generation :=
    beq_iff_eq.trans eq_comm
  rw [outcomeWritten, outcomeTold]
  exact congrArg (flushProgress n o) (if_congr current rfl rfl)

theorem outcomeTold_cmd (n : RingId) (o : OutcomeEntry) (s : State) : (outcomeTold n o s).cmd = s.cmd := by
  rw [outcomeTold]
  split <;> rfl

section
variable {n : RingId} {o : OutcomeEntry} {s : State}

theorem flushProgress_apart (apart : ∀ slots, waiting s = .outcomes n slots → o.refusal = true ∨ o.slot ∉ slots) :
    flushProgress n o s = s := by
  rw [flushProgress]
  split
  · next m slots waits =>
    refine if_neg fun counts => ?_
    rw [Bool.and_eq_true, Bool.and_eq_true, beq_iff_eq, Bool.not_eq_true', List.contains_iff_mem] at counts
    obtain ⟨⟨rfl, outcome⟩, inside⟩ := counts
    rcases apart slots waits with refusal | outside
    · rw [outcome] at refusal
      cases refusal
    · exact outside inside
  all_goals rfl

theorem flushProgress_counts {slots : List Nat} (waits : waiting s = .outcomes n slots) (outcome : o.refusal = false)
    (inside : o.slot ∈ slots) : flushProgress n o s
    = if slots.filter (fun k => decide (k ≠ o.slot)) = [] then complete .done s
      else waitFor (.outcomes n (slots.filter (fun k => decide (k ≠ o.slot)))) s := by
  have others : slots.filter (fun k => !(k == o.slot)) = slots.filter (fun k => decide (k ≠ o.slot)) :=
    List.filter_congr fun k _ => by rw [decide_not, beq_eq_decide]
  have counts : (n == n && !o.refusal && slots.contains o.slot) = true := by
    rw [beq_self_eq_true, outcome, List.contains_iff_mem.mpr inside]
    rfl
  rw [flushProgress, waits]
  simp only [counts, if_true, others, List.isEmpty_iff]

end

/-! ## Status records (R178, R180) -/

/-- The mark of a written record stays for a change taken during the burst. -/
def markTold (r : RecordId) (s : State) : State := onMark r (fun m => { m with changed := m.again, again := false }) s

theorem statusWritten_eq (r : RecordId) (s : State) : statusWritten r s = snapshotProgress r (markTold r s) := rfl

theorem kept_markTold (r : RecordId) (s : State) : kept (markTold r s) = kept s := by
  have marks : keptMarks (markTold r s).status.records = keptMarks s.status.records := keptMarks_set _ r _ rfl
  rw [kept, marks]
  rfl

section
variable {r : RecordId} {s : State}

theorem snapshotProgress_apart (apart : ∀ left old, waiting s ≠ .records left old) : snapshotProgress r s = s := by
  rw [snapshotProgress]
  split
  · next left old waits => exact absurd waits (apart left old)
  all_goals rfl

theorem snapshotProgress_counts {left : List RecordId} {old : Option RecordId} (waits : waiting s = .records left old) :
    snapshotProgress r s = if old = some r then waitFor (.records left none) s
      else if left.filter (fun k => decide (k ≠ r)) = [] then complete .done s
      else waitFor (.records (left.filter (fun k => decide (k ≠ r))) old) s := by
  have others : left.filter (fun k => !(k == r)) = left.filter (fun k => decide (k ≠ r)) :=
    List.filter_congr fun k _ => by rw [decide_not, beq_eq_decide]
  rw [snapshotProgress, waits]
  simp only [others, List.isEmpty_iff, beq_iff_eq]

end

/-! ## Fault entries (R92, R93) -/

section
variable {s : State}

theorem logResetProgress_apart (apart : s.log.resetting = false ∨ s.log.outstanding ≠ []) : logResetProgress s = s := by
  refine if_neg fun resets => ?_
  rw [Bool.and_eq_true, List.isEmpty_iff] at resets
  obtain ⟨resetting, empty⟩ := resets
  rcases apart with calm | left
  · rw [calm] at resetting
    cases resetting
  · exact left empty

theorem logResetProgress_acts (resetting : s.log.resetting = true) (empty : s.log.outstanding = []) : logResetProgress s
    = if (fun w => w == Wait.logEntries) (waiting (cleanLog s)) = true then complete .done (cleanLog s) else cleanLog s := by
  rw [logResetProgress, resetting, empty]
  rfl

end

/-! ## The rows -/

section
variable {s : State} {b : WriteEntry} (burst : s.mem.burst = some b)
include burst

section
variable {n : RingId} {o : OutcomeEntry} (source : b.source = .outcome n o)
include source

omit burst in
theorem kept_outcome : kept (burstWritten b (clearBurst s)) = kept (flushProgress n o (outcomeTold n o (clearBurst s))) := by
  rw [burstWritten, source]
  exact congrArg kept (outcomeWritten_eq n o (clearBurst s))

theorem outcome_ends_apart (apart : ∀ c slots, s.cmd.busy = some c → c.waits = .outcomes n slots → o.refusal = true ∨ o.slot ∉ slots) :
    EndsAndReleases .burstEnd s (outcomeTold n o (clearBurst s)) := by
  refine endsAndReleases_burstEnd burst ?_
  rw [kept_outcome source, flushProgress_apart]
  intro slots waits
  rw [waiting, outcomeTold_cmd] at waits
  cases busy : s.cmd.busy with
  | none =>
    have idle : (clearBurst s).cmd.busy = none := busy
    rw [idle] at waits
    cases waits
  | some c =>
    have same : (clearBurst s).cmd.busy = some c := busy
    rw [same] at waits
    exact apart c slots busy waits

theorem outcome_ends_counted {c : Busy} {slots : List Nat} (busy : s.cmd.busy = some c) (waits : c.waits = .outcomes n slots)
    (outcome : o.refusal = false) (inside : o.slot ∈ slots) : EndsAndReleases .burstEnd s
    (if slots.filter (fun k => decide (k ≠ o.slot)) = [] then finished c.code c.number .done (outcomeTold n o (clearBurst s))
      else busyWith c.code c.number (.outcomes n (slots.filter (fun k => decide (k ≠ o.slot)))) (outcomeTold n o (clearBurst s))) := by
  have same : (outcomeTold n o (clearBurst s)).cmd.busy = some c := by
    rw [outcomeTold_cmd]
    exact busy
  refine endsAndReleases_burstEnd burst ?_
  rw [kept_outcome source, flushProgress_counts ((waiting_busy same).trans waits) outcome inside, waitFor_busy _ same,
    apply_ite kept, apply_ite kept, kept_complete .done same]

end

section
variable {r : RecordId} (source : b.source = .status r)
include source

omit burst in
theorem burstWritten_status : burstWritten b (clearBurst s) = snapshotProgress r (markTold r (clearBurst s)) := by
  rw [burstWritten, source]
  exact statusWritten_eq r (clearBurst s)

theorem record_ends_apart (apart : ∀ c left old, s.cmd.busy = some c → c.waits ≠ .records left old) :
    EndsAndReleases .burstEnd s (clearBurst s) := by
  refine endsAndReleases_burstEnd burst ?_
  rw [burstWritten_status source, snapshotProgress_apart, kept_markTold]
  intro left old waits
  cases busy : s.cmd.busy with
  | none =>
    rw [waiting_idle (s := markTold r (clearBurst s)) busy] at waits
    cases waits
  | some c =>
    rw [waiting_busy (s := markTold r (clearBurst s)) busy] at waits
    exact apart c left old busy waits

theorem record_ends_counted {c : Busy} {left : List RecordId} {old : Option RecordId} (busy : s.cmd.busy = some c)
    (waits : c.waits = .records left old) : EndsAndReleases .burstEnd s
    (if old = some r then busyWith c.code c.number (.records left none) (clearBurst s)
      else if left.filter (fun k => decide (k ≠ r)) = [] then finished c.code c.number .done (clearBurst s)
      else busyWith c.code c.number (.records (left.filter (fun k => decide (k ≠ r))) old) (clearBurst s)) := by
  have same : (markTold r (clearBurst s)).cmd.busy = some c := busy
  have waitsTold : ∀ w, kept (busyWith c.code c.number w (markTold r (clearBurst s))) = kept (busyWith c.code c.number w (clearBurst s)) :=
    fun w => kept_markTold r (busyWith c.code c.number w (clearBurst s))
  have finishedTold : kept (finished c.code c.number .done (markTold r (clearBurst s))) = kept (finished c.code c.number .done (clearBurst s)) :=
    kept_markTold r (finished c.code c.number .done (clearBurst s))
  refine endsAndReleases_burstEnd burst ?_
  rw [burstWritten_status source, snapshotProgress_counts ((waiting_busy same).trans waits)]
  simp only [waitFor_busy _ same, apply_ite kept, kept_complete .done same, waitsTold, finishedTold]

end

section
variable (source : b.source = .fault)
include source

/-- The oldest outstanding entry is written (R92). -/
def entryTold (s : State) : State := raiseCause 13 { s with log := { s.log with outstanding := s.log.outstanding.drop 1 } }

omit burst source in
theorem entryTold_log (s : State) : (entryTold s).log = { s.log with outstanding := s.log.outstanding.drop 1 } := rfl

omit burst in
theorem burstWritten_fault : burstWritten b (clearBurst s) = logResetProgress (entryTold (clearBurst s)) := by
  rw [burstWritten, source]
  rfl

theorem fault_ends_apart (apart : s.log.resetting = false ∨ 2 ≤ s.log.outstanding.length) :
    EndsAndReleases .burstEnd s (entryTold (clearBurst s)) := by
  refine endsAndReleases_burstEnd burst ?_
  rw [burstWritten_fault source, logResetProgress_apart]
  rw [entryTold_log]
  refine apart.imp id fun more none => ?_
  have short : s.log.outstanding.length ≤ 1 := List.drop_eq_nil_iff.mp none
  omega

theorem fault_ends_reset (resetting : s.log.resetting = true) (last : s.log.outstanding.length ≤ 1) :
    EndsAndReleases .burstEnd s (ending s .done (fun w => w == .logEntries) (raiseCause 13 { clearBurst s with
      log := { s.log with outstanding := [], state := .ready, entryCount := 0, releaseCount := 0, lost := 0, resetting := false } })) := by
  have none : s.log.outstanding.drop 1 = [] := List.drop_eq_nil_iff.mpr last
  have clean : cleanLog (entryTold (clearBurst s)) = raiseCause 13 { clearBurst s with
      log := { s.log with outstanding := [], state := .ready, entryCount := 0, releaseCount := 0, lost := 0, resetting := false } } := by
    rw [← none]
    rfl
  refine endsAndReleases_burstEnd burst ?_
  rw [burstWritten_fault source, logResetProgress_acts (s := entryTold (clearBurst s)) resetting none, clean]
  exact kept_ending (s := s) (f := fun w => w == .logEntries) rfl

end

end

/-! ## The mark of a written record (R178) -/

/-- The event as it stands when the changed records are marked. -/
def beforeMarks (o s : State) : State := refreshLines (refreshAlarm (rerank (beforeRanking o s)))

theorem beforeMarks_status (o s : State) : (beforeMarks o s).status = s.status := by
  obtain ⟨alarm, announced⟩ := announceRain_eq o (takeInputs (refreshLines s))
  obtain ⟨ranking, alarms, pulses, ranked, -⟩ := rerank_eq (beforeRanking o s)
  rw [beforeMarks, refreshLines_eq, ranked, beforeRanking, announced, refreshLines_eq]
  rfl

theorem markRecords_unlisted (l : List RecordId) (s : State) {r : RecordId} (unlisted : r ∉ l) :
    (l.foldl (fun s r => markRecord r s) s).status.records[r] = s.status.records[r] := by
  induction l generalizing s with
  | nil => rfl
  | cons q l ih =>
    rw [List.mem_cons, not_or] at unlisted
    obtain ⟨other, later⟩ := unlisted
    rw [List.foldl_cons, ih (markRecord q s) later, markRecord_get, if_neg (Ne.symm other)]

theorem dateOffers_changed (w : State) (n : Nat) (r : RecordId) :
    ({ dateOffers w with events := n } : State).status.records[r].changed = w.status.records[r].changed := by
  change (dateOffers w).status.records[r].changed = _
  rw [dateOffers_record]

theorem markChanges_unchanged {o w : State} {r : RecordId} (same : marking w r = marking o r) :
    (markChanges o w).status.records[r] = w.status.records[r] := by
  rw [markChanges]
  refine markRecords_unlisted _ w fun listed => ?_
  rw [List.mem_filter, Bool.not_eq_true', beq_eq_false_iff_ne] at listed
  exact listed.2 same

theorem beforeDates_marks (o s : State) : beforeDates o s = markChanges o (beforeMarks o s) := rfl

/-- A record that shows after an event what it showed before it has the mark that the event's own part left. -/
theorem settle_unmarked {o s : State} {r : RecordId} (same : marking (settle o s) r = marking o r) :
    (settle o s).status.records[r].changed = s.status.records[r].changed := by
  rw [settle_dates, beforeDates_marks] at same ⊢
  rw [StatusRecords.marking_marked] at same
  rw [dateOffers_changed, markChanges_unchanged same, beforeMarks_status]

theorem complete_record {res : CommandResult} {s : State} {r : RecordId} (other : r ≠ 35) :
    (complete res s).status.records[r] = s.status.records[r] := by
  rw [complete, completeWith]
  split
  · rfl
  · simp only
    rw [markRecord_get, if_neg (Ne.symm other)]
    rfl

/-- A SNAPSHOT's progress marks the completion record at most. -/
theorem snapshotProgress_record {q r : RecordId} {s : State} (other : r ≠ 35 ∨ s.cmd.busy = none) :
    (snapshotProgress q s).status.records[r] = s.status.records[r] := by
  rcases other with other | idle
  · rw [snapshotProgress]
    split
    · split
      · rfl
      · simp only
        split
        · exact complete_record other
        · rfl
    all_goals rfl
  · rw [snapshotProgress_apart fun left old waits => by
      rw [waiting_idle idle] at waits
      cases waits]

theorem drainLine_empty {v : State} (empty : v.mem.line = []) : drainLine v = v := by
  have same : { v.mem with line := [] } = v.mem := by rw [← empty]
  rw [drainLine, empty, List.foldl_nil, same]

theorem record_mark_told {s t : State} {b : WriteEntry} {r : RecordId} (burst : s.mem.burst = some b) (source : b.source = .status r)
    (line : s.mem.line = []) (ends : exec .burstEnd s = .next t) (other : r.val < 35 ∨ s.cmd.busy = none)
    (same : marking t r = marking s r) : t.status.records[r].changed = s.status.records[r].again := by
  have does : exec .burstEnd s = .next (settle s (doBurstEnd s)) := by
    rw [← drainLine_empty (v := settle s (doBurstEnd s)) (by rw [settle_mem, doBurstEnd_line, line])]
    rfl
  obtain rfl : settle s (doBurstEnd s) = t := by
    rw [does] at ends
    exact Host.Outcome.next.inj ends
  have unlisted : r ≠ 35 ∨ (markTold r (clearBurst s)).cmd.busy = none := other.imp (fun low => Fin.ne_of_lt low) id
  rw [settle_unmarked same, doBurstEnd_writes burst, burstWritten_status source, snapshotProgress_record unlisted, markTold,
    onMark_self]
  rfl

/-- Settles O59: each source is told by its own `_ends` row, the command that waits ends as `ending` says, and a record's mark is
the one its burst kept apart. -/
theorem burstEndTellsTheSource : Obligations.BurstEndTellsTheSource := by
  refine ⟨fun s u b ended burst isU means => ?_, fun w m addr be d => ⟨rfl, rfl⟩⟩
  obtain rfl : u = clearBurst s := isU
  have ends : ∀ w v, ended w v = ending s .done (fun x => x == w) v := by
    intro w v
    rw [means]
    cases busy : s.cmd.busy with
    | none => rw [ending_idle busy]
    | some c =>
      rw [ending_busy busy]
      exact if_congr beq_iff_eq.symm rfl rfl
  refine ⟨fun n source => ?_, fun n o v source isV => ⟨?_, ?_⟩, fun r source => ⟨?_, ?_, ?_⟩, fun source => ⟨?_, ?_⟩⟩
  · rw [ends]
    exact delivery_ends burst source
  · obtain rfl : v = outcomeTold n o (clearBurst s) := isV
    exact outcome_ends_apart burst source
  · intro c slots left busy waits outcome inside isLeft
    obtain rfl : v = outcomeTold n o (clearBurst s) := isV
    have counted := outcome_ends_counted burst source busy waits outcome inside
    rw [← isLeft] at counted
    refine ⟨fun none => ?_, fun some => ?_⟩
    · rwa [if_pos none] at counted
    · rwa [if_neg some] at counted
  · exact record_ends_apart burst source
  · intro c left old rest busy waits isRest
    have counted := record_ends_counted burst source busy waits
    rw [← isRest] at counted
    refine ⟨fun first => ?_, fun later more => ?_, fun later none => ?_⟩
    · rwa [if_pos first] at counted
    · rwa [if_neg later, if_neg more] at counted
    · rwa [if_neg later, if_pos none] at counted
  · exact fun t line ends other same => record_mark_told burst source line ends other same
  · exact fault_ends_apart burst source
  · intro resetting last
    rw [ends]
    exact fault_ends_reset burst source resetting last

end Sys2Proof.BurstsWritten
end

section
/-! SUPPORT. An error in a burst: ABORT, and the owner halts (R95, Table 5-6, R92, R113, R149, R179). -/

namespace Sys2Proof.BurstErrors

open Machine ReportPart BurstsWritten

/-! ## The report of the abort -/

/-- A fault report concerns the log and the alarm unit only. -/
theorem report_eq (cls : ReportClass) (c : Cause) (m : Master) (a : Nat) (s : State) :
    ∃ log alarm, report cls c m a s = { s with log := log, alarm := alarm } := by
  rw [report]
  split
  · exact ⟨_, _, rfl⟩
  · simp only
    split <;> exact ⟨_, _, rfl⟩

theorem abort_eq (c : Cause) (a : Nat) (s : State) : ∃ log alarm, abort c a s = { s with log := log, alarm := alarm } := by
  obtain ⟨log, alarm, reported⟩ := report_eq .abort c 0 a s
  rw [abort, reported]
  exact ⟨_, _, rfl⟩

theorem abort_cmd (c : Cause) (a : Nat) (s : State) : (abort c a s).cmd = s.cmd := by
  obtain ⟨log, alarm, aborts⟩ := abort_eq c a s
  rw [aborts]

theorem abort_status (c : Cause) (a : Nat) (s : State) : (abort c a s).status = s.status := by
  obtain ⟨log, alarm, aborts⟩ := abort_eq c a s
  rw [aborts]

/-- The last abort is stamped with the time at the event. -/
theorem abort_stamped (c : Cause) (a : Nat) {s v : State} (is : v = report .abort c 0 a s) : abort c a s
    = raiseCause 15 { v with log := { v.log with lastAbort := some ⟨c, a, ⟨s.time.value, s.time.state⟩⟩ } } := by
  have time : v.time = s.time := by
    obtain ⟨log, alarm, reported⟩ := report_eq .abort c 0 a s
    rw [is, reported]
  rw [abort, ← is, ← time]
  rfl

/-! ## Deliveries (R149, R153) -/

theorem onInRing_onInRing (n : RingId) (f g : InRing → InRing) (s : State) :
    onInRing n f (onInRing n g s) = onInRing n (fun r => f (g r)) s := by
  simp [onInRing]

/-- The next position of a ring returns to its last deposit. -/
def withdrawn (n : RingId) (s : State) : State := onInRing n (fun r => { r with assigned := r.deposit }) s

theorem withdrawn_dropRecord (n : RingId) (s : State) : withdrawn n (dropRecord n .stopped s) = dropRecord n .stopped (withdrawn n s) := by
  have raised : ∀ t, withdrawn n (raiseCause (overflowCause n) t) = raiseCause (overflowCause n) (withdrawn n t) := fun _ => rfl
  rw [dropRecord, dropRecord, raised, withdrawn, withdrawn, onInRing_onInRing, onInRing_onInRing]
  rfl

theorem withdrawn_dropRecords (n : RingId) (count : Nat) (s : State) :
    withdrawn n (dropRecords n .stopped count s) = dropRecords n .stopped count (withdrawn n s) := by
  rw [dropRecords, dropRecords]
  exact (List.foldl_hom (withdrawn n) fun t _ => (withdrawn_dropRecord n t).symm).symm

theorem dropRecords_succ (n : RingId) (count : Nat) (s : State) :
    dropRecords n .stopped count (dropRecord n .stopped s) = dropRecords n .stopped (count + 1) s := by
  have first : dropRecords n .stopped count (dropRecord n .stopped s) = dropRecord n .stopped (dropRecords n .stopped count s) := by
    rw [dropRecords, dropRecords]
    exact List.foldl_hom (dropRecord n .stopped) fun _ _ => rfl
  rw [first, dropRecords, dropRecords, List.range_succ, List.foldl_append]
  rfl

theorem dropRecords_cmd (n : RingId) (count : Nat) (s : State) : (dropRecords n .stopped count s).cmd = s.cmd := by
  rw [dropRecords]
  induction List.range count generalizing s with
  | nil => rfl
  | cons _ l ih => exact ih _

/-- The ring halted, and its queued records and the failed one dropped (R149). -/
def ringFailed (n : RingId) (s : State) : State :=
  dropRecords n .stopped ((s.mem.queue.filter (fun e => e.source == .delivery n)).length + 1)
    (onInRing n (fun r => { r with state := .halted, assigned := r.deposit }) (unqueue (fun e => e.source == .delivery n) s))

theorem depositFailed_eq (n : RingId) (s : State) : depositFailed n s
    = if (fun w => w == Wait.ringBurst n) (waiting (ringFailed n s)) = true then complete .halted (ringFailed n s) else ringFailed n s := by
  have halted : withdrawn n (onInRing n (fun r => { r with state := .halted }) (unqueue (fun e => e.source == .delivery n) s))
      = onInRing n (fun r => { r with state := .halted, assigned := r.deposit }) (unqueue (fun e => e.source == .delivery n) s) :=
    onInRing_onInRing ..
  have dropped : withdrawn n (dropQueued n (dropRecord n .stopped (onInRing n (fun r => { r with state := .halted }) s)))
      = ringFailed n s := by
    rw [ringFailed, ← halted, ← withdrawn_dropRecords, ← dropRecords_succ]
    rfl
  rw [← dropped]
  rfl

theorem ringFailed_cmd (n : RingId) (s : State) : (ringFailed n s).cmd = s.cmd := by
  rw [ringFailed, dropRecords_cmd]
  rfl

/-! ## Outcomes (R113, R133) -/

/-- The queued outcomes of ring `n` return to the front of its list, the failed one first, and the ring halts (R113). -/
def listFailed (n : RingId) (o : OutcomeEntry) (back : List OutcomeEntry) (s : State) : State :=
  onOutRing n (fun r => { r with state := .halted, outcomes := o :: (back ++ r.outcomes), assigned := r.outcomeCount })
    (unqueue (fun e => e.outcomeOf n) s)

/-- The wait of an OUT_FLUSH of ring `n`. -/
def flushes (n : RingId) (x : Wait) : Bool := match x with | .outcomes m _ => m == n | _ => false

theorem flushHalts_eq (n : RingId) (s : State) : flushHalts n s
    = if flushes n (waiting s) = true then complete .halted s else s := by
  rw [flushHalts]
  cases waiting s <;> rfl

theorem ending_onOutRing {s v : State} {r : CommandResult} {f : Wait → Bool} (n : RingId) (g : OutRing → OutRing) :
    ending s r f (onOutRing n g v) = onOutRing n g (ending s r f v) := by
  rw [ending, ending]
  split
  · split <;> rfl
  · rfl

theorem kept_outcomeFailed {n : RingId} {o : OutcomeEntry} {s v : State} (same : v.cmd = s.cmd) :
    kept (outcomeFailed n o v) = kept (ending s .halted (flushes n) (listFailed n o (queuedOutcomes v n) v)) := by
  rw [outcomeFailed, flushHalts_eq]
  refine (kept_ending (s := s) (f := flushes n) ?_).trans ?_
  · exact same
  rw [listFailed, ending_onOutRing, ending_onOutRing]
  exact WindowTable.kept_onOutRing n _ _ _ rfl

/-! ## Status records (R179, R180) -/

/-- The wait of a SNAPSHOT. -/
def snaps (x : Wait) : Bool := match x with | .records _ _ => true | _ => false

theorem snapshotLoses_eq (r : CommandResult) (s : State) : snapshotLoses r s
    = if snaps (waiting s) = true then complete r s else s := by
  rw [snapshotLoses]
  cases waiting s <;> rfl

/-- The status writer stopped, its entries out of the queue (R179). -/
def writerFailed (s : State) : State :=
  let t := unqueue (fun e => e.isStatus) s
  { t with status := { t.status with running := false } }

/-- The failed record is marked. -/
def remarked (r : RecordId) (s : State) : State := onMark r (fun m => { m with changed := true, again := false }) s

theorem statusFailed_eq (r : RecordId) (s : State) : statusFailed r s = snapshotLoses .halted (remarked r (writerFailed s)) := rfl

theorem kept_remarked (r : RecordId) (s : State) : kept (remarked r s) = kept s := by
  have marks : keptMarks (remarked r s).status.records = keptMarks s.status.records := keptMarks_set _ r _ rfl
  rw [kept, marks]
  rfl

theorem kept_statusFailed {r : RecordId} {s v : State} (same : v.cmd = s.cmd) :
    kept (statusFailed r v) = kept (ending s .halted snaps (writerFailed v)) := by
  rw [statusFailed_eq, snapshotLoses_eq]
  refine (kept_ending (s := s) (f := snaps) ?_).trans ?_
  · exact same
  rw [remarked, ending_onMark]
  exact kept_remarked r _

theorem keepsMarks_complete (r : CommandResult) (s : State) : KeepsMarks s (complete r s) := by
  rw [complete, completeWith]
  split
  · exact .refl s
  · exact .trans (.of_status rfl) (keepsMarks_markRecord 35 _)

theorem complete_running (r : CommandResult) (s : State) : (complete r s).status.running = s.status.running := by
  rw [complete, completeWith]
  split <;> rfl

theorem keepsMarks_snapshotLoses (r : CommandResult) (s : State) : KeepsMarks s (snapshotLoses r s) := by
  rw [snapshotLoses_eq]
  split
  · exact keepsMarks_complete r s
  · exact .refl s

theorem snapshotLoses_running (r : CommandResult) (s : State) : (snapshotLoses r s).status.running = s.status.running := by
  rw [snapshotLoses_eq, apply_ite State.status, apply_ite StatusWriter.running, complete_running, ite_self]

theorem remarked_changed (r q : RecordId) (s : State) : (remarked r s).status.records[q].changed
    = if r = q then true else s.status.records[q].changed := by
  by_cases own : r = q
  · subst own
    rw [remarked, onMark_self, if_pos rfl]
  · have apart : r.val ≠ q.val := fun same => own (Fin.ext same)
    rw [if_neg own]
    exact congrArg StatusMark.changed (Vector.getElem_set_ne r.isLt q.isLt apart)

theorem statusFailed_running (r : RecordId) (s : State) : (statusFailed r s).status.running = false := by
  rw [statusFailed_eq, snapshotLoses_running]
  rfl

theorem statusFailed_marked (r : RecordId) (s : State) : (statusFailed r s).status.records[r].changed = true :=
  (keepsMarks_snapshotLoses .halted (remarked r (writerFailed s)) r).1 (by rw [remarked_changed, if_pos rfl])

theorem statusFailed_keeps {r q : RecordId} {s : State} (marked : s.status.records[q].changed = true) :
    (statusFailed r s).status.records[q].changed = true := by
  refine (keepsMarks_snapshotLoses .halted (remarked r (writerFailed s)) q).1 ?_
  rw [remarked_changed]
  split
  · rfl
  · exact marked

theorem dateOffers_running (s : State) (n : Nat) : ({ dateOffers s with events := n } : State).status.running = s.status.running := by
  simp only [dateOffers]

theorem settle_running (o s : State) : (settle o s).status.running = s.status.running := by
  generalize is : settle o s = t
  obtain ⟨x, same, rfl⟩ := dated_by is.symm
  simp only [sources, Prod.mk.injEq] at same
  obtain ⟨-, -, -, -, -, -, -, running, -⟩ := same
  exact (dateOffers_running ..).trans running

/-! ## Fault entries (R92, R93) -/

/-- So many entries are counted lost. -/
def countLosts (count : Nat) (s : State) : State := (List.range count).foldl (fun t _ => countLost t) s

/-- The date of the fault log's offer is dropped. -/
def undated (s : State) : State := { s with log := { s.log with since := none } }

theorem kept_undated (s : State) : kept (undated s) = kept s := rfl

theorem countLosts_undated (count : Nat) (s : State) : countLosts count (undated s) = undated (countLosts count s) := by
  rw [countLosts, countLosts]
  exact List.foldl_hom undated fun _ _ => rfl

/-- What is not counted stays. -/
theorem countLosts_keeps (count : Nat) (s : State) : (countLosts count s).cmd = s.cmd
    ∧ (countLosts count s).log.resetting = s.log.resetting ∧ (countLosts count s).log.outstanding = s.log.outstanding := by
  rw [countLosts]
  induction List.range count generalizing s with
  | nil => exact ⟨rfl, rfl, rfl⟩
  | cons _ l ih => exact ih _

/-- Every outstanding entry is removed and counted lost, and the log has failed (R92). -/
def logFailed (a : Nat) (s : State) : State :=
  countLosts s.log.outstanding.length (unqueue (fun e => e.source == .fault) (raiseCause 15 { s with log := { s.log with
    state := .failed, outstanding := [], lastAbort := some ⟨.faultError, a, ⟨s.time.value, s.time.state⟩⟩ } }))

theorem faultFailed_eq (a : Nat) (s : State) : faultFailed a s = logResetProgress (undated (logFailed a s)) := by
  rw [logFailed, ← countLosts_undated]
  rfl

theorem ending_undated {s v : State} {r : CommandResult} {f : Wait → Bool} : ending s r f (undated v) = undated (ending s r f v) := by
  rw [ending, ending]
  split
  · split <;> rfl
  · rfl

section
variable {a : Nat} {s v : State}

theorem logFailed_keeps (a : Nat) (v : State) : (logFailed a v).cmd = v.cmd ∧ (logFailed a v).log.resetting = v.log.resetting
    ∧ (logFailed a v).log.outstanding = [] :=
  countLosts_keeps v.log.outstanding.length _

theorem kept_faultFailed_calm (calm : v.log.resetting = false) : kept (faultFailed a v) = kept (logFailed a v) := by
  obtain ⟨-, resetting, -⟩ := logFailed_keeps a v
  rw [faultFailed_eq, logResetProgress_apart (s := undated (logFailed a v)) (.inl (resetting.trans calm)), kept_undated]

theorem kept_faultFailed_reset (resets : v.log.resetting = true) (same : v.cmd = s.cmd) :
    kept (faultFailed a v) = kept (ending s .done (fun w => w == .logEntries) (cleanLog (logFailed a v))) := by
  obtain ⟨cmd, resetting, outstanding⟩ := logFailed_keeps a v
  have commutes : cleanLog (undated (logFailed a v)) = undated (cleanLog (logFailed a v)) := rfl
  rw [faultFailed_eq, logResetProgress_acts (s := undated (logFailed a v)) (resetting.trans resets) outstanding, commutes]
  refine (kept_ending (s := s) (f := fun w => w == .logEntries) ?_).trans ?_
  · exact cmd.trans same
  rw [ending_undated, kept_undated]

end

/-! ## The rows -/

section
variable {s : State} {b : WriteEntry} {k : Fin 64} {a : Nat} {w : Word} (burst : s.mem.burst = some b) (word : b.words[k.val]? = some (a, w))
include burst word

theorem doBurstError_fails : doBurstError k s = burstFailed b a (clearBurst s) := by
  rw [doBurstError, burst]
  simp only [word]

theorem endsAndReleases_burstError {t : State} (same : kept (burstFailed b a (clearBurst s)) = kept t) :
    EndsAndReleases (.burstError k) s t := by
  refine endsAndReleases_of_drain (v := settle s (doBurstError k s)) rfl ?_ ?_
  · rw [settle_mem, doBurstError_line]
  · rw [kept_settle, doBurstError_fails burst word, same]

theorem delivery_fails {n : RingId} (source : b.source = .delivery n) : EndsAndReleases (.burstError k) s
    (ending s .halted (fun x => x == .ringBurst n) (ringFailed n (abort .depositError a (clearBurst s)))) := by
  refine endsAndReleases_burstError burst word ?_
  rw [burstFailed, source]
  simp only [depositFailed_eq]
  refine kept_ending (f := fun x => x == .ringBurst n) ?_
  rw [ringFailed_cmd, abort_cmd]
  rfl

theorem outcome_fails {n : RingId} {o : OutcomeEntry} (source : b.source = .outcome n o) : EndsAndReleases (.burstError k) s
    (ending s .halted (flushes n) (listFailed n o (queuedOutcomes s n) (abort .outcomeError a (clearBurst s)))) := by
  have queued : queuedOutcomes (abort .outcomeError a (clearBurst s)) n = queuedOutcomes s n := by
    rw [queuedOutcomes, abort_mem]
    rfl
  refine endsAndReleases_burstError burst word ?_
  rw [burstFailed, source, ← queued]
  exact kept_outcomeFailed (abort_cmd ..)

theorem status_fails {r : RecordId} (source : b.source = .status r) : EndsAndReleases (.burstError k) s
    (ending s .halted snaps (writerFailed (abort .statusError a (clearBurst s)))) := by
  refine endsAndReleases_burstError burst word ?_
  rw [burstFailed, source]
  exact kept_statusFailed (abort_cmd ..)

theorem status_leaves {r : RecordId} (source : b.source = .status r) : ∃ t, Leaves (.burstError k) s t ∧ t.status.running = false
    ∧ t.status.records[r].changed = true
    ∧ ∀ q : RecordId, s.status.records[q].changed = true → t.status.records[q].changed = true := by
  have fails : doBurstError k s = statusFailed r (abort .statusError a (clearBurst s)) := by
    rw [doBurstError_fails burst word, burstFailed, source]
  have kept := keepsMarks_settle s (doBurstError k s)
  refine ⟨settle s (doBurstError k s), leaves_of_drain rfl ?_ (.inr ⟨k, rfl⟩), ?_, (kept r).1 ?_, fun q marked => (kept q).1 ?_⟩
  · rw [settle_mem, doBurstError_line]
  · rw [settle_running, fails, statusFailed_running]
  · rw [fails, statusFailed_marked]
  · rw [fails]
    refine statusFailed_keeps ?_
    rw [abort_status]
    exact marked

theorem fault_fails_calm (source : b.source = .fault) (calm : s.log.resetting = false) :
    EndsAndReleases (.burstError k) s (logFailed a (clearBurst s)) := by
  refine endsAndReleases_burstError burst word ?_
  rw [burstFailed, source]
  exact kept_faultFailed_calm calm

theorem fault_fails_reset (source : b.source = .fault) (resets : s.log.resetting = true) : EndsAndReleases (.burstError k) s
    (ending s .done (fun x => x == .logEntries) (cleanLog (logFailed a (clearBurst s)))) := by
  refine endsAndReleases_burstError burst word ?_
  rw [burstFailed, source]
  exact kept_faultFailed_reset resets rfl

end

/-- Settles O60: each owner halts by its own `_fails` row, after the abort's report (`abort_stamped`), and the command that waits ends
as `ending` says. -/
theorem burstErrorHaltsTheOwner : Obligations.BurstErrorHaltsTheOwner := by
  intro s u b k a w ab without ended burst word isU isAbort isWithout means
  obtain rfl : u = clearBurst s := isU
  have aborts : ∀ c, ab c = abort c a (clearBurst s) := fun c => (isAbort c _ rfl).trans (abort_stamped c a rfl).symm
  have ends : ∀ r f v, ended r f v = ending s r f v := by
    intro r f v
    rw [means]
    cases busy : s.cmd.busy with
    | none => rw [ending_idle busy]
    | some c => rw [ending_busy busy]
  refine ⟨fun n source => ?_, fun n o back source isBack => ?_, fun r source v isV => ⟨?_, status_leaves burst word source⟩,
    fun source v isV => ⟨fun calm => ?_, fun resets => ?_⟩⟩
  · rw [ends, isWithout, aborts]
    have queue : (abort .depositError a (clearBurst s)).mem = (clearBurst s).mem := abort_mem ..
    have fails := delivery_fails burst word source
    rw [ringFailed, queue] at fails
    exact fails
  · rw [ends, isWithout, aborts]
    have queued : queuedOutcomes s n = back := by
      rw [isBack, queuedOutcomes]
      refine congrArg (fun g => s.mem.queue.filterMap g) (funext fun e => ?_)
      cases e.source with
      | outcome m x => exact if_congr beq_iff_eq rfl rfl
      | delivery m => rfl
      | status r => rfl
      | fault => rfl
    have fails := outcome_fails burst word source
    rw [queued] at fails
    have waits : (fun x => match x with | .outcomes m _ => m == n | _ => false) = flushes n := by
      funext x
      cases x <;> rfl
    have owned : (fun e : WriteEntry => match e.source with | .outcome m _ => m == n | _ => false) = fun e => e.outcomeOf n := by
      funext e
      rw [WriteEntry.outcomeOf]
      cases e.source <;> rfl
    rw [listFailed, ← waits, ← owned] at fails
    exact fails
  · rw [ends, isV, isWithout, aborts]
    have fails := status_fails burst word source
    have waits : (fun x => match x with | .records _ _ => true | _ => false) = snaps := by
      funext x
      cases x <;> rfl
    have owned : (fun e : WriteEntry => match e.source with | .status _ => true | _ => false) = fun e => e.isStatus := by
      funext e
      rw [WriteEntry.isStatus]
      cases e.source <;> rfl
    rw [writerFailed, ← waits, ← owned] at fails
    exact fails
  · rw [isV, isWithout]
    exact fault_fails_calm burst word source calm
  · rw [ends, isV, isWithout]
    exact fault_fails_reset burst word source resets

end Sys2Proof.BurstErrors
end
